-- ==== Sys2Proof/Word.lean ====
section
/-! DEFINITION. The word types of the Cinmast 2460 and their plainest arithmetic. Bit vectors stand only for what
the manual treats as bits: characters of the link, readings of the 32-bit uptime clock, and sets whose bits the
host sees (zone sets, sector sets, fault sets). Counts, durations, distances and velocities are `Nat`. -/

namespace Sys2Proof

/-- One character of the link, or one byte of a message or record. -/
abbrev Byte := BitVec 8

/-- A reading of the uptime clock: milliseconds since power-on, 32 bits wide, wrapping (00_scope, "Time"). -/
abbrev Instant := BitVec 32

/-- A zone set: bit n−1 stands for Zn (R181). -/
abbrev ZoneSet := BitVec 16

/-- A sector set: bit n−1 stands for Sn (R181); only the six sectors S1 to S6 exist. -/
abbrev SectorSet := BitVec 6

/-- The fault set of one object: bit f−1 stands for fault code f (R181). -/
abbrev FaultSet := BitVec 16

/-- The PAYLOAD characters of a frame (R152). -/
abbrev Payload := List Byte

/-- Detector channels D1 to D24; the index is the number less one. -/
abbrev DetNo := Fin 24

/-- Lines L1 to L8, and with the same number their stations and velocity meters. -/
abbrev LineNo := Fin 8

/-- Fire inputs F1 to F16. -/
abbrev InputNo := Fin 16

/-- Zones Z1 to Z16. -/
abbrev ZoneNo := Fin 16

/-- Closures C1 to C16. -/
abbrev ClosureNo := Fin 16

/-- Siren sectors S1 to S6. -/
abbrev SectorNo := Fin 6

/-- Siren patterns P1 to P8. -/
abbrev PatternNo := Fin 8

/-- A vector made from a list-valued table, written over lists so that it can be evaluated by the kernel. -/
def tabulate {α : Type} {n : Nat} (f : Fin n → α) : Vector α n :=
  ⟨⟨(List.finRange n).map f⟩, by simp⟩

end Sys2Proof
end

