-- ==== Sys2Proof/Config.lean ====
section
/-! DEFINITION. What the implementation fixes: the capacities the manual gives, the constants of one chip that the
manual leaves open, and the free values. A free value is an `opaque` constant with no body: nothing in Lean can
evaluate it, so a claim holds whatever it is. The model applies it to the plain counter `State.freeCount`. -/

namespace Sys2Proof.Config

/-- Part code returned by IDENT (R162). -/
def partCode : Nat := 2460

/-- The silicon revision, 1 to 255, less one: IDENT returns it and no rule fixes it (R162). Log entry 6. -/
opaque siliconRevisionLessOne : Fin 255

/-- Capacity of the alarm queue (00_scope "Figures at a glance", R161). -/
def alarmCapacity : Nat := 16

/-- Capacity of the notice queue (R161). -/
def noticeCapacity : Nat := 32

/-- Entries of the inbound buffer (R155). -/
def bufferCapacity : Nat := 4

/-- Records of the history ring (R167). -/
def historyCapacity : Nat := 512

/-- Entries of the disablement table (R139). -/
def tableCapacity : Nat := 32

/-- Windows of one station's list (R35). -/
def windowCapacity : Nat := 4

/-- Largest frame payload (R152). -/
def maxPayload : Nat := 120

/-- FREE VALUE. Which of several internal events due at one instant is taken first, where the manual says that
either may be (log entry 3): applied to the free-value counter, reduced modulo the number of events due. -/
opaque freeChoice : Nat → Nat

/-- FREE VALUE. The level the loop converter returns at a sample end that the clock itself brings (log entry 4). -/
opaque freeLevel : Nat → Fin 16

/-- FREE VALUE. Whether a section write that the clock itself ends reads back as written (log entry 4). -/
opaque freeWriteGood : Nat → Bool

/-- FREE VALUE. Where a zone reaching FIRE comes to one line both as a trip and through a damper's release,
whether the trip is taken first (R92: "Either may be taken first"; log entry 5). -/
opaque freeTripFirst : Nat → Bool

end Sys2Proof.Config
end

