-- ==== Sys2Proof/Syntax.lean ====
section
/-! DEFINITION. The commands of the Cinmast 2460, one constructor per row of spec/opcode_table.json. The part is a
block, not a processor: a command is one indivisible step of the part (95_what_each_step_holds), namely an event on
a pin, an event of the link, a request taken from the link, or the reaching of an instant that the part itself
timed. Requests carry their payload characters as received, because a request is decoded from its payload at the
instant of taking (R183) and a payload of the wrong length is refused then (R156). -/

namespace Sys2Proof

/-- The two limit inputs of a closure (R103): COPENn and CSHUTn. -/
inductive Limit where
  | openLimit
  | shutLimit
  deriving DecidableEq, Repr

/-- A character as it arrives on LRX (R153): its eight bits, and whether its stop bit was faulty. -/
structure Received where
  byte : Byte
  fault : Bool
  deriving DecidableEq, Repr

/-- The targets a disablement entry may name (R139). -/
inductive Target where
  | detector (d : DetNo)
  | fireInput (f : InputNo)
  | station (n : LineNo)
  | closure (c : ClosureNo)
  | sector (n : SectorNo)
  deriving DecidableEq, Repr

/-- The commands: one constructor per row of spec/opcode_table.json, in the table's order. -/
inductive Instr where
  /-- POWER_ON_RESET (R166): supply comes up. -/
  | powerOnReset
  /-- RESET_INPUT (R165): RSTIN becomes active. -/
  | resetInput
  /-- SERVICE_CHANGE (R140): the SERVICE input changes to the level given. -/
  | serviceChange (active : Bool)
  /-- INBOUND_FRAME_COMPLETE (R155): the last character of a frame has arrived on LRX. `body` is KIND and
  PAYLOAD, so that LEN is its length, and `check` is the check value received. -/
  | inboundFrameComplete (body : Payload) (check : BitVec 16)
  /-- HOST_HOLD (R158): a good HOLD frame of LEN 1 has arrived. -/
  | hostHold
  /-- HOST_GO (R158): a good GO frame of LEN 1 has arrived. -/
  | hostGo
  /-- INTER_BYTE_GAP_TIMEOUT (R153). -/
  | interByteGapTimeout
  /-- FRAME_ERROR (R156): an error entry is taken. -/
  | frameError
  /-- UNKNOWN_KIND (R156): a request whose KIND names no request is taken. -/
  | unknownKind (kind : Byte) (payload : Payload)
  /-- TRANSMIT_FRAME_END (R159). -/
  | transmitFrameEnd
  /-- IDENT (R162). -/
  | ident (payload : Payload)
  /-- STATUS (R163). -/
  | status (payload : Payload)
  /-- READ_OBJECT (R164): object kind, number. -/
  | readObject (payload : Payload)
  /-- RESTART (R165). -/
  | restart (payload : Payload)
  /-- START_LINE (R59): line. -/
  | startLine (payload : Payload)
  /-- STOP_LINE (R61): line. -/
  | stopLine (payload : Payload)
  /-- RESET_LINE (R75): line. -/
  | resetLine (payload : Payload)
  /-- RESET_STATION (R50): line. -/
  | resetStation (payload : Payload)
  /-- FLOOD_STATION (R51): line, seconds. -/
  | floodStation (payload : Payload)
  /-- RESET_ZONE (R93): zone. -/
  | resetZone (payload : Payload)
  /-- READ_CAUSES (R95): zone, first, count. -/
  | readCauses (payload : Payload)
  /-- SET_SHIFT (R98): mode. -/
  | setShift (payload : Payload)
  /-- RELEASE_CLOSURE (R115): closure. -/
  | releaseClosure (payload : Payload)
  /-- RESET_CLOSURE (R116): closure. -/
  | resetClosure (payload : Payload)
  /-- SILENCE_SECTOR (R130): sector. -/
  | silenceSector (payload : Payload)
  /-- TEST_SECTOR (R132): sector, pattern, seconds. -/
  | testSector (payload : Payload)
  /-- DISABLE_PREPARE (R141): target kind, target number, limit (2). -/
  | disablePrepare (payload : Payload)
  /-- DISABLE_CONFIRM (R143): target kind, target number. -/
  | disableConfirm (payload : Payload)
  /-- ENABLE (R147): target kind, target number. -/
  | enable (payload : Payload)
  /-- CLEAR_DISABLE_ERROR (R145). -/
  | clearDisableError (payload : Payload)
  /-- LIST_DISABLEMENTS (R150): first, count. -/
  | listDisablements (payload : Payload)
  /-- READ_HISTORY (R168): first (4), count. -/
  | readHistory (payload : Payload)
  /-- READ_SETTING (R172): section, index, field. -/
  | readSetting (payload : Payload)
  /-- WRITE_SETTING (R171): section, index, field, value (4). -/
  | writeSetting (payload : Payload)
  /-- SAVE_SETTINGS (R173). -/
  | saveSettings (payload : Payload)
  /-- LOCK_SECTION (R174): section. -/
  | lockSection (payload : Payload)
  /-- LOAD_DEFAULTS (R175): section. -/
  | loadDefaults (payload : Payload)
  /-- SECTION_WRITE_END (R173): the write of a section ends, good or failed. -/
  | sectionWriteEnd (good : Bool)
  /-- SAMPLE_START (R2). -/
  | sampleStart (d : DetNo)
  /-- SAMPLE_END (R4): the converter returns `level`. -/
  | sampleEnd (d : DetNo) (level : Fin 16)
  /-- PULSE_LEADING_EDGE (R7). -/
  | pulseLeadingEdge (d : DetNo)
  /-- PULSE_TRAILING_EDGE (R8). -/
  | pulseTrailingEdge (d : DetNo)
  /-- GLARE_LIMIT_REACHED (R9). -/
  | glareLimitReached (d : DetNo)
  /-- GLARE_CLEARED (R10). -/
  | glareCleared (d : DetNo)
  /-- CANDIDATE_EXPIRED (R14). -/
  | candidateExpired (d : DetNo)
  /-- VELOCITY_PULSE (R21). -/
  | velocityPulse (n : LineNo)
  /-- GATE_END (R21). -/
  | gateEnd (n : LineNo)
  /-- WINDOW_START (R41). -/
  | windowStart (n : LineNo)
  /-- WINDOW_END (R40). -/
  | windowEnd (n : LineNo)
  /-- WCONF_ACTIVE (R44). -/
  | wconfActive (n : LineNo)
  /-- WCONF_INACTIVE (R45). -/
  | wconfInactive (n : LineNo)
  /-- CONFIRM_TIMER_EXPIRED (R47). -/
  | confirmTimerExpired (n : LineNo)
  /-- START_TIMER_EXPIRED (R60). -/
  | startTimerExpired (n : LineNo)
  /-- ABORT_DWELL_EXPIRED (R67). -/
  | abortDwellExpired (n : LineNo)
  /-- GATE_TIMER_EXPIRED (R66). -/
  | gateTimerExpired (n : LineNo)
  /-- RUNDOWN_TIMER_EXPIRED (R73). -/
  | rundownTimerExpired (n : LineNo)
  /-- BLIND_TIMER_EXPIRED (R72). -/
  | blindTimerExpired (n : LineNo)
  /-- COUNTING_WINDOW_EXPIRED (R62). -/
  | countingWindowExpired (n : LineNo)
  /-- FSTOP_ACTIVE (R73): FSTOPn changes to the level given. The row names the change to active; the change to
  inactive, which only moves the level that other rules read, comes by the same constructor (log entry 7). -/
  | fstopActive (n : LineNo) (active : Bool)
  /-- GOPEN_ACTIVE (R66): GOPENn changes to the level given (log entry 7). -/
  | gopenActive (n : LineNo) (active : Bool)
  /-- FIRE_INPUT_EDGE (R86): the raw input changes to the level given. -/
  | fireInputEdge (f : InputNo) (active : Bool)
  /-- DEBOUNCE_TIMER_EXPIRED (R86). -/
  | debounceTimerExpired (f : InputNo)
  /-- SPARK_HOLD_EXPIRED (R84). -/
  | sparkHoldExpired (d : DetNo)
  /-- CLOSURE_LIMIT_CHANGE (R103): one limit input changes to the level given. -/
  | closureLimitChange (c : ClosureNo) (limit : Limit) (active : Bool)
  /-- TRAVEL_TIMER_EXPIRED (R110). -/
  | travelTimerExpired (c : ClosureNo)
  /-- WAIT_TIMER_EXPIRED (R109). -/
  | waitTimerExpired (c : ClosureNo)
  /-- PHASE_END (R125). -/
  | phaseEnd (n : SectorNo)
  /-- TEST_END (R133). -/
  | testEnd (n : SectorNo)
  /-- PREPARE_EXPIRED (R142). -/
  | prepareExpired
  /-- ENTRY_EXPIRED (R148). -/
  | entryExpired (t : Target)
  /-- CHARACTER_RECEIVED (R153): a character arrives on LRX. -/
  | characterReceived (c : Received)
  deriving DecidableEq, Repr

end Sys2Proof
end

