-- ==== Sys2Proof/WellFormed.lean ====
section
/-! DEFINITION. Which commands can occur: what the link can carry as a payload (R152), and which kinds are requests
(section 11.3). The ranges of object numbers are the operands' types, so no check of them stands here. Every command
has its meaning whether well-formed or not; `WellFormed` says which ones the outside can send. -/

namespace Sys2Proof

/-- The KIND codes of the requests (section 11.3). -/
def requestKinds : List Nat :=
  [0x01, 0x02, 0x03, 0x04, 0x08, 0x09, 0x0A, 0x0C, 0x0D, 0x10, 0x11, 0x12, 0x14, 0x15, 0x18, 0x19,
   0x1C, 0x1D, 0x1E, 0x1F, 0x20, 0x24, 0x25, 0x26, 0x27, 0x28, 0x29]

/-- Whether a payload fits a frame (R152): 0 to 120 characters. -/
def payloadFits (p : Payload) : Bool := decide (p.length ≤ Config.maxPayload)

/-- Whether KIND and PAYLOAD of a frame that completes fit LEN (R152); empty stands for a LEN out of range. -/
def bodyFits (body : Payload) : Bool := decide (body.length ≤ Config.maxPayload + 1)

/-- Whether a kind and payload reach the buffer as a request of no kind (R154, R156): the KIND names no request, and
it is no host flow frame, HOLD 0x70 or GO 0x71 with an empty payload. -/
def unknownFits (kind : Byte) (p : Payload) : Bool :=
  !requestKinds.contains kind.toNat && !((kind == 0x70 || kind == 0x71) && p.isEmpty) && payloadFits p

/-- The payload of a request command. -/
def Instr.payload? : Instr → Option Payload
  | .ident p | .status p | .readObject p | .restart p | .startLine p | .stopLine p | .resetLine p
  | .resetStation p | .floodStation p | .resetZone p | .readCauses p | .setShift p | .releaseClosure p
  | .resetClosure p | .silenceSector p | .testSector p | .disablePrepare p | .disableConfirm p | .enable p
  | .clearDisableError p | .listDisablements p | .readHistory p | .readSetting p | .writeSetting p
  | .saveSettings p | .lockSection p | .loadDefaults p => some p
  | _ => none

/-- Which commands the outside can send. -/
def Instr.wellFormed (i : Instr) : Bool :=
  match i with
  | .inboundFrameComplete body _ => bodyFits body
  | .unknownKind kind p => unknownFits kind p
  | _ =>
    match i.payload? with
    | none => true
    | some p => payloadFits p

end Sys2Proof
end

