-- ==== Sys2Proof/Decode.lean ====
section
/-! DEFINITION. The commands a word spells by the bits of spec/opcode_table.json, and the request frames as the link
spells them: the command of a request's KIND and payload, and back (R183, section 11.3). -/

namespace Sys2Proof

/-- The command a word spells by the table's bits. No row of the table gives any bits: a command of this part is an
event or a message, not a word, so no word spells one. -/
def decodeTableWord (_nbits _w : Nat) : Option Instr := none

/-- The command of a message to the part: KIND and PAYLOAD (R156, section 11.3). A KIND that names no request is the
command of the row UNKNOWN_KIND. -/
def decodeRequest (kind : Byte) (p : Payload) : Instr :=
  match kind.toNat with
  | 0x01 => .ident p | 0x02 => .status p | 0x03 => .readObject p | 0x04 => .restart p
  | 0x08 => .startLine p | 0x09 => .stopLine p | 0x0A => .resetLine p
  | 0x0C => .resetStation p | 0x0D => .floodStation p
  | 0x10 => .resetZone p | 0x11 => .readCauses p | 0x12 => .setShift p
  | 0x14 => .releaseClosure p | 0x15 => .resetClosure p
  | 0x18 => .silenceSector p | 0x19 => .testSector p
  | 0x1C => .disablePrepare p | 0x1D => .disableConfirm p | 0x1E => .enable p | 0x1F => .clearDisableError p
  | 0x20 => .listDisablements p
  | 0x24 => .readHistory p | 0x25 => .readSetting p | 0x26 => .writeSetting p | 0x27 => .saveSettings p
  | 0x28 => .lockSection p | 0x29 => .loadDefaults p
  | _ => .unknownKind kind p

/-- The KIND and PAYLOAD of a request command; `none` for the commands that are no requests. -/
def encodeRequest : Instr → Option (Byte × Payload)
  | .ident p => some (0x01, p) | .status p => some (0x02, p) | .readObject p => some (0x03, p)
  | .restart p => some (0x04, p) | .startLine p => some (0x08, p) | .stopLine p => some (0x09, p)
  | .resetLine p => some (0x0A, p) | .resetStation p => some (0x0C, p) | .floodStation p => some (0x0D, p)
  | .resetZone p => some (0x10, p) | .readCauses p => some (0x11, p) | .setShift p => some (0x12, p)
  | .releaseClosure p => some (0x14, p) | .resetClosure p => some (0x15, p) | .silenceSector p => some (0x18, p)
  | .testSector p => some (0x19, p) | .disablePrepare p => some (0x1C, p) | .disableConfirm p => some (0x1D, p)
  | .enable p => some (0x1E, p) | .clearDisableError p => some (0x1F, p) | .listDisablements p => some (0x20, p)
  | .readHistory p => some (0x24, p) | .readSetting p => some (0x25, p) | .writeSetting p => some (0x26, p)
  | .saveSettings p => some (0x27, p) | .lockSection p => some (0x28, p) | .loadDefaults p => some (0x29, p)
  | .unknownKind kind p => some (kind, p)
  | _ => none

end Sys2Proof
end

