-- ==== Sys2Proof/Machine/Types.lean ====
section
/-! DEFINITION. The data each block of the part holds: one structure per table "What a … holds" of the manual, and
the settings records of the seven sections. Plain data only; the operations stand in the files after this one. -/

namespace Sys2Proof.Machine

/-! ### Names shared by several blocks -/

/-- Alarm levels in rising order (00_scope "Alarm levels"). -/
inductive Level where
  | quiet | spark | alert | fire
  deriving DecidableEq, Repr

/-- A level an object may be set to call at or trigger at: ALERT or FIRE (R87, R105). -/
inductive AlarmLevel where
  | alert | fire
  deriving DecidableEq, Repr

/-- The demand of a siren sector, and its playing and pending levels: none, ALERT or FIRE (R124). -/
inductive Demand where
  | none | alert | fire
  deriving DecidableEq, Repr

/-- Every kind of object with its number (R181 "Object kind"). -/
inductive Obj where
  | detector (d : DetNo)
  | fireInput (f : InputNo)
  | station (n : LineNo)
  | line (n : LineNo)
  | zone (z : ZoneNo)
  | closure (c : ClosureNo)
  | sector (n : SectorNo)
  | store
  deriving DecidableEq, Repr

/-- The sources of causes (R80). -/
inductive Source where
  | detector (d : DetNo)
  | fireInput (f : InputNo)
  | station (n : LineNo)
  | line (n : LineNo)
  deriving DecidableEq, Repr

/-- The faults (R181 "Fault", codes 1 to 14 in this order). -/
inductive FaultCode where
  | openLoop | short | glare
  | lowFlow | gate | rundown | blind | startFail
  | noWater
  | stuck | openedWhileShut | damperForced
  | saveFailed | defaulted
  deriving DecidableEq, Repr

/-- The shift modes (R98). -/
inductive Shift where
  | day | watch
  deriving DecidableEq, Repr

/-! ### Settings (chapters 1 to 7 and 10) -/

/-- Supervision modes (R1). -/
inductive Supervision where
  | off | continuous | periodic
  deriving DecidableEq, Repr

/-- Detector settings (section 1.6). -/
structure DetSettings where
  line : Option LineNo
  zone : Option ZoneNo
  distance : Nat
  wMin : Nat
  wMax : Nat
  glareLimit : Nat
  glareClear : Nat
  supervision : Supervision
  sparkHold : Nat
  deriving DecidableEq, Repr

/-- Line settings (section 4.11). -/
structure LineSettings where
  zone : Option ZoneNo
  tripZones : ZoneSet
  kFactor : Nat
  vMin : Nat
  sparkThreshold : Nat
  sparkWindow : Nat
  valveLatency : Nat
  uncertainty : Nat
  windowHold : Nat
  floodHold : Nat
  abortDwell : Nat
  gateTime : Nat
  startTimeout : Nat
  rundownTimeout : Nat
  blindStop : Bool
  blindLimit : Nat
  deriving DecidableEq, Repr

/-- Types of fire input (section 5.3). -/
inductive InputType where
  | heat | callPoint | flame | sprinklerFlow
  deriving DecidableEq, Repr

/-- Fire input settings (section 5.3). -/
structure InputSettings where
  zone : Option ZoneNo
  level : AlarmLevel
  debounce : Nat
  type : InputType
  deriving DecidableEq, Repr

/-- Kinds of closure (section 6). -/
inductive ClosureKind where
  | passage | damper
  deriving DecidableEq, Repr

/-- Closure settings (section 6.8). -/
structure ClosureSettings where
  kind : ClosureKind
  zones : ZoneSet
  trigger : AlarmLevel
  travelTime : Nat
  line : Option LineNo
  waitMax : Nat
  deriving DecidableEq, Repr

/-- Sector settings (R135). -/
structure SectorSettings where
  zones : ZoneSet
  alertPattern : Option PatternNo
  firePattern : Option PatternNo
  silenceInhibit : Nat
  deriving DecidableEq, Repr

/-- One siren pattern (section 7.3): times in units of 10 ms. -/
structure Pattern where
  stepCount : Nat
  onTimes : Vector Nat 4
  offTimes : Vector Nat 4
  deriving DecidableEq, Repr

/-- The GENERAL section (section 10.2). -/
structure GeneralSettings where
  confirmTime : Nat
  site : Nat
  deriving DecidableEq, Repr

/-- One whole copy of the settings: the seven sections (section 10.2). -/
structure Settings where
  detectors : Vector DetSettings 24
  lines : Vector LineSettings 8
  inputs : Vector InputSettings 16
  closures : Vector ClosureSettings 16
  sectors : Vector SectorSettings 6
  patterns : Vector Pattern 8
  general : GeneralSettings
  deriving DecidableEq, Repr

/-! ### DET (section 1.1) -/

/-- Pulse classes (R8, R9). -/
inductive PulseClass where
  | noise | spark | ember | glare
  deriving DecidableEq, Repr

/-- The last pulse: width in 0.1 ms, class and trailing-edge instant (R7). -/
structure Pulse where
  width : Nat
  cls : PulseClass
  at_ : Instant
  deriving DecidableEq, Repr

/-- Glare phase, CLEARING with its dark-since instant (R10). -/
inductive GlarePhase where
  | none
  | glaring
  | clearing (darkSince : Instant)
  deriving DecidableEq, Repr

/-- A WATCH candidate (R13): whether it is an EMBER (weight 4) or a SPARK (weight 1), and its instant. -/
structure Candidate where
  ember : Bool
  weight : Nat
  at_ : Instant
  deriving DecidableEq, Repr

/-- One detector channel (section 1.1). The three fault flags stand in ZON's fault table. `width` is the width
count of the pulse in progress, in 0.1 ms (R7); `nextMode` is a derived mode waiting for a sample to end (R3). -/
structure Detector where
  mode : Supervision
  nextMode : Option Supervision
  busy : Bool
  lastStart : Option Instant
  lastLevel : Option (Fin 16)
  openRun : Nat
  shortRun : Nat
  lit : Bool
  lastEdge : Option Instant
  width : Nat
  lastPulse : Option Pulse
  glare : GlarePhase
  candidate : Option Candidate
  deliveries : Nat
  deriving DecidableEq, Repr

/-! ### FLW (section 2.1) -/

/-- One velocity meter (section 2.1). -/
structure Meter where
  running : Bool
  gateStart : Option Instant
  count : Nat
  lastCount : Option Nat
  lastRaw : Option Nat
  vf : Nat
  lowRun : Nat
  gateEnds : Nat
  deriving DecidableEq, Repr

/-! ### STN (section 3.1) -/

/-- Origin of a window (R35). -/
inductive WindowOrigin where
  | detector (d : DetNo)
  | flood
  | manual
  deriving DecidableEq, Repr

/-- A window record (R35): includes `start`, excludes `stop`. -/
structure Window where
  start : Instant
  stop : Instant
  origin : WindowOrigin
  late : Bool
  merged : Nat
  deriving DecidableEq, Repr

/-- Valve states (R42). -/
inductive ValveState where
  | closed | armed | opening | opened
  deriving DecidableEq, Repr

/-- One station (section 3.1). NO-WATER stands in ZON's fault table and the station cause in the cause list. -/
structure Station where
  windows : List Window
  valveOn : Bool
  valve : ValveState
  outputOn : Option Instant
  waterConfirmed : Bool
  waterSeen : Bool
  confirmTimer : Option Instant
  offered : Nat
  refused : Nat
  forced : Nat
  wconf : Bool
  deriving DecidableEq, Repr

/-! ### LIN (section 4.1) -/

/-- Line states (R56). -/
inductive LineState where
  | off | starting | run | abort | stopping | stopped
  deriving DecidableEq, Repr

/-- Stop causes (section 4.1). -/
inductive StopCause where
  | none | orderly | escalation | noWater | gate | fire | damper | lowFlow | blind | startFail
  deriving DecidableEq, Repr

/-- One extraction line (section 4.1). Its faults stand in ZON's fault table, its line cause in the cause list. -/
structure Line where
  state : LineState
  stopCause : StopCause
  entered : Instant
  fan : Bool
  feed : Bool
  gate : Bool
  counter : Nat
  countWindow : Option Instant
  startTimer : Option Instant
  dwellTimer : Option Instant
  gateTimer : Option Instant
  rundownTimer : Option Instant
  blind : Bool
  blindTimer : Option Instant
  fstop : Bool
  gopen : Bool
  deriving DecidableEq, Repr

/-! ### ZON (chapter 5) -/

/-- A cause record (R80). -/
structure Cause where
  source : Source
  zone : ZoneNo
  level : Level
  latched : Bool
  raised : Instant
  changed : Instant
  silenced : SectorSet
  hold : Option Instant
  deriving DecidableEq, Repr

/-- A zone as ZON holds it: its level, and the time of its last change of level (R92, R94). -/
structure Zone where
  level : Level
  changed : Option Instant
  deriving DecidableEq, Repr

/-- Debounce phases (R86). -/
inductive Debounce where
  | idle | rising | on | falling
  deriving DecidableEq, Repr

/-- One fire input: the raw level of FINn, its debounce phase and its debounce timer (R86). -/
structure FireInput where
  raw : Bool
  phase : Debounce
  timer : Option Instant
  deriving DecidableEq, Repr

/-- The fault sets ZON keeps (section 5.6). -/
structure FaultTable where
  detectors : Vector FaultSet 24
  lines : Vector FaultSet 8
  stations : Vector FaultSet 8
  closures : Vector FaultSet 16
  store : FaultSet
  deriving DecidableEq, Repr

/-! ### CLS (section 6.1) -/

/-- Closure states (R102). -/
inductive ClosureState where
  | held | ready | waiting | releasing | shut | stuck
  deriving DecidableEq, Repr

/-- Direction of a STUCK closure (R102). -/
inductive Direction where
  | none | closing | opening
  deriving DecidableEq, Repr

/-- Closure positions (R103). -/
inductive Position where
  | opened | closed | mid
  deriving DecidableEq, Repr

/-- Last release origin (section 6.1). -/
inductive ReleaseOrigin where
  | none
  | zone (z : ZoneNo)
  | request
  deriving DecidableEq, Repr

/-- One closure (section 6.1), with its limit inputs COPENn and CSHUTn. -/
structure Closure where
  state : ClosureState
  direction : Direction
  hold : Bool
  travelTimer : Option Instant
  waitTimer : Option Instant
  entered : Instant
  origin : ReleaseOrigin
  copen : Bool
  cshut : Bool
  deriving DecidableEq, Repr

/-! ### SRN (section 7.1) -/

/-- Sector states (R123). -/
inductive SectorState where
  | quiet | sounding | silenced | test
  deriving DecidableEq, Repr

/-- One phase of a cycle: the step, 1 to 4, whether it is the ON phase, and its length in ms. -/
structure Phase where
  step : Nat
  on : Bool
  ms : Nat
  deriving DecidableEq, Repr

/-- A running cycle (R125): its phases of non-zero length as taken at the cycle start, the one in progress and
those still to come, the instants of the cycle's start and end, and the instant the phase in progress ends. -/
structure Cycle where
  phase : Phase
  rest : List Phase
  start : Instant
  stop : Instant
  phaseStop : Instant
  deriving DecidableEq, Repr

/-- One siren sector (section 7.1). -/
structure Sector where
  state : SectorState
  demand : Demand
  playing : Demand
  pendingLevel : Demand
  pattern : Option PatternNo
  cycle : Option Cycle
  soundingSince : Option Instant
  testEnd : Option Instant
  highest : Level
  siren : Bool
  deriving DecidableEq, Repr

/-! ### DIS (R139) -/

/-- A disablement entry (R139). It is ACTIVE when `activated` holds an instant and PENDING while it is absent. -/
structure Entry where
  target : Target
  created : Instant
  limit : Nat
  activated : Option Instant
  expiry : Option Instant
  deriving DecidableEq, Repr

/-- The outstanding prepare (R139). -/
structure Prepare where
  target : Target
  limit : Nat
  taken : Instant
  expiry : Instant
  deriving DecidableEq, Repr

/-- The disablement table with its prepare and sequence latch (R139). -/
structure Disablements where
  entries : List Entry
  prepare : Option Prepare
  latch : Bool
  deriving DecidableEq, Repr

/-! ### LNK (chapter 9) -/

/-- A frame of the part: KIND and PAYLOAD (R152). -/
structure Frame where
  kind : Byte
  payload : Payload
  deriving DecidableEq, Repr

/-- An entry of the inbound buffer (R155). -/
inductive Inbound where
  | error
  | request (kind : Byte) (payload : Payload)
  deriving DecidableEq, Repr

/-- Flow frames of the part (R157). -/
inductive Flow where
  | hold | go
  deriving DecidableEq, Repr

/-- A point of time to a tenth of a millisecond. -/
structure Stamp where
  at_ : Instant
  tenth : Fin 10
  deriving DecidableEq, Repr

/-- Receiver phases (R153), each with what it holds of the frame in progress: LEN, the characters of KIND and
PAYLOAD so far, the first check character, and whether one of these came with a fault in its stop bit. -/
inductive Receiver where
  | hunt
  | length
  | body (len : Nat) (chars : List Byte) (faulty : Bool)
  | check (chars : List Byte) (first : Option Byte) (faulty : Bool)
  deriving DecidableEq, Repr

/-- The frame being sent on LTX and when its sending began (R159). -/
structure Sending where
  frame : Frame
  begun : Stamp
  deriving DecidableEq, Repr

/-- The message link (chapter 9, table of its state). -/
structure Link where
  receiver : Receiver
  lastChar : Option Stamp
  buffer : List Inbound
  slot : Option Frame
  partHolding : Bool
  flow : Option Flow
  hostHeld : Bool
  sending : Option Sending
  alarm : List Frame
  notice : List Frame
  dropped : Bool
  restartPending : Bool
  deriving DecidableEq, Repr

/-! ### HIS (R167) -/

/-- The five detail bytes of a history record (R185). -/
structure Detail where
  d0 : Byte := 0
  d1 : Byte := 0
  d2 : Byte := 0
  d3 : Byte := 0
  d4 : Byte := 0
  deriving DecidableEq, Repr

/-- History record kinds (R185, codes 1 to 17 in this order). -/
inductive RecordKind where
  | start | spark | unconfirmed | valve | manualFlood | lineState | escalation | cause | zoneLevel | input
  | fault | shift | closure | sector | disablement | setting | storeOp
  deriving DecidableEq, Repr

/-- A history record of sixteen bytes (R167, R184). -/
structure Record where
  seq : BitVec 32
  at_ : Instant
  kind : RecordKind
  objKind : Byte
  objNum : Byte
  detail : Detail
  deriving DecidableEq, Repr

/-- The history ring, oldest record first, and the next sequence number (section 10.1). -/
structure History where
  records : List Record
  next : BitVec 32
  deriving DecidableEq, Repr

/-! ### CFG (R170) -/

/-- The seven sections of the settings store (R181 "Section"). -/
inductive StoreSection where
  | detectors | lines | inputs | closures | sectors | patterns | general
  deriving DecidableEq, Repr

/-- Operations of the store (R170). -/
inductive StoreOp where
  | save | lock | defaults
  deriving DecidableEq, Repr

/-- The store state WRITING (R170): operation, section being written, sections after it, the instant the write in
progress ends, and the sections written and failed so far. -/
structure StoreWrite where
  op : StoreOp
  current : StoreSection
  rest : List StoreSection
  ends : Instant
  written : List StoreSection
  failed : List StoreSection
  deriving DecidableEq, Repr

/-- Flags of one section's live table (R170). -/
structure SectionFlags where
  lock : Bool
  modified : Bool
  defaulted : Bool
  writeFailed : Bool
  deriving DecidableEq, Repr

/-- The non-volatile mark of one section: the lock as stored, and whether the stored check value matches (R170). -/
structure StoredMark where
  lock : Bool
  checkOk : Bool
  deriving DecidableEq, Repr

/-- The settings store (section 10.2). `write` is absent while the store state is IDLE. -/
structure Store where
  live : Settings
  flags : Vector SectionFlags 7
  stored : Settings
  marks : Vector StoredMark 7
  write : Option StoreWrite
  deriving DecidableEq, Repr

end Sys2Proof.Machine
end

