-- ==== Sys2Proof/Machine/Factory.lean ====
section
/-! DEFINITION. The factory defaults of every setting, as the owning chapters list them. -/

namespace Sys2Proof.Machine

/-- Defaults of section 1.6. -/
def factoryDetector : DetSettings :=
  { line := none, zone := none, distance := 1500, wMin := 3, wMax := 200, glareLimit := 200, glareClear := 2000,
    supervision := .continuous, sparkHold := 10 }

/-- Defaults of section 4.11. -/
def factoryLine : LineSettings :=
  { zone := none, tripZones := 0, kFactor := 250, vMin := 1500, sparkThreshold := 8, sparkWindow := 50,
    valveLatency := 120, uncertainty := 8, windowHold := 500, floodHold := 10, abortDwell := 30, gateTime := 5,
    startTimeout := 20, rundownTimeout := 60, blindStop := false, blindLimit := 60 }

/-- Defaults of section 5.3. -/
def factoryInput : InputSettings :=
  { zone := none, level := .fire, debounce := 200, type := .heat }

/-- Defaults of section 6.8. -/
def factoryClosure : ClosureSettings :=
  { kind := .passage, zones := 0, trigger := .fire, travelTime := 15, line := none, waitMax := 8 }

/-- Defaults of R135: pattern 0 (silence) at ALERT and P1 at FIRE. -/
def factorySector : SectorSettings :=
  { zones := 0, alertPattern := none, firePattern := some 0, silenceInhibit := 30 }

/-- The factory patterns of section 7.3, P1 first, times in units of 10 ms. -/
def factoryPatterns : Vector Pattern 8 :=
  #v[⟨1, #v[50, 0, 0, 0], #v[50, 0, 0, 0]⟩,
     ⟨1, #v[100, 0, 0, 0], #v[400, 0, 0, 0]⟩,
     ⟨3, #v[30, 30, 30, 0], #v[30, 30, 150, 0]⟩,
     ⟨1, #v[500, 0, 0, 0], #v[0, 0, 0, 0]⟩,
     ⟨2, #v[200, 50, 0, 0], #v[50, 200, 0, 0]⟩,
     ⟨1, #v[100, 0, 0, 0], #v[100, 0, 0, 0]⟩,
     ⟨1, #v[100, 0, 0, 0], #v[100, 0, 0, 0]⟩,
     ⟨1, #v[100, 0, 0, 0], #v[100, 0, 0, 0]⟩]

/-- Defaults of sections 3.7 and 10.2. -/
def factoryGeneral : GeneralSettings :=
  { confirmTime := 1500, site := 0 }

/-- Every section at its factory values. -/
def factorySettings : Settings :=
  { detectors := Vector.replicate 24 factoryDetector
    lines := Vector.replicate 8 factoryLine
    inputs := Vector.replicate 16 factoryInput
    closures := Vector.replicate 16 factoryClosure
    sectors := Vector.replicate 6 factorySector
    patterns := factoryPatterns
    general := factoryGeneral }

end Sys2Proof.Machine
end

