-- ==== Sys2Proof/Machine/State.lean ====
section
/-! DEFINITION. The whole state of the part as plain data, one field per block of the manual, the reasons a step
could stop, and the state right after a power-on reset. -/

namespace Sys2Proof.Machine

/-- The reasons the machine could stop with a fault. There are none: the manual gives every command an effect in
every state (a request is answered or refused on the link, an event that does not apply changes nothing), so this
type has no constructor. What the manual calls a fault of an object (OPEN, STUCK, …) is state, in `FaultTable`. -/
inductive Fault where
  deriving DecidableEq, Repr

/-- The reasons for having no meaning. -/
inductive Refusal where
  /-- Raised only by an arm of `exec` whose row has no meaning yet. Safe: nothing is claimed of such a command. No
  arm raises it in this model. -/
  | notModelled (mnemonic : String)
  deriving DecidableEq, Repr

/-- The state of the part. -/
structure State where
  /-- The uptime clock (00_scope "Time"). -/
  uptime : Instant
  /-- Tenths of a millisecond since the uptime clock last advanced; pulse widths are in 0.1 ms (R7). -/
  tenth : Fin 10
  /-- DET: detector channels (section 1.1). -/
  detectors : Vector Detector 24
  /-- FLW: velocity meters (section 2.1). -/
  meters : Vector Meter 8
  /-- STN: stations (section 3.1). -/
  stations : Vector Station 8
  /-- LIN: extraction lines (section 4.1). -/
  lines : Vector Line 8
  /-- ZON: the cause list, oldest first (R80). -/
  causes : List Cause
  /-- ZON: the zones (R92). -/
  zones : Vector Zone 16
  /-- ZON: the fire inputs (R86). -/
  inputs : Vector FireInput 16
  /-- ZON: the fault sets of all objects (R96). -/
  faults : FaultTable
  /-- ZON: the FAULT output (R97). -/
  faultOutput : Bool
  /-- ZON: the shift mode (R98). -/
  shift : Shift
  /-- CLS: closures (section 6.1). -/
  closures : Vector Closure 16
  /-- SRN: siren sectors (section 7.1). -/
  sectors : Vector Sector 6
  /-- DIS: the disablement table (R139). -/
  dis : Disablements
  /-- The level of the SERVICE input (R140). -/
  service : Bool
  /-- LNK: the message link (chapter 9). -/
  link : Link
  /-- HIS: the event history (R167). -/
  history : History
  /-- CFG: the settings store (R170). -/
  store : Store
  /-- The MODEL's own: how many free values have been used (log entry 3). -/
  freeCount : Nat
  /-- The MODEL's own: the commands waiting, first in, first out. -/
  pending : List Instr
  deriving DecidableEq, Repr

/-- A detector channel right after a power-on reset with factory settings (R20): CONTINUOUS, its first sample
started at instant 0. -/
def resetDetector : Detector :=
  { mode := .continuous, nextMode := none, busy := true, lastStart := some 0, lastLevel := none, openRun := 0,
    shortRun := 0, lit := false, lastEdge := none, width := 0, lastPulse := none, glare := .none,
    candidate := none, deliveries := 0 }

/-- A velocity meter after reset (R34), its gate begun at instant 0. -/
def resetMeter : Meter :=
  { running := true, gateStart := some 0, count := 0, lastCount := none, lastRaw := none, vf := 0, lowRun := 0,
    gateEnds := 0 }

/-- A station after reset (R55). -/
def resetStation : Station :=
  { windows := [], valveOn := false, valve := .closed, outputOn := none, waterConfirmed := false,
    waterSeen := false, confirmTimer := none, offered := 0, refused := 0, forced := 0, wconf := false }

/-- A line after power-on reset with factory settings (R78): no detector is assigned, so it is blind, and its blind
timer and counting window run from instant 0. -/
def resetLine : Line :=
  { state := .off, stopCause := .none, entered := 0, fan := false, feed := false, gate := false, counter := 0,
    countWindow := some 5000, startTimer := none, dwellTimer := none, gateTimer := none, rundownTimer := none,
    blind := true, blindTimer := some 60000, fstop := false, gopen := false }

/-- A closure after power-on reset with both limit inputs inactive (R121): position MID, so READY, a PASSAGE with
no timer. -/
def resetClosure : Closure :=
  { state := .ready, direction := .none, hold := true, travelTimer := none, waitTimer := none, entered := 0,
    origin := .none, copen := false, cshut := false }

/-- A sector after reset (R138). -/
def resetSector : Sector :=
  { state := .quiet, demand := .none, playing := .none, pendingLevel := .none, pattern := none, cycle := none,
    soundingSince := none, testEnd := none, highest := .quiet, siren := false }

/-- The link right after a power-on reset (R166): START is being sent and the DEFAULTED fault report waits. -/
def resetLink : Link :=
  { receiver := .hunt, lastChar := none, buffer := [], slot := none, partHolding := false, flow := none,
    hostHeld := false, sending := some ⟨⟨0x40, [0, 0, 0, 0, 0, 0, 1, 0, 0, 0, 0]⟩, ⟨0, 0⟩⟩, alarm := [],
    notice := [⟨0x45, [0, 0, 0, 0, 8, 0, 14, 1, 0, 0, 0]⟩], dropped := false, restartPending := false }

/-- The machine right after a power-on reset: every field as the chapters' reset tables state it, with a store that
has never been written (R177, log entry 8), every input inactive (log entry 9) and no command waiting. The
consistency of this literal with the POWER_ON_RESET command is a theorem of the tests. -/
def State.reset : State :=
  { uptime := 0
    tenth := 0
    detectors := Vector.replicate 24 resetDetector
    meters := Vector.replicate 8 resetMeter
    stations := Vector.replicate 8 resetStation
    lines := Vector.replicate 8 resetLine
    causes := []
    zones := Vector.replicate 16 ⟨.quiet, none⟩
    inputs := Vector.replicate 16 ⟨false, .idle, none⟩
    faults := ⟨Vector.replicate 24 0, Vector.replicate 8 0, Vector.replicate 8 0, Vector.replicate 16 0, 0x2000⟩
    faultOutput := true
    shift := .day
    closures := Vector.replicate 16 resetClosure
    sectors := Vector.replicate 6 resetSector
    dis := ⟨[], none, false⟩
    service := false
    link := resetLink
    history := ⟨[⟨1, 0, .start, 0, 0, ⟨1, 0, 0, 0, 0⟩⟩, ⟨2, 0, .fault, 8, 0, ⟨14, 1, 0, 0, 0⟩⟩], 3⟩
    store := ⟨factorySettings, Vector.replicate 7 ⟨false, false, true, false⟩, factorySettings,
      Vector.replicate 7 ⟨false, false⟩, none⟩
    freeCount := 0
    pending := [] }

end Sys2Proof.Machine
end

