-- ==== Sys2Proof/Machine/Operands.lean ====
section
/-! DEFINITION. The encodings of chapter 11: how numbers, instants and codes stand in a message, how a request's
operands are read from its payload, the code of every coded item, the check value, and the kinds of frame. -/

namespace Sys2Proof.Machine

/-! ### Numbers in messages (R180, R181) -/

/-- One byte holding `n`. -/
def enc8 (n : Nat) : Payload := [BitVec.ofNat 8 n]

/-- Two bytes, high byte first (R180). -/
def enc16 (n : Nat) : Payload := [BitVec.ofNat 8 (n / 256), BitVec.ofNat 8 n]

/-- Four bytes, high byte first (R180). -/
def enc32 (t : BitVec 32) : Payload :=
  [t.extractLsb' 24 8, t.extractLsb' 16 8, t.extractLsb' 8 8, t.extractLsb' 0 8]

/-- A flag (R181): 0 clear, 1 set. -/
def flagByte (b : Bool) : Byte := if b then 1 else 0

/-- Four bytes of a duration in ms; a stopped timer reads 0xFFFFFFFF (R181). -/
def encDuration : Option Nat → Payload
  | none => [0xFF, 0xFF, 0xFF, 0xFF]
  | some ms => enc32 (BitVec.ofNat 32 ms)

/-- Four bytes of an instant; every byte 0xFF for none (R181). -/
def encInstant : Option Instant → Payload
  | none => [0xFF, 0xFF, 0xFF, 0xFF]
  | some t => enc32 t

/-- The character at offset `i` of a payload, as a number. -/
def byteAt (p : Payload) (i : Nat) : Nat := (p.getD i 0).toNat

/-- The 16-bit number at offset `i`, high byte first. -/
def word16At (p : Payload) (i : Nat) : Nat := byteAt p i * 256 + byteAt p (i + 1)

/-- The 32-bit number at offset `i`, high byte first. -/
def word32At (p : Payload) (i : Nat) : Nat := word16At p i * 65536 + word16At p (i + 2)

/-- An object number 1 to `k` as an index; `none` for 0 and for numbers above `k`. -/
def numbered (k n : Nat) : Option (Fin k) :=
  if h : 1 ≤ n ∧ n ≤ k then some ⟨n - 1, by omega⟩ else none

/-- The number of an index: one more. -/
def number {k : Nat} (i : Fin k) : Nat := i.val + 1

/-- The number of an object a setting names; 0 means none (00_scope "Object numbering"). -/
def numberOrZero {k : Nat} : Option (Fin k) → Nat
  | none => 0
  | some i => number i

/-- A number as one byte, held at the byte's largest value (R185). -/
def byteOf (n : Nat) : Byte := BitVec.ofNat 8 (min n 255)

/-- High byte of a 16-bit number held at 65535 (R185). -/
def highByte (n : Nat) : Byte := BitVec.ofNat 8 (min n 65535 / 256)

/-- Low byte of a 16-bit number held at 65535 (R185). -/
def lowByte (n : Nat) : Byte := BitVec.ofNat 8 (min n 65535)

/-- A value brought into a range (R171). -/
def clamp (lo hi v : Nat) : Nat := if v < lo then lo else if hi < v then hi else v

/-! ### Codes (R181) -/

/-- Order of the levels, and their values (00_scope "Alarm levels"). -/
def Level.rank : Level → Nat
  | .quiet => 0 | .spark => 1 | .alert => 2 | .fire => 3

/-- Level code. -/
def Level.code (l : Level) : Byte := BitVec.ofNat 8 l.rank

/-- Level code, 0xFF for none. -/
def levelCode : Option Level → Byte
  | none => 0xFF
  | some l => l.code

/-- The level an ALERT or FIRE setting names. -/
def AlarmLevel.level : AlarmLevel → Level
  | .alert => .alert | .fire => .fire

/-- Order of demands: none, ALERT, FIRE. -/
def Demand.rank : Demand → Nat
  | .none => 0 | .alert => 1 | .fire => 2

/-- Demand as a level code, 0xFF for none. -/
def Demand.code : Demand → Byte
  | .none => 0xFF | .alert => 2 | .fire => 3

/-- Object kind code. -/
def Obj.kindCode : Obj → Byte
  | .detector _ => 1 | .fireInput _ => 2 | .station _ => 3 | .line _ => 4
  | .zone _ => 5 | .closure _ => 6 | .sector _ => 7 | .store => 8

/-- Object number; 0 for the settings store (section 5.6). -/
def Obj.num : Obj → Nat
  | .detector d => number d | .fireInput f => number f | .station n => number n | .line n => number n
  | .zone z => number z | .closure c => number c | .sector n => number n | .store => 0

/-- The object that is a cause's source. -/
def Source.obj : Source → Obj
  | .detector d => .detector d | .fireInput f => .fireInput f | .station n => .station n | .line n => .line n

/-- The object that is a disablement's target. -/
def targetObj : Target → Obj
  | .detector d => .detector d | .fireInput f => .fireInput f | .station n => .station n
  | .closure c => .closure c | .sector n => .sector n

/-- A target named by kind code and number (R139, R183); `none` for any that is not valid. -/
def targetOf (kind num : Nat) : Option Target :=
  match kind with
  | 1 => (numbered 24 num).map .detector
  | 2 => (numbered 16 num).map .fireInput
  | 3 => (numbered 8 num).map .station
  | 6 => (numbered 16 num).map .closure
  | 7 => (numbered 6 num).map .sector
  | _ => none

/-- Fault code (R181). -/
def FaultCode.num : FaultCode → Nat
  | .openLoop => 1 | .short => 2 | .glare => 3
  | .lowFlow => 4 | .gate => 5 | .rundown => 6 | .blind => 7 | .startFail => 8
  | .noWater => 9
  | .stuck => 10 | .openedWhileShut => 11 | .damperForced => 12
  | .saveFailed => 13 | .defaulted => 14

/-- Line state code. -/
def LineState.code : LineState → Byte
  | .off => 0 | .starting => 1 | .run => 2 | .abort => 3 | .stopping => 4 | .stopped => 5

/-- Stop cause code. -/
def StopCause.code : StopCause → Byte
  | .none => 0 | .orderly => 1 | .escalation => 2 | .noWater => 3 | .gate => 4 | .fire => 5
  | .damper => 6 | .lowFlow => 7 | .blind => 8 | .startFail => 9

/-- Sector state code. -/
def SectorState.code : SectorState → Byte
  | .quiet => 0 | .sounding => 1 | .silenced => 2 | .test => 3

/-- Closure state code. -/
def ClosureState.code : ClosureState → Byte
  | .held => 0 | .ready => 1 | .waiting => 2 | .releasing => 3 | .shut => 4 | .stuck => 5

/-- Direction code. -/
def Direction.code : Direction → Byte
  | .none => 0 | .closing => 1 | .opening => 2

/-- Closure kind code. -/
def ClosureKind.code : ClosureKind → Byte
  | .passage => 0 | .damper => 1

/-- Closure position code. -/
def Position.code : Position → Byte
  | .opened => 0 | .closed => 1 | .mid => 2

/-- Release origin code. -/
def ReleaseOrigin.code : ReleaseOrigin → Byte
  | .none => 0 | .zone z => byteOf (number z) | .request => 0x80

/-- Valve state code. -/
def ValveState.code : ValveState → Byte
  | .closed => 0 | .armed => 1 | .opening => 2 | .opened => 3

/-- Shift mode code. -/
def Shift.code : Shift → Byte
  | .day => 0 | .watch => 1

/-- Pulse class code. -/
def PulseClass.code : PulseClass → Byte
  | .noise => 0 | .spark => 1 | .ember => 2 | .glare => 3

/-- Class code of a candidate or delivery: SPARK or EMBER. -/
def emberCode (ember : Bool) : Byte := if ember then 2 else 1

/-- Supervision mode code. -/
def Supervision.code : Supervision → Byte
  | .off => 0 | .continuous => 1 | .periodic => 2

/-- Debounce phase code. -/
def Debounce.code : Debounce → Byte
  | .idle => 0 | .rising => 1 | .on => 2 | .falling => 3

/-- Input type code. -/
def InputType.code : InputType → Byte
  | .heat => 0 | .callPoint => 1 | .flame => 2 | .sprinklerFlow => 3

/-- Window origin code: the detector's number, FLOOD 62, MANUAL 63. -/
def WindowOrigin.code : WindowOrigin → Byte
  | .detector d => byteOf (number d) | .flood => 62 | .manual => 63

/-- Section number (R181 "Section"). -/
def StoreSection.num : StoreSection → Nat
  | .detectors => 1 | .lines => 2 | .inputs => 3 | .closures => 4 | .sectors => 5 | .patterns => 6 | .general => 7

/-- The section with a number. -/
def sectionOf (n : Nat) : Option StoreSection :=
  match n with
  | 1 => some .detectors | 2 => some .lines | 3 => some .inputs | 4 => some .closures
  | 5 => some .sectors | 6 => some .patterns | 7 => some .general | _ => none

/-- The order in which SAVE writes the sections (R173). -/
def allSections : List StoreSection :=
  [.detectors, .lines, .inputs, .closures, .sectors, .patterns, .general]

/-- The place of a section's flags. -/
def StoreSection.idx : StoreSection → Fin 7
  | .detectors => 0 | .lines => 1 | .inputs => 2 | .closures => 3 | .sectors => 4 | .patterns => 5 | .general => 6

/-- A set of sections as a byte: bit n−1 for section n (R185). -/
def sectionSet (l : List StoreSection) : Byte :=
  l.foldl (fun b k => b ||| ((1 : Byte) <<< (k.num - 1))) 0

/-- Store operation code. -/
def StoreOp.code : StoreOp → Byte
  | .save => 1 | .lock => 2 | .defaults => 3

/-- History record code (R185). -/
def RecordKind.code : RecordKind → Byte
  | .start => 1 | .spark => 2 | .unconfirmed => 3 | .valve => 4 | .manualFlood => 5 | .lineState => 6
  | .escalation => 7 | .cause => 8 | .zoneLevel => 9 | .input => 10 | .fault => 11 | .shift => 12
  | .closure => 13 | .sector => 14 | .disablement => 15 | .setting => 16 | .storeOp => 17

/-- The member test of a zone set. -/
def zoneIn (set : ZoneSet) (z : ZoneNo) : Bool := set.getLsbD z.val

/-- The member test of a sector set. -/
def sectorIn (set : SectorSet) (n : SectorNo) : Bool := set.getLsbD n.val

/-- A sector set with one sector added. -/
def addSector (set : SectorSet) (n : SectorNo) : SectorSet := set ||| ((1 : SectorSet) <<< n.val)

/-- Bits 0 upward set from a list of truths, as a number. -/
def bitsOf : List Bool → Nat
  | [] => 0
  | b :: rest => (if b then 1 else 0) + 2 * bitsOf rest

/-- The first index whose truth holds. -/
def firstOf {k : Nat} (p : Fin k → Bool) : Option (Fin k) := (List.finRange k).find? p

/-! ### Frames (R152, R154) -/

/-- One bit of the check value: generator 0x1021, most significant bit first (R154). -/
def crcShift (crc : BitVec 16) : BitVec 16 :=
  if crc.msb then (crc <<< 1) ^^^ 0x1021 else crc <<< 1

/-- One character taken into the check value. -/
def crcByte (crc : BitVec 16) (b : Byte) : BitVec 16 :=
  Nat.repeat crcShift 8 (crc ^^^ ((b.setWidth 16) <<< 8))

/-- The check value over a list of characters, from the initial value 0xFFFF (R154). -/
def checkValue (l : List Byte) : BitVec 16 := l.foldl crcByte 0xFFFF

/-- LEN of a frame: KIND and PAYLOAD characters together. -/
def Frame.len (f : Frame) : Nat := f.payload.length + 1

/-- All characters of a frame in sending order (R152). -/
def Frame.characters (f : Frame) : List Byte :=
  let covered := BitVec.ofNat 8 f.len :: f.kind :: f.payload
  let check := checkValue covered
  0xC3 :: covered ++ [check.extractLsb' 8 8, check.extractLsb' 0 8]

/-- The time a frame occupies the line, in tenths of a millisecond rounded up: each of its LEN + 4 characters is ten
bit times at 115,200 bit/s, 125/144 of a tenth of a millisecond (chapter 9, log entry 10). -/
def Frame.tenths (f : Frame) : Nat := ((f.len + 4) * 125 + 143) / 144

/-- Reasons of a refusal (R160, codes R182). -/
inductive Reason where
  | frameError | unknownKind | badLength | badObject | state | zoneActive | damper | cause | watch | locked
  | busy | notService | sequence | already | full | tooEarly | disabled
  deriving DecidableEq, Repr

/-- Reason code: the order of the reason table, from 1 (R182). -/
def Reason.code : Reason → Byte
  | .frameError => 1 | .unknownKind => 2 | .badLength => 3 | .badObject => 4 | .state => 5
  | .zoneActive => 6 | .damper => 7 | .cause => 8 | .watch => 9 | .locked => 10 | .busy => 11
  | .notService => 12 | .sequence => 13 | .already => 14 | .full => 15 | .tooEarly => 16 | .disabled => 17

/-- What the owning block answers to a request: the payload of its reply, or a refusal with its detail. -/
inductive Answer where
  | reply (payload : Payload)
  | refuse (reason : Reason) (detail : Nat)
  deriving DecidableEq, Repr

/-- A refusal's frame (R160, R182). -/
def refusedFrame (kind : Byte) (reason : Reason) (detail : Nat) : Frame :=
  ⟨0xFF, kind :: reason.code :: enc32 (BitVec.ofNat 32 detail)⟩

/-- The frame that answers a request of the given kind (R160). -/
def Answer.frame (kind : Byte) : Answer → Frame
  | .reply p => ⟨kind + 0x80, p⟩
  | .refuse r d => refusedFrame kind r d

/-- Payload length of each request kind (section 11.3); `none` for a KIND that names no request. -/
def requestLength (kind : Byte) : Option Nat :=
  match kind.toNat with
  | 0x01 => some 0 | 0x02 => some 0 | 0x03 => some 2 | 0x04 => some 0
  | 0x08 => some 1 | 0x09 => some 1 | 0x0A => some 1 | 0x0C => some 1 | 0x0D => some 2
  | 0x10 => some 1 | 0x11 => some 3 | 0x12 => some 1 | 0x14 => some 1 | 0x15 => some 1
  | 0x18 => some 1 | 0x19 => some 3
  | 0x1C => some 4 | 0x1D => some 2 | 0x1E => some 2 | 0x1F => some 0 | 0x20 => some 2
  | 0x24 => some 5 | 0x25 => some 3 | 0x26 => some 7 | 0x27 => some 0 | 0x28 => some 1 | 0x29 => some 1
  | _ => none

end Sys2Proof.Machine
end

