-- ==== Sys2Proof/Machine/Ops.lean ====
section
/-! DEFINITION. The named operations every block uses: reading and writing one object of the state, the uptime clock
and timers, the history ring, the two report queues, and the look-up of disablement entries. -/

namespace Sys2Proof.Machine

/-! ### One object of the state -/

/-- A detector channel. -/
def State.det (s : State) (d : DetNo) : Detector := s.detectors[d.val]

/-- Puts a detector channel. -/
def State.setDet (s : State) (d : DetNo) (x : Detector) : State :=
  { s with detectors := s.detectors.set d.val x d.isLt }

/-- A velocity meter. -/
def State.meter (s : State) (n : LineNo) : Meter := s.meters[n.val]

/-- Puts a velocity meter. -/
def State.setMeter (s : State) (n : LineNo) (x : Meter) : State :=
  { s with meters := s.meters.set n.val x n.isLt }

/-- A station. -/
def State.station (s : State) (n : LineNo) : Station := s.stations[n.val]

/-- Puts a station. -/
def State.setStation (s : State) (n : LineNo) (x : Station) : State :=
  { s with stations := s.stations.set n.val x n.isLt }

/-- A line. -/
def State.line (s : State) (n : LineNo) : Line := s.lines[n.val]

/-- Puts a line. -/
def State.setLine (s : State) (n : LineNo) (x : Line) : State :=
  { s with lines := s.lines.set n.val x n.isLt }

/-- A zone. -/
def State.zone (s : State) (z : ZoneNo) : Zone := s.zones[z.val]

/-- Puts a zone. -/
def State.setZone (s : State) (z : ZoneNo) (x : Zone) : State :=
  { s with zones := s.zones.set z.val x z.isLt }

/-- A fire input. -/
def State.input (s : State) (f : InputNo) : FireInput := s.inputs[f.val]

/-- Puts a fire input. -/
def State.setInput (s : State) (f : InputNo) (x : FireInput) : State :=
  { s with inputs := s.inputs.set f.val x f.isLt }

/-- A closure. -/
def State.closure (s : State) (c : ClosureNo) : Closure := s.closures[c.val]

/-- Puts a closure. -/
def State.setClosure (s : State) (c : ClosureNo) (x : Closure) : State :=
  { s with closures := s.closures.set c.val x c.isLt }

/-- A sector. -/
def State.sector (s : State) (n : SectorNo) : Sector := s.sectors[n.val]

/-- Puts a sector. -/
def State.setSector (s : State) (n : SectorNo) (x : Sector) : State :=
  { s with sectors := s.sectors.set n.val x n.isLt }

/-- Live settings of a detector. -/
def State.detCfg (s : State) (d : DetNo) : DetSettings := s.store.live.detectors[d.val]

/-- Live settings of a line. -/
def State.lineCfg (s : State) (n : LineNo) : LineSettings := s.store.live.lines[n.val]

/-- Live settings of a fire input. -/
def State.inputCfg (s : State) (f : InputNo) : InputSettings := s.store.live.inputs[f.val]

/-- Live settings of a closure. -/
def State.closureCfg (s : State) (c : ClosureNo) : ClosureSettings := s.store.live.closures[c.val]

/-- Live settings of a sector. -/
def State.sectorCfg (s : State) (n : SectorNo) : SectorSettings := s.store.live.sectors[n.val]

/-- A live pattern. -/
def State.patternCfg (s : State) (p : PatternNo) : Pattern := s.store.live.patterns[p.val]

/-- One operation for each of a list of objects, in the list's order. -/
def forEach {α : Type} (l : List α) (f : α → State → State) (s : State) : State :=
  l.foldl (fun s a => f a s) s

/-- One operation for every object of a kind, in number order. -/
def forAll {k : Nat} (f : Fin k → State → State) (s : State) : State := forEach (List.finRange k) f s

/-! ### The uptime clock and timers -/

/-- The instant `ms` milliseconds from now. -/
def State.after (s : State) (ms : Nat) : Instant := s.uptime + BitVec.ofNat 32 ms

/-- Whether an instant has been reached: instants are ordered by their difference from the present one, so that the
wrap of the clock does not disturb them (R32, R139). -/
def reached (now t : Instant) : Bool := (now - t).toNat < 2 ^ 31

/-- Whether a timer runs and its expiry has been reached. -/
def State.expired (s : State) : Option Instant → Bool
  | none => false
  | some t => reached s.uptime t

/-- Milliseconds since an instant. -/
def State.since (s : State) (t : Instant) : Nat := (s.uptime - t).toNat

/-- Milliseconds until an instant, 0 once it has been reached. -/
def State.until_ (s : State) (t : Instant) : Nat := if reached s.uptime t then 0 else (t - s.uptime).toNat

/-- Milliseconds remaining of a timer; `none` while it is stopped. -/
def State.remaining (s : State) : Option Instant → Option Nat
  | none => none
  | some t => some (s.until_ t)

/-- The present point of time. -/
def State.stamp (s : State) : Stamp := ⟨s.uptime, s.tenth⟩

/-- Tenths of a millisecond since a point of time. -/
def State.tenthsSince (s : State) (p : Stamp) : Nat := s.since p.at_ * 10 + s.tenth.val - p.tenth.val

/-! ### History and reports -/

/-- A record joins the ring: it takes the next sequence number, and a full ring loses its oldest (R167). -/
def History.add (h : History) (at_ : Instant) (k : RecordKind) (objKind objNum : Byte) (d : Detail) : History :=
  { records := (h.records ++ [(⟨h.next, at_, k, objKind, objNum, d⟩ : Record)]).drop
      (h.records.length + 1 - Config.historyCapacity)
    next := h.next + 1 }

/-- Writes a history record at the present instant, whatever the link does (R167). -/
def State.record (s : State) (k : RecordKind) (objKind objNum : Byte) (d : Detail) : State :=
  { s with history := s.history.add s.uptime k objKind objNum d }

/-- The two report queues (R161). -/
inductive Queue where
  | alarm | notice
  deriving DecidableEq, Repr

/-- Places a report at the end of a queue; a full queue drops it and sets the dropped flag (R161). -/
def Link.report (k : Link) (q : Queue) (f : Frame) : Link :=
  match q with
  | .alarm =>
    if k.alarm.length < Config.alarmCapacity then { k with alarm := k.alarm ++ [f] } else { k with dropped := true }
  | .notice =>
    if k.notice.length < Config.noticeCapacity then { k with notice := k.notice ++ [f] }
    else { k with dropped := true }

/-- Places a report of the part. -/
def State.report (s : State) (q : Queue) (f : Frame) : State := { s with link := s.link.report q f }

/-- Payload of every report but SPARK: instant, object and the detail of its record (R188). -/
def reportPayload (at_ : Instant) (objKind objNum : Byte) (d : Detail) : Payload :=
  enc32 at_ ++ [objKind, objNum, d.d0, d.d1, d.d2, d.d3, d.d4]

/-- An event of note that is both recorded and reported (R161, R188): the history record, then the report of kind
`rk` made from it. -/
def State.event (s : State) (q : Queue) (k : RecordKind) (rk : Byte) (objKind objNum : Byte) (d : Detail) : State :=
  (s.record k objKind objNum d).report q ⟨rk, reportPayload s.uptime objKind objNum d⟩

/-- An event of one object. -/
def State.objEvent (s : State) (q : Queue) (k : RecordKind) (rk : Byte) (o : Obj) (d : Detail) : State :=
  s.event q k rk o.kindCode (byteOf o.num) d

/-! ### Disablement entries -/

/-- Whether an entry is ACTIVE (R139). -/
def Entry.active (e : Entry) : Bool := e.activated.isSome

/-- The entry of a target; the table holds at most one (R139). -/
def State.entryOf (s : State) (t : Target) : Option Entry := s.dis.entries.find? (fun e => e.target = t)

/-- Whether a target has an ACTIVE entry. -/
def State.disabled (s : State) (t : Target) : Bool :=
  match s.entryOf t with
  | none => false
  | some e => e.active

/-- Whether a target has an entry, PENDING or ACTIVE. -/
def State.hasEntry (s : State) (t : Target) : Bool := (s.entryOf t).isSome

/-- Disablement state code of an entry (R181): PENDING 1, ACTIVE without limit 2, ACTIVE with limit 3. -/
def Entry.code (e : Entry) : Byte := if e.active then (if e.limit = 0 then 2 else 3) else 1

/-- A target's disablement state code; 0 for none. -/
def entryCode : Option Entry → Byte
  | none => 0
  | some e => e.code

/-- The limit of a target's entry; 0 for none. -/
def entryLimit : Option Entry → Nat
  | none => 0
  | some e => e.limit

/-! ### Causes -/

/-- The record a source holds; the list holds at most one (R80). -/
def State.causeOf (s : State) (src : Source) : Option Cause := s.causes.find? (fun r => r.source = src)

/-- Level of the cause a source holds. -/
def State.causeLevel (s : State) (src : Source) : Option Level := (s.causeOf src).map (·.level)

end Sys2Proof.Machine
end

