-- ==== Sys2Proof/Machine/Flags.lean ====
section
/-! DEFINITION. The fault sets ZON keeps for every object and the FAULT output (section 5.6). The owning block
decides when a fault is raised or cleared; what follows is here. -/

namespace Sys2Proof.Machine

/-- Whether a fault set holds a fault. -/
def hasFault (set : FaultSet) (f : FaultCode) : Bool := set.getLsbD (f.num - 1)

/-- The set of one fault. -/
def FaultCode.bit (f : FaultCode) : FaultSet := (1 : FaultSet) <<< (f.num - 1)

/-- A fault set with a fault added. -/
def addFault (set : FaultSet) (f : FaultCode) : FaultSet := set ||| f.bit

/-- A fault set with a fault removed. -/
def dropFault (set : FaultSet) (f : FaultCode) : FaultSet := set &&& ~~~f.bit

/-- The fault set of an object; fire inputs, zones and sectors have none (section 5.6). -/
def FaultTable.get (t : FaultTable) : Obj → FaultSet
  | .detector d => t.detectors[d.val]
  | .line n => t.lines[n.val]
  | .station n => t.stations[n.val]
  | .closure c => t.closures[c.val]
  | .store => t.store
  | .fireInput _ | .zone _ | .sector _ => 0

/-- Puts the fault set of an object. -/
def FaultTable.put (t : FaultTable) (o : Obj) (set : FaultSet) : FaultTable :=
  match o with
  | .detector d => { t with detectors := t.detectors.set d.val set d.isLt }
  | .line n => { t with lines := t.lines.set n.val set n.isLt }
  | .station n => { t with stations := t.stations.set n.val set n.isLt }
  | .closure c => { t with closures := t.closures.set c.val set c.isLt }
  | .store => { t with store := set }
  | .fireInput _ | .zone _ | .sector _ => t

/-- Whether any object holds a fault. -/
def FaultTable.any (t : FaultTable) : Bool :=
  t.detectors.toList.any (· != 0) || t.lines.toList.any (· != 0) || t.stations.toList.any (· != 0) ||
    t.closures.toList.any (· != 0) || t.store != 0

/-- No object holds a fault: the table right after a reset (R101). -/
def FaultTable.empty : FaultTable :=
  ⟨Vector.replicate 24 0, Vector.replicate 8 0, Vector.replicate 8 0, Vector.replicate 16 0, 0⟩

/-- Whether an object holds a fault. -/
def State.holds (s : State) (o : Obj) (f : FaultCode) : Bool := hasFault (s.faults.get o) f

/-- What the FAULT output must be (R97): on while any object holds a fault or any entry is ACTIVE. -/
def State.faultDue (s : State) : Bool := s.faults.any || s.dis.entries.any Entry.active

/-- Derives the FAULT output anew (R97). -/
def State.deriveFault (s : State) : State := { s with faultOutput := s.faultDue }

/-- The queue of a fault report: NO-WATER raised goes on the alarm queue, every other change on the notice queue
(R96). -/
def faultQueue (f : FaultCode) (raised : Bool) : Queue :=
  if f = .noWater ∧ raised = true then .alarm else .notice

/-- A change of a fault set: recorded, reported, and the FAULT output derived anew (R96, R97). -/
def State.putFault (s : State) (o : Obj) (f : FaultCode) (raised : Bool) : State :=
  let set := s.faults.get o
  let s := { s with faults := s.faults.put o (if raised then addFault set f else dropFault set f) }
  (s.objEvent (faultQueue f raised) .fault 0x45 o { d0 := byteOf f.num, d1 := flagByte raised }).deriveFault

/-- An owner raises a fault; a fault already held is left as it is (R96). -/
def State.raiseFault (s : State) (o : Obj) (f : FaultCode) : State :=
  if s.holds o f then s else s.putFault o f true

/-- An owner clears a fault; a fault not held is left as it is (R96). -/
def State.clearFault (s : State) (o : Obj) (f : FaultCode) : State :=
  if s.holds o f then s.putFault o f false else s

end Sys2Proof.Machine
end

