-- ==== Sys2Proof/Machine/DisableTable.lean ====
section
/-! DEFINITION. The changes of the disablement table that other blocks bring about: the record and report of every
change (R149), and the activation of a PENDING entry when its owner falls idle (R146). -/

namespace Sys2Proof.Machine

/-- Actions of a DISABLEMENT record (R185). -/
inductive DisAction where
  | prepared | discarded | created | activated | removed | sequenceError | latchCleared
  deriving DecidableEq, Repr

/-- Action code (R185). -/
def DisAction.code : DisAction → Byte
  | .prepared => 1 | .discarded => 2 | .created => 3 | .activated => 4 | .removed => 5 | .sequenceError => 6
  | .latchCleared => 7

/-- A change of the table, recorded and reported on the notice queue (R149). -/
def State.disEvent (s : State) (a : DisAction) (t : Option Target) (entry : Byte) (limit : Nat) (reason : Byte) :
    State :=
  let d : Detail := ⟨a.code, entry, highByte limit, lowByte limit, reason⟩
  match t with
  | none => s.event .notice .disablement 0x49 0 0 d
  | some t => s.objEvent .notice .disablement 0x49 (targetObj t) d

/-- An entry becomes ACTIVE: its activation time is the present instant, and its expiry is set from its limit
(R146). -/
def Entry.activate (e : Entry) (now : Instant) : Entry :=
  { e with
    activated := some now
    expiry := if e.limit = 0 then none else some (now + BitVec.ofNat 32 (e.limit * 60000)) }

/-- The owner of a target reports the end of activity: a PENDING entry becomes ACTIVE (R146), and ZON derives the
FAULT output anew (R97). Without a PENDING entry nothing happens. That the ACTIVATED record stands after those of the
owner's own change, as VALVE or CLOSURE, is the model's choice (log entry 13). -/
def State.endActivity (t : Target) (s : State) : State :=
  match s.entryOf t with
  | none => s
  | some e =>
    if e.active then s
    else
      let e' := e.activate s.uptime
      let s := { s with dis := { s.dis with entries := s.dis.entries.map fun (x : Entry) => if x.target = t then e' else x } }
      (s.disEvent .activated (some t) e'.code e.limit 0).deriveFault

end Sys2Proof.Machine
end

