-- ==== Sys2Proof/Machine/SirenPlay.lean ====
section
/-! DEFINITION. How a siren sector plays and how it follows the causes (chapter 7): patterns and cycles, the output,
the demand, and the rise and fall of demand. -/

namespace Sys2Proof.Machine

/-! ### Patterns and cycles (R125) -/

/-- The phases of a pattern's steps in order, those of length 0 passed over (R125). -/
def Pattern.phases (p : Pattern) : List Phase :=
  ([(1, p.onTimes[0], p.offTimes[0]), (2, p.onTimes[1], p.offTimes[1]), (3, p.onTimes[2], p.offTimes[2]),
    (4, p.onTimes[3], p.offTimes[3])].take p.stepCount).flatMap
    (fun x => [(⟨x.1, true, x.2.1 * 10⟩ : Phase), ⟨x.1, false, x.2.2 * 10⟩]) |>.filter (fun x => x.ms != 0)

/-- Total length of some phases in ms. -/
def phasesLength (l : List Phase) : Nat := l.foldl (fun n x => n + x.ms) 0

/-- A cycle started now from a list of phases; none from an empty cycle (R125). -/
def cycleOf (s : State) : List Phase → Option Cycle
  | [] => none
  | p :: rest => some ⟨p, rest, s.uptime, s.after (phasesLength (p :: rest)), s.after p.ms⟩

/-- What SIRENn must be (R126). -/
def State.sirenDue (s : State) (n : SectorNo) : Bool :=
  let x := s.sector n
  (x.state == .sounding || x.state == .test) &&
    (match x.cycle with
     | none => false
     | some c => c.phase.on) && !s.disabled (.sector n)

/-- The output follows the phase, the state and the disablement (R126). -/
def State.refreshSiren (n : SectorNo) (s : State) : State :=
  s.setSector n { s.sector n with siren := s.sirenDue n }

/-- A cycle of the playing pattern starts now, with the pattern as it stands in the live tables (R125). -/
def State.startCycle (n : SectorNo) (s : State) : State :=
  let phases :=
    match (s.sector n).pattern with
    | none => []
    | some p => (s.patternCfg p).phases
  (s.setSector n { s.sector n with cycle := cycleOf s phases }).refreshSiren n

/-- The pattern a sector plays at a demand (section 7.3). -/
def SectorSettings.patternFor (cfg : SectorSettings) : Demand → Option PatternNo
  | .none => none
  | .alert => cfg.alertPattern
  | .fire => cfg.firePattern

/-- A change of state or of playing level is recorded and reported (R127); `before` is the sector as it was. -/
def State.noteSector (n : SectorNo) (before : Sector) (s : State) : State :=
  let x := s.sector n
  if before.state = x.state ∧ before.playing = x.playing then s
  else
    s.objEvent .notice .sector 0x47 (.sector n)
      ⟨before.state.code, x.state.code, x.demand.code, x.playing.code, byteOf (numberOrZero x.pattern)⟩

/-! ### Demand (R124) -/

/-- Whether a record stands at ALERT or FIRE in a zone of the sector's set. -/
def State.standsFor (s : State) (n : SectorNo) (r : Cause) : Bool :=
  zoneIn (s.sectorCfg n).zones r.zone && (r.level == .alert || r.level == .fire)

/-- Whether a cause counts for a sector (R124). -/
def State.countsFor (s : State) (n : SectorNo) (r : Cause) : Bool := s.standsFor n r && !sectorIn r.silenced n

/-- The sector's demand: the highest level among the causes that count for it (R124). -/
def State.demandOf (s : State) (n : SectorNo) : Demand :=
  if s.causes.any (fun r => s.countsFor n r && r.level == .fire) then .fire
  else if s.causes.any (s.countsFor n) then .alert
  else .none

/-- The state without a demand and outside TEST: SILENCED while a cause at ALERT or FIRE stands in the sector's
zones, QUIET otherwise (R123). -/
def State.restState (s : State) (n : SectorNo) : SectorState :=
  if s.causes.any (s.standsFor n) then .silenced else .quiet

/-- A rise in demand, taken at once (R128); it also ends a test (R133). -/
def State.riseSector (n : SectorNo) (d : Demand) (s : State) : State :=
  let x := s.sector n
  let x' :=
    { x with
      state := .sounding
      demand := d
      playing := d
      pendingLevel := .none
      pattern := (s.sectorCfg n).patternFor d
      soundingSince := if x.state = .sounding then x.soundingSince else some s.uptime
      testEnd := none }
  ((s.setSector n x').startCycle n).noteSector n x

/-- The sector stops playing: a fall to none (R129), a silencing (R130) or the end of a test (R133). -/
def State.stopSector (n : SectorNo) (st : SectorState) (s : State) : State :=
  let x := s.sector n
  let x' :=
    { x with
      state := st
      demand := .none
      playing := .none
      pendingLevel := .none
      pattern := none
      cycle := none
      soundingSince := none
      testEnd := none }
  ((s.setSector n x').refreshSiren n).noteSector n x

/-- The playing level switches to `d` and a cycle of its pattern starts (R129). -/
def State.switchSector (n : SectorNo) (d : Demand) (s : State) : State :=
  let x := s.sector n
  let x' := { x with playing := d, pendingLevel := .none, pattern := (s.sectorCfg n).patternFor d }
  ((s.setSector n x').startCycle n).noteSector n x

/-- The sector derives its demand and its state anew from the cause list (R123, R124), and takes the rise (R128) or
the fall (R129) that follows. -/
def State.deriveSector (n : SectorNo) (s : State) : State :=
  let x := s.sector n
  let d := s.demandOf n
  match x.state with
  | .test => if d = .none then s.setSector n { x with demand := .none } else s.riseSector n d
  | .sounding =>
    if d = .none then s.stopSector n (s.restState n)
    else if x.playing.rank < d.rank then s.riseSector n d
    else if d = x.playing then s.setSector n { x with demand := d, pendingLevel := .none }
    else if x.cycle.isSome then s.setSector n { x with demand := d, pendingLevel := d }
    else (s.setSector n { x with demand := d }).switchSector n d
  | .quiet | .silenced =>
    if d = .none then (s.setSector n { x with state := s.restState n, demand := .none }).noteSector n x
    else s.riseSector n d

/-- The end of a cycle (R125, R129, R135): a pending level takes over, otherwise the pattern of the playing level is
taken as it stands; in TEST the test pattern goes on. The next cycle starts at once. -/
def State.endCycle (n : SectorNo) (s : State) : State :=
  let x := s.sector n
  if x.state = .sounding then
    if x.pendingLevel = .none then s.switchSector n x.playing else s.switchSector n x.pendingLevel
  else s.startCycle n

/-! ### Zone levels and settings handed to the sectors -/

/-- The higher of two levels. -/
def Level.max (a b : Level) : Level := if a.rank < b.rank then b else a

/-- The highest level among the zones of a set (R124). -/
def State.highestOf (s : State) (set : ZoneSet) : Level :=
  (List.finRange 16).foldl (fun l z => if zoneIn set z then l.max (s.zone z).level else l) .quiet

/-- The sector updates the highest zone level it shows (R124). -/
def State.refreshHighest (n : SectorNo) (s : State) : State :=
  s.setSector n { s.sector n with highest := s.highestOf (s.sectorCfg n).zones }

/-- A cause change of a zone is handed to every sector whose set contains it (R83). -/
def State.handSectors (z : ZoneNo) (s : State) : State :=
  forAll (fun n s => if zoneIn (s.sectorCfg n).zones z then s.deriveSector n else s) s

/-- A change of zone level is handed to every sector whose set contains the zone, for display (R92). -/
def State.showSectors (z : ZoneNo) (s : State) : State :=
  forAll (fun n s => if zoneIn (s.sectorCfg n).zones z then s.refreshHighest n else s) s

/-- After a write of a sector's zone set (R136). -/
def State.sectorZonesWritten (n : SectorNo) (s : State) : State := (s.refreshHighest n).deriveSector n

/-- After a write of the pattern number for a level: a sector playing that level with no cycle running takes it at
once (R135). -/
def State.sectorPatternWritten (n : SectorNo) (level : Demand) (s : State) : State :=
  let x := s.sector n
  if x.state = .sounding ∧ x.playing = level ∧ x.cycle.isNone then s.switchSector n level else s

/-- After a write to the pattern table: every sector playing that pattern with no cycle running starts one (R135). -/
def State.patternWritten (p : PatternNo) (s : State) : State :=
  forAll (fun n s =>
    if (s.sector n).pattern = some p ∧ (s.sector n).cycle.isNone then s.startCycle n else s) s

end Sys2Proof.Machine
end

