-- ==== Sys2Proof/Machine/ClosureMoves.lean ====
section
/-! DEFINITION. The moves of one closure that do not concern its line (chapter 6): the change of state with its
output, record and faults, the entries to READY, RELEASING and SHUT, and the end of a damper's wait. -/

namespace Sys2Proof.Machine

/-- Position from the two limit inputs (R103). -/
def Closure.position (c : Closure) : Position := if c.cshut then .closed else if c.copen then .opened else .mid

/-- The HOLD output of a state and direction (R102). -/
def holdFor (st : ClosureState) (dir : Direction) : Bool :=
  match st with
  | .held | .ready | .waiting => true
  | .releasing | .shut => false
  | .stuck => dir == .opening

/-- A release in progress, a closure's work in hand (R117). -/
def ClosureState.moving (st : ClosureState) : Bool := st == .waiting || st == .releasing

/-- A change of a closure's state (R102, R104): HOLD follows the state, the change is recorded and reported, the
STUCK fault is held exactly in STUCK (R111), and leaving WAITING and RELEASING ends a PENDING entry's wait (R117).
`timers` sets the timers, `origin` is carried where the change is a release. A change to the same state is none. -/
def State.moveClosure (c : ClosureNo) (st : ClosureState) (dir : Direction) (origin : ReleaseOrigin)
    (timers : Closure → Closure) (s : State) : State :=
  let x := s.closure c
  if x.state = st then s
  else
    let x' := { timers x with state := st, direction := dir, hold := holdFor st dir, entered := s.uptime }
    let s := (s.setClosure c x').objEvent (if st = .stuck then .alarm else .notice) .closure 0x46 (.closure c)
      ⟨(s.closureCfg c).kind.code, x.state.code, st.code, dir.code, origin.code⟩
    let s :=
      if st = .stuck then s.raiseFault (.closure c) .stuck
      else if x.state = .stuck then s.clearFault (.closure c) .stuck
      else s
    if x.state.moving && !st.moving then s.endActivity (.closure c) else s

/-- RELEASING with its travel timer started (R110). -/
def State.startTravel (c : ClosureNo) (origin : ReleaseOrigin) (s : State) : State :=
  let t := s.after ((s.closureCfg c).travelTime * 1000)
  s.moveClosure c .releasing .none origin (fun x => { x with travelTimer := some t, waitTimer := none })

/-- HOLD turns off at a release: SHUT where the position is CLOSED, RELEASING otherwise (R106, R107). -/
def State.letGo (c : ClosureNo) (origin : ReleaseOrigin) (s : State) : State :=
  if (s.closure c).position = .closed then
    s.moveClosure c .shut .none origin (fun x => { x with travelTimer := none, waitTimer := none })
  else s.startTravel c origin

/-- HELD: all timers stopped. -/
def State.holdOpen (c : ClosureNo) (s : State) : State :=
  s.moveClosure c .held .none .none (fun x => { x with travelTimer := none, waitTimer := none })

/-- SHUT by its limit input: all timers stopped. -/
def State.shutClosure (c : ClosureNo) (s : State) : State :=
  s.moveClosure c .shut .none .none (fun x => { x with travelTimer := none, waitTimer := none })

/-- Entry to READY (R113): on to HELD at once where the position is OPEN; otherwise a DAMPER starts its travel
timer. -/
def State.makeReady (c : ClosureNo) (s : State) : State :=
  let cfg := s.closureCfg c
  let opened := (s.closure c).position = .opened
  let timer := if cfg.kind = .damper ∧ ¬opened then some (s.after (cfg.travelTime * 1000)) else none
  let s := s.moveClosure c .ready .none .none (fun x => { x with travelTimer := timer, waitTimer := none })
  if opened then s.holdOpen c else s

/-- The end of a damper's wait (R109): it passes to RELEASING and, where it finds itself CLOSED, on to SHUT, each of the
two changes recorded and reported (R104). A closure in any other state takes no action. -/
def State.endWait (c : ClosureNo) (s : State) : State :=
  if (s.closure c).state = .waiting then
    let s := s.startTravel c .none
    if (s.closure c).position = .closed then s.shutClosure c else s
  else s

/-- Whether a closure is a damper assigned to a line. -/
def State.damperOf (s : State) (n : LineNo) (c : ClosureNo) : Bool :=
  (s.closureCfg c).kind == .damper && (s.closureCfg c).line == some n

/-- A line's change to OFF or STOPPED, or its fan stopped, is handed to the dampers assigned to it (R109). -/
def State.endWaits (n : LineNo) (s : State) : State :=
  forAll (fun c s => if s.damperOf n c then s.endWait c else s) s

end Sys2Proof.Machine
end

