-- ==== Sys2Proof/Machine/LineMoves.lean ====
section
/-! DEFINITION. The moves of one extraction line (chapter 4): the change of state with its outputs, record and
hand-over to the dampers, the entries to each state, the stop causes, and blindness. -/

namespace Sys2Proof.Machine

/-- FANn of a state (R56). -/
def fanFor : LineState → Bool
  | .starting | .run | .abort => true
  | .off | .stopping | .stopped => false

/-- FEEDn of a state (R56). -/
def feedFor : LineState → Bool
  | .run => true
  | _ => false

/-- GATEn of a state (R56): in STOPPING and STOPPED it stands as it did on entry. -/
def gateFor (st : LineState) (stood : Bool) : Bool :=
  match st with
  | .abort => true
  | .stopping | .stopped => stood
  | .off | .starting | .run => false

/-- The queue of a LINE-STATE report (R57). -/
def lineQueue : LineState → Queue
  | .abort | .stopping | .stopped => .alarm
  | .off | .starting | .run => .notice

/-- A change of a line's state (R56, R57): the outputs change with it, it is recorded and reported, and a change to
OFF or STOPPED is handed to the dampers waiting on the line's fan (R109). `f` sets the timers and the counter. -/
def State.moveLine (n : LineNo) (st : LineState) (cause : StopCause) (f : Line → Line) (s : State) : State :=
  let x := s.line n
  let x' :=
    { f x with
      state := st
      stopCause := cause
      entered := s.uptime
      fan := fanFor st
      feed := feedFor st
      gate := gateFor st x.gate }
  let s := (s.setLine n x').objEvent (lineQueue st) .lineState 0x44 (.line n)
    ⟨x.state.code, st.code, cause.code, 0, 0⟩
  if st = .off ∨ st = .stopped then s.endWaits n else s

/-- The counting window restarted: one full period from now, or absent when spark_window is 0 (R62). -/
def State.freshWindow (s : State) (n : LineNo) : Option Instant :=
  let w := (s.lineCfg n).sparkWindow
  if w = 0 then none else some (s.after (w * 100))

/-- C cleared and the counting window restarted (R62, R64). -/
def State.restartCount (n : LineNo) (s : State) : State :=
  s.setLine n { s.line n with counter := 0, countWindow := s.freshWindow n }

/-- Whether the fan has run down: FSTOPn active, or V_f below floor(v_min / 4) (R73). -/
def State.fanDown (s : State) (n : LineNo) : Bool :=
  (s.line n).fstop || decide ((s.meter n).vf < (s.lineCfg n).vMin / 4)

/-- Entry to STOPPED (R73): START-FAIL is raised here where it is the stop cause. That the records stand in the order
LINE-STATE, CLOSURE of the dampers let go (R109), FAULT is the model's choice (log entry 13). -/
def State.stopDone (n : LineNo) (s : State) : State :=
  let cause := (s.line n).stopCause
  let s := s.moveLine n .stopped cause (fun x => { x with rundownTimer := none })
  if cause = .startFail then s.raiseFault (.line n) .startFail else s

/-- The end condition of STOPPING tested (R73): an orderly stop ends in OFF, any other in STOPPED. -/
def State.testRundown (n : LineNo) (s : State) : State :=
  if (s.line n).state = .stopping ∧ s.fanDown n = true then
    if (s.line n).stopCause = .orderly then
      s.moveLine n .off .none (fun x => { x with rundownTimer := none, gateTimer := none })
    else s.stopDone n
  else s

/-- Entry to STOPPING (R73), with the end condition tested on entry. -/
def State.stopLine (n : LineNo) (cause : StopCause) (s : State) : State :=
  let t := s.after ((s.lineCfg n).rundownTimeout * 1000)
  (s.moveLine n .stopping cause
    (fun x => { x with startTimer := none, dwellTimer := none, rundownTimer := some t })).testRundown n

/-- Entry to ABORT (R65, R66): the dwell timer starts, and the gate timer unless GOPENn is active. -/
def State.abortLine (n : LineNo) (cause : StopCause) (s : State) : State :=
  let cfg := s.lineCfg n
  let dwell := s.after (cfg.abortDwell * 1000)
  let gate := s.after (cfg.gateTime * 1000)
  s.moveLine n .abort cause (fun x =>
    { x with startTimer := none, dwellTimer := some dwell, gateTimer := if x.gopen then none else some gate })

/-- Entry to RUN (R60), or on through STOPPING for a blind line with blind_stop on (R72). -/
def State.runLine (n : LineNo) (s : State) : State :=
  let s := s.moveLine n .run .none (fun x => { x with startTimer := none })
  if (s.lineCfg n).blindStop && s.holds (.line n) .blind then s.stopLine n .blind else s

/-- A protective trigger from outside the line: a trip zone at FIRE (R68) or a damper's stop demand (R69). -/
def State.protectLine (n : LineNo) (cause : StopCause) (s : State) : State :=
  let x := s.line n
  match x.state with
  | .starting | .run | .abort => s.stopLine n cause
  | .stopping => if x.stopCause = .orderly then s.setLine n { x with stopCause := cause } else s
  | .off | .stopped => s

/-! ### Blindness (R71) -/

/-- Whether a detector is assigned to a line. -/
def State.assigned (s : State) (n : LineNo) (d : DetNo) : Bool := (s.detCfg d).line == some n

/-- Whether a detector is neither faulted nor disabled (R71). -/
def State.usable (s : State) (d : DetNo) : Bool := s.faults.get (.detector d) == 0 && !s.disabled (.detector d)

/-- Whether a line is blind: no detector assigned to it is usable (R71). -/
def State.isBlind (s : State) (n : LineNo) : Bool :=
  (List.finRange 24).all fun d => !(s.assigned n d && s.usable d)

/-- Blindness judged anew for one line (R71). -/
def State.judgeLine (n : LineNo) (s : State) : State :=
  let x := s.line n
  let b := s.isBlind n
  if b = x.blind then s
  else if b then
    s.setLine n { x with blind := true, blindTimer := some (s.after ((s.lineCfg n).blindLimit * 1000)) }
  else (s.setLine n { x with blind := false, blindTimer := none }).clearFault (.line n) .blind

/-- Blindness judged anew for every line, after a change of a detector's fault, disablement or line (R71). -/
def State.judgeBlind (s : State) : State := forAll State.judgeLine s

end Sys2Proof.Machine
end

