-- ==== Sys2Proof/Machine/Release.lean ====
section
/-! DEFINITION. The release of a closure (section 6.2), the damper's demand to its line (R108), and the tests of a
closure's zones. -/

namespace Sys2Proof.Machine

/-- Whether the fan of a damper's line is running (R107). -/
def State.fanRunning (s : State) (c : ClosureNo) : Bool :=
  match (s.closureCfg c).line with
  | none => false
  | some n =>
    let x := s.line n
    (x.state == .starting || x.state == .run || x.state == .abort || x.state == .stopping) && !x.fstop

/-- Whether a release or trigger acts on a closure in its state (R105). -/
def Closure.releasable (x : Closure) : Bool :=
  x.state == .held || x.state == .ready || (x.state == .stuck && x.direction == .opening)

/-- A damper hands its line a stop demand (R108). -/
def State.demandStop (c : ClosureNo) (s : State) : State :=
  match (s.closureCfg c).line with
  | none => s
  | some n => s.protectLine n .damper

/-- A damper that leaves HELD hands its line a stop demand while the line is STARTING, RUN or ABORT (R108). -/
def State.demandIfRunning (c : ClosureNo) (s : State) : State :=
  match (s.closureCfg c).line with
  | none => s
  | some n =>
    let st := (s.line n).state
    if st = .starting ∨ st = .run ∨ st = .abort then s.protectLine n .damper else s

/-- A release under section 6.2 (R106, R107): in a state where it acts, the origin is kept; a PASSAGE lets go at once;
a DAMPER waits while its fan is running and demands that its line stop. -/
def State.releaseClosure (c : ClosureNo) (origin : ReleaseOrigin) (s : State) : State :=
  let x := s.closure c
  if x.releasable then
    let s := s.setClosure c { x with origin := origin }
    let cfg := s.closureCfg c
    match cfg.kind with
    | .passage => s.letGo c origin
    | .damper =>
      if s.fanRunning c then
        let t := s.after (cfg.waitMax * 1000)
        (s.moveClosure c .waiting .none origin
          (fun x => { x with travelTimer := none, waitTimer := some t })).demandStop c
      else
        let s := s.letGo c origin
        if x.state = .held then s.demandIfRunning c else s
  else s

/-- Whether a zone stands at or above a closure's trigger level. -/
def State.triggers (s : State) (c : ClosureNo) (z : ZoneNo) : Bool :=
  zoneIn (s.closureCfg c).zones z && decide ((s.closureCfg c).trigger.level.rank ≤ (s.zone z).level.rank)

/-- A change of zone level handed to a closure (R105): a trigger releases it unless it has an ACTIVE entry. -/
def State.triggerClosure (z : ZoneNo) (c : ClosureNo) (s : State) : State :=
  if s.triggers c z && !s.disabled (.closure c) then s.releaseClosure c (.zone z) else s

/-- The lowest-numbered zone of a closure's set at or above its trigger level. -/
def State.firstTrigger (s : State) (c : ClosureNo) : Option ZoneNo := firstOf (s.triggers c)

/-- The closure tests its zones: after its entry is removed (R117), or its zones or trigger level are written
(R119). -/
def State.testZones (c : ClosureNo) (s : State) : State :=
  match s.firstTrigger c with
  | none => s
  | some z => if s.disabled (.closure c) then s else s.releaseClosure c (.zone z)

end Sys2Proof.Machine
end

