-- ==== Sys2Proof/Machine/Causes.lean ====
section
/-! DEFINITION. The cause list and the zone levels (sections 5.1 and 5.4): raising and removing a record, the derived
level of a zone, and the handing on of both kinds of change. -/

namespace Sys2Proof.Machine

/-- The level of a zone as its records give it: the highest among them, QUIET when there are none (R92). -/
def levelOfZone (l : List Cause) (z : ZoneNo) : Level :=
  l.foldl (fun m r => if r.zone = z then m.max r.level else m) .quiet

/-- The cause change recorded and reported (R82). -/
def State.causeEvent (s : State) (r : Cause) (before after : Option Level) : State :=
  let type : Byte :=
    match r.source with
    | .fireInput f => (s.inputCfg f).type.code
    | _ => 0
  s.objEvent .notice .cause 0x42 r.source.obj
    ⟨byteOf (number r.zone), levelCode before, levelCode after, flagByte r.latched, type⟩

/-! ### Zone levels (R92) -/

/-- A change of zone level handed to every closure whose set contains the zone, in number order (R92, R105). -/
def State.handClosures (z : ZoneNo) (s : State) : State := forAll (State.triggerClosure z) s

/-- A change of zone level handed to every line whose trip zone set contains the zone (R92, R68): a level of FIRE
trips the line. -/
def State.handLines (z : ZoneNo) (s : State) : State :=
  forAll (fun n s =>
    if zoneIn (s.lineCfg n).tripZones z && (s.zone z).level == .fire then s.protectLine n .fire else s) s

/-- Whether a line takes a protective cause now: it is STARTING, RUN or ABORT (R68, R69), or STOPPING with ORDERLY
while its fan runs, so that a damper released now enters WAITING and demands its stop (R58, R108). -/
def Line.stoppable (x : Line) : Bool :=
  x.state == .starting || x.state == .run || x.state == .abort ||
    (x.state == .stopping && x.stopCause == .orderly && !x.fstop)

/-- Whether a change to FIRE reaches a line both through a damper's release and through the trip (R92). R92 names the
states STARTING, RUN and ABORT; that either may be taken first at a line STOPPING with ORDERLY too, whose cause the first
of the two replaces, is the model's choice (log entry 5). -/
def State.raced (s : State) (z : ZoneNo) (n : LineNo) : Bool :=
  (s.zone z).level == .fire && zoneIn (s.lineCfg n).tripZones z && (s.line n).stoppable &&
    (List.finRange 16).any fun c =>
      s.triggers c z && !s.disabled (.closure c) && (s.closure c).releasable && s.damperOf n c

/-- At a line reached both ways, either the trip or the release may be taken first (R92): a free value decides, for
each such line by itself, whether the trip is (log entry 5). The trips taken first are taken in number order, before the
first closure (log entry 13). -/
def State.tripEarly (z : ZoneNo) (n : LineNo) (s : State) : State :=
  if s.raced z n then
    let s' := { s with freeCount := s.freeCount + 1 }
    if Config.freeTripFirst s.freeCount then s'.protectLine n .fire else s'
  else s

/-- A change of zone level handed to closures and lines (R92): to the closures first, but for the lines whose trip is
taken before a damper's release. A trip already taken finds its line's cause protective and does nothing more. -/
def State.handOn (z : ZoneNo) (s : State) : State :=
  ((forAll (State.tripEarly z) s).handClosures z).handLines z

/-- ZON derives the level of a zone anew; a change of level is recorded, reported on the alarm queue and handed on to
closures, lines and sectors (R92). -/
def State.deriveZone (z : ZoneNo) (s : State) : State :=
  let old := (s.zone z).level
  let new := levelOfZone s.causes z
  if old = new then s
  else
    let s := (s.setZone z ⟨new, some s.uptime⟩).objEvent .alarm .zoneLevel 0x43 (.zone z)
      { d0 := old.code, d1 := new.code }
    (s.handOn z).showSectors z

/-- What follows a cause change that stands alone in its event (R83): the zone's level, then the sectors' demands; of
the two neither waits on the other, and the order is the model's choice (log entry 13). -/
def State.causeChanged (z : ZoneNo) (s : State) : State := (s.deriveZone z).handSectors z

/-- The end of an event that may make several cause changes (R92): the level of every zone whose records no longer give
the level they gave `before` the event is derived once, after all of them; the zones are taken in number order (log
entry 13). -/
def State.deriveChanged (before : List Cause) (s : State) : State :=
  forAll (fun z s => if levelOfZone before z = levelOfZone s.causes z then s else s.deriveZone z) s

/-! ### Raising and removing (R81, R82) -/

/-- Whether the latched flag of a record raised at a level is set by its source (R81). -/
def latchedFor (src : Source) (l : Level) : Bool :=
  match src with
  | .line _ => true
  | .fireInput _ => l == .fire
  | .detector _ | .station _ => false

/-- A source raises its cause at a level in a zone (R81): a new record, a rise, or a refresh. `hold` is the hold
expiry of a detector's record (R84); `after` is what follows a cause change of the record's zone. -/
def State.raiseThen (after : ZoneNo → State → State) (src : Source) (z : ZoneNo) (l : Level) (hold : Option Instant)
    (s : State) : State :=
  match s.causeOf src with
  | none =>
    let r : Cause := ⟨src, z, l, latchedFor src l, s.uptime, s.uptime, 0, hold⟩
    after z (({ s with causes := s.causes ++ [r] }).causeEvent r none (some l))
  | some r =>
    if r.level.rank < l.rank then
      let r' := { r with level := l, latched := r.latched || latchedFor src l, changed := s.uptime, silenced := 0,
                         hold := hold }
      after r.zone (({ s with causes := s.causes.map fun (x : Cause) => if x.source = src then r' else x }).causeEvent
        r' (some r.level) (some l))
    else
      { s with causes := s.causes.map fun (x : Cause) =>
          if x.source = src then { x with changed := s.uptime, hold := hold } else x }

/-- The raise of an event's only cause (R81, R83). -/
def State.raiseCause (src : Source) (z : ZoneNo) (l : Level) (hold : Option Instant) (s : State) : State :=
  s.raiseThen State.causeChanged src z l hold

/-- A raise in an event that may make several cause changes: the sectors are handed the change, and the zones are derived
once at the event's end (R83, R92, deriveChanged). -/
def State.putCause (src : Source) (z : ZoneNo) (l : Level) (hold : Option Instant) (s : State) : State :=
  s.raiseThen State.handSectors src z l hold

/-- A record leaves the list: the change is recorded and reported (R82); the zone is not yet derived. -/
def State.dropCause (src : Source) (s : State) : State :=
  match s.causeOf src with
  | none => s
  | some r => ({ s with causes := s.causes.filter fun (x : Cause) => x.source ≠ src }).causeEvent r (some r.level) none

/-- A source's record is removed, with what follows a cause change; without a record nothing happens (R82, R83). -/
def State.removeCause (src : Source) (s : State) : State :=
  match s.causeOf src with
  | none => s
  | some r => (s.dropCause src).causeChanged r.zone

end Sys2Proof.Machine
end

