-- ==== Sys2Proof/Machine/LinkOps.lean ====
section
/-! DEFINITION. The operations of the message link that every command uses (chapter 9): the inbound buffer with the
part hold state, the reply slot, the taking of a request, and the transmitter's choice of the next frame. -/

namespace Sys2Proof.Machine

/-- The outcome of a command of this machine. -/
abbrev Out := Host.Outcome State Fault Refusal

/-- The part's flow frames (R157, R181). -/
def flowFrame : Flow → Frame
  | .hold => ⟨0x70, []⟩
  | .go => ⟨0x71, []⟩

/-- Whenever the transmitter is IDLE and a frame is waiting, it begins one, in the order of preference of R159: the
pending flow frame; then, unless the host hold is set, the reply, the oldest alarm report, the oldest notice. -/
def Link.choose (k : Link) (p : Stamp) : Link :=
  if k.sending.isSome then k
  else
    match k.flow with
    | some f => { k with flow := none, sending := some ⟨flowFrame f, p⟩ }
    | none =>
      if k.hostHeld then k
      else
        match k.slot, k.alarm, k.notice with
        | some f, _, _ => { k with slot := none, sending := some ⟨f, p⟩ }
        | none, f :: rest, _ => { k with alarm := rest, sending := some ⟨f, p⟩ }
        | none, [], f :: rest => { k with notice := rest, sending := some ⟨f, p⟩ }
        | none, [], [] => k

/-- The transmitter's choice at the end of a step (R159). -/
def State.settle (s : State) : State := { s with link := s.link.choose s.stamp }

/-- A command's outcome: its effect, after which the transmitter begins a frame if it is idle. -/
def done (s : State) : Out := .next s.settle

/-- An entry is offered to the inbound buffer (R155); reaching 4 entries sets the part hold (R157). -/
def Link.offer (k : Link) (e : Inbound) : Link :=
  if k.buffer.length < Config.bufferCapacity then
    let k' := { k with buffer := k.buffer ++ [e] }
    if k'.buffer.length = Config.bufferCapacity ∧ k.partHolding = false then
      { k' with partHolding := true, flow := some .hold }
    else k'
  else k

/-- The oldest entry leaves the buffer; falling to 1 entry releases the part hold (R156, R157). -/
def Link.pop (k : Link) : Link :=
  match k.buffer with
  | [] => k
  | _ :: rest =>
    if k.partHolding = true ∧ rest.length = 1 then
      { k with buffer := rest, partHolding := false, flow := some .go }
    else { k with buffer := rest }

/-- Whether an entry may be taken (R156): the reply slot is empty and no restart is pending. -/
def Link.mayTake (k : Link) : Bool := k.slot.isNone && !k.restartPending

/-- The link once an entry is taken, or `none` where it cannot be taken now. An entry is taken when it is the oldest
of the buffer, or when it arrives with the buffer empty (log entry 2). -/
def Link.claim (k : Link) (e : Inbound) : Option Link :=
  if k.mayTake then
    match k.buffer with
    | [] => some k
    | o :: _ => if o = e then some k.pop else none
  else none

/-- The taking of an entry (R156): the answer is placed in the reply slot at the same instant. An entry that cannot be
taken now is offered to the buffer (R155). -/
def take (e : Inbound) (answer : State → State × Frame) (s : State) : Out :=
  match s.link.claim e with
  | none => done { s with link := s.link.offer e }
  | some k =>
    let r := answer { s with link := k }
    done { r.1 with link := { r.1.link with slot := some r.2 } }

/-- The taking of a request of a kind (R156): a payload of the wrong length is refused BAD-LENGTH with the expected
length; otherwise the owning block decides it and returns one reply or one refusal. -/
def request (kind : Byte) (p : Payload) (owner : State → State × Answer) (s : State) : Out :=
  take (.request kind p) (fun s =>
    let len := (requestLength kind).getD 0
    if p.length = len then
      let r := owner s
      (r.1, r.2.frame kind)
    else (s, refusedFrame kind .badLength len)) s

/-- A refusal that changes nothing (R160). -/
def refuse (s : State) (r : Reason) (detail : Nat) : State × Answer := (s, .refuse r detail)

end Sys2Proof.Machine
end

