-- ==== Sys2Proof/Machine/Air.lean ====
section
/-! DEFINITION. Velocity meters and the transit computation (chapter 2). The end of a gate concerns the line too and
stands in Machine/Lines.lean; here are its arithmetic and the meter's own part. -/

namespace Sys2Proof.Machine

/-- Raw velocity of a gate count (R22): floor(N × K / 25), clamped to 10,000 cm/s. -/
def rawVelocity (count kFactor : Nat) : Nat := min (count * kFactor / 25) 10000

/-- The filter (R23): floor((3 × V_f + v + 2) / 4). -/
def filtered (vf v : Nat) : Nat := (3 * vf + v + 2) / 4

/-- The meter after a gate end (R21 to R24): counts, raw velocity, filter, low-flow run count, and the next gate begun
at the same instant. -/
def Meter.endGate (m : Meter) (cfg : LineSettings) (now : Instant) : Meter :=
  let v := rawVelocity m.count cfg.kFactor
  let vf := filtered m.vf v
  { m with
    gateStart := some now
    count := 0
    lastCount := some m.count
    lastRaw := some v
    vf := vf
    lowRun := if vf < cfg.vMin then min (m.lowRun + 1) 4 else 0
    gateEnds := min (m.gateEnds + 1) 65535 }

/-- Whether a gate in progress has run its 250 ms (R21). -/
def State.gateDue (s : State) (n : LineNo) : Bool :=
  (s.meter n).running &&
    match (s.meter n).gateStart with
    | none => false
    | some t => reached s.uptime (t + 250)

/-- VELOCITY_PULSE: a leading edge on VELn is counted while measurement is RUNNING; the count stops at 4095 (R21). -/
def execVelocityPulse (n : LineNo) (s : State) : Out :=
  let m := s.meter n
  if m.running then done (s.setMeter n { m with count := min (m.count + 1) 4095 }) else done s

/-- Measurement stops on the change to WATCH (R25). -/
def Meter.stop (m : Meter) : Meter :=
  if m.running then
    { m with running := false, gateStart := none, count := 0, lastCount := none, lastRaw := none, vf := 0,
             lowRun := 0, gateEnds := 0 }
  else m

/-- Measurement starts, on the change to DAY (R26) or at a reset (R34). -/
def Meter.fresh (now : Instant) : Meter :=
  { running := true, gateStart := some now, count := 0, lastCount := none, lastRaw := none, vf := 0, lowRun := 0,
    gateEnds := 0 }

/-- A stopped meter starts on the change to DAY (R26). -/
def Meter.start (m : Meter) (now : Instant) : Meter := if m.running then m else Meter.fresh now

/-! ### The transit computation (R28 to R32) -/

/-- The transit of a spark (R30): ceil(D × 1,000 / V_f) in ms. -/
def transit (distance vf : Nat) : Nat := (distance * 1000 + vf - 1) / vf

/-- The margin (R30): floor(T × u / 64). -/
def margin (t u : Nat) : Nat := t * u / 64

/-- What a transit computation yields: a FLOOD window, or a timed one with its offsets and LATE flag. -/
inductive Shot where
  | flood (hold : Nat)
  | timed (start stop : Nat) (late : Bool)
  deriving DecidableEq, Repr

/-- The computation of R29 to R31 from distance, filtered velocity and the line's settings. The test against v_min
comes first, so the transit is computed only with V_f at least v_min. -/
def shotOf (distance vf : Nat) (cfg : LineSettings) : Shot :=
  if vf < cfg.vMin then .flood cfg.floodHold
  else
    let t := transit distance vf
    if 8191 < t then .flood cfg.floodHold
    else
      let a := cfg.valveLatency
      let p := margin t cfg.uncertainty
      let h := cfg.windowHold
      .timed (t - (a + p)) (if a ≤ t + p then t + p - a + h else h) (decide (t < a))

/-- The window record handed to the station (R32). -/
def Shot.window (w : Shot) (d : DetNo) (now : Instant) : Window :=
  match w with
  | .flood hold => ⟨now, now + BitVec.ofNat 32 (hold * 1000), .flood, false, 1⟩
  | .timed a b late => ⟨now + BitVec.ofNat 32 a, now + BitVec.ofNat 32 b, .detector d, late, 1⟩

end Sys2Proof.Machine
end

