-- ==== Sys2Proof/Machine/Stations.lean ====
section
/-! DEFINITION. The extinguishing stations (chapter 3): the window list with its merging, the valve, water
confirmation, NO-WATER, and the station requests. -/

namespace Sys2Proof.Machine

/-! ### Windows (R35 to R39) -/

/-- An instant as a signed difference from the present one (R35, R181). -/
def rel (now t : Instant) : Int := (t - now).toInt

/-- The gap between two windows (R35): from the end of the one that starts first to the start of the other; below 0
where they overlap. -/
def gap (now : Instant) (a b : Window) : Int :=
  if rel now a.start ≤ rel now b.start then rel now b.start - rel now a.stop
  else rel now a.start - rel now b.stop

/-- The listed window nearest to a window; on a tie the earlier-starting, which is listed first (R37, R38). -/
def nearest (now : Instant) (w : Window) : List Window → Option Window
  | [] => none
  | v :: rest =>
    match nearest now w rest with
    | none => some v
    | some u => if gap now w u < gap now w v then some u else some v

/-- The hull of a listed window and the window being inserted (R39). -/
def hull (now : Instant) (listed w : Window) : Window :=
  let first := if rel now w.start < rel now listed.start then w else listed
  { start := first.start
    stop := if rel now listed.stop < rel now w.stop then w.stop else listed.stop
    origin := first.origin
    late := listed.late || w.late
    merged := min (listed.merged + w.merged) 255 }

/-- A window placed in a list at its place by start (R37). -/
def place (now : Instant) (w : Window) : List Window → List Window
  | [] => [w]
  | v :: rest => if rel now w.start < rel now v.start then w :: v :: rest else v :: place now w rest

/-- The merge rule (R37): while a listed window lies at a gap of 50 ms or less, the nearest is joined to the window
being inserted; then it is placed. Each step removes one listed window, so the list's length bounds the steps. -/
def absorb (now : Instant) : Nat → Window → List Window → List Window
  | 0, w, l => place now w l
  | k + 1, w, l =>
    match nearest now w l with
    | none => place now w l
    | some v => if gap now w v ≤ 50 then absorb now k (hull now v w) (l.erase v) else place now w l

/-- An accepted window inserted into a list, and whether that took a forced merge (R37, R38): with four records listed
and none within 50 ms, the nearest is joined first. -/
def insertWindow (now : Instant) (w : Window) (l : List Window) : List Window × Bool :=
  match nearest now w l with
  | none => (place now w l, false)
  | some v =>
    if 50 < gap now w v ∧ Config.windowCapacity ≤ l.length then
      (absorb now l.length (hull now v w) (l.erase v), true)
    else (absorb now l.length w l, false)

/-- Whether a window contains the present instant. -/
def Window.running (w : Window) (now : Instant) : Bool := reached now w.start && !reached now w.stop

/-! ### The valve (R41 to R46) -/

/-- The confirm timer of a station as it starts now, if it does (R43, R45): not while NO-WATER is held. -/
def State.confirmStart (s : State) (n : LineNo) : Option Instant :=
  if s.holds (.station n) .noWater then none else some (s.after s.store.live.general.confirmTime)

/-- The valve output turns on (R42, R43, R44): OPENING with the confirm timer started, or OPEN where WCONFn is already
active. -/
def State.turnOn (n : LineNo) (s : State) : State :=
  let x := s.station n
  s.setStation n
    { x with
      valveOn := true
      valve := if x.wconf then .opened else .opening
      outputOn := some s.uptime
      waterConfirmed := x.wconf
      waterSeen := x.wconf
      confirmTimer := if x.wconf then none else s.confirmStart n }

/-- Whether the first window of a station's list is to turn the output on now (R41). -/
def State.windowDue (s : State) (n : LineNo) : Bool :=
  let x := s.station n
  match x.windows with
  | [] => false
  | w :: _ => w.running s.uptime && !x.valveOn && !s.disabled (.station n)

/-- The state of the station after a window has been accepted (R42): the output turns on where the first window has
started; otherwise a CLOSED station is ARMED. -/
def State.afterInsert (n : LineNo) (s : State) : State :=
  if s.windowDue n then s.turnOn n
  else if (s.station n).valve = .closed then s.setStation n { s.station n with valve := .armed }
  else s

/-- A window is offered to a station (R36): refused under an ACTIVE entry, otherwise inserted. -/
def State.offerWindow (n : LineNo) (w : Window) (s : State) : State :=
  let x := s.station n
  let x := { x with offered := min (x.offered + 1) 65535 }
  if s.disabled (.station n) then s.setStation n { x with refused := min (x.refused + 1) 65535 }
  else
    let r := insertWindow s.uptime w x.windows
    (s.setStation n
      { x with windows := r.1, forced := if r.2 then min (x.forced + 1) 65535 else x.forced }).afterInsert n

/-- The detail of a VALVE record (R46, R185). -/
def valveDetail (timeOn : Nat) (seen : Bool) (w : Window) : Detail :=
  let t := min timeOn 0xFFFFFF
  { d0 := BitVec.ofNat 8 (t / 65536)
    d1 := BitVec.ofNat 8 (t / 256)
    d2 := BitVec.ofNat 8 t
    d3 := BitVec.ofNat 8 ((if seen then 1 else 0) + (if w.late then 2 else 0) + w.origin.code.toNat * 4)
    d4 := byteOf w.merged }

/-- The first window leaves the list (R40): where the output was on it turns off, and a VALVE record is written (R46);
an empty list ends a PENDING entry's wait (R52), whose ACTIVATED record stands after VALVE: the model's choice (log entry
13). "Water confirmed" and "water seen" keep their values until the output next turns on: the model's choice (log entry
40). -/
def State.endWindow (n : LineNo) (s : State) : State :=
  let x := s.station n
  match x.windows with
  | [] => s
  | w :: rest =>
    let s1 := s.setStation n
      { x with
        windows := rest
        valveOn := false
        valve := if rest.isEmpty then .closed else .armed
        outputOn := none
        confirmTimer := none }
    let s2 :=
      match x.valveOn, x.outputOn with
      | true, some t =>
        s1.record .valve (Obj.station n).kindCode (byteOf (number n)) (valveDetail (s.since t) x.waterSeen w)
      | _, _ => s1
    if rest.isEmpty then s2.endActivity (.station n) else s2

/-- Whether the first window of a station's list has reached its end (R40). -/
def State.windowOver (s : State) (n : LineNo) : Bool :=
  match (s.station n).windows with
  | [] => false
  | w :: _ => reached s.uptime w.stop

/-- WINDOW_START: the start of the first listed window is reached and the valve output turns on (R41). -/
def execWindowStart (n : LineNo) (s : State) : Out :=
  if s.windowDue n then done (s.turnOn n) else done s

/-- WINDOW_END: the window leaves the list at its end instant (R40). -/
def execWindowEnd (n : LineNo) (s : State) : Out :=
  if s.windowOver n then done (s.endWindow n) else done s

/-- WCONF_ACTIVE: the input becomes active; an OPENING station confirms water and is OPEN (R44). -/
def execWconfActive (n : LineNo) (s : State) : Out :=
  let x := { s.station n with wconf := true }
  if x.valve = .opening then
    done (s.setStation n
      { x with valve := .opened, waterConfirmed := true, waterSeen := true, confirmTimer := none })
  else done (s.setStation n x)

/-- WCONF_INACTIVE: the input becomes inactive; an OPEN station returns to OPENING and the confirm timer starts anew
unless NO-WATER is held (R45). -/
def execWconfInactive (n : LineNo) (s : State) : Out :=
  let x := { s.station n with wconf := false }
  if x.valve = .opened then
    done (s.setStation n { x with valve := .opening, waterConfirmed := false, confirmTimer := s.confirmStart n })
  else done (s.setStation n x)

/-- Whether a station's confirm timer expires in OPENING (R47). -/
def State.confirmDue (s : State) (n : LineNo) : Bool :=
  (s.station n).valve == .opening && s.expired (s.station n).confirmTimer

/-- NO-WATER (R47 to R49): the fault, the station cause at ALERT in the line's zone, and the demand on a STARTING or
RUN line, whose state is read at the raising of the fault. -/
def State.noWater (n : LineNo) (s : State) : State :=
  let s := s.setStation n { s.station n with confirmTimer := none }
  let s := s.raiseFault (.station n) .noWater
  let st := (s.line n).state
  let s := if st = .starting ∨ st = .run then s.abortLine n .noWater else s
  match (s.lineCfg n).zone with
  | none => s
  | some z => s.raiseCause (.station n) z .alert none

/-- CONFIRM_TIMER_EXPIRED: no water within confirm_time (R47). -/
def execConfirmTimerExpired (n : LineNo) (s : State) : Out :=
  if s.confirmDue n then done (s.noWater n) else done s

/-! ### Requests -/

/-- RESET-STATION (R50). That the clearing of the fault is recorded before the removal of the cause is the model's choice
(log entry 13). -/
def State.resetStationReq (num : Nat) (s : State) : State × Answer :=
  match numbered 8 num with
  | none => refuse s .badObject 0
  | some n =>
    if (s.station n).valveOn then refuse s .state 0
    else
      let held := s.holds (.station n) .noWater
      ((s.clearFault (.station n) .noWater).removeCause (.station n), .reply [flagByte held])

/-- The window FLOOD-STATION offers (R51). -/
def manualWindow (now : Instant) (seconds : Nat) : Window :=
  ⟨now, now + BitVec.ofNat 32 (seconds * 1000), .manual, false, 1⟩

/-- FLOOD-STATION (R51). The reply gives the record of the list that contains the present instant after insertion. -/
def State.floodReq (num seconds : Nat) (s : State) : State × Answer :=
  match numbered 8 num with
  | none => refuse s .badObject 0
  | some n =>
    if s.hasEntry (.station n) then refuse s .disabled 0
    else
      let secs := clamp 1 120 seconds
      let s := s.offerWindow n (manualWindow s.uptime secs)
      let s := s.record .manualFlood (Obj.station n).kindCode (byteOf (number n)) { d0 := byteOf secs }
      let w := ((s.station n).windows.find? (fun w => w.running s.uptime)).getD (manualWindow s.uptime secs)
      (s, .reply (enc32 (w.start - s.uptime) ++ enc32 (w.stop - s.uptime) ++ [w.origin.code, byteOf w.merged]))

/-- RESET_STATION: the request RESET-STATION {line} (R50). -/
def execResetStation (p : Payload) (s : State) : Out := request 0x0C p (State.resetStationReq (byteAt p 0)) s

/-- FLOOD_STATION: the request FLOOD-STATION {line, seconds} (R51). -/
def execFloodStation (p : Payload) (s : State) : Out :=
  request 0x0D p (State.floodReq (byteAt p 0) (byteAt p 1)) s

end Sys2Proof.Machine
end

