-- ==== Sys2Proof/Machine/Lines.lean ====
section
/-! DEFINITION. The events and requests of the extraction lines (chapter 4), and the spark counter. -/

namespace Sys2Proof.Machine

/-! ### The spark counter (R62, R63, R74) -/

/-- The line raises its own cause in the zone its setting names; with zone 0 no cause is raised (R74). It is one of the
raises of its event: a delivery (R15) or a restart (R79), at whose end the zones are derived (R92). -/
def State.raiseLineCause (n : LineNo) (l : Level) (s : State) : State :=
  match (s.lineCfg n).zone with
  | none => s
  | some z => s.putCause (.line n) z l none

/-- Escalation (R63): C is cleared and the counting window restarted, an ESCALATION record is written, and the line
escalates by its state, its line cause being raised after the change of state (log entry 12). -/
def State.escalate (n : LineNo) (count : Nat) (d : DetNo) (s : State) : State :=
  let s := s.restartCount n
  let x := s.line n
  let s := s.record .escalation (Obj.line n).kindCode (byteOf (number n))
    ⟨x.state.code, highByte count, lowByte count, byteOf (number d), 0⟩
  match x.state with
  | .starting | .run => (s.abortLine n .escalation).raiseLineCause n .alert
  | .abort => (s.stopLine n .fire).raiseLineCause n .fire
  | .stopping =>
    (if x.stopCause = .orderly then s.setLine n { x with stopCause := .fire } else s).raiseLineCause n .fire
  | .off | .stopped => s.raiseLineCause n .fire

/-- A delivery's weight is added to C, which stops at 1,023; reaching the threshold escalates (R62, R63). -/
def State.countSpark (n : LineNo) (weight : Nat) (d : DetNo) (s : State) : State :=
  let c := min ((s.line n).counter + weight) 1023
  if (s.lineCfg n).sparkThreshold ≤ c then s.escalate n c d
  else s.setLine n { s.line n with counter := c }

/-! ### Timers and inputs of a line -/

/-- START_TIMER_EXPIRED: a STARTING line enters STOPPING with START-FAIL (R60). -/
def execStartTimerExpired (n : LineNo) (s : State) : Out :=
  let x := s.line n
  if x.state = .starting ∧ s.expired x.startTimer = true then done (s.stopLine n .startFail) else done s

/-- ABORT_DWELL_EXPIRED: the line enters STOPPING with the stop cause kept (R67). -/
def execAbortDwellExpired (n : LineNo) (s : State) : Out :=
  let x := s.line n
  if x.state = .abort ∧ s.expired x.dwellTimer = true then done (s.stopLine n x.stopCause) else done s

/-- GATE_TIMER_EXPIRED: GATE is raised, and a line in ABORT enters STOPPING with GATE (R66). The fault is recorded first,
as R66 lists the two (log entry 13). -/
def execGateTimerExpired (n : LineNo) (s : State) : Out :=
  let x := s.line n
  if s.expired x.gateTimer then
    let s := (s.setLine n { x with gateTimer := none }).raiseFault (.line n) .gate
    if x.state = .abort then done (s.stopLine n .gate) else done s
  else done s

/-- RUNDOWN_TIMER_EXPIRED: RUNDOWN is raised and the line enters STOPPED, whatever the stop cause (R73). The fault is
recorded first, as R73 lists the two (log entry 13). -/
def execRundownTimerExpired (n : LineNo) (s : State) : Out :=
  let x := s.line n
  if x.state = .stopping ∧ s.expired x.rundownTimer = true then
    done ((s.raiseFault (.line n) .rundown).stopDone n)
  else done s

/-- BLIND_TIMER_EXPIRED: BLIND is raised (R71), and with blind_stop on a line in RUN stops (R72). That the fault is
recorded before the change of state is the model's choice (log entry 13). -/
def execBlindTimerExpired (n : LineNo) (s : State) : Out :=
  let x := s.line n
  if s.expired x.blindTimer then
    let s := (s.setLine n { x with blindTimer := none }).raiseFault (.line n) .blind
    if x.state = .run ∧ (s.lineCfg n).blindStop = true then done (s.stopLine n .blind) else done s
  else done s

/-- COUNTING_WINDOW_EXPIRED: C is cleared and the window restarts (R62). -/
def execCountingWindowExpired (n : LineNo) (s : State) : Out :=
  if s.expired (s.line n).countWindow then done (s.restartCount n) else done s

/-- FSTOP_ACTIVE: FSTOPn takes a level; becoming active it ends a rundown (R73) and a damper's wait (R109). -/
def execFstopActive (n : LineNo) (active : Bool) (s : State) : Out :=
  let s := s.setLine n { s.line n with fstop := active }
  if active then done ((s.testRundown n).endWaits n) else done s

/-- GOPEN_ACTIVE: GOPENn takes a level; becoming active it stops the gate timer (R66). -/
def execGopenActive (n : LineNo) (active : Bool) (s : State) : Out :=
  let x := s.line n
  done (s.setLine n { x with gopen := active, gateTimer := if active then none else x.gateTimer })

/-- What a gate end does at the line (R24): the end of STARTING (R60), the low-flow stop in RUN (R70), and the test of
rundown (R73). LOW-FLOW is recorded before the change of state, as R70 lists the two (log entry 13). -/
def State.gateAtLine (n : LineNo) (s : State) : State :=
  match (s.line n).state with
  | .starting => if (s.lineCfg n).vMin ≤ (s.meter n).vf then s.runLine n else s
  | .run =>
    if (s.meter n).lowRun = 4 then (s.raiseFault (.line n) .lowFlow).stopLine n .lowFlow else s
  | .stopping => s.testRundown n
  | .off | .abort | .stopped => s

/-- GATE_END: the meter's gate ends, and the line controller is handed V_f and the low-flow run count (R21 to R24). -/
def execGateEnd (n : LineNo) (s : State) : Out :=
  if s.gateDue n then done ((s.setMeter n ((s.meter n).endGate (s.lineCfg n) s.uptime)).gateAtLine n) else done s

/-! ### Requests -/

/-- The lowest-numbered damper of a line in a state other than HELD (R59, R102). -/
def State.damperNotHeld (s : State) (n : LineNo) : Option ClosureNo :=
  firstOf fun c => s.damperOf n c && (s.closure c).state != .held

/-- The lowest-numbered trip zone of a line standing at FIRE (R59). -/
def State.tripAtFire (s : State) (n : LineNo) : Option ZoneNo :=
  firstOf fun z => zoneIn (s.lineCfg n).tripZones z && (s.zone z).level == .fire

/-- The lowest-numbered trip zone of a line holding a FIRE cause of a fire input (R75). -/
def State.tripHeldByInput (s : State) (n : LineNo) : Option ZoneNo :=
  firstOf fun z => zoneIn (s.lineCfg n).tripZones z &&
    s.causes.any fun r => r.zone == z && r.level == .fire &&
      match r.source with
      | .fireInput _ => true
      | _ => false

/-- START-LINE (R59, R60). -/
def State.startReq (num : Nat) (s : State) : State × Answer :=
  match numbered 8 num with
  | none => refuse s .badObject 0
  | some n =>
    if (s.line n).state ≠ .off then refuse s .state (s.line n).state.code.toNat
    else if s.shift ≠ .day then refuse s .watch 0
    else
      match s.causeLevel (.line n), s.damperNotHeld n, s.tripAtFire n with
      | some l, _, _ => refuse s .cause l.rank
      | none, some c, _ => refuse s .damper (number c)
      | none, none, some z => refuse s .zoneActive (number z)
      | none, none, none =>
        let ms := (s.lineCfg n).startTimeout * 1000
        let w := s.freshWindow n
        let t := s.after ms
        (s.moveLine n .starting .none
          (fun x => { x with counter := 0, countWindow := w, startTimer := some t }),
          .reply (enc32 (BitVec.ofNat 32 ms)))

/-- STOP-LINE (R61). -/
def State.stopReq (num : Nat) (s : State) : State × Answer :=
  match numbered 8 num with
  | none => refuse s .badObject 0
  | some n =>
    match (s.line n).state with
    | .abort => refuse s .state 0
    | .starting | .run =>
      let s := s.stopLine n .orderly
      (s, .reply [(s.line n).state.code])
    | .off | .stopping | .stopped => (s, .reply [(s.line n).state.code])

/-- The faults RESET-LINE clears, in the order R75 lists them. -/
def resetLineFaults : List FaultCode := [.lowFlow, .gate, .rundown, .startFail]

/-- The faults among a list that an object holds, as a fault set. -/
def State.heldAmong (s : State) (o : Obj) (l : List FaultCode) : FaultSet :=
  l.foldl (fun set f => if s.holds o f then addFault set f else set) 0

/-- What an accepted RESET-LINE does (R75). -/
def State.clearLine (n : LineNo) (s : State) : State :=
  let x := s.line n
  let s :=
    if x.state = .off then s.setLine n { x with gate := false, gateTimer := none }
    else s.moveLine n .off .none (fun x => { x with gateTimer := none })
  let s := s.removeCause (.line n)
  let s := forEach resetLineFaults (fun f s => s.clearFault (.line n) f) s
  s.restartCount n

/-- RESET-LINE (R75). -/
def State.resetLineReq (num : Nat) (s : State) : State × Answer :=
  match numbered 8 num with
  | none => refuse s .badObject 0
  | some n =>
    let x := s.line n
    if ¬(x.state = .stopped ∨ x.state = .off ∧ (s.causeOf (.line n)).isSome) then refuse s .state x.state.code.toNat
    else if (s.station n).windows ≠ [] then refuse s .state (s.station n).windows.length
    else
      match s.tripHeldByInput n with
      | some z => refuse s .zoneActive (number z)
      | none =>
        let cleared := s.heldAmong (.line n) resetLineFaults
        (s.clearLine n, .reply (enc16 cleared.toNat))

/-- START_LINE: the request START-LINE {line} (R59). -/
def execStartLine (p : Payload) (s : State) : Out := request 0x08 p (State.startReq (byteAt p 0)) s

/-- STOP_LINE: the request STOP-LINE {line} (R61). -/
def execStopLine (p : Payload) (s : State) : Out := request 0x09 p (State.stopReq (byteAt p 0)) s

/-- RESET_LINE: the request RESET-LINE {line} (R75). -/
def execResetLine (p : Payload) (s : State) : Out := request 0x0A p (State.resetLineReq (byteAt p 0)) s

end Sys2Proof.Machine
end

