-- ==== Sys2Proof/Machine/Detectors.lean ====
section
/-! DEFINITION. The detector channels (chapter 1): loop supervision, pulses and glare, qualification, WATCH
confirmation, and the delivery of sparks. -/

namespace Sys2Proof.Machine

/-! ### Loop supervision (R1 to R6) -/

/-- The effective mode from the configured mode and the shift mode (R1). -/
def effectiveMode (cfg : Supervision) (shift : Shift) : Supervision :=
  match cfg, shift with
  | .off, _ => .off
  | .continuous, .day => .continuous
  | .continuous, .watch => .periodic
  | .periodic, _ => .periodic

/-- Interval between sample starts in ms (R2); an OFF channel takes no samples. -/
def sampleInterval : Supervision → Nat
  | .continuous => 125
  | .periodic => 4000
  | .off => 0

/-- A sample starts now (R2). -/
def State.startSample (d : DetNo) (s : State) : State :=
  s.setDet d { s.det d with busy := true, lastStart := some s.uptime }

/-- Whether the next sample of a channel is to start (R2): it is IDLE, not OFF, and one interval has passed since the
start of the last sample. -/
def State.sampleStartDue (s : State) (d : DetNo) : Bool :=
  let x := s.det d
  !x.busy && x.mode != .off &&
    match x.lastStart with
    | none => true
    | some t => reached s.uptime (t + BitVec.ofNat 32 (sampleInterval x.mode))

/-- Whether the sample in flight has lasted its 8 ms (R2). -/
def State.sampleEndDue (s : State) (d : DetNo) : Bool :=
  (s.det d).busy &&
    match (s.det d).lastStart with
    | none => true
    | some t => reached s.uptime (t + 8)

/-- A candidate is discarded: an UNCONFIRMED record with the reason, and no report (R14). -/
def State.dropCandidate (d : DetNo) (reason : Byte) (s : State) : State :=
  match (s.det d).candidate with
  | none => s
  | some c =>
    (s.setDet d { s.det d with candidate := none }).record .unconfirmed (Obj.detector d).kindCode
      (byteOf (number d)) { d0 := emberCode c.ember, d1 := byteOf c.weight, d2 := reason }

/-- A supervision or glare fault is raised: a candidate held is discarded with reason FAULT (R5, R9, R14). That the FAULT
record stands before UNCONFIRMED is the model's choice (log entry 13). -/
def State.raiseDet (d : DetNo) (f : FaultCode) (s : State) : State :=
  if s.holds (.detector d) f then s else (s.raiseFault (.detector d) f).dropCandidate d 2

/-- The two run counts after a sample at a level (R4). -/
def runCounts (openRun shortRun level : Nat) : Nat × Nat :=
  (if level ≤ 1 then min (openRun + 1) 4 else 0, if level = 15 then min (shortRun + 1) 4 else 0)

/-- The level of a completed sample applied to the run counts and the faults (R4, R5). That the fault raised is recorded
before the one cleared is the model's choice (log entry 13). -/
def State.applyLevel (d : DetNo) (level : Fin 16) (s : State) : State :=
  let x := s.det d
  let r := runCounts x.openRun x.shortRun level.val
  let s := s.setDet d { x with busy := false, lastLevel := some level, openRun := r.1, shortRun := r.2 }
  let o := Obj.detector d
  if r.1 = 4 ∧ s.holds o .openLoop = false then (s.raiseDet d .openLoop).clearFault o .short
  else if r.2 = 4 ∧ s.holds o .short = false then (s.raiseDet d .short).clearFault o .openLoop
  else if 3 ≤ level.val ∧ level.val ≤ 12 then (s.clearFault o .openLoop).clearFault o .short
  else if level.val = 13 ∨ level.val = 14 then s.clearFault o .openLoop
  else s

/-- A channel turned OFF (R6). -/
def State.turnOff (d : DetNo) (s : State) : State :=
  let s := s.setDet d { s.det d with mode := .off, nextMode := none, busy := false, lastLevel := none, openRun := 0,
                                     shortRun := 0 }
  (s.clearFault (.detector d) .openLoop).clearFault (.detector d) .short

/-- A new effective mode takes hold while no sample is in flight (R3, R6). A sample starts at once on leaving OFF, and
where the recomputed next start is not later than now. -/
def State.takeMode (d : DetNo) (m : Supervision) (s : State) : State :=
  let x := s.det d
  if m = x.mode then s.setDet d { x with nextMode := none }
  else
    match m with
    | .off => s.turnOff d
    | _ =>
      let s := s.setDet d { x with mode := m, nextMode := none }
      if x.mode = .off ∨ s.sampleStartDue d = true then s.startSample d else s

/-- The effective mode is derived again (R1): applied at once, or at the end of the sample in flight (R3). -/
def State.deriveMode (d : DetNo) (s : State) : State :=
  let m := effectiveMode (s.detCfg d).supervision s.shift
  if (s.det d).busy then s.setDet d { s.det d with nextMode := some m } else s.takeMode d m

/-- A derived mode that waited for the sample takes hold at its end (R3). The next sample starts one interval of the
new mode after the start of the sample that has ended. -/
def State.takeWaitingMode (d : DetNo) (s : State) : State :=
  match (s.det d).nextMode with
  | none => s
  | some .off => s.turnOff d
  | some m => s.setDet d { s.det d with mode := m, nextMode := none }

/-- SAMPLE_START (R2). -/
def execSampleStart (d : DetNo) (s : State) : Out :=
  if s.sampleStartDue d then done (s.startSample d) else done s

/-- SAMPLE_END (R2 to R6): the level is applied, a waiting mode takes hold, and the lines' blindness is judged anew
(R71). -/
def execSampleEnd (d : DetNo) (level : Fin 16) (s : State) : Out :=
  if s.sampleEndDue d then done ((s.applyLevel d level).takeWaitingMode d).judgeBlind else done s

/-! ### Pulses and glare (R7 to R10) -/

/-- Class of a pulse by its width (R8). -/
def classify (w wMin wMax : Nat) : PulseClass :=
  if w < wMin then .noise else if w ≤ wMax then .spark else .ember

/-- PULSE_LEADING_EDGE: a pulse begins (R7); while GLARE is held the dark period is abandoned (R10). -/
def execPulseLeadingEdge (d : DetNo) (s : State) : Out :=
  let x := s.det d
  if x.lit then done s
  else
    done (s.setDet d
      { x with
        lit := true
        lastEdge := some s.uptime
        width := 0
        glare := if s.holds (.detector d) .glare then .glaring else x.glare })

/-- Whether a lit pulse not yet classed GLARE has reached glare_limit (R9). -/
def State.glareDue (s : State) (d : DetNo) : Bool :=
  (s.det d).lit && !s.holds (.detector d) .glare && decide ((s.detCfg d).glareLimit * 10 ≤ (s.det d).width)

/-- A pulse is classed GLARE (R9): the fault is raised, the phase is GLARING and a candidate is discarded. -/
def State.beginGlare (d : DetNo) (s : State) : State :=
  (s.setDet d { s.det d with glare := .glaring }).raiseDet d .glare

/-- GLARE_LIMIT_REACHED (R9), with blindness judged anew (R71). -/
def execGlareLimitReached (d : DetNo) (s : State) : Out :=
  if s.glareDue d then done (s.beginGlare d).judgeBlind else done s

/-- Whether a held GLARE has been dark for glare_clear (R10). -/
def State.glareOver (s : State) (d : DetNo) : Bool :=
  s.holds (.detector d) .glare &&
    match (s.det d).glare with
    | .clearing t => reached s.uptime (t + BitVec.ofNat 32 (s.detCfg d).glareClear)
    | _ => false

/-- GLARE is cleared (R10). -/
def State.endGlare (d : DetNo) (s : State) : State :=
  (s.setDet d { s.det d with glare := .none }).clearFault (.detector d) .glare

/-- GLARE_CLEARED (R10), with blindness judged anew (R71). -/
def execGlareCleared (d : DetNo) (s : State) : Out :=
  if s.glareOver d then done (s.endGlare d).judgeBlind else done s

/-! ### Delivery (R15, R16) -/

/-- The outcome at the station as bits 7–6 of the SPARK detail (R185). -/
inductive SparkOutcome where
  | none | timed | flood | refused
  deriving DecidableEq, Repr

/-- Outcome code (R185). -/
def SparkOutcome.code : SparkOutcome → Nat
  | .none => 0 | .timed => 1 | .flood => 2 | .refused => 3

/-- The SPARK detail (R185). For REFUSED the offsets are those of a timed window, and 0 for a FLOOD window. -/
def sparkDetail (outcome : SparkOutcome) (shot : Option Shot) (ember confirmed : Bool) (line : Nat) : Detail :=
  let se : Nat × Nat × Bool :=
    match shot, outcome with
    | some (.timed a b late), _ => (a, b, late)
    | some (.flood hold), .flood => (0, hold, false)
    | _, _ => (0, 0, false)
  let first := se.1 + (if ember then 32768 else 0)
  { d0 := BitVec.ofNat 8 (outcome.code * 64 + (if se.2.2 then 32 else 0) + (if confirmed then 16 else 0) + line)
    d1 := highByte first
    d2 := lowByte first
    d3 := highByte se.2.1
    d4 := lowByte se.2.1 }

/-- The transit computation of a delivery (R28): none where the detector's line is 0. -/
def State.shotAt (s : State) (d : DetNo) : Option Shot :=
  match (s.detCfg d).line with
  | none => none
  | some n => some (shotOf (s.detCfg d).distance (s.meter n).vf (s.lineCfg n))

/-- The outcome at the station (R16), from the station's disablement at the instant of the offer (R36). -/
def State.outcomeAt (s : State) (d : DetNo) : SparkOutcome :=
  match (s.detCfg d).line, s.shotAt d with
  | some n, some (.timed _ _ _) => if s.disabled (.station n) then .refused else .timed
  | some n, some (.flood _) => if s.disabled (.station n) then .refused else .flood
  | _, _ => .none

/-- The window of a delivery offered to the station of the detector's line (R15, R32). -/
def State.offerSpark (d : DetNo) (s : State) : State :=
  match (s.detCfg d).line, s.shotAt d with
  | some n, some w => s.offerWindow n (w.window d s.uptime)
  | _, _ => s

/-- The weight added to the spark counter of the detector's line (R15, R62). -/
def State.countAt (d : DetNo) (weight : Nat) (s : State) : State :=
  match (s.detCfg d).line with
  | none => s
  | some n => s.countSpark n weight d

/-- The detector's cause raised or refreshed in its zone (R15, R84), held for spark_hold from now. -/
def State.sparkCause (d : DetNo) (s : State) : State :=
  match (s.detCfg d).zone with
  | none => s
  | some z => s.putCause (.detector d) z .spark (some (s.after ((s.detCfg d).sparkHold * 1000)))

/-- One delivery (R15, R16): the window, the delivery count, the SPARK record and report with the same contents, the
line's count, and the zone's cause; then the levels of the zones whose causes have changed, each once (R92). R15 says that
none of the parts uses the outcome of another; the order of their records, SPARK first, then those of the line
(ESCALATION, LINE-STATE, CAUSE), then the detector's CAUSE, then the zone levels, is the model's choice (log entry 13). -/
def State.deliver (d : DetNo) (ember : Bool) (weight : Nat) (confirmed : Bool) (s : State) : State :=
  let detail := sparkDetail (s.outcomeAt d) (s.shotAt d) ember confirmed (numberOrZero (s.detCfg d).line)
  let before := s.causes
  let s := s.offerSpark d
  let s := s.setDet d { s.det d with deliveries := min ((s.det d).deliveries + 1) 65535 }
  let s := s.record .spark (Obj.detector d).kindCode (byteOf (number d)) detail
  let s := s.report .notice ⟨0x41, enc32 s.uptime ++
    [byteOf (number d), detail.d0, detail.d1, detail.d2, detail.d3, detail.d4]⟩
  ((s.countAt d weight).sparkCause d).deriveChanged before

/-! ### Qualification and WATCH confirmation (R11 to R14) -/

/-- Whether a SPARK or EMBER pulse qualifies (R11). -/
def State.qualifies (s : State) (d : DetNo) : Bool := s.usable d

/-- A qualifying pulse in WATCH (R13): it confirms a candidate no older than 1,000 ms, or becomes the candidate. An
older candidate not yet discarded is discarded as EXPIRED first (R14). -/
def State.watchPulse (d : DetNo) (ember : Bool) (weight : Nat) (s : State) : State :=
  let fresh : Candidate := ⟨ember, weight, s.uptime⟩
  match (s.det d).candidate with
  | none => s.setDet d { s.det d with candidate := some fresh }
  | some c =>
    if s.since c.at_ ≤ 1000 then
      (s.setDet d { s.det d with candidate := none }).deliver d (c.ember || ember) (max c.weight weight) true
    else
      let s := s.dropCandidate d 1
      s.setDet d { s.det d with candidate := some fresh }

/-- A qualifying pulse handled by the shift mode at its trailing edge (R11 to R13). -/
def State.qualified (d : DetNo) (ember : Bool) (s : State) : State :=
  let weight := if ember then 4 else 1
  match s.shift with
  | .day => s.deliver d ember weight false
  | .watch => s.watchPulse d ember weight

/-- The pulse goes dark and is recorded as the last pulse (R7, R10). -/
def State.endPulse (d : DetNo) (cls : PulseClass) (s : State) : State :=
  let x := s.det d
  s.setDet d
    { x with
      lit := false
      lastEdge := some s.uptime
      lastPulse := some ⟨x.width, cls, s.uptime⟩
      glare := if s.holds (.detector d) .glare then .clearing s.uptime else x.glare }

/-- PULSE_TRAILING_EDGE: the pulse is recorded, classified and qualified (R7, R8, R11). While GLARE is held it only
times the clearing (R10). -/
def execPulseTrailingEdge (d : DetNo) (s : State) : Out :=
  if (s.det d).lit then
    let cls :=
      if s.holds (.detector d) .glare then .glare
      else classify (s.det d).width (s.detCfg d).wMin (s.detCfg d).wMax
    let q := s.qualifies d
    let s := s.endPulse d cls
    match cls with
    | .spark => if q then done (s.qualified d false) else done s
    | .ember => if q then done (s.qualified d true) else done s
    | .noise | .glare => done s
  else done s

/-- Whether a candidate's confirmation window has run out (R14). -/
def State.candidateOver (s : State) (d : DetNo) : Bool :=
  match (s.det d).candidate with
  | none => false
  | some c => reached s.uptime (c.at_ + 1000)

/-- CANDIDATE_EXPIRED: the candidate is discarded with reason EXPIRED (R14). -/
def execCandidateExpired (d : DetNo) (s : State) : Out :=
  if s.candidateOver d then done (s.dropCandidate d 1) else done s

end Sys2Proof.Machine
end

