-- ==== Sys2Proof/Machine/Zones.lean ====
section
/-! DEFINITION. Zones, fire inputs and shift modes (chapter 5): debouncing, the holds of detector causes, and the
requests RESET-ZONE, READ-CAUSES and SET-SHIFT. -/

namespace Sys2Proof.Machine

/-! ### Fire inputs (R86 to R89) -/

/-- The instant a fire input's debounce timer expires if it starts now (R86). -/
def State.debounceEnd (s : State) (f : InputNo) : Instant := s.after (s.inputCfg f).debounce

/-- A change of the raw input in each debounce phase (R86). -/
def FireInput.edge (x : FireInput) (active : Bool) (expiry : Instant) : FireInput :=
  match x.phase, active with
  | .idle, true => { raw := true, phase := .rising, timer := some expiry }
  | .rising, false => { raw := false, phase := .idle, timer := none }
  | .on, false => { raw := false, phase := .falling, timer := some expiry }
  | .falling, true => { raw := true, phase := .on, timer := none }
  | _, _ => { x with raw := active }

/-- A fire input debounced anew from the level of its raw input (R89, R101). -/
def FireInput.anew (raw : Bool) (expiry : Instant) : FireInput :=
  if raw then { raw := true, phase := .rising, timer := some expiry }
  else { raw := false, phase := .idle, timer := none }

/-- FIRE_INPUT_EDGE (R86). -/
def execFireInputEdge (f : InputNo) (active : Bool) (s : State) : Out :=
  done (s.setInput f ((s.input f).edge active (s.debounceEnd f)))

/-- The INPUT record of a debounced change (R87, R88). -/
def State.inputRecord (f : InputNo) (phase : Debounce) (s : State) : State :=
  s.record .input (Obj.fireInput f).kindCode (byteOf (number f))
    { d0 := phase.code, d1 := (s.inputCfg f).type.code }

/-- The debounced activation (R87): the INPUT record, and the cause unless the input is disabled or has zone 0. -/
def State.inputOn (f : InputNo) (s : State) : State :=
  let s := (s.setInput f { s.input f with phase := .on, timer := none }).inputRecord f .on
  if s.disabled (.fireInput f) then s
  else
    match (s.inputCfg f).zone with
    | none => s
    | some z => s.raiseCause (.fireInput f) z (s.inputCfg f).level.level none

/-- A source's record is removed if it is not latched (R88, R89). -/
def State.removeUnlatched (src : Source) (s : State) : State :=
  match s.causeOf src with
  | none => s
  | some r => if r.latched then s else s.removeCause src

/-- The debounced deactivation (R88): the INPUT record, and the removal of a record that is not latched. -/
def State.inputOff (f : InputNo) (s : State) : State :=
  ((s.setInput f { s.input f with phase := .idle, timer := none }).inputRecord f .idle).removeUnlatched
    (.fireInput f)

/-- DEBOUNCE_TIMER_EXPIRED (R86). -/
def execDebounceTimerExpired (f : InputNo) (s : State) : Out :=
  let x := s.input f
  if s.expired x.timer then
    match x.phase with
    | .rising => done (s.inputOn f)
    | .falling => done (s.inputOff f)
    | .idle | .on => done s
  else done s

/-- Whether a detector's cause has reached its hold expiry (R84). -/
def State.holdOver (s : State) (d : DetNo) : Bool :=
  match s.causeOf (.detector d) with
  | none => false
  | some r => s.expired r.hold

/-- SPARK_HOLD_EXPIRED: the record is removed (R84). -/
def execSparkHoldExpired (d : DetNo) (s : State) : Out :=
  if s.holdOver d then done (s.removeCause (.detector d)) else done s

/-! ### RESET-ZONE (R93) -/

/-- Whether RESET-ZONE of a zone removes a record: a latched record of a fire input whose phase is IDLE (R93). -/
def State.resettable (s : State) (z : ZoneNo) (r : Cause) : Bool :=
  match r.source with
  | .fireInput f => r.zone == z && r.latched && (s.input f).phase == .idle
  | _ => false

/-- One removal of RESET-ZONE: a cause change handed to the sectors; the zone is derived once after all (R92, R93). -/
def State.dropHanded (z : ZoneNo) (src : Source) (s : State) : State := (s.dropCause src).handSectors z

/-- RESET-ZONE (R93). -/
def State.resetZoneReq (num : Nat) (s : State) : State × Answer :=
  match numbered 16 num with
  | none => refuse s .badObject 0
  | some z =>
    let gone := s.causes.filter (s.resettable z)
    let s := (forEach gone (fun r s => s.dropHanded z r.source) s).deriveZone z
    (s, .reply [byteOf gone.length, byteOf (s.causes.filter fun r => r.zone = z).length])

/-! ### READ-CAUSES (R95) -/

/-- A cause record as READ-CAUSES returns it: 18 bytes (R186). -/
def State.encCause (s : State) (r : Cause) : Payload :=
  [r.source.obj.kindCode, byteOf r.source.obj.num, byteOf (number r.zone), r.level.code, flagByte r.latched] ++
    enc32 r.raised ++ enc32 r.changed ++ [r.silenced.setWidth 8] ++ encDuration (s.remaining r.hold)

/-- The part of a list that a first number and a count select: numbered from 1, `first` onward, up to `count` (R95,
R150). -/
def pick {α : Type} (first count : Nat) (l : List α) : List α := (l.drop (first - 1)).take (clamp 1 6 count)

/-- READ-CAUSES (R95). -/
def State.readCausesReq (zone first count : Nat) (s : State) : State × Answer :=
  if 16 < zone then refuse s .badObject 0
  else
    let l := s.causes.filter fun r => zone = 0 ∨ number r.zone = zone
    (s, .reply (byteOf l.length :: (pick first count l).flatMap s.encCause))

/-! ### SET-SHIFT (R98 to R100) -/

/-- The change of mode recorded and reported (R98). -/
def State.putShift (m : Shift) (s : State) : State :=
  ({ s with shift := m }).event .notice .shift 0x48 0 0 { d0 := s.shift.code, d1 := m.code }

/-- The change to WATCH handed on (R99): supervision modes derived, with blindness judged anew (R71), and meters
stopped. -/
def State.toWatch (s : State) : State :=
  let s := (forAll State.deriveMode (s.putShift .watch)).judgeBlind
  forAll (fun n s => s.setMeter n (s.meter n).stop) s

/-- The change to DAY handed on (R100): supervision modes derived, with blindness judged anew (R71), candidates
discarded with reason SHIFT, and meters started. That the records stand in the order SHIFT, faults cleared, UNCONFIRMED is
the model's choice (log entry 13). -/
def State.toDay (s : State) : State :=
  let s := (forAll State.deriveMode (s.putShift .day)).judgeBlind
  let s := forAll (fun d s => s.dropCandidate d 4) s
  forAll (fun n s => s.setMeter n ((s.meter n).start s.uptime)) s

/-- The lowest-numbered line neither OFF nor STOPPED (R98). -/
def State.lineBusy (s : State) : Option LineNo :=
  firstOf fun n => (s.line n).state != .off && (s.line n).state != .stopped

/-- SET-SHIFT (R98). -/
def State.setShiftReq (mode : Nat) (s : State) : State × Answer :=
  match mode, s.shift with
  | 0, .day => (s, .reply [0])
  | 0, .watch => (s.toDay, .reply [0])
  | 1, .watch => (s, .reply [1])
  | 1, .day =>
    match s.lineBusy with
    | some n => refuse s .state (number n)
    | none => (s.toWatch, .reply [1])
  | _, _ => refuse s .badObject 0

/-- RESET_ZONE: the request RESET-ZONE {zone} (R93). -/
def execResetZone (p : Payload) (s : State) : Out := request 0x10 p (State.resetZoneReq (byteAt p 0)) s

/-- READ_CAUSES: the request READ-CAUSES {zone, first, count} (R95). -/
def execReadCauses (p : Payload) (s : State) : Out :=
  request 0x11 p (State.readCausesReq (byteAt p 0) (byteAt p 1) (byteAt p 2)) s

/-- SET_SHIFT: the request SET-SHIFT {mode} (R98). -/
def execSetShift (p : Payload) (s : State) : Out := request 0x12 p (State.setShiftReq (byteAt p 0)) s

end Sys2Proof.Machine
end

