-- ==== Sys2Proof/Machine/Closures.lean ====
section
/-! DEFINITION. The events and requests of the closures (chapter 6). -/

namespace Sys2Proof.Machine

/-- A limit input takes a level (R103). -/
def Closure.setLimit (x : Closure) (l : Limit) (active : Bool) : Closure :=
  match l with
  | .openLimit => { x with copen := active }
  | .shutLimit => { x with cshut := active }

/-- CLOSED becoming active, by state (R109 to R114). -/
def State.closedReached (c : ClosureNo) (s : State) : State :=
  match (s.closure c).state with
  | .held =>
    match (s.closureCfg c).kind with
    | .passage => s.makeReady c
    | .damper => (s.shutClosure c).demandIfRunning c
  | .waiting | .releasing => s.shutClosure c
  | .shut => s.clearFault (.closure c) .openedWhileShut
  | .stuck => if (s.closure c).direction = .closing then s.shutClosure c else s
  | .ready => s

/-- OPEN becoming active, by state (R109 to R114). -/
def State.openReached (c : ClosureNo) (s : State) : State :=
  match (s.closure c).state with
  | .ready => s.holdOpen c
  | .shut => s.raiseFault (.closure c) .openedWhileShut
  | .stuck => if (s.closure c).direction = .opening then s.holdOpen c else s
  | .held | .waiting | .releasing => s

/-- CLOSURE_LIMIT_CHANGE: a limit input changes; only a change of position is an event at the closure (R103). -/
def execClosureLimitChange (c : ClosureNo) (l : Limit) (active : Bool) (s : State) : Out :=
  let old := (s.closure c).position
  let s := s.setClosure c ((s.closure c).setLimit l active)
  let new := (s.closure c).position
  if old = new then done s
  else
    match new with
    | .closed => done (s.closedReached c)
    | .opened => done (s.openReached c)
    | .mid => done s

/-- TRAVEL_TIMER_EXPIRED: a RELEASING closure is STUCK in direction CLOSING (R110), a READY damper in direction OPENING
(R113). -/
def execTravelTimerExpired (c : ClosureNo) (s : State) : Out :=
  let x := s.closure c
  let stop := fun (x : Closure) => { x with travelTimer := none }
  if s.expired x.travelTimer then
    match x.state with
    | .releasing => done (s.moveClosure c .stuck .closing .none stop)
    | .ready => done (s.moveClosure c .stuck .opening .none stop)
    | .held | .waiting | .shut | .stuck => done s
  else done s

/-- WAIT_TIMER_EXPIRED: DAMPER-FORCED is raised and the damper closes whether or not its fan has stopped (R109). -/
def execWaitTimerExpired (c : ClosureNo) (s : State) : Out :=
  let x := s.closure c
  if x.state = .waiting ∧ s.expired x.waitTimer = true then
    done ((s.raiseFault (.closure c) .damperForced).endWait c)
  else done s

/-- RELEASE-CLOSURE (R115). -/
def State.releaseReq (num : Nat) (s : State) : State × Answer :=
  match numbered 16 num with
  | none => refuse s .badObject 0
  | some c =>
    if s.hasEntry (.closure c) then refuse s .disabled 0
    else
      let s := s.releaseClosure c .request
      (s, .reply [(s.closure c).state.code, (s.closure c).direction.code])

/-- The faults RESET-CLOSURE clears (R116). -/
def closureFaults : List FaultCode := [.stuck, .openedWhileShut, .damperForced]

/-- What an accepted RESET-CLOSURE does (R116): the faults are cleared, the travel timer stops, and the closure enters
READY under R113. That the faults are recorded before the change of state is the model's choice (log entry 13). -/
def State.reopen (c : ClosureNo) (s : State) : State :=
  let s := forEach closureFaults (fun f s => s.clearFault (.closure c) f) s
  (s.setClosure c { s.closure c with travelTimer := none }).makeReady c

/-- RESET-CLOSURE (R116). -/
def State.resetClosureReq (num : Nat) (s : State) : State × Answer :=
  match numbered 16 num with
  | none => refuse s .badObject 0
  | some c =>
    let st := (s.closure c).state
    if ¬(st = .shut ∨ st = .stuck) then refuse s .state st.code.toNat
    else
      match s.firstTrigger c with
      | some z => refuse s .zoneActive (number z)
      | none =>
        let cleared := s.heldAmong (.closure c) closureFaults
        let s := s.reopen c
        (s, .reply ((s.closure c).state.code :: enc16 cleared.toNat))

/-- RELEASE_CLOSURE: the request RELEASE-CLOSURE {closure} (R115). -/
def execReleaseClosure (p : Payload) (s : State) : Out := request 0x14 p (State.releaseReq (byteAt p 0)) s

/-- RESET_CLOSURE: the request RESET-CLOSURE {closure} (R116). -/
def execResetClosure (p : Payload) (s : State) : Out := request 0x15 p (State.resetClosureReq (byteAt p 0)) s

end Sys2Proof.Machine
end

