-- ==== Sys2Proof/Machine/Sirens.lean ====
section
/-! DEFINITION. The events and requests of the siren sectors (chapter 7). -/

namespace Sys2Proof.Machine

/-- Whether the phase in progress has ended (R125). -/
def State.phaseDue (s : State) (n : SectorNo) : Bool :=
  match (s.sector n).cycle with
  | none => false
  | some c => reached s.uptime c.phaseStop

/-- The next phase of the cycle begins, or the cycle ends (R125). -/
def State.nextPhase (n : SectorNo) (s : State) : State :=
  match (s.sector n).cycle with
  | none => s
  | some c =>
    match c.rest with
    | [] => s.endCycle n
    | p :: rest =>
      (s.setSector n
        { s.sector n with cycle := some { c with phase := p, rest := rest, phaseStop := s.after p.ms } }).refreshSiren n

/-- PHASE_END (R125). -/
def execPhaseEnd (n : SectorNo) (s : State) : Out := if s.phaseDue n then done (s.nextPhase n) else done s

/-- TEST_END: the test ends and the state is derived from the causes (R133). -/
def execTestEnd (n : SectorNo) (s : State) : Out :=
  let x := s.sector n
  if x.state = .test ∧ s.expired x.testEnd = true then done (s.stopSector n (s.restState n)) else done s

/-- SILENCE-SECTOR (R130): the causes that count for the sector are marked silenced there. -/
def State.silenceReq (num : Nat) (s : State) : State × Answer :=
  match numbered 6 num with
  | none => refuse s .badObject 0
  | some n =>
    let x := s.sector n
    if x.state ≠ .sounding then refuse s .state x.state.code.toNat
    else
      let elapsed := s.since (x.soundingSince.getD s.uptime)
      let inhibit := (s.sectorCfg n).silenceInhibit * 1000
      if elapsed < inhibit then refuse s .tooEarly (inhibit - elapsed)
      else
        let marked := s.causes.map fun r =>
          if s.countsFor n r then { r with silenced := addSector r.silenced n } else r
        let count := (s.causes.filter (s.countsFor n)).length
        (({ s with causes := marked }).stopSector n .silenced, .reply [byteOf count])

/-- TEST-SECTOR (R132). -/
def State.testReq (num pattern seconds : Nat) (s : State) : State × Answer :=
  match numbered 6 num, numbered 8 pattern with
  | some n, some p =>
    let x := s.sector n
    if s.hasEntry (.sector n) then refuse s .disabled 0
    else if x.state ≠ .quiet then refuse s .state x.state.code.toNat
    else
      let ms := clamp 1 60 seconds * 1000
      let x' := { x with state := .test, testEnd := some (s.after ms), pattern := some p, playing := .none }
      (((s.setSector n x').startCycle n).noteSector n x, .reply (enc32 (BitVec.ofNat 32 ms)))
  | _, _ => refuse s .badObject 0

/-- SILENCE_SECTOR: the request SILENCE-SECTOR {sector} (R130). -/
def execSilenceSector (p : Payload) (s : State) : Out := request 0x18 p (State.silenceReq (byteAt p 0)) s

/-- TEST_SECTOR: the request TEST-SECTOR {sector, pattern, seconds} (R132). -/
def execTestSector (p : Payload) (s : State) : Out :=
  request 0x19 p (State.testReq (byteAt p 0) (byteAt p 1) (byteAt p 2)) s

end Sys2Proof.Machine
end

