-- ==== Sys2Proof/Machine/Disable.lean ====
section
/-! DEFINITION. The requests and events of the disablement table (chapter 8). -/

namespace Sys2Proof.Machine

/-! ### What activation and removal do at the target (R146) -/

/-- The effects of an entry that becomes ACTIVE at its creation (R146). -/
def State.entryActive (t : Target) (s : State) : State :=
  match t with
  | .detector d => ((s.dropCandidate d 3).removeCause (.detector d)).judgeBlind
  | .fireInput f => s.removeUnlatched (.fireInput f)
  | .sector n => s.refreshSiren n
  | .station _ | .closure _ => s

/-- The effects of the removal of an ACTIVE entry (R146). A fire input that is debounced anew to IDLE makes no INPUT
record thereby: the model's choice, as R89 does not settle it (log entry 41). -/
def State.entryRemoved (t : Target) (s : State) : State :=
  match t with
  | .detector _ => s.judgeBlind
  | .fireInput f => s.setInput f (FireInput.anew (s.input f).raw (s.debounceEnd f))
  | .sector n => s.refreshSiren n
  | .closure c => s.testZones c
  | .station _ => s

/-- An entry leaves the table, by ENABLE or by expiry (R147, R148): the change is recorded and reported, and for an
ACTIVE entry handed to ZON and to the owner. That the REMOVED record stands before the owner's is the model's choice (log
entry 13). -/
def State.removeEntry (t : Target) (reason : Byte) (s : State) : State :=
  match s.entryOf t with
  | none => s
  | some e =>
    let s := { s with dis := { s.dis with entries := s.dis.entries.filter fun (x : Entry) => x.target ≠ t } }
    let s := s.disEvent .removed (some t) e.code e.limit reason
    if e.active then s.deriveFault.entryRemoved t else s

/-! ### The two-part request (R141 to R144) -/

/-- A sequence error (R144): the outstanding prepare is discarded and the latch set. The record shows the state and the
limit of the entry the named target has, 0 for none (R149, log entry 20). -/
def State.sequenceError (t : Target) (detail : Nat) (s : State) : State × Answer :=
  let lost := s.dis.prepare.isSome
  let s := { s with dis := { s.dis with prepare := none, latch := true } }
  (s.disEvent .sequenceError (some t) (entryCode (s.entryOf t)) (entryLimit (s.entryOf t)) (byteOf (detail + if lost then 128 else 0)), .refuse .sequence detail)

/-- DISABLE-PREPARE (R141). -/
def State.prepareReq (kind num limit : Nat) (s : State) : State × Answer :=
  match targetOf kind num with
  | none => refuse s .badObject 0
  | some t =>
    if s.service = false then refuse s .notService 0
    else if s.dis.latch then refuse s .sequence 1
    else if s.dis.prepare.isSome then s.sequenceError t 2
    else if s.hasEntry t then refuse s .already (entryCode (s.entryOf t)).toNat
    else if Config.tableCapacity ≤ s.dis.entries.length then refuse s .full 0
    else
      let m := min limit 1440
      let s := { s with dis := { s.dis with prepare := some ⟨t, m, s.uptime, s.after 10000⟩ } }
      (s.disEvent .prepared (some t) 0 m 0, .reply (enc16 m ++ enc32 10000))

/-- Whether the target's owner has work in hand at the instant of the confirmation (R143). -/
def State.inHand (s : State) : Target → Bool
  | .station n => !(s.station n).windows.isEmpty
  | .closure c => (s.closure c).state.moving
  | .detector _ | .fireInput _ | .sector _ => false

/-- The entry a confirmation creates (R143). -/
def State.newEntry (s : State) (p : Prepare) : Entry :=
  let e : Entry := ⟨p.target, s.uptime, p.limit, none, none⟩
  if s.inHand p.target then e else e.activate s.uptime

/-- An accepted confirmation (R143): the prepare is removed and the entry created, ACTIVE with its effects at once, or
PENDING. That the CREATED record stands before the owner's is the model's choice (log entry 13). -/
def State.createEntry (p : Prepare) (s : State) : State × Answer :=
  let e := s.newEntry p
  let s := { s with dis := { s.dis with prepare := none, entries := s.dis.entries ++ [e] } }
  let s := s.disEvent .created (some p.target) e.code e.limit 0
  let ms := if e.active ∧ e.limit ≠ 0 then e.limit * 60000 else 0
  (if e.active then s.deriveFault.entryActive p.target else s,
    .reply (e.code :: enc32 (BitVec.ofNat 32 ms)))

/-- DISABLE-CONFIRM (R143). -/
def State.confirmReq (kind num : Nat) (s : State) : State × Answer :=
  match targetOf kind num with
  | none => refuse s .badObject 0
  | some t =>
    if s.service = false then refuse s .notService 0
    else if s.dis.latch then refuse s .sequence 1
    else
      match s.dis.prepare with
      | none => s.sequenceError t 3
      | some p => if p.target = t then s.createEntry p else s.sequenceError t 4

/-- ENABLE (R147). -/
def State.enableReq (kind num : Nat) (s : State) : State × Answer :=
  match targetOf kind num with
  | none => refuse s .badObject 0
  | some t => (s.removeEntry t 3, .reply [entryCode (s.entryOf t)])

/-- CLEAR-DISABLE-ERROR (R145). -/
def State.clearLatchReq (s : State) : State × Answer :=
  if s.service = false then refuse s .notService 0
  else if s.dis.latch then
    (({ s with dis := { s.dis with latch := false } }).disEvent .latchCleared none 0 0 0, .reply [1])
  else (s, .reply [0])

/-- One entry as LIST-DISABLEMENTS returns it: 17 bytes (R187). -/
def State.encEntry (s : State) (e : Entry) : Payload :=
  [(targetObj e.target).kindCode, byteOf (targetObj e.target).num, e.code] ++
    enc32 (BitVec.ofNat 32 (s.since e.created)) ++ enc16 e.limit ++
    encDuration (e.activated.map s.since) ++ encDuration (s.remaining e.expiry)

/-- The outstanding prepare in the header of LIST-DISABLEMENTS (R187). While none is outstanding the limit is sent as 0:
the model's choice (log entry 43). -/
def State.encPrepare (s : State) : Payload :=
  match s.dis.prepare with
  | none => [0, 0, 0, 0] ++ encDuration none
  | some p =>
    [(targetObj p.target).kindCode, byteOf (targetObj p.target).num] ++ enc16 p.limit ++
      encDuration (some (s.until_ p.expiry))

/-- LIST-DISABLEMENTS (R150). -/
def State.listReq (first count : Nat) (s : State) : State × Answer :=
  let l := pick first count s.dis.entries
  (s, .reply ([byteOf s.dis.entries.length, byteOf (s.dis.entries.filter Entry.active).length, flagByte s.dis.latch] ++
    s.encPrepare ++ [byteOf l.length] ++ l.flatMap s.encEntry))

/-! ### Events -/

/-- The outstanding prepare is discarded with a reason (R140, R142). -/
def State.discardPrepare (reason : Byte) (s : State) : State :=
  match s.dis.prepare with
  | none => s
  | some p =>
    ({ s with dis := { s.dis with prepare := none } }).disEvent .discarded (some p.target) 0 p.limit reason

/-- SERVICE_CHANGE: becoming inactive discards an outstanding prepare with reason SERVICE (R140). -/
def execServiceChange (active : Bool) (s : State) : Out :=
  let s := { s with service := active }
  if active then done s else done (s.discardPrepare 2)

/-- Whether the outstanding prepare has reached its expiry (R142). -/
def State.prepareOver (s : State) : Bool :=
  match s.dis.prepare with
  | none => false
  | some p => reached s.uptime p.expiry

/-- PREPARE_EXPIRED: the prepare is discarded with reason EXPIRED (R142). -/
def execPrepareExpired (s : State) : Out := if s.prepareOver then done (s.discardPrepare 1) else done s

/-- Whether a target's ACTIVE entry has reached its expiry (R148). -/
def State.entryOver (s : State) (t : Target) : Bool :=
  match s.entryOf t with
  | none => false
  | some e => e.active && s.expired e.expiry

/-- ENTRY_EXPIRED: the entry is removed as for ENABLE (R148). -/
def execEntryExpired (t : Target) (s : State) : Out := if s.entryOver t then done (s.removeEntry t 1) else done s

/-- DISABLE_PREPARE: the request DISABLE-PREPARE {target, limit} (R141). -/
def execDisablePrepare (p : Payload) (s : State) : Out :=
  request 0x1C p (State.prepareReq (byteAt p 0) (byteAt p 1) (word16At p 2)) s

/-- DISABLE_CONFIRM: the request DISABLE-CONFIRM {target} (R143). -/
def execDisableConfirm (p : Payload) (s : State) : Out :=
  request 0x1D p (State.confirmReq (byteAt p 0) (byteAt p 1)) s

/-- ENABLE: the request ENABLE {target} (R147). -/
def execEnable (p : Payload) (s : State) : Out := request 0x1E p (State.enableReq (byteAt p 0) (byteAt p 1)) s

/-- CLEAR_DISABLE_ERROR: the request CLEAR-DISABLE-ERROR (R145). -/
def execClearDisableError (p : Payload) (s : State) : Out := request 0x1F p State.clearLatchReq s

/-- LIST_DISABLEMENTS: the request LIST-DISABLEMENTS {first, count} (R150). -/
def execListDisablements (p : Payload) (s : State) : Out :=
  request 0x20 p (State.listReq (byteAt p 0) (byteAt p 1)) s

end Sys2Proof.Machine
end

