-- ==== Sys2Proof/Machine/Settings.lean ====
section
/-! DEFINITION. The settings as WRITE-SETTING and READ-SETTING name them (R171, section 11.5): the value of a field,
its range, the owners' write restrictions, and what an owner does with a new value. -/

namespace Sys2Proof.Machine

/-- A setting: the object that has it and the field code (section 11.5). -/
inductive SettingName where
  | detector (d : DetNo) (field : Nat)
  | line (n : LineNo) (field : Nat)
  | input (f : InputNo) (field : Nat)
  | closure (c : ClosureNo) (field : Nat)
  | sector (n : SectorNo) (field : Nat)
  | pattern (p : PatternNo) (field : Nat)
  | general (field : Nat)
  deriving DecidableEq, Repr

/-- The number of fields of a section (section 11.5). -/
def StoreSection.fields : StoreSection → Nat
  | .detectors => 9 | .lines => 16 | .inputs => 4 | .closures => 6 | .sectors => 4 | .patterns => 9 | .general => 2

/-- The setting of a section with an index and a field, or the index is not valid. -/
def settingAt (k : StoreSection) (index field : Nat) : Option SettingName :=
  match k with
  | .detectors => (numbered 24 index).map (.detector · field)
  | .lines => (numbered 8 index).map (.line · field)
  | .inputs => (numbered 16 index).map (.input · field)
  | .closures => (numbered 16 index).map (.closure · field)
  | .sectors => (numbered 6 index).map (.sector · field)
  | .patterns => (numbered 8 index).map (.pattern · field)
  | .general => if index = 0 then some (.general field) else none

/-- The section and setting named by three numbers, or the detail of the BAD-OBJECT refusal: 1 for the section, 2 for
the index, 3 for the field (R171). -/
def settingOf (sec index field : Nat) : Except Nat (StoreSection × SettingName) :=
  match sectionOf sec with
  | none => .error 1
  | some k =>
    match settingAt k index field with
    | none => .error 2
    | some name => if 1 ≤ field ∧ field ≤ k.fields then .ok (k, name) else .error 3

/-! ### Values (section 11.5) -/

/-- On or off as a number. -/
def flagNum (b : Bool) : Nat := if b then 1 else 0

/-- An AlarmLevel setting's code: ALERT 2, FIRE 3. -/
def AlarmLevel.num : AlarmLevel → Nat
  | .alert => 2 | .fire => 3

/-- The AlarmLevel of a code clamped into 2 to 3. -/
def alarmLevelOf (v : Nat) : AlarmLevel := if v ≤ 2 then .alert else .fire

/-- The supervision mode of a code clamped into 0 to 2. -/
def supervisionOf (v : Nat) : Supervision := if v = 0 then .off else if v = 1 then .continuous else .periodic

/-- The input type of a code clamped into 0 to 3. -/
def inputTypeOf (v : Nat) : InputType :=
  if v = 0 then .heat else if v = 1 then .callPoint else if v = 2 then .flame else .sprinklerFlow

/-- The value of a detector setting. -/
def DetSettings.value (x : DetSettings) (field : Nat) : Nat :=
  match field with
  | 1 => numberOrZero x.line | 2 => numberOrZero x.zone | 3 => x.distance | 4 => x.wMin | 5 => x.wMax
  | 6 => x.glareLimit | 7 => x.glareClear | 8 => x.supervision.code.toNat | 9 => x.sparkHold | _ => 0

/-- A detector setting written, clamped into its range (section 1.6, R18). -/
def DetSettings.write (x : DetSettings) (field v : Nat) : DetSettings :=
  match field with
  | 1 => { x with line := numbered 8 (clamp 0 8 v) }
  | 2 => { x with zone := numbered 16 (clamp 0 16 v) }
  | 3 => { x with distance := clamp 50 6000 v }
  | 4 => { x with wMin := clamp 1 (min 50 x.wMax) v }
  | 5 => { x with wMax := clamp x.wMin 2000 v }
  | 6 => { x with glareLimit := clamp 50 2000 v }
  | 7 => { x with glareClear := clamp 500 10000 v }
  | 8 => { x with supervision := supervisionOf v }
  | 9 => { x with sparkHold := clamp 1 120 v }
  | _ => x

/-- The value of a line setting. -/
def LineSettings.value (x : LineSettings) (field : Nat) : Nat :=
  match field with
  | 1 => numberOrZero x.zone | 2 => x.tripZones.toNat | 3 => x.kFactor | 4 => x.vMin | 5 => x.sparkThreshold
  | 6 => x.sparkWindow | 7 => x.valveLatency | 8 => x.uncertainty | 9 => x.windowHold | 10 => x.floodHold
  | 11 => x.abortDwell | 12 => x.gateTime | 13 => x.startTimeout | 14 => x.rundownTimeout
  | 15 => flagNum x.blindStop | 16 => x.blindLimit | _ => 0

/-- A line setting written, clamped into its range (section 4.11). -/
def LineSettings.write (x : LineSettings) (field v : Nat) : LineSettings :=
  match field with
  | 1 => { x with zone := numbered 16 (clamp 0 16 v) }
  | 2 => { x with tripZones := BitVec.ofNat 16 v }
  | 3 => { x with kFactor := clamp 1 65535 v }
  | 4 => { x with vMin := clamp 300 3000 v }
  | 5 => { x with sparkThreshold := clamp 1 1023 v }
  | 6 => { x with sparkWindow := clamp 0 600 v }
  | 7 => { x with valveLatency := clamp 0 500 v }
  | 8 => { x with uncertainty := clamp 0 32 v }
  | 9 => { x with windowHold := clamp 100 5000 v }
  | 10 => { x with floodHold := clamp 1 120 v }
  | 11 => { x with abortDwell := clamp 5 300 v }
  | 12 => { x with gateTime := clamp 1 20 v }
  | 13 => { x with startTimeout := clamp 5 120 v }
  | 14 => { x with rundownTimeout := clamp 10 300 v }
  | 15 => { x with blindStop := v != 0 }
  | 16 => { x with blindLimit := clamp 10 600 v }
  | _ => x

/-- The value of a fire input setting. -/
def InputSettings.value (x : InputSettings) (field : Nat) : Nat :=
  match field with
  | 1 => numberOrZero x.zone | 2 => x.level.num | 3 => x.debounce | 4 => x.type.code.toNat | _ => 0

/-- A fire input setting written, clamped into its range (section 5.3). -/
def InputSettings.write (x : InputSettings) (field v : Nat) : InputSettings :=
  match field with
  | 1 => { x with zone := numbered 16 (clamp 0 16 v) }
  | 2 => { x with level := alarmLevelOf v }
  | 3 => { x with debounce := clamp 50 5000 v }
  | 4 => { x with type := inputTypeOf v }
  | _ => x

/-- The value of a closure setting. -/
def ClosureSettings.value (x : ClosureSettings) (field : Nat) : Nat :=
  match field with
  | 1 => x.kind.code.toNat | 2 => x.zones.toNat | 3 => x.trigger.num | 4 => x.travelTime
  | 5 => numberOrZero x.line | 6 => x.waitMax | _ => 0

/-- A closure setting written, clamped into its range (section 6.8). -/
def ClosureSettings.write (x : ClosureSettings) (field v : Nat) : ClosureSettings :=
  match field with
  | 1 => { x with kind := if v = 0 then .passage else .damper }
  | 2 => { x with zones := BitVec.ofNat 16 v }
  | 3 => { x with trigger := alarmLevelOf v }
  | 4 => { x with travelTime := clamp 1 120 v }
  | 5 => { x with line := numbered 8 (clamp 0 8 v) }
  | 6 => { x with waitMax := clamp 1 60 v }
  | _ => x

/-- The value of a sector setting. -/
def SectorSettings.value (x : SectorSettings) (field : Nat) : Nat :=
  match field with
  | 1 => x.zones.toNat | 2 => numberOrZero x.alertPattern | 3 => numberOrZero x.firePattern
  | 4 => x.silenceInhibit | _ => 0

/-- A sector setting written, clamped into its range (R135). -/
def SectorSettings.write (x : SectorSettings) (field v : Nat) : SectorSettings :=
  match field with
  | 1 => { x with zones := BitVec.ofNat 16 v }
  | 2 => { x with alertPattern := numbered 8 (clamp 0 8 v) }
  | 3 => { x with firePattern := numbered 8 (clamp 0 8 v) }
  | 4 => { x with silenceInhibit := clamp 0 300 v }
  | _ => x

/-- The value of a pattern setting: step_count, four on-times, four off-times. -/
def Pattern.value (x : Pattern) (field : Nat) : Nat :=
  match field with
  | 1 => x.stepCount
  | 2 => x.onTimes[0] | 3 => x.onTimes[1] | 4 => x.onTimes[2] | 5 => x.onTimes[3]
  | 6 => x.offTimes[0] | 7 => x.offTimes[1] | 8 => x.offTimes[2] | 9 => x.offTimes[3]
  | _ => 0

/-- A pattern setting written, clamped into its range (section 7.3). -/
def Pattern.write (x : Pattern) (field v : Nat) : Pattern :=
  match field with
  | 1 => { x with stepCount := clamp 1 4 v }
  | 2 => { x with onTimes := x.onTimes.set 0 (clamp 0 500 v) }
  | 3 => { x with onTimes := x.onTimes.set 1 (clamp 0 500 v) }
  | 4 => { x with onTimes := x.onTimes.set 2 (clamp 0 500 v) }
  | 5 => { x with onTimes := x.onTimes.set 3 (clamp 0 500 v) }
  | 6 => { x with offTimes := x.offTimes.set 0 (clamp 0 500 v) }
  | 7 => { x with offTimes := x.offTimes.set 1 (clamp 0 500 v) }
  | 8 => { x with offTimes := x.offTimes.set 2 (clamp 0 500 v) }
  | 9 => { x with offTimes := x.offTimes.set 3 (clamp 0 500 v) }
  | _ => x

/-- The value of a GENERAL setting. -/
def GeneralSettings.value (x : GeneralSettings) (field : Nat) : Nat :=
  match field with
  | 1 => x.confirmTime | 2 => x.site | _ => 0

/-- A GENERAL setting written, clamped into its range (sections 3.7, 10.2). -/
def GeneralSettings.write (x : GeneralSettings) (field v : Nat) : GeneralSettings :=
  match field with
  | 1 => { x with confirmTime := clamp 200 5000 v }
  | 2 => { x with site := clamp 0 65535 v }
  | _ => x

/-- The value of a setting in a copy of the settings. -/
def Settings.value (t : Settings) : SettingName → Nat
  | .detector d f => t.detectors[d.val].value f
  | .line n f => t.lines[n.val].value f
  | .input i f => t.inputs[i.val].value f
  | .closure c f => t.closures[c.val].value f
  | .sector n f => t.sectors[n.val].value f
  | .pattern p f => t.patterns[p.val].value f
  | .general f => t.general.value f

/-- A setting written, clamped, in a copy of the settings (R171). -/
def Settings.write (t : Settings) (name : SettingName) (v : Nat) : Settings :=
  match name with
  | .detector d f => { t with detectors := t.detectors.set d.val (t.detectors[d.val].write f v) d.isLt }
  | .line n f => { t with lines := t.lines.set n.val (t.lines[n.val].write f v) n.isLt }
  | .input i f => { t with inputs := t.inputs.set i.val (t.inputs[i.val].write f v) i.isLt }
  | .closure c f => { t with closures := t.closures.set c.val (t.closures[c.val].write f v) c.isLt }
  | .sector n f => { t with sectors := t.sectors.set n.val (t.sectors[n.val].write f v) n.isLt }
  | .pattern p f => { t with patterns := t.patterns.set p.val (t.patterns[p.val].write f v) p.isLt }
  | .general f => { t with general := t.general.write f v }

/-- Whether a setting is a zone set, of which a write takes the low 16 bits (R183). -/
def SettingName.isZoneSet : SettingName → Bool
  | .line _ f => f == 2
  | .closure _ f => f == 2
  | .sector _ f => f == 1
  | _ => false

/-! ### Write restrictions of the owners (R18, R76, R90, R118) -/

/-- Whether the line a setting names is 0, OFF or STOPPED. -/
def State.lineIdle (s : State) : Option LineNo → Bool
  | none => true
  | some n => (s.line n).state == .off || (s.line n).state == .stopped

/-- Whether a source holds a cause record. -/
def State.hasCause (s : State) (src : Source) : Bool := (s.causeOf src).isSome

/-- Whether the owner refuses a write that would leave the settings as `new`, the value brought into its range (R18, R76,
R90, R118, log entry 45). -/
def State.refuses (s : State) (name : SettingName) (new : Settings) : Bool :=
  match name with
  | .detector d f =>
    match f with
    | 1 => !(s.lineIdle (s.detCfg d).line && s.lineIdle (new.detectors[d.val]).line)
    | 2 => s.hasCause (.detector d)
    | 3 => !s.lineIdle (s.detCfg d).line
    | _ => false
  | .line n f => !s.lineIdle (some n) || (f == 1 && s.hasCause (.line n))
  | .input i f => f == 1 && s.hasCause (.fireInput i)
  | .closure c f =>
    match f with
    | 1 =>
      !(((s.closure c).state == .held || (s.closure c).state == .shut) && s.lineIdle (s.closureCfg c).line)
    | 5 => !(s.lineIdle (s.closureCfg c).line && s.lineIdle (new.closures[c.val]).line)
    | _ => false
  | .sector _ _ | .pattern _ _ | .general _ => false

/-! ### What an owner does with a new value -/

/-- The owner is handed a new value (R171), already in the live table: R3 and R17 for a detector, R64 for a line's
counter, R119 for a closure, R135 and R136 for sectors and patterns. Every other setting takes effect at its next
use. -/
def State.handSetting (name : SettingName) (s : State) : State :=
  match name with
  | .detector d f =>
    match f with
    | 1 => s.judgeBlind
    | 6 => if s.glareDue d then (s.beginGlare d).judgeBlind else s
    | 7 => if s.glareOver d then (s.endGlare d).judgeBlind else s
    | 8 => (s.deriveMode d).judgeBlind
    | _ => s
  | .line n f => if f = 5 ∨ f = 6 then s.restartCount n else s
  | .closure c f => if f = 2 ∨ f = 3 then s.testZones c else s
  | .sector n f =>
    match f with
    | 1 => s.sectorZonesWritten n
    | 2 => s.sectorPatternWritten n .alert
    | 3 => s.sectorPatternWritten n .fire
    | _ => s
  | .pattern p _ => s.patternWritten p
  | .input _ _ | .general _ => s

/-- Every setting of one object of a section, by its index number. -/
def settingsOf (k : StoreSection) (index : Nat) : List SettingName :=
  ((List.range k.fields).filterMap fun f => settingAt k index (f + 1))

/-- The index numbers of a section (section 10.2). -/
def StoreSection.indices : StoreSection → List Nat
  | .detectors => (List.range 24).map (· + 1)
  | .lines => (List.range 8).map (· + 1)
  | .inputs => (List.range 16).map (· + 1)
  | .closures => (List.range 16).map (· + 1)
  | .sectors => (List.range 6).map (· + 1)
  | .patterns => (List.range 8).map (· + 1)
  | .general => [0]

/-- One section copied from another copy of the settings. -/
def Settings.copySection (t : Settings) (k : StoreSection) (u : Settings) : Settings :=
  match k with
  | .detectors => { t with detectors := u.detectors }
  | .lines => { t with lines := u.lines }
  | .inputs => { t with inputs := u.inputs }
  | .closures => { t with closures := u.closures }
  | .sectors => { t with sectors := u.sectors }
  | .patterns => { t with patterns := u.patterns }
  | .general => { t with general := u.general }

end Sys2Proof.Machine
end

