-- ==== Sys2Proof/Machine/Stores.lean ====
section
/-! DEFINITION. The settings store (chapter 10): WRITE-SETTING, READ-SETTING, the store operations, and the end of a
section's write. -/

namespace Sys2Proof.Machine

/-- Flags of a section. -/
def State.flagsOf (s : State) (k : StoreSection) : SectionFlags := s.store.flags[k.idx.val]

/-- Puts the flags of a section. -/
def State.setFlags (s : State) (k : StoreSection) (x : SectionFlags) : State :=
  { s with store := { s.store with flags := s.store.flags.set k.idx.val x k.idx.isLt } }

/-- Puts the non-volatile mark of a section. -/
def State.setMark (s : State) (k : StoreSection) (x : StoredMark) : State :=
  { s with store := { s.store with marks := s.store.marks.set k.idx.val x k.idx.isLt } }

/-- Puts the live table. -/
def State.setLive (s : State) (t : Settings) : State := { s with store := { s.store with live := t } }

/-- The number of sections still to be written, the one in progress among them (R171). -/
def State.remainingSections (s : State) : Nat :=
  match s.store.write with
  | none => 0
  | some w => w.rest.length + 1

/-- The store faults follow from the flags (R170). Where both change in one event, that SAVE-FAILED changes before DEFAULTED
is the model's choice (log entry 13). -/
def State.deriveStoreFaults (s : State) : State :=
  let s :=
    if s.store.flags.toList.any (·.writeFailed) then s.raiseFault .store .saveFailed
    else s.clearFault .store .saveFailed
  if s.store.flags.toList.any (·.defaulted) then s.raiseFault .store .defaulted
  else s.clearFault .store .defaulted

/-- The SETTING record of an accepted write (R171, R185): the section in place of the object kind, the index in place
of the number. -/
def State.settingRecord (s : State) (k : StoreSection) (index field before stored : Nat) : State :=
  s.record .setting (byteOf k.num) (byteOf index)
    ⟨byteOf field, highByte before, lowByte before, highByte stored, lowByte stored⟩

/-- An accepted WRITE-SETTING (R171). That the SETTING record stands before the records of the owner, as of a closure's
release, is the model's choice (log entry 13). -/
def State.acceptWrite (k : StoreSection) (name : SettingName) (index field v : Nat) (s : State) : State × Answer :=
  let old := s.store.live.value name
  let live := s.store.live.write name v
  let stored := live.value name
  let s := s.setLive live
  let s := s.setFlags k { s.flagsOf k with modified := true }
  let s := s.settingRecord k index field old stored
  let clamped := !name.isZoneSet && stored != v
  (s.handSetting name, .reply (enc32 (BitVec.ofNat 32 stored) ++ [flagByte clamped]))

/-- WRITE-SETTING (R171). The owner's check is made on the value brought into its range, as of a line number above 8: the
model's choice (log entry 45). -/
def State.writeReq (sec index field v : Nat) (s : State) : State × Answer :=
  match settingOf sec index field with
  | .error e => refuse s .badObject e
  | .ok (k, name) =>
    if s.store.write.isSome then refuse s .busy s.remainingSections
    else if (s.flagsOf k).lock && !s.service then refuse s .locked 0
    else if s.refuses name (s.store.live.write name v) then refuse s .state 0
    else s.acceptWrite k name index field v

/-- READ-SETTING (R172). -/
def State.readReq (sec index field : Nat) (s : State) : State × Answer :=
  match settingOf sec index field with
  | .error e => refuse s .badObject e
  | .ok (k, name) =>
    (s, .reply (enc32 (BitVec.ofNat 32 (s.store.live.value name)) ++
      [flagByte (s.flagsOf k).lock, flagByte (s.flagsOf k).modified]))

/-! ### Store operations (R173 to R175) -/

/-- The write of a section begins: its contents and lock go to the store as they stand, and the stored check value
does not match until the write has ended well (R170, R173). It ends 200 ms later. -/
def State.beginSection (op : StoreOp) (k : StoreSection) (rest written failed : List StoreSection) (s : State) :
    State :=
  let s := s.setMark k ⟨(s.flagsOf k).lock, false⟩
  { s with store :=
      { s.store with
        stored := s.store.stored.copySection k s.store.live
        write := some ⟨op, k, rest, s.after 200, written, failed⟩ } }

/-- The STORE-OP record of an operation's start (R173, R185). -/
def State.opStart (op : StoreOp) (s : State) : State :=
  s.record .storeOp Obj.store.kindCode 0 { d0 := op.code, d1 := 1 }

/-- SAVE-SETTINGS (R173). -/
def State.saveReq (s : State) : State × Answer :=
  if s.store.write.isSome then refuse s .busy 0
  else
    ((s.opStart .save).beginSection .save .detectors [.lines, .inputs, .closures, .sectors, .patterns, .general] [] [],
      .reply (7 :: enc32 1400))

/-- LOCK-SECTION (R174). The modified flag is left as it was, though the lock now differs from the stored one: the model's
choice (log entry 17). -/
def State.lockReq (sec : Nat) (s : State) : State × Answer :=
  match sectionOf sec with
  | none => refuse s .badObject 0
  | some k =>
    if s.store.write.isSome then refuse s .busy 0
    else if (s.flagsOf k).lock then (s, .reply [1])
    else
      (((s.setFlags k { s.flagsOf k with lock := true }).opStart .lock).beginSection .lock k [] [] [], .reply [0])

/-- The lowest-numbered object of a section whose owner would refuse a write of its factory values (R175). -/
def State.defaultsRefused (s : State) (k : StoreSection) : Option Nat :=
  k.indices.find? fun i => (settingsOf k i).any fun name => s.refuses name factorySettings

/-- The live table of a section set to its factory values and handed to the owners (R175). The modified flag is set
where that changes the contents (R170, log entry 17). -/
def State.restoreSection (k : StoreSection) (s : State) : State :=
  let live := s.store.live.copySection k factorySettings
  let x := s.flagsOf k
  let s := (s.setLive live).setFlags k { x with lock := false, modified := x.modified || live != s.store.live }
  forEach k.indices (fun i s => forEach (settingsOf k i) State.handSetting s) s

/-- LOAD-DEFAULTS (R175). -/
def State.defaultsReq (sec : Nat) (s : State) : State × Answer :=
  match sectionOf sec with
  | none => refuse s .badObject 0
  | some k =>
    if s.service = false then refuse s .notService 0
    else if s.store.write.isSome then refuse s .busy s.remainingSections
    else
      match s.defaultsRefused k with
      | some i => refuse s .state i
      | none => (((s.restoreSection k).opStart .defaults).beginSection .defaults k [] [] [], .reply [])

/-- The result of a section's write taken (R173): its flags, its stored check, and the store faults. R173 says of a failed
write that a set modified flag stays set; that a clear one stays clear is the model's choice (log entry 17). -/
def State.takeResult (k : StoreSection) (good : Bool) (s : State) : State :=
  let x := s.flagsOf k
  let s := s.setMark k ⟨(s.store.marks[k.idx.val]).lock, good⟩
  (s.setFlags k
    (if good then { x with modified := false, defaulted := false, writeFailed := false }
     else { x with writeFailed := true })).deriveStoreFaults

/-- The end of a store operation (R173): the store is IDLE, and the STORE-OP record and SETTINGS-DONE report carry the
results. -/
def State.opEnd (op : StoreOp) (written failed : List StoreSection) (s : State) : State :=
  ({ s with store := { s.store with write := none } }).objEvent .notice .storeOp 0x4A .store
    { d0 := op.code, d1 := 2, d2 := sectionSet written, d3 := sectionSet failed }

/-- Whether the write in progress has run its 200 ms (R173). -/
def State.writeDue (s : State) : Bool :=
  match s.store.write with
  | none => false
  | some w => reached s.uptime w.ends

/-- The end of a section's write, good or failed (R173): the next section's write begins, or the operation ends. -/
def State.endSection (good : Bool) (s : State) : State :=
  match s.store.write with
  | none => s
  | some w =>
    let written := w.written ++ [w.current]
    let failed := if good then w.failed else w.failed ++ [w.current]
    let s := s.takeResult w.current good
    match w.rest with
    | [] => s.opEnd w.op written failed
    | k :: rest => s.beginSection w.op k rest written failed

/-- SECTION_WRITE_END (R173). -/
def execSectionWriteEnd (good : Bool) (s : State) : Out := if s.writeDue then done (s.endSection good) else done s

/-- READ_SETTING: the request READ-SETTING {section, index, field} (R172). -/
def execReadSetting (p : Payload) (s : State) : Out :=
  request 0x25 p (State.readReq (byteAt p 0) (byteAt p 1) (byteAt p 2)) s

/-- WRITE_SETTING: the request WRITE-SETTING {section, index, field, value} (R171). -/
def execWriteSetting (p : Payload) (s : State) : Out :=
  request 0x26 p (State.writeReq (byteAt p 0) (byteAt p 1) (byteAt p 2) (word32At p 3)) s

/-- SAVE_SETTINGS: the request SAVE-SETTINGS (R173). -/
def execSaveSettings (p : Payload) (s : State) : Out := request 0x27 p State.saveReq s

/-- LOCK_SECTION: the request LOCK-SECTION {section} (R174). -/
def execLockSection (p : Payload) (s : State) : Out := request 0x28 p (State.lockReq (byteAt p 0)) s

/-- LOAD_DEFAULTS: the request LOAD-DEFAULTS {section} (R175). -/
def execLoadDefaults (p : Payload) (s : State) : Out := request 0x29 p (State.defaultsReq (byteAt p 0)) s

end Sys2Proof.Machine
end

