-- ==== Sys2Proof/Machine/Objects.lean ====
section
/-! DEFINITION. READ-OBJECT (R164): the record of each kind of object, its fields in the order of the owning rule's
table and in the encodings of 11.2 (R186, log entries 18 and 19). -/

namespace Sys2Proof.Machine

/-- A disablement field (R186): the state code, and the expiry instant, 0 unless ACTIVE with a limit. -/
def encDisablement (e : Option Entry) : Payload :=
  entryCode e :: enc32 (((e.bind (·.expiry))).getD 0)

/-- A flag of a truth. -/
def encFlag (b : Bool) : Payload := [flagByte b]

/-- How many members of a list satisfy a test, as one byte. -/
def count8 {α : Type} (l : List α) (p : α → Bool) : Payload := [byteOf (l.filter p).length]

/-- An optional number of two bytes, none as 0xFFFF. -/
def encNumber16 : Option Nat → Payload
  | none => [0xFF, 0xFF]
  | some n => enc16 n

/-- A glare phase with the time dark so far. -/
def State.encGlare (s : State) : GlarePhase → Payload
  | .none => 0 :: encDuration none
  | .glaring => 1 :: encDuration none
  | .clearing t => 2 :: encDuration (some (s.since t))

/-- A last pulse: width, class and instant, or none. -/
def encPulse : Option Pulse → Payload
  | none => [0xFF, 0xFF, 0xFF] ++ encInstant none
  | some p => enc16 p.width ++ [p.cls.code] ++ enc32 p.at_

/-- A candidate: class, weight and instant, or none. -/
def encCandidate : Option Candidate → Payload
  | none => [0xFF, 0xFF] ++ encInstant none
  | some c => [emberCode c.ember, byteOf c.weight] ++ enc32 c.at_

/-- The record of a detector (R19). -/
def State.detRecord (s : State) (d : DetNo) : Payload :=
  let x := s.det d
  let cfg := s.detCfg d
  [byteOf (number d), byteOf (numberOrZero cfg.line), byteOf (numberOrZero cfg.zone), cfg.supervision.code,
    x.mode.code, flagByte x.busy] ++
  (match x.lastLevel with
   | none => [0xFF]
   | some l => [byteOf l.val]) ++
  [byteOf x.openRun, byteOf x.shortRun] ++ enc16 (s.faults.get (.detector d)).toNat ++ encFlag x.lit ++
  s.encGlare x.glare ++ encPulse x.lastPulse ++ encCandidate x.candidate ++
  encDisablement (s.entryOf (.detector d)) ++ encFlag (s.hasCause (.detector d)) ++ enc16 x.deliveries

/-- The cause a fire input holds: its level and latched flag, or none. -/
def encHeld : Option Cause → Payload
  | none => [0xFF, 0xFF]
  | some r => [r.level.code, flagByte r.latched]

/-- The record of a fire input (R91). -/
def State.inputObject (s : State) (f : InputNo) : Payload :=
  let x := s.input f
  let cfg := s.inputCfg f
  [byteOf (number f), byteOf (numberOrZero cfg.zone), cfg.level.level.code, cfg.type.code, flagByte x.raw,
    x.phase.code] ++
  encDuration (s.remaining x.timer) ++ encHeld (s.causeOf (.fireInput f)) ++
  encDisablement (s.entryOf (.fireInput f))

/-- One window as the station record lists it: start and end as offsets from now, origin, LATE, merged origins. -/
def encWindow (now : Instant) (w : Window) : Payload :=
  enc32 (w.start - now) ++ enc32 (w.stop - now) ++ [w.origin.code, flagByte w.late, byteOf w.merged]

/-- The record of a station (R54). -/
def State.stationRecord (s : State) (n : LineNo) : Payload :=
  let x := s.station n
  [byteOf (number n), x.valve.code, flagByte x.valveOn, flagByte x.wconf] ++
  encDuration (some
    (match x.valveOn, x.outputOn with
     | true, some t => s.since t
     | _, _ => 0)) ++
  encDuration (s.remaining x.confirmTimer) ++ enc16 (s.faults.get (.station n)).toNat ++
  encFlag (s.hasCause (.station n)) ++ encDisablement (s.entryOf (.station n)) ++
  (byteOf x.windows.length :: x.windows.flatMap (encWindow s.uptime)) ++
  enc16 x.offered ++ enc16 x.refused ++ enc16 x.forced

/-- The meter's fields in the record of a line (R33). The time elapsed in the gate reads 0 to 249 ms: at the instant of
the gate's end, before the end is taken, it is held at 249 (log entry 44). -/
def State.meterRecord (s : State) (n : LineNo) : Payload :=
  let m := s.meter n
  encFlag m.running ++ enc16 m.count ++
  encDuration (some
    (match m.gateStart with
     | none => 0
     | some t => min (s.since t) 249)) ++
  encNumber16 m.lastCount ++ encNumber16 m.lastRaw ++ enc16 m.vf ++ [byteOf m.lowRun] ++ enc16 m.gateEnds

/-- The record of a line (R77), with its meter. -/
def State.lineRecord (s : State) (n : LineNo) : Payload :=
  let x := s.line n
  [byteOf (number n), x.state.code, x.stopCause.code] ++ encDuration (some (s.since x.entered)) ++
  [flagByte x.fan, flagByte x.feed, flagByte x.gate, flagByte x.fstop, flagByte x.gopen] ++ enc16 x.counter ++
  encDuration (s.remaining x.countWindow) ++
  encDuration (s.remaining x.startTimer) ++ encDuration (s.remaining x.dwellTimer) ++
  encDuration (s.remaining x.gateTimer) ++ encDuration (s.remaining x.rundownTimer) ++
  encFlag x.blind ++ encDuration (s.remaining x.blindTimer) ++
  count8 (List.finRange 24) (s.assigned n) ++
  count8 (List.finRange 24) (fun d => s.assigned n d && s.usable d) ++
  count8 (List.finRange 16) (fun c => s.damperOf n c && (s.closure c).state != .held) ++
  [levelCode (s.causeLevel (.line n))] ++ enc16 (s.faults.get (.line n)).toNat ++ s.meterRecord n

/-- The record of a zone (R94). -/
def State.zoneRecord (s : State) (z : ZoneNo) : Payload :=
  let x := s.zone z
  [byteOf (number z), x.level.code] ++ encInstant x.changed ++
  count8 s.causes (fun r => r.zone == z && r.level == .spark) ++
  count8 s.causes (fun r => r.zone == z && r.level == .alert) ++
  count8 s.causes (fun r => r.zone == z && r.level == .fire) ++
  count8 s.causes (fun r => r.zone == z && r.latched) ++
  count8 s.causes (s.resettable z)

/-- The record of a closure (R120). -/
def State.closureRecord (s : State) (c : ClosureNo) : Payload :=
  let x := s.closure c
  let cfg := s.closureCfg c
  [byteOf (number c), cfg.kind.code] ++ enc16 cfg.zones.toNat ++
  [cfg.trigger.level.code, byteOf (numberOrZero cfg.line), x.state.code, x.direction.code, flagByte x.hold,
    flagByte x.copen, flagByte x.cshut, x.position.code] ++
  encDuration (some (s.since x.entered)) ++ encDuration (s.remaining x.travelTimer) ++
  encDuration (s.remaining x.waitTimer) ++ [x.origin.code] ++
  enc16 (bitsOf ((List.finRange 16).map (s.triggers c))) ++
  enc16 (s.faults.get (.closure c)).toNat ++ encDisablement (s.entryOf (.closure c))

/-- How long SILENCE-SECTOR would still be refused TOO-EARLY (R130, R137). -/
def State.silenceWait (s : State) (n : SectorNo) : Nat :=
  let x := s.sector n
  if x.state = .sounding then
    (s.sectorCfg n).silenceInhibit * 1000 - s.since (x.soundingSince.getD s.uptime)
  else 0

/-- Step and phase, ms to the end of the phase and to the cycle end (R137). -/
def State.encCycle (s : State) : Option Cycle → Payload
  | none => [0xFF, 0xFF] ++ encDuration (some 0) ++ encDuration (some 0)
  | some c =>
    [byteOf c.phase.step, flagByte c.phase.on] ++ encDuration (some (s.until_ c.phaseStop)) ++
      encDuration (some (s.until_ c.stop))

/-- The record of a sector (R137). -/
def State.sectorRecord (s : State) (n : SectorNo) : Payload :=
  let x := s.sector n
  let cfg := s.sectorCfg n
  [byteOf (number n)] ++ enc16 cfg.zones.toNat ++
  [byteOf (numberOrZero cfg.alertPattern), byteOf (numberOrZero cfg.firePattern)] ++ enc16 cfg.silenceInhibit ++
  [x.state.code, x.demand.code, x.playing.code, x.pendingLevel.code, byteOf (numberOrZero x.pattern)] ++
  s.encCycle x.cycle ++
  encDuration (some
    (match x.state, x.soundingSince with
     | .sounding, some t => s.since t
     | _, _ => 0)) ++
  encDuration (some (s.silenceWait n)) ++
  encDuration (some
    (match x.state, x.testEnd with
     | .test, some t => s.until_ t
     | _, _ => 0)) ++
  count8 s.causes (s.countsFor n) ++ count8 s.causes (fun r => s.standsFor n r && sectorIn r.silenced n) ++
  [x.highest.code, flagByte x.siren] ++ encDisablement (s.entryOf (.sector n))

/-- The four flags of a section (R179). -/
def SectionFlags.enc (x : SectionFlags) : Payload :=
  [flagByte x.lock, flagByte x.modified, flagByte x.defaulted, flagByte x.writeFailed]

/-- The record of the history and the settings store (R179). -/
def State.storeRecord (s : State) : Payload :=
  (match s.store.write with
   | none => [0, 0, 0xFF]
   | some w => [1, w.op.code, byteOf w.current.num]) ++
  [byteOf s.remainingSections] ++ s.store.flags.toList.flatMap SectionFlags.enc ++
  enc16 (s.faults.get .store).toNat ++ encFlag s.service ++ enc16 s.history.records.length ++
  encInstant (s.history.records.head?.map (·.seq)) ++ enc32 s.history.next

/-- The record of an object (R164). -/
def State.objectRecord (s : State) : Obj → Payload
  | .detector d => s.detRecord d
  | .fireInput f => s.inputObject f
  | .station n => s.stationRecord n
  | .line n => s.lineRecord n
  | .zone z => s.zoneRecord z
  | .closure c => s.closureRecord c
  | .sector n => s.sectorRecord n
  | .store => s.storeRecord

/-- The object of a kind code and number, or the detail of the BAD-OBJECT refusal: the range's upper bound, 0 for a
kind that names no object (R164). -/
def objectOf (kind num : Nat) : Except Nat Obj :=
  match kind with
  | 1 => ((numbered 24 num).map Obj.detector).elim (.error 24) .ok
  | 2 => ((numbered 16 num).map Obj.fireInput).elim (.error 16) .ok
  | 3 => ((numbered 8 num).map Obj.station).elim (.error 8) .ok
  | 4 => ((numbered 8 num).map Obj.line).elim (.error 8) .ok
  | 5 => ((numbered 16 num).map Obj.zone).elim (.error 16) .ok
  | 6 => ((numbered 16 num).map Obj.closure).elim (.error 16) .ok
  | 7 => ((numbered 6 num).map Obj.sector).elim (.error 6) .ok
  | 8 => if num = 0 then .ok .store else .error 0
  | _ => .error 0

/-- READ-OBJECT (R164): the kind and number, then the object's record. -/
def State.readObjectReq (kind num : Nat) (s : State) : State × Answer :=
  match objectOf kind num with
  | .error e => refuse s .badObject e
  | .ok o => (s, .reply ([o.kindCode, byteOf o.num] ++ s.objectRecord o))

/-- READ_OBJECT: the request READ-OBJECT {kind, number} (R164). -/
def execReadObject (p : Payload) (s : State) : Out :=
  request 0x03 p (State.readObjectReq (byteAt p 0) (byteAt p 1)) s

end Sys2Proof.Machine
end

