-- ==== Sys2Proof/Machine/Reset.lean ====
section
/-! DEFINITION. Power-on reset and restart: the load of the settings (R176, R177), the state each block takes up (R20,
R34, R55, R78, R79, R101, R121, R122, R138, R151, R166), and the records and reports made at the start (R169, R166).
The levels on the part's input pins are outside a reset's reach and stay as they are. -/

namespace Sys2Proof.Machine

/-- One section loaded (R177): the stored contents and lock where its check passes, otherwise factory values, unlocked
and defaulted. Modified and write-failed flags are clear (R176). -/
def Store.loadSection (k : StoreSection) (x : Store) : Store :=
  let m := x.marks[k.idx.val]
  { x with
    live := x.live.copySection k (if m.checkOk then x.stored else factorySettings)
    flags := x.flags.set k.idx.val
      { lock := m.checkOk && m.lock, modified := false, defaulted := !m.checkOk, writeFailed := false } k.idx.isLt }

/-- Every section loaded, and the store IDLE (R176). -/
def Store.load (x : Store) : Store :=
  allSections.foldl (fun y k => y.loadSection k) { x with write := none }

/-- A detector channel after a reset (R20): its first sample starts at once unless OFF, and a lit input is measured
from this instant. -/
def Detector.fresh (lit : Bool) (mode : Supervision) (now : Instant) : Detector :=
  { mode := mode
    nextMode := none
    busy := mode != .off
    lastStart := if mode = .off then none else some now
    lastLevel := none
    openRun := 0
    shortRun := 0
    lit := lit
    lastEdge := if lit then some now else none
    width := 0
    lastPulse := none
    glare := .none
    candidate := none
    deliveries := 0 }

/-- A line after a reset (R78, R79); `kept` says that it was STOPPED before a restart. Blindness and its timer are
judged once every block has started. -/
def Line.fresh (x : Line) (kept : Bool) (now : Instant) (countWindow : Option Instant) : Line :=
  { state := if kept then .stopped else .off
    stopCause := if kept then x.stopCause else .none
    entered := if kept then x.entered else now
    fan := false
    feed := false
    gate := kept && x.gate
    counter := 0
    countWindow := countWindow
    startTimer := none
    dwellTimer := none
    gateTimer := none
    rundownTimer := none
    blind := false
    blindTimer := none
    fstop := x.fstop
    gopen := x.gopen }

/-- Blindness judged at the start of a line (R71, R78, R79): a blind line's timer starts. -/
def State.startBlind (n : LineNo) (s : State) : State :=
  if s.isBlind n then
    s.setLine n { s.line n with blind := true, blindTimer := some (s.after ((s.lineCfg n).blindLimit * 1000)) }
  else s

/-- A closure after a reset (R121, R122); `kept` says that it was SHUT before a restart. -/
def Closure.fresh (x : Closure) (kept : Bool) (now travelEnd : Instant) (kind : ClosureKind) : Closure :=
  if kept then
    { x with state := .shut, direction := .none, hold := false, travelTimer := none, waitTimer := none }
  else
    let opened := x.position = .opened
    { x with
      state := if opened then .held else .ready
      direction := .none
      hold := true
      travelTimer := if kind = .damper ∧ ¬opened then some travelEnd else none
      waitTimer := none
      entered := now
      origin := .none }

/-- The link after a reset (R166). -/
def Link.fresh : Link :=
  { receiver := .hunt, lastChar := none, buffer := [], slot := none, partHolding := false, flow := none,
    hostHeld := false, sending := none, alarm := [], notice := [], dropped := false, restartPending := false }

/-- The start of every block at the present instant: what the two resets have in common, and with `restart` what a
restart keeps. No record is written and no report placed here. -/
def State.startBlocks (restart : Bool) (s : State) : State :=
  let store := s.store.load
  let s1 : State := { s with store := store }
  let now := s.uptime
  let s2 : State :=
    { s1 with
      detectors := tabulate fun d => Detector.fresh (s.det d).lit (s1.detCfg d).supervision now
      meters := Vector.replicate 8 (Meter.fresh now)
      stations := tabulate fun n => { resetStation with wconf := (s.station n).wconf }
      lines := tabulate fun n =>
        (s.line n).fresh (restart && (s.line n).state == .stopped) now (s1.freshWindow n)
      causes := []
      zones := Vector.replicate 16 ⟨.quiet, none⟩
      inputs := tabulate fun f => FireInput.anew (s.input f).raw (s1.debounceEnd f)
      faults := FaultTable.empty
      faultOutput := false
      shift := .day
      closures := tabulate fun c =>
        (s.closure c).fresh (restart && (s.closure c).state == .shut) now
          (s.after ((s1.closureCfg c).travelTime * 1000)) (s1.closureCfg c).kind
      sectors := Vector.replicate 6 resetSector
      dis := ⟨[], none, false⟩
      link := Link.fresh }
  forAll State.startBlind s2

/-- A closure kept SHUT whose position is OPEN raises OPENED-WHILE-SHUT at the start (R122). -/
def State.testShut (c : ClosureNo) (s : State) : State :=
  if (s.closure c).state = .shut ∧ (s.closure c).position = .opened then s.raiseFault (.closure c) .openedWhileShut
  else s

/-- Sources of a restart (R165, R185). -/
inductive StartSource where
  | none | request | input
  deriving DecidableEq, Repr

/-- Source code of a START record (R185). -/
def StartSource.code : StartSource → Byte
  | .none => 0 | .request => 1 | .input => 2

/-- The START record and report (R169, R166), then DEFAULTED where a section failed its check (R177). -/
def State.announce (kind : Byte) (source : StartSource) (s : State) : State :=
  (s.event .notice .start 0x40 0 0 ⟨kind, source.code, 0, 0, 0⟩).deriveStoreFaults

/-- POWER-ON RESET (R166, R169): the uptime clock starts at 0, and the history is emptied. -/
def State.powerOn (s : State) : State :=
  let s := { s with uptime := 0, tenth := 0, history := ⟨[], 1⟩ }
  (s.startBlocks false).announce 1 .none

/-- The line cause of a STOPPED line re-entered at its former level (R79); with the reloaded zone setting 0 none is
entered. `before` is the state before the restart. -/
def State.reenter (before : State) (n : LineNo) (s : State) : State :=
  match (s.line n).state, before.causeLevel (.line n) with
  | .stopped, some l => s.raiseLineCause n l
  | _, _ => s

/-- RESTART (R165): every block takes up its state after restart, the closures kept SHUT test their limit inputs, then
the line causes of STOPPED lines are re-entered in number order, and each zone's level is derived from the re-entries,
once (R79, R92, R101). START comes first (R169) and the closures before the causes (R122); that DEFAULTED is raised before
the closures are tested, and the order of the causes and the zones, are the model's choices (log entry 13). -/
def State.restart (source : StartSource) (s : State) : State :=
  (forAll s.reenter (forAll State.testShut ((s.startBlocks true).announce 2 source))).deriveChanged []

/-- POWER_ON_RESET (R166). -/
def execPowerOnReset (s : State) : Out := done s.powerOn

/-- RESET_INPUT: RSTIN becomes active, and the restart takes place at once (R165). -/
def execResetInput (s : State) : Out := done (s.restart .input)

end Sys2Proof.Machine
end

