-- ==== Sys2Proof/Machine/Link.lean ====
section
/-! DEFINITION. The message link (chapter 9) and the requests it owns, with READ-HISTORY (R168): the receiver, the
transmitter, flow control, error entries, IDENT, STATUS and RESTART. -/

namespace Sys2Proof.Machine

/-! ### The receiver (R153 to R155) -/

/-- The kinds of the host's flow frames (R154, R181). -/
def flowOf (kind : Byte) : Option Flow :=
  if kind = 0x70 then some .hold else if kind = 0x71 then some .go else none

/-- A host flow frame taken (R158). -/
def Link.hostFlow (k : Link) : Flow → Link
  | .hold => { k with hostHeld := true }
  | .go => { k with hostHeld := false }

/-- What a frame with KIND and PAYLOAD `body` and a check value is judged to be (R154): an error, a host flow frame,
or a request. -/
inductive Judged where
  | error
  | flow (f : Flow)
  | request (kind : Byte) (payload : Payload)
  deriving DecidableEq, Repr

/-- The check value over LEN, KIND and PAYLOAD (R154). -/
def frameCheck (body : Payload) : BitVec 16 := checkValue (BitVec.ofNat 8 body.length :: body)

/-- A complete frame judged (R154): LEN 1 to 121, the check value, and the host flow frames of LEN 1. -/
def judge (body : Payload) (check : BitVec 16) : Judged :=
  match body with
  | [] => .error
  | kind :: payload =>
    if Config.maxPayload < payload.length then .error
    else if frameCheck body ≠ check then .error
    else
      match flowOf kind, payload with
      | some f, [] => .flow f
      | _, _ => .request kind payload

/-- A judged frame goes where it belongs (R154, R155). -/
def Link.accept (k : Link) : Judged → Link
  | .error => k.offer .error
  | .flow f => k.hostFlow f
  | .request kind payload => k.offer (.request kind payload)

/-- The receiver back in HUNT, its frame in progress discarded. -/
def Link.hunt (k : Link) : Link := { k with receiver := .hunt, lastChar := none }

/-- A frame completes (R153 to R155). -/
def Link.complete (k : Link) (body : Payload) (check : BitVec 16) : Link := k.hunt.accept (judge body check)

/-- One character taken by the receiver (R153). A character with a fault in its stop bit is stored as received, and the
check value of its frame then fails; which characters count for this is log entry 42. -/
def Link.receive (k : Link) (c : Byte) (now : Stamp) (fault : Bool := false) : Link :=
  match k.receiver with
  | .hunt => if c = 0xC3 then { k with receiver := .length, lastChar := some now } else k
  | .length =>
    if 1 ≤ c.toNat ∧ c.toNat ≤ 121 then { k with receiver := .body c.toNat [] fault, lastChar := some now }
    else k.hunt.offer .error
  | .body len chars faulty =>
    let chars := chars ++ [c]
    if chars.length < len then { k with receiver := .body len chars (faulty || fault), lastChar := some now }
    else { k with receiver := .check chars none (faulty || fault), lastChar := some now }
  | .check chars none faulty =>
    { k with receiver := .check chars (some c) (faulty || fault), lastChar := some now }
  | .check chars (some first) faulty =>
    if faulty || fault then k.hunt.offer .error else k.complete chars (first ++ c)

/-- Tenths of a millisecond since the last character of the frame in progress; none in HUNT (R153). -/
def State.gapTenths (s : State) : Option Nat :=
  match s.link.receiver with
  | .hunt => none
  | _ => s.link.lastChar.map s.tenthsSince

/-- Whether the gap timer of 20 ms has run out (R153). -/
def State.gapOver (s : State) : Bool :=
  match s.gapTenths with
  | none => false
  | some t => decide (200 ≤ t)

/-- Whether more than 20 ms have passed since the last character, so that no character can continue the frame (R153). -/
def State.gapPassed (s : State) : Bool :=
  match s.gapTenths with
  | none => false
  | some t => decide (200 < t)

/-- CHARACTER_RECEIVED (R153): a character more than 20 ms after the one before it finds the frame discarded. -/
def execCharacterReceived (c : Received) (s : State) : Out :=
  let k := if s.gapPassed then s.link.hunt else s.link
  done { s with link := k.receive c.byte s.stamp c.fault }

/-- INBOUND_FRAME_COMPLETE (R155): a frame whose characters are given together completes on LRX. -/
def execInboundFrameComplete (body : Payload) (check : BitVec 16) (s : State) : Out :=
  done { s with link := s.link.complete body check }

/-- HOST_HOLD (R158). -/
def execHostHold (s : State) : Out := done { s with link := s.link.hunt.hostFlow .hold }

/-- HOST_GO (R158). -/
def execHostGo (s : State) : Out := done { s with link := s.link.hunt.hostFlow .go }

/-- INTER_BYTE_GAP_TIMEOUT (R153): the frame in progress is discarded without an answer. -/
def execInterByteGapTimeout (s : State) : Out :=
  if s.gapOver then done { s with link := s.link.hunt } else done s

/-- FRAME_ERROR (R156): an error entry is taken and refused FRAME-ERROR with request kind 0. -/
def execFrameError (s : State) : Out := take .error (fun s => (s, refusedFrame 0 .frameError 0)) s

/-- The refusal of a request whose KIND names no request (R156): UNKNOWN-KIND, or for HOLD and GO, whose payload
length is 0, BAD-LENGTH. -/
def unknownAnswer (kind : Byte) : Frame :=
  match flowOf kind with
  | some _ => refusedFrame kind .badLength 0
  | none => refusedFrame kind .unknownKind 0

/-- UNKNOWN_KIND (R156). A KIND that does name a request is none of this command's: its frame only enters the buffer
(R155), from which it is taken as that request. -/
def execUnknownKind (kind : Byte) (p : Payload) (s : State) : Out :=
  if (requestLength kind).isSome then done { s with link := s.link.offer (.request kind p) }
  else take (.request kind p) (fun s => (s, unknownAnswer kind)) s

/-! ### The transmitter (R159, R165) -/

/-- Whether the last character of the frame on LTX has been sent (R159). -/
def State.sent (s : State) : Bool :=
  match s.link.sending with
  | none => false
  | some x => decide (x.frame.tenths ≤ s.tenthsSince x.begun)

/-- Whether the frame on LTX is the RESTART reply that a pending restart waits for (R165). -/
def Link.restartReply (k : Link) : Bool :=
  k.restartPending &&
    match k.sending with
    | none => false
    | some x => x.frame.kind == 0x84

/-- TRANSMIT_FRAME_END (R159): the transmitter chooses the next frame; after a RESTART reply the restart takes place
(R165). -/
def execTransmitFrameEnd (s : State) : Out :=
  if s.sent then
    if s.link.restartReply then done (s.restart .request)
    else done { s with link := { s.link with sending := none } }
  else done s

/-! ### General requests (R162, R163, R165, R168) -/

/-- IDENT (R162). -/
def State.identReq (s : State) : State × Answer :=
  (s, .reply (enc16 Config.partCode ++ [BitVec.ofNat 8 (Config.siliconRevisionLessOne.val + 1)] ++
    enc16 s.store.live.general.site))

/-- Four zone levels in one byte, the lowest zone in bits 1–0 (R184). -/
def State.levelByte (s : State) (a b c d : ZoneNo) : Byte :=
  BitVec.ofNat 8 ((s.zone a).level.rank + (s.zone b).level.rank * 4 + (s.zone c).level.rank * 16 +
    (s.zone d).level.rank * 64)

/-- The state and stop cause of a line in one byte (R184). -/
def State.lineByte (s : State) (n : LineNo) : Byte :=
  BitVec.ofNat 8 ((s.line n).state.code.toNat * 16 + (s.line n).stopCause.code.toNat)

/-- A set of numbered objects as a number, bit n−1 for number n. -/
def setOf (k : Nat) (p : Fin k → Bool) : Nat := bitsOf ((List.finRange k).map p)

/-- The payload of the STATUS reply (R163, R184). -/
def State.statusPayload (s : State) : Payload :=
  let faulty := fun o => s.faults.get o != 0
  let dets := setOf 24 fun d => faulty (.detector d)
  enc32 s.uptime ++ [s.shift.code, flagByte s.faultOutput, flagByte s.link.dropped] ++
  [s.levelByte 0 1 2 3, s.levelByte 4 5 6 7, s.levelByte 8 9 10 11, s.levelByte 12 13 14 15] ++
  (List.finRange 8).map s.lineByte ++
  (List.finRange 6).map (fun n => (s.sector n).state.code) ++
  [BitVec.ofNat 8 dets, BitVec.ofNat 8 (dets / 256), BitVec.ofNat 8 (dets / 65536)] ++
  enc8 (setOf 8 fun n => faulty (.line n)) ++
  enc8 (setOf 8 fun n => s.holds (.station n) .noWater) ++
  enc16 (setOf 16 fun c => faulty (.closure c)) ++
  enc8 (bitsOf [s.holds .store .saveFailed, s.holds .store .defaulted]) ++
  enc8 s.dis.entries.length ++ enc8 (s.dis.entries.filter Entry.active).length ++
  enc8 s.link.alarm.length ++ enc8 s.link.notice.length

/-- STATUS (R163): the snapshot, and the dropped flag cleared (R161). -/
def State.statusReq (s : State) : State × Answer :=
  ({ s with link := { s.link with dropped := false } }, .reply s.statusPayload)

/-- RESTART (R165): the reply, and restart pending. -/
def State.restartReq (s : State) : State × Answer :=
  ({ s with link := { s.link with restartPending := true } }, .reply [])

/-- A history record as sent (R184). -/
def Record.enc (r : Record) : Payload :=
  enc32 r.seq ++ enc32 r.at_ ++ [r.kind.code, r.objKind, r.objNum, r.detail.d0, r.detail.d1, r.detail.d2, r.detail.d3,
    r.detail.d4]

/-- The records READ-HISTORY returns and the overwritten flag (R168). -/
def History.select (h : History) (first : BitVec 32) (count : Nat) : List Record × Bool :=
  let diff := (h.next - first).toNat
  let c := clamp 1 6 count
  if diff = 0 ∨ 2 ^ 31 < diff then ([], false)
  else if h.records.length < diff then (h.records.take c, true)
  else ((h.records.drop (h.records.length - diff)).take c, false)

/-- The oldest held sequence number; the next sequence number of an empty ring (R184). -/
def History.oldest (h : History) : BitVec 32 :=
  match h.records with
  | [] => h.next
  | r :: _ => r.seq

/-- READ-HISTORY (R168). -/
def State.readHistoryReq (first : BitVec 32) (count : Nat) (s : State) : State × Answer :=
  let r := s.history.select first count
  (s, .reply (enc32 s.history.oldest ++ enc32 s.history.next ++ [flagByte r.2, byteOf r.1.length] ++
    r.1.flatMap Record.enc))

/-- IDENT: the request IDENT (R162). -/
def execIdent (p : Payload) (s : State) : Out := request 0x01 p State.identReq s

/-- STATUS: the request STATUS (R163). -/
def execStatus (p : Payload) (s : State) : Out := request 0x02 p State.statusReq s

/-- RESTART: the request RESTART (R165). -/
def execRestart (p : Payload) (s : State) : Out := request 0x04 p State.restartReq s

/-- READ_HISTORY: the request READ-HISTORY {first, count} (R168). -/
def execReadHistory (p : Payload) (s : State) : Out :=
  request 0x24 p (State.readHistoryReq (BitVec.ofNat 32 (word32At p 0)) (byteAt p 4)) s

end Sys2Proof.Machine
end

