-- ==== Sys2Proof/Machine/Clock.lean ====
section
/-! DEFINITION. What the part does of itself when no command waits (log entry 1): the uptime clock advances by a tenth
of a millisecond, and an event that the part itself has timed is taken at its instant, as the command of its row. -/

namespace Sys2Proof.Machine

/-- The width count of a lit pulse advances by 0.1 ms and stops at 65535 (R7). -/
def Detector.tick (x : Detector) : Detector := if x.lit then { x with width := min (x.width + 1) 65535 } else x

/-- The clocks advance by a tenth of a millisecond: the uptime clock counts milliseconds and wraps (00_scope "Time"),
and the pulses in progress are measured (R7). -/
def State.advance (s : State) : State :=
  { s with
    uptime := if s.tenth = 9 then s.uptime + 1 else s.uptime
    tenth := if s.tenth = 9 then 0 else s.tenth + 1
    detectors := tabulate fun d => (s.det d).tick }

/-- The command of an entry of the inbound buffer (R156): the row of its request. -/
def commandOf : Inbound → Instr
  | .error => .frameError
  | .request kind p => decodeRequest kind p

/-- A command if a truth holds. -/
def when (b : Bool) (c : Instr) : List Instr := if b then [c] else []

/-- The commands due of a kind of object, in number order. -/
def dueOf {k : Nat} (p : Fin k → Bool) (c : Fin k → Instr) : List Instr :=
  (List.finRange k).flatMap fun i => when (p i) (c i)

/-- The taking of the oldest entry of the buffer, when it may be taken (R156). -/
def State.takeDue (s : State) : List Instr :=
  if s.link.mayTake then
    match s.link.buffer with
    | [] => []
    | e :: _ => [commandOf e]
  else []

/-- The events due at the link. -/
def State.linkDue (s : State) : List Instr :=
  s.takeDue ++ when s.sent .transmitFrameEnd ++ when s.gapOver .interByteGapTimeout

/-- The events due at the detectors: a sample's end returns a level the outside decides, a free value (log entry 4). -/
def State.detectorDue (s : State) : List Instr :=
  dueOf s.sampleStartDue .sampleStart ++
  dueOf s.sampleEndDue (fun d => .sampleEnd d (Config.freeLevel s.freeCount)) ++
  dueOf s.glareDue .glareLimitReached ++ dueOf s.glareOver .glareCleared ++
  dueOf s.candidateOver .candidateExpired ++ dueOf s.holdOver .sparkHoldExpired

/-- The events due at the meters, stations and lines. -/
def State.lineDue (s : State) : List Instr :=
  dueOf s.gateDue .gateEnd ++ dueOf s.windowDue .windowStart ++ dueOf s.windowOver .windowEnd ++
  dueOf s.confirmDue .confirmTimerExpired ++
  dueOf (fun n => (s.line n).state == .starting && s.expired (s.line n).startTimer) .startTimerExpired ++
  dueOf (fun n => (s.line n).state == .abort && s.expired (s.line n).dwellTimer) .abortDwellExpired ++
  dueOf (fun n => s.expired (s.line n).gateTimer) .gateTimerExpired ++
  dueOf (fun n => (s.line n).state == .stopping && s.expired (s.line n).rundownTimer) .rundownTimerExpired ++
  dueOf (fun n => s.expired (s.line n).blindTimer) .blindTimerExpired ++
  dueOf (fun n => s.expired (s.line n).countWindow) .countingWindowExpired

/-- Whether a fire input's debounce completes now (R86). -/
def State.debounceDue (s : State) (f : InputNo) : Bool :=
  ((s.input f).phase == .rising || (s.input f).phase == .falling) && s.expired (s.input f).timer

/-- Whether a closure's travel timer expires now (R110, R113). -/
def State.travelDue (s : State) (c : ClosureNo) : Bool :=
  ((s.closure c).state == .releasing || (s.closure c).state == .ready) && s.expired (s.closure c).travelTimer

/-- The events due at the fire inputs, closures and sectors. -/
def State.plantDue (s : State) : List Instr :=
  dueOf s.debounceDue .debounceTimerExpired ++ dueOf s.travelDue .travelTimerExpired ++
  dueOf (fun c => (s.closure c).state == .waiting && s.expired (s.closure c).waitTimer) .waitTimerExpired ++
  dueOf s.phaseDue .phaseEnd ++
  dueOf (fun n => (s.sector n).state == .test && s.expired (s.sector n).testEnd) .testEnd

/-- The events due at the disablement table and the store: a section write ends well or not as the outside decides, a
free value (log entry 4). -/
def State.tableDue (s : State) : List Instr :=
  when s.prepareOver .prepareExpired ++
  (s.dis.entries.filter fun (e : Entry) => s.entryOver e.target).map (fun (e : Entry) => .entryExpired e.target) ++
  when s.writeDue (.sectionWriteEnd (Config.freeWriteGood s.freeCount))

/-- Every event due now. -/
def State.due (s : State) : List Instr :=
  s.linkDue ++ s.detectorDue ++ s.lineDue ++ s.plantDue ++ s.tableDue

/-- Whether an event's outcome uses a free value (log entry 4). -/
def usesFree : Instr → Bool
  | .sampleEnd _ _ => true
  | .sectionWriteEnd _ => true
  | _ => false

/-- The event taken now among those due, or none: where several are due either may be taken first, and a free value
decides (log entry 3). -/
def State.nextDue (s : State) : Option Instr :=
  match s.due with
  | [] => none
  | [c] => some c
  | l => l[Config.freeChoice s.freeCount % l.length]?

/-- The free-value counter after an event is chosen. -/
def State.countFree (s : State) (c : Instr) : State :=
  if 1 < s.due.length ∨ usesFree c = true then { s with freeCount := s.freeCount + 1 } else s

end Sys2Proof.Machine
end

