-- ==== Sys2Proof/Machine/Dispatch.lean ====
section
/-! DEFINITION. The dispatch of every command to its meaning, one arm per constructor, in the table's order. -/

namespace Sys2Proof.Machine

/-- The meaning of every command: its effect on everything but the queue of waiting commands. -/
def exec (i : Instr) (s : State) : Host.Outcome State Fault Refusal :=
  match i with
  | .powerOnReset => Sys2Proof.Machine.execPowerOnReset s
  | .resetInput => Sys2Proof.Machine.execResetInput s
  | .serviceChange active => Sys2Proof.Machine.execServiceChange active s
  | .inboundFrameComplete body check => Sys2Proof.Machine.execInboundFrameComplete body check s
  | .hostHold => Sys2Proof.Machine.execHostHold s
  | .hostGo => Sys2Proof.Machine.execHostGo s
  | .interByteGapTimeout => Sys2Proof.Machine.execInterByteGapTimeout s
  | .frameError => Sys2Proof.Machine.execFrameError s
  | .unknownKind kind payload => Sys2Proof.Machine.execUnknownKind kind payload s
  | .transmitFrameEnd => Sys2Proof.Machine.execTransmitFrameEnd s
  | .ident payload => Sys2Proof.Machine.execIdent payload s
  | .status payload => Sys2Proof.Machine.execStatus payload s
  | .readObject payload => Sys2Proof.Machine.execReadObject payload s
  | .restart payload => Sys2Proof.Machine.execRestart payload s
  | .startLine payload => Sys2Proof.Machine.execStartLine payload s
  | .stopLine payload => Sys2Proof.Machine.execStopLine payload s
  | .resetLine payload => Sys2Proof.Machine.execResetLine payload s
  | .resetStation payload => Sys2Proof.Machine.execResetStation payload s
  | .floodStation payload => Sys2Proof.Machine.execFloodStation payload s
  | .resetZone payload => Sys2Proof.Machine.execResetZone payload s
  | .readCauses payload => Sys2Proof.Machine.execReadCauses payload s
  | .setShift payload => Sys2Proof.Machine.execSetShift payload s
  | .releaseClosure payload => Sys2Proof.Machine.execReleaseClosure payload s
  | .resetClosure payload => Sys2Proof.Machine.execResetClosure payload s
  | .silenceSector payload => Sys2Proof.Machine.execSilenceSector payload s
  | .testSector payload => Sys2Proof.Machine.execTestSector payload s
  | .disablePrepare payload => Sys2Proof.Machine.execDisablePrepare payload s
  | .disableConfirm payload => Sys2Proof.Machine.execDisableConfirm payload s
  | .enable payload => Sys2Proof.Machine.execEnable payload s
  | .clearDisableError payload => Sys2Proof.Machine.execClearDisableError payload s
  | .listDisablements payload => Sys2Proof.Machine.execListDisablements payload s
  | .readHistory payload => Sys2Proof.Machine.execReadHistory payload s
  | .readSetting payload => Sys2Proof.Machine.execReadSetting payload s
  | .writeSetting payload => Sys2Proof.Machine.execWriteSetting payload s
  | .saveSettings payload => Sys2Proof.Machine.execSaveSettings payload s
  | .lockSection payload => Sys2Proof.Machine.execLockSection payload s
  | .loadDefaults payload => Sys2Proof.Machine.execLoadDefaults payload s
  | .sectionWriteEnd good => Sys2Proof.Machine.execSectionWriteEnd good s
  | .sampleStart d => Sys2Proof.Machine.execSampleStart d s
  | .sampleEnd d level => Sys2Proof.Machine.execSampleEnd d level s
  | .pulseLeadingEdge d => Sys2Proof.Machine.execPulseLeadingEdge d s
  | .pulseTrailingEdge d => Sys2Proof.Machine.execPulseTrailingEdge d s
  | .glareLimitReached d => Sys2Proof.Machine.execGlareLimitReached d s
  | .glareCleared d => Sys2Proof.Machine.execGlareCleared d s
  | .candidateExpired d => Sys2Proof.Machine.execCandidateExpired d s
  | .velocityPulse n => Sys2Proof.Machine.execVelocityPulse n s
  | .gateEnd n => Sys2Proof.Machine.execGateEnd n s
  | .windowStart n => Sys2Proof.Machine.execWindowStart n s
  | .windowEnd n => Sys2Proof.Machine.execWindowEnd n s
  | .wconfActive n => Sys2Proof.Machine.execWconfActive n s
  | .wconfInactive n => Sys2Proof.Machine.execWconfInactive n s
  | .confirmTimerExpired n => Sys2Proof.Machine.execConfirmTimerExpired n s
  | .startTimerExpired n => Sys2Proof.Machine.execStartTimerExpired n s
  | .abortDwellExpired n => Sys2Proof.Machine.execAbortDwellExpired n s
  | .gateTimerExpired n => Sys2Proof.Machine.execGateTimerExpired n s
  | .rundownTimerExpired n => Sys2Proof.Machine.execRundownTimerExpired n s
  | .blindTimerExpired n => Sys2Proof.Machine.execBlindTimerExpired n s
  | .countingWindowExpired n => Sys2Proof.Machine.execCountingWindowExpired n s
  | .fstopActive n active => Sys2Proof.Machine.execFstopActive n active s
  | .gopenActive n active => Sys2Proof.Machine.execGopenActive n active s
  | .fireInputEdge f active => Sys2Proof.Machine.execFireInputEdge f active s
  | .debounceTimerExpired f => Sys2Proof.Machine.execDebounceTimerExpired f s
  | .sparkHoldExpired d => Sys2Proof.Machine.execSparkHoldExpired d s
  | .closureLimitChange c limit active => Sys2Proof.Machine.execClosureLimitChange c limit active s
  | .travelTimerExpired c => Sys2Proof.Machine.execTravelTimerExpired c s
  | .waitTimerExpired c => Sys2Proof.Machine.execWaitTimerExpired c s
  | .phaseEnd n => Sys2Proof.Machine.execPhaseEnd n s
  | .testEnd n => Sys2Proof.Machine.execTestEnd n s
  | .prepareExpired => Sys2Proof.Machine.execPrepareExpired s
  | .entryExpired t => Sys2Proof.Machine.execEntryExpired t s
  | .characterReceived c => Sys2Proof.Machine.execCharacterReceived c s

end Sys2Proof.Machine
end

