-- ==== Sys2Proof/Machine/Step.lean ====
section
/-! DEFINITION. One step of the part: the command at the front of the queue, or, while none waits, what the part does
of itself (log entry 1). -/

namespace Sys2Proof.Machine

/-- The step on an empty queue (log entry 1): an event due now, or a tenth of a millisecond passes. -/
def idle (s : State) : Host.Outcome State Fault Refusal :=
  match s.nextDue with
  | none => .next s.advance
  | some c => exec c (s.countFree c)

/-- One step. -/
def step (s : State) : Host.Outcome State Fault Refusal :=
  match s.pending with
  | [] => idle s
  | c :: rest => exec c { s with pending := rest }

/-- The state with the command a word spells put at the front of its queue; no row of the table has bits, so no word
spells one and the state is unchanged. -/
def State.withFetchWord (s : State) (nbits w : Nat) : State :=
  match decodeTableWord nbits w with
  | none => s
  | some c => { s with pending := c :: s.pending }

end Sys2Proof.Machine
end

