-- ==== Sys2Proof/Safety.lean ====
section
/-! DEFINITION. What every reachable state of the part satisfies, block by block, in the terms of the manual's rules, and
the frames that statements about commands use. Each predicate is meant to be kept by every step. -/

namespace Sys2Proof.Machine

/-! ### The link -/

/-- A frame the part may send has a payload of at most 120 characters (R152). -/
def Frame.fits (f : Frame) : Prop := f.payload.length ≤ Config.maxPayload

/-- The receiver holds no more than one frame in progress (R153): LEN is 1 to 121, fewer characters than LEN are held
in BODY, and at least one in CHECK. -/
def Receiver.sound : Receiver → Prop
  | .hunt => True
  | .length => True
  | .body len chars _ => len ≤ 121 ∧ chars.length < len
  | .check chars _ _ => 1 ≤ chars.length ∧ chars.length ≤ 121

/-- The capacities of the link (R155, R161), and the part hold state that goes with the buffer's occupancy (R157): 2 to
4 entries while HOLDING, at most 3 while RELEASED. -/
def Link.capacities (k : Link) : Prop :=
  k.buffer.length ≤ 4 ∧ k.alarm.length ≤ 16 ∧ k.notice.length ≤ 32 ∧
    (if k.partHolding then 2 ≤ k.buffer.length else k.buffer.length ≤ 3)

/-- The transmitter is IDLE only while no claimant is to be served (R159). -/
def Link.busyWhileWaiting (k : Link) : Prop :=
  k.sending = none →
    k.flow = none ∧ (k.hostHeld = true ∨ (k.slot = none ∧ k.alarm = [] ∧ k.notice = []))

/-! ### The history -/

/-- The history holds at most 512 records, numbered in one unbroken run up to the next sequence number (R167). -/
def History.sound (h : History) : Prop :=
  h.records.length ≤ 512 ∧
    ∀ i (hi : i < h.records.length),
      (h.records[i]).seq = h.next - BitVec.ofNat 32 (h.records.length - i)

/-! ### Outputs -/

/-- A line's outputs follow its state (R56); in STOPPING and STOPPED the gate stands as it did. -/
def State.lineOutputs (s : State) (n : LineNo) : Prop :=
  let x := s.line n
  (x.fan = true ↔ x.state = .starting ∨ x.state = .run ∨ x.state = .abort) ∧
  (x.feed = true ↔ x.state = .run) ∧
  (x.state = .abort → x.gate = true) ∧
  (x.state = .off ∨ x.state = .starting ∨ x.state = .run → x.gate = false)

/-- A closure's HOLD output follows its state (R102), and it has a direction exactly while STUCK. -/
def State.closureOutputs (s : State) (c : ClosureNo) : Prop :=
  let x := s.closure c
  (x.hold = true ↔
    x.state = .held ∨ x.state = .ready ∨ x.state = .waiting ∨ (x.state = .stuck ∧ x.direction = .opening)) ∧
  (x.state = .stuck ↔ x.direction ≠ .none)

/-- A sector's output is on exactly in SOUNDING or TEST, in an ON phase, without an ACTIVE disablement (R126). -/
def State.sectorOutput (s : State) (n : SectorNo) : Prop :=
  (s.sector n).siren = true ↔
    ((s.sector n).state = .sounding ∨ (s.sector n).state = .test) ∧
    (∃ c, (s.sector n).cycle = some c ∧ c.phase.on = true) ∧ s.disabled (.sector n) = false

/-- A station's output is on exactly in OPENING and OPEN, and its valve state follows the list and the water input
(R42). -/
def State.valveSound (s : State) (n : LineNo) : Prop :=
  let x := s.station n
  (x.valveOn = true ↔ x.valve = .opening ∨ x.valve = .opened) ∧
  (x.valve = .closed ↔ x.windows = []) ∧
  (x.valve = .opening → x.wconf = false) ∧ (x.valve = .opened → x.wconf = true) ∧
  (x.confirmTimer ≠ none → x.valve = .opening ∧ s.holds (.station n) .noWater = false) ∧
  x.windows.length ≤ 4

/-- The FAULT output is on exactly while an object holds a fault or an entry is ACTIVE (R97). -/
def State.faultSound (s : State) : Prop :=
  s.faultOutput = true ↔ (∃ o, s.faults.get o ≠ 0) ∨ ∃ e ∈ s.dis.entries, e.activated ≠ none

/-! ### Causes, zones and sectors -/

/-- What R80 to R85 say of one record: sources, levels, latched flags and holds. -/
def Cause.sound (r : Cause) : Prop :=
  match r.source with
  | .detector _ => r.level = .spark ∧ r.latched = false ∧ r.hold ≠ none
  | .fireInput _ => (r.level = .alert ∨ r.level = .fire) ∧ (r.latched = true ↔ r.level = .fire) ∧ r.hold = none
  | .station _ => r.level = .alert ∧ r.latched = false ∧ r.hold = none
  | .line _ => (r.level = .alert ∨ r.level = .fire) ∧ r.latched = true ∧ r.hold = none

/-- The cause list holds at most one record per source (R80). -/
def State.causesSound (s : State) : Prop :=
  (s.causes.map (·.source)).Nodup ∧ ∀ r ∈ s.causes, r.sound

/-- A zone's level is the highest among its records, QUIET without any (R92). -/
def State.zoneSound (s : State) (z : ZoneNo) : Prop :=
  (∀ r ∈ s.causes, r.zone = z → r.level.rank ≤ (s.zone z).level.rank) ∧
  ((s.zone z).level = .quiet ∨ ∃ r ∈ s.causes, r.zone = z ∧ r.level = (s.zone z).level)

/-- A sector's state and demand follow the causes (R123, R124): SOUNDING exactly with a demand, TEST only without one,
SILENCED and QUIET by whether a cause at ALERT or FIRE stands in its zones; and it shows the highest level of its
zones. -/
def State.sectorSound (s : State) (n : SectorNo) : Prop :=
  let x := s.sector n
  x.demand = s.demandOf n ∧
  (x.state = .sounding ↔ x.demand ≠ .none) ∧
  (x.state = .silenced → ∃ r ∈ s.causes, s.standsFor n r = true) ∧
  (x.state = .quiet → ∀ r ∈ s.causes, s.standsFor n r = false) ∧
  x.highest = s.highestOf (s.sectorCfg n).zones

/-- What a sector plays (R125, R128, R129): in SOUNDING a level at or above the demand, a lower demand pending on the
cycle's end; else nothing pends, and outside TEST there is no cycle. -/
def Sector.playingSound (x : Sector) : Prop :=
  (x.state = .sounding → x.playing ≠ .none ∧ x.demand.rank ≤ x.playing.rank ∧
    (x.pendingLevel = if x.demand = x.playing then .none else x.demand) ∧ x.soundingSince ≠ none ∧ x.testEnd = none) ∧
  (x.state ≠ .sounding → x.playing = .none ∧ x.pendingLevel = .none ∧ x.soundingSince = none) ∧
  (x.state = .quiet ∨ x.state = .silenced → x.pattern = none ∧ x.cycle = none ∧ x.testEnd = none) ∧
  (x.state = .test → x.testEnd ≠ none) ∧
  (x.pendingLevel ≠ .none → x.cycle ≠ none)

/-! ### Detectors and fire inputs -/

/-- A detector channel: its mode is the one derived from its setting and the shift mode, or that one waits for the
sample in flight (R1, R3); an OFF channel takes no samples and holds no loop fault (R6); the run counts stop at 4 (R4);
OPEN and SHORT are never held together (R5); the glare phase goes with GLARE (R9, R10); and a candidate is held only in
WATCH by a channel that is neither faulted nor disabled (R13, R14). -/
def State.detectorSound (s : State) (d : DetNo) : Prop :=
  let x := s.det d
  let m := effectiveMode (s.detCfg d).supervision s.shift
  (x.nextMode = none → x.mode = m) ∧ (∀ w, x.nextMode = some w → x.busy = true ∧ w = m) ∧
  (x.mode = .off → x.busy = false ∧ x.lastLevel = none ∧ x.openRun = 0 ∧ x.shortRun = 0 ∧
    s.holds (.detector d) .openLoop = false ∧ s.holds (.detector d) .short = false) ∧
  x.openRun ≤ 4 ∧ x.shortRun ≤ 4 ∧
  ¬(s.holds (.detector d) .openLoop = true ∧ s.holds (.detector d) .short = true) ∧
  (s.holds (.detector d) .glare = true ↔ x.glare ≠ .none) ∧
  (x.candidate ≠ none → s.shift = .watch ∧ s.usable d = true)

/-- A fire input: raw input and debounce timer go with the phase (R86), and a cause that is not latched is held only
while the input is debounced active and not disabled (R87 to R89). -/
def State.inputSound (s : State) (f : InputNo) : Prop :=
  let x := s.input f
  (x.raw = true ↔ x.phase = .rising ∨ x.phase = .on) ∧
  (x.timer ≠ none ↔ x.phase = .rising ∨ x.phase = .falling) ∧
  ∀ r, s.causeOf (.fireInput f) = some r → r.latched = false →
    (x.phase = .on ∨ x.phase = .falling) ∧ s.disabled (.fireInput f) = false

/-! ### Lines and closures -/

/-- A line's timers and stop cause go with its state (R58, R60, R65, R66, R73). -/
def Line.timersSound (x : Line) : Prop :=
  (x.startTimer ≠ none ↔ x.state = .starting) ∧ (x.dwellTimer ≠ none ↔ x.state = .abort) ∧
  (x.rundownTimer ≠ none ↔ x.state = .stopping) ∧
  (x.gateTimer ≠ none → x.gate = true ∧ (x.state = .abort ∨ x.state = .stopping ∨ x.state = .stopped)) ∧
  (x.stopCause = .none ↔ x.state = .off ∨ x.state = .starting ∨ x.state = .run) ∧
  (x.stopCause = .orderly → x.state = .stopping ∨ x.state = .stopped)

/-- Spark thresholds of a copy of the settings are 1 to 1,023 (section 4.11). -/
def Settings.thresholds (t : Settings) : Prop :=
  ∀ n : LineNo, 1 ≤ (t.lines[n.val]).sparkThreshold ∧ (t.lines[n.val]).sparkThreshold ≤ 1023

/-- Each line's spark counter is below its threshold (R63), and both copies of the settings are in range. -/
def State.countersSound (s : State) : Prop :=
  s.store.live.thresholds ∧ s.store.stored.thresholds ∧
    ∀ n, (s.line n).counter < (s.lineCfg n).sparkThreshold

/-- A line is blind exactly when no detector assigned to it is usable (R71); BLIND is held, and the blind timer runs,
only while it is blind. -/
def State.blindSound (s : State) (n : LineNo) : Prop :=
  (s.line n).blind = s.isBlind n ∧
  (s.holds (.line n) .blind = true → (s.line n).blind = true) ∧
  ((s.line n).blindTimer ≠ none → (s.line n).blind = true)

/-- A closure's timers go with its state (R107, R109, R113), and STUCK is held exactly in STUCK (R111). -/
def State.closureSound (s : State) (c : ClosureNo) : Prop :=
  let x := s.closure c
  (x.waitTimer ≠ none ↔ x.state = .waiting) ∧
  (x.travelTimer ≠ none → x.state = .releasing ∨ x.state = .ready) ∧
  (x.state = .releasing → x.travelTimer ≠ none) ∧
  (s.holds (.closure c) .stuck = true ↔ x.state = .stuck)

/-- A damper waits only while the fan of its line is running (R107, R109). -/
def State.waitSound (s : State) (c : ClosureNo) : Prop :=
  (s.closure c).state = .waiting → (s.closureCfg c).kind = .damper ∧ s.fanRunning c = true

/-- No line is STARTING or RUN while a damper assigned to it is in a state other than HELD (R69). -/
def State.dampersHeld (s : State) (n : LineNo) : Prop :=
  (s.line n).state = .starting ∨ (s.line n).state = .run → ∀ c, s.damperOf n c = true → (s.closure c).state = .held

/-- While the mode is WATCH every line is OFF or STOPPED (R98). -/
def State.watchStill (s : State) : Prop :=
  s.shift = .watch → ∀ n, (s.line n).state = .off ∨ (s.line n).state = .stopped

/-! ### The disablement table -/

/-- The table (R139, R141, R143, R146): at most 32 entries, one per target; a limit of at most 1,440 minutes; an expiry
exactly in an ACTIVE entry with a limit; a PENDING entry only while its owner has work in hand. -/
def State.tableSound (s : State) : Prop :=
  s.dis.entries.length ≤ 32 ∧ (s.dis.entries.map (·.target)).Nodup ∧
  (∀ e ∈ s.dis.entries, e.limit ≤ 1440 ∧ (e.expiry ≠ none ↔ e.activated ≠ none ∧ e.limit ≠ 0)) ∧
  ∀ e ∈ s.dis.entries, e.activated = none → s.inHand e.target = true

/-- The outstanding prepare (R140, R141, R144): only with SERVICE active and the latch clear, for a target without an
entry, with room in the table. -/
def State.prepareSound (s : State) : Prop :=
  ∀ p, s.dis.prepare = some p →
    s.service = true ∧ s.dis.latch = false ∧ s.hasEntry p.target = false ∧ p.limit ≤ 1440 ∧ s.dis.entries.length < 32

/-! ### The settings store -/

/-- SAVE-FAILED and DEFAULTED are held exactly while a section's flag is set (R170). -/
def State.storeFaultsSound (s : State) : Prop :=
  (s.holds .store .saveFailed = true ↔ ∃ k, (s.flagsOf k).writeFailed = true) ∧
  (s.holds .store .defaulted = true ↔ ∃ k, (s.flagsOf k).defaulted = true)

/-- The range of a setting, both bounds (sections 1.6, 4.11, 5.3, 6.8, 7.7, 7.3, 3.7, 10.2), but for the bounds w_min
and w_max give each other. -/
def SettingName.range : SettingName → Nat × Nat
  | .detector _ f => match f with
    | 1 => (0, 8) | 2 => (0, 16) | 3 => (50, 6000) | 4 => (1, 50) | 5 => (1, 2000) | 6 => (50, 2000)
    | 7 => (500, 10000) | 8 => (0, 2) | 9 => (1, 120) | _ => (0, 0)
  | .line _ f => match f with
    | 1 => (0, 16) | 2 => (0, 65535) | 3 => (1, 65535) | 4 => (300, 3000) | 5 => (1, 1023) | 6 => (0, 600)
    | 7 => (0, 500) | 8 => (0, 32) | 9 => (100, 5000) | 10 => (1, 120) | 11 => (5, 300) | 12 => (1, 20)
    | 13 => (5, 120) | 14 => (10, 300) | 15 => (0, 1) | 16 => (10, 600) | _ => (0, 0)
  | .input _ f => match f with
    | 1 => (0, 16) | 2 => (2, 3) | 3 => (50, 5000) | 4 => (0, 3) | _ => (0, 0)
  | .closure _ f => match f with
    | 1 => (0, 1) | 2 => (0, 65535) | 3 => (2, 3) | 4 => (1, 120) | 5 => (0, 8) | 6 => (1, 60) | _ => (0, 0)
  | .sector _ f => match f with
    | 1 => (0, 65535) | 2 => (0, 8) | 3 => (0, 8) | 4 => (0, 300) | _ => (0, 0)
  | .pattern _ f => match f with
    | 1 => (1, 4) | 2 => (0, 500) | 3 => (0, 500) | 4 => (0, 500) | 5 => (0, 500)
    | 6 => (0, 500) | 7 => (0, 500) | 8 => (0, 500) | 9 => (0, 500) | _ => (0, 0)
  | .general f => match f with
    | 1 => (200, 5000) | 2 => (0, 65535) | _ => (0, 0)

/-- A copy of the settings within its ranges (R171, R18). -/
def Settings.inRange (t : Settings) : Prop :=
  (∀ name, name.range.1 ≤ t.value name ∧ t.value name ≤ name.range.2) ∧
  ∀ d : DetNo, (t.detectors[d.val]).wMin ≤ (t.detectors[d.val]).wMax

/-! ### Requests -/

/-- The state with another state of the link. -/
def State.withLink (s : State) (k : Link) : State := { s with link := k }

/-- A frame placed in the reply slot, after which the transmitter begins a frame if it is idle (R156, R159). -/
def State.answered (s : State) (f : Frame) : State := (s.withLink { s.link with slot := some f }).settle

/-! ### Resets -/

/-- What both resets leave in the blocks that keep nothing of theirs (R20, R34, R55, R101, R151, R176, R177), `s` being
the state before and `t` the state after: every section loaded where its check passed and at its factory values
otherwise, the shift mode DAY, the disablement table empty, and each object of these blocks at its start. The levels on
the input pins are kept. -/
def State.startedFrom (s t : State) : Prop :=
  let ok := fun (k : StoreSection) => (s.store.marks[k.idx.val]).checkOk
  let old := s.store.stored
  t.shift = .day ∧ t.dis = ⟨[], none, false⟩ ∧ t.service = s.service ∧ t.pending = s.pending ∧
  t.store.write = none ∧ t.store.stored = old ∧ t.store.marks = s.store.marks ∧
  (∀ k, t.flagsOf k = ⟨ok k && (s.store.marks[k.idx.val]).lock, false, !ok k, false⟩) ∧
  t.store.live =
    { detectors := if ok .detectors then old.detectors else factorySettings.detectors
      lines := if ok .lines then old.lines else factorySettings.lines
      inputs := if ok .inputs then old.inputs else factorySettings.inputs
      closures := if ok .closures then old.closures else factorySettings.closures
      sectors := if ok .sectors then old.sectors else factorySettings.sectors
      patterns := if ok .patterns then old.patterns else factorySettings.patterns
      general := if ok .general then old.general else factorySettings.general } ∧
  (∀ d, t.det d =
    { mode := (t.detCfg d).supervision, nextMode := none, busy := decide ((t.detCfg d).supervision ≠ .off),
      lastStart := if (t.detCfg d).supervision = .off then none else some t.uptime, lastLevel := none, openRun := 0,
      shortRun := 0, lit := (s.det d).lit, lastEdge := if (s.det d).lit then some t.uptime else none, width := 0,
      lastPulse := none, glare := .none, candidate := none, deliveries := 0 } ∧
    t.faults.get (.detector d) = 0) ∧
  (∀ n, t.meter n =
    { running := true, gateStart := some t.uptime, count := 0, lastCount := none, lastRaw := none, vf := 0,
      lowRun := 0, gateEnds := 0 }) ∧
  (∀ n, t.station n =
    { windows := [], valveOn := false, valve := .closed, outputOn := none, waterConfirmed := false,
      waterSeen := false, confirmTimer := none, offered := 0, refused := 0, forced := 0,
      wconf := (s.station n).wconf } ∧
    t.faults.get (.station n) = 0) ∧
  ∀ f, t.input f =
    if (s.input f).raw then
      { raw := true, phase := .rising, timer := some (t.uptime + BitVec.ofNat 32 (t.inputCfg f).debounce) }
    else { raw := false, phase := .idle, timer := none }

/-! ### Frames -/

/-- The pieces of the state a command may change. -/
inductive Block where
  | clock | detectors | meters | stations | lines | causes | zones | inputs | faults | shift | closures | sectors
  | disablements | service | link | history | store | freeValues | queue
  deriving DecidableEq, Repr

/-- A piece of the state is the same in two states; the FAULT output goes with the faults. -/
def Block.same : Block → State → State → Prop
  | .clock, s, t => t.uptime = s.uptime ∧ t.tenth = s.tenth
  | .detectors, s, t => t.detectors = s.detectors
  | .meters, s, t => t.meters = s.meters
  | .stations, s, t => t.stations = s.stations
  | .lines, s, t => t.lines = s.lines
  | .causes, s, t => t.causes = s.causes
  | .zones, s, t => t.zones = s.zones
  | .inputs, s, t => t.inputs = s.inputs
  | .faults, s, t => t.faults = s.faults ∧ t.faultOutput = s.faultOutput
  | .shift, s, t => t.shift = s.shift
  | .closures, s, t => t.closures = s.closures
  | .sectors, s, t => t.sectors = s.sectors
  | .disablements, s, t => t.dis = s.dis
  | .service, s, t => t.service = s.service
  | .link, s, t => t.link = s.link
  | .history, s, t => t.history = s.history
  | .store, s, t => t.store = s.store
  | .freeValues, s, t => t.freeCount = s.freeCount
  | .queue, s, t => t.pending = s.pending

/-- Everything but the pieces listed is the same. -/
def KeptBut (changed : List Block) (s t : State) : Prop := ∀ b, b ∉ changed → b.same s t

end Sys2Proof.Machine
end

