-- ==== Sys2Proof/Certificates/Slice0/Obligations.lean ====
section
/-! DEFINITION. The statements about the model, for the provers: one definition each, in the order of the manual's
chapters. A statement about a request has the request taken as its hypothesis: `s.link.claim e = some k` says that the
entry is taken at this instant, leaving the link as `k` (RequestTakenInTurnOrBuffered says when that is). The state a
command leaves is written out from the state before it, so that every statement of an equation is its own frame. -/

section

open Sys2Proof Sys2Proof.Machine

/-! ### The machine -/

/-- One step takes the command at the front of the queue and runs it on the state with the queue's rest. -/
def Obligations.StepRunsFrontCommand : Prop :=
  ∀ (c : Instr) (rest : List Instr) (s : State), s.pending = c :: rest →
    step s = exec c { s with pending := rest }

/-- While no command waits (the model's choice, log entries 1 and 3): with no event due a tenth of a millisecond
passes, which moves the clock and the widths of lit pulses and nothing else; otherwise one of the events due is run. -/
def Obligations.EmptyQueueLetsTimeOrADueEventPass : Prop :=
  ∀ s : State, s.pending = [] →
    (s.due = [] → ∃ t, step s = .next t ∧ KeptBut [.clock, .detectors] s t ∧
      t.uptime.toNat * 10 + t.tenth.val = (s.uptime.toNat * 10 + s.tenth.val + 1) % (2 ^ 32 * 10) ∧
      ∀ d, t.det d = if (s.det d).lit then { s.det d with width := min ((s.det d).width + 1) 65535 } else s.det d) ∧
    (s.due ≠ [] → ∃ c ∈ s.due, step s = exec c (s.countFree c))

/-- Every command has a next state from every state: there is no fault and no refusal of the model. No command touches
the queue of waiting commands, and none but POWER_ON_RESET moves the clock. The manual gives every command an effect
(log entry 34). -/
def Obligations.EveryCommandGoesOn : Prop :=
  ∀ (c : Instr) (s : State), ∃ t, exec c s = .next t ∧ t.pending = s.pending ∧
    (c ≠ .powerOnReset → t.uptime = s.uptime ∧ t.tenth = s.tenth)

/-- Which commands change what the outside or the host decides: the shift mode only SET-SHIFT and the resets; each
input pin only its own event; the live settings only WRITE-SETTING, LOAD-DEFAULTS and the resets; the stored settings
only the store operations and the ends of their writes. That a reset keeps the pins is the model's reading (log entry
14). -/
def Obligations.OnlyNamedCommandsChangeModesPinsAndSettings : Prop :=
  ∀ (c : Instr) (s t : State), exec c s = .next t →
    let reset := c = .powerOnReset ∨ c = .resetInput ∨ (c = .transmitFrameEnd ∧ s.link.restartPending = true)
    (t.shift ≠ s.shift → reset ∨ ∃ p, c = .setShift p) ∧
    (t.service ≠ s.service → c = .serviceChange t.service) ∧
    (∀ n, (t.station n).wconf ≠ (s.station n).wconf → c = .wconfActive n ∨ c = .wconfInactive n) ∧
    (∀ n, (t.line n).fstop ≠ (s.line n).fstop → c = .fstopActive n (t.line n).fstop) ∧
    (∀ n, (t.line n).gopen ≠ (s.line n).gopen → c = .gopenActive n (t.line n).gopen) ∧
    (∀ f, (t.input f).raw ≠ (s.input f).raw → c = .fireInputEdge f (t.input f).raw) ∧
    (∀ d, (t.det d).lit ≠ (s.det d).lit → c = .pulseLeadingEdge d ∨ c = .pulseTrailingEdge d) ∧
    (∀ x, (t.closure x).copen ≠ (s.closure x).copen → c = .closureLimitChange x .openLimit (t.closure x).copen) ∧
    (∀ x, (t.closure x).cshut ≠ (s.closure x).cshut → c = .closureLimitChange x .shutLimit (t.closure x).cshut) ∧
    (t.store.live ≠ s.store.live → reset ∨ (∃ p, c = .writeSetting p) ∨ ∃ p, c = .loadDefaults p) ∧
    (t.store.stored ≠ s.store.stored → (∃ p, c = .saveSettings p) ∨ (∃ p, c = .lockSection p) ∨
      (∃ p, c = .loadDefaults p) ∨ ∃ good, c = .sectionWriteEnd good)

/-! ### The message link -/

/-- When a request is taken (R155 to R157; log entry 2): with the slot empty and no restart pending, the oldest entry of
the buffer, or an entry that finds the buffer empty; any other is added to the buffer or, with 4 entries there,
discarded. The fourth entry sets the part hold and HOLD is to be sent; the fall to one entry releases it and GO is. -/
def Obligations.RequestTakenInTurnOrBuffered : Prop :=
  ∀ (kind : Byte) (p : Payload) (s : State),
    let e := Inbound.request kind p
    let k := s.link
    (k.slot ≠ none ∨ k.restartPending = true → k.claim e = none) ∧
    (k.slot = none → k.restartPending = false →
      (k.buffer = [] → k.claim e = some k) ∧
      (∀ o rest, k.buffer = o :: rest → o ≠ e → k.claim e = none) ∧
      (∀ rest, k.buffer = e :: rest → (k.partHolding = true ∧ rest.length = 1) →
        k.claim e = some { k with buffer := rest, partHolding := false, flow := some .go }) ∧
      (∀ rest, k.buffer = e :: rest → ¬(k.partHolding = true ∧ rest.length = 1) →
        k.claim e = some { k with buffer := rest })) ∧
    (k.claim e = none → k.buffer.length = 3 → k.partHolding = false → exec (decodeRequest kind p) s =
      .next (s.withLink { k with buffer := k.buffer ++ [e], partHolding := true, flow := some .hold }).settle) ∧
    (k.claim e = none → k.buffer.length < 4 → ¬(k.buffer.length = 3 ∧ k.partHolding = false) →
      exec (decodeRequest kind p) s = .next (s.withLink { k with buffer := k.buffer ++ [e] }).settle) ∧
    (k.claim e = none → 4 ≤ k.buffer.length → exec (decodeRequest kind p) s = .next s.settle)

/-- What is refused by the link itself (R156): an error entry FRAME-ERROR with request kind 0, a KIND that names no
request UNKNOWN-KIND, a HOLD or GO in the buffer BAD-LENGTH with 0, and every request of another length than its kind's
BAD-LENGTH with the expected length. The owner is not asked and nothing else changes. -/
def Obligations.LinkRefusesErrorsUnknownKindsAndLengths : Prop :=
  ∀ (s : State) (k : Link) (kind : Byte) (p : Payload),
    (s.link.claim .error = some k → exec .frameError s =
      .next ((s.withLink k).answered ⟨0xFF, [0, 1, 0, 0, 0, 0]⟩)) ∧
    (s.link.claim (.request kind p) = some k →
      (requestLength kind = none → kind ≠ 0x70 → kind ≠ 0x71 → exec (.unknownKind kind p) s =
        .next ((s.withLink k).answered ⟨0xFF, [kind, 2, 0, 0, 0, 0]⟩)) ∧
      (kind = 0x70 ∨ kind = 0x71 → exec (.unknownKind kind p) s =
        .next ((s.withLink k).answered ⟨0xFF, [kind, 3, 0, 0, 0, 0]⟩)) ∧
      (∀ len, requestLength kind = some len → p.length ≠ len → exec (decodeRequest kind p) s =
        .next ((s.withLink k).answered ⟨0xFF, kind :: 3 :: enc32 (BitVec.ofNat 32 len)⟩)))

/-- The receiver's phases (R153): a start character leaves HUNT, LEN 1 to 121 opens the body and any other is a length
error, the LEN-th character of the body leads to the check, and the second check character completes the frame; a
character later than 20 ms after the one before finds the receiver back in HUNT. A character with a fault in its stop bit
is stored as received, and the frame then fails its check. That a late character itself finds the frame discarded, and
which characters of a frame count for its fault, are the model's readings (log entries 28 and 42). -/
def Obligations.ReceiverGoesThroughItsPhases : Prop :=
  ∀ (c : Received) (s : State),
    let k := s.link
    let to_ := fun (r : Receiver) => (s.withLink { k with receiver := r, lastChar := some s.stamp }).settle
    (k.receiver = .hunt → exec (.characterReceived c) s = .next (if c.byte = 0xC3 then to_ .length else s.settle)) ∧
    (k.receiver ≠ .hunt → ∀ p, k.lastChar = some p →
      (200 < s.tenthsSince p → exec (.characterReceived c) s = exec (.characterReceived c) (s.withLink k.hunt)) ∧
      (s.tenthsSince p ≤ 200 →
        (k.receiver = .length → 1 ≤ c.byte.toNat → c.byte.toNat ≤ 121 →
          exec (.characterReceived c) s = .next (to_ (.body c.byte.toNat [] c.fault))) ∧
        (k.receiver = .length → c.byte.toNat = 0 ∨ 121 < c.byte.toNat →
          exec (.characterReceived c) s = .next (s.withLink (k.hunt.offer .error)).settle) ∧
        (∀ len cs faulty, k.receiver = .body len cs faulty → exec (.characterReceived c) s = .next (to_
          (if cs.length + 1 < len then .body len (cs ++ [c.byte]) (faulty || c.fault)
            else .check (cs ++ [c.byte]) none (faulty || c.fault)))) ∧
        (∀ cs faulty, k.receiver = .check cs none faulty →
          exec (.characterReceived c) s = .next (to_ (.check cs (some c.byte) (faulty || c.fault)))) ∧
        (∀ cs first faulty, k.receiver = .check cs (some first) faulty →
          (faulty = false → c.fault = false →
            exec (.characterReceived c) s = exec (.inboundFrameComplete cs (first ++ c.byte)) s) ∧
          (faulty = true ∨ c.fault = true →
            exec (.characterReceived c) s = .next (s.withLink (k.hunt.offer .error)).settle))))

/-- What becomes of a complete frame (R154, R155, R158): LEN out of range or a wrong check value makes an error entry;
a good HOLD or GO of LEN 1 sets the host hold and enters no buffer; every other good frame is offered as a request. The
gap of 20 ms discards the frame in progress without an entry (R153). A frame given at once stands for its characters
(log entry 37). -/
def Obligations.FramesAreJudgedWhenComplete : Prop :=
  ∀ (body : Payload) (kind : Byte) (p : Payload) (check : BitVec 16) (s : State),
    let k := s.link.hunt
    (body = [] ∨ 121 < body.length ∨ checkValue (BitVec.ofNat 8 body.length :: body) ≠ check →
      exec (.inboundFrameComplete body check) s = .next (s.withLink (k.offer .error)).settle) ∧
    (body = kind :: p → p.length ≤ 120 → checkValue (BitVec.ofNat 8 body.length :: body) = check →
      ¬(p = [] ∧ (kind = 0x70 ∨ kind = 0x71)) →
      exec (.inboundFrameComplete body check) s = .next (s.withLink (k.offer (.request kind p))).settle) ∧
    exec (.inboundFrameComplete [0x70] (checkValue [1, 0x70])) s = .next (s.withLink { k with hostHeld := true }).settle ∧
    exec (.inboundFrameComplete [0x71] (checkValue [1, 0x71])) s = .next (s.withLink { k with hostHeld := false }).settle ∧
    exec .hostHold s = .next (s.withLink { k with hostHeld := true }).settle ∧
    exec .hostGo s = .next (s.withLink { k with hostHeld := false }).settle ∧
    (s.link.receiver = .hunt → exec .interByteGapTimeout s = .next s.settle) ∧
    (s.link.receiver ≠ .hunt → ∀ q, s.link.lastChar = some q →
      exec .interByteGapTimeout s = .next (if 200 ≤ s.tenthsSince q then s.withLink k else s).settle)

/-- Decode and encode agree: a well-formed request, sent as a frame character by character to a receiver in HUNT, comes
out as exactly that request, and is that command. -/
def Obligations.SentRequestComesBackAsItself : Prop :=
  ∀ (i : Instr) (kind : Byte) (p : Payload), i.wellFormed = true → encodeRequest i = some (kind, p) →
    decodeRequest kind p = i ∧
    ∀ (k : Link) (now : Stamp), k.receiver = .hunt → k.lastChar = none →
      (Frame.characters ⟨kind, p⟩).foldl (fun k c => k.receive c now) k = k.offer (.request kind p)

/-- The transmitter (R159): a frame being sent stands; an idle transmitter begins the pending flow frame, else, unless
the host hold is set, the reply, the oldest alarm report, the oldest notice; after every command it is idle only with
nothing to serve; and only the end of its last character, or a reset, ends a frame once begun. That the choice is made
once, at the end of an event, is the model's reading (log entry 27). -/
def Obligations.TransmitterServesInOrder : Prop :=
  (∀ s : State,
    let k := s.link
    let begun := fun (f : Frame) (k : Link) => s.withLink { k with sending := some ⟨f, s.stamp⟩ }
    (k.sending ≠ none → s.settle = s) ∧
    (k.sending = none →
      (k.flow = some .hold → s.settle = begun ⟨0x70, []⟩ { k with flow := none }) ∧
      (k.flow = some .go → s.settle = begun ⟨0x71, []⟩ { k with flow := none }) ∧
      (k.flow = none → k.hostHeld = true → s.settle = s) ∧
      (k.flow = none → k.hostHeld = false →
        (∀ f, k.slot = some f → s.settle = begun f { k with slot := none }) ∧
        (∀ f rest, k.slot = none → k.alarm = f :: rest → s.settle = begun f { k with alarm := rest }) ∧
        (∀ f rest, k.slot = none → k.alarm = [] → k.notice = f :: rest →
          s.settle = begun f { k with notice := rest }) ∧
        (k.slot = none → k.alarm = [] → k.notice = [] → s.settle = s)))) ∧
  (∀ (c : Instr) (s t : State), exec c s = .next t → t.link.busyWhileWaiting ∧
    (∀ x, s.link.sending = some x → t.link.sending = some x ∨ c = .powerOnReset ∨ c = .resetInput ∨
      (c = .transmitFrameEnd ∧ s.sent = true)))

/-- TRANSMIT_FRAME_END (R159, R165): once the frame's LEN + 4 characters of ten bit times at 115,200 bit/s have passed
(log entry 10), the next frame is chosen; after the reply of a pending RESTART the restart takes place instead. -/
def Obligations.FrameEndChoosesNextOrRestarts : Prop :=
  ∀ (s : State) (x : Sending), s.link.sending = some x →
    (144 * s.tenthsSince x.begun < 125 * (x.frame.payload.length + 5) → exec .transmitFrameEnd s = .next s.settle) ∧
    (125 * (x.frame.payload.length + 5) ≤ 144 * s.tenthsSince x.begun →
      (s.link.restartPending = false ∨ x.frame.kind ≠ 0x84 →
        exec .transmitFrameEnd s = .next (s.withLink { s.link with sending := none }).settle) ∧
      (s.link.restartPending = true → x.frame.kind = 0x84 →
        exec .transmitFrameEnd s = .next (s.restart .request).settle))

/-- IDENT, STATUS, RESTART and READ-OBJECT (R162 to R165): the replies; STATUS clears the dropped flag, RESTART makes
the restart pending, and nothing else of the state changes. READ-OBJECT of no object is refused with the upper bound.
The STATUS payload byte by byte (R184), and the record of every kind of object field by field (R19, R33, R54, R77, R91,
R94, R120, R137, R179, R186). The object number standing twice, the sections' flags without a count, the detail 0 for a
kind of no object, and the time in a gate held at 249 ms, are the model's readings (log entries 18, 19, 15 and 44); the
silicon revision is an opaque constant (log entry 6). -/
def Obligations.GeneralRequestsAreAnswered : Prop :=
  ∀ (s : State) (k : Link) (kind num : Byte),
    let at_ := fun i => s.statusPayload.getD i 0
    (s.link.claim (.request 0x01 []) = some k → exec (.ident []) s = .next ((s.withLink k).answered ⟨0x81,
      [0x09, 0x9C, BitVec.ofNat 8 (Config.siliconRevisionLessOne.val + 1)] ++ enc16 s.store.live.general.site⟩)) ∧
    (s.link.claim (.request 0x02 []) = some k → exec (.status []) s =
      .next ((s.withLink { k with dropped := false }).answered ⟨0x82, (s.withLink k).statusPayload⟩)) ∧
    (s.link.claim (.request 0x04 []) = some k → exec (.restart []) s =
      .next ((s.withLink { k with restartPending := true }).answered ⟨0x84, []⟩)) ∧
    (s.link.claim (.request 0x03 [kind, num]) = some k →
      (∀ o : Obj, o.kindCode = kind → o.num = num.toNat → exec (.readObject [kind, num]) s =
        .next ((s.withLink k).answered ⟨0x83, kind :: num :: (s.withLink k).objectRecord o⟩)) ∧
      ((∀ o : Obj, ¬(o.kindCode = kind ∧ o.num = num.toNat)) → exec (.readObject [kind, num]) s =
        .next ((s.withLink k).answered ⟨0xFF, [3, 4, 0, 0, 0,
          if kind = 1 then 24 else if kind = 2 ∨ kind = 5 ∨ kind = 6 then 16 else if kind = 3 ∨ kind = 4 then 8
          else if kind = 7 then 6 else 0]⟩))) ∧
    s.statusPayload.length = 37 ∧
    at_ 0 ++ at_ 1 ++ at_ 2 ++ at_ 3 = s.uptime ∧
    at_ 4 = s.shift.code ∧ (at_ 5 = if s.faultOutput then 1 else 0) ∧ (at_ 6 = if s.link.dropped then 1 else 0) ∧
    (∀ z : ZoneNo, (at_ (7 + z.val / 4)).extractLsb' (z.val % 4 * 2) 2 = BitVec.ofNat 2 (s.zone z).level.rank) ∧
    (∀ n : LineNo, at_ (11 + n.val) = (s.line n).state.code <<< 4 ||| (s.line n).stopCause.code) ∧
    (∀ n : SectorNo, at_ (19 + n.val) = (s.sector n).state.code) ∧
    (∀ d : DetNo, (at_ (25 + d.val / 8)).getLsbD (d.val % 8) = (s.faults.get (.detector d) != 0)) ∧
    (∀ n : LineNo, (at_ 28).getLsbD n.val = (s.faults.get (.line n) != 0)) ∧
    (∀ n : LineNo, (at_ 29).getLsbD n.val = s.holds (.station n) .noWater) ∧
    (∀ c : ClosureNo, (at_ 30 ++ at_ 31).getLsbD c.val = (s.faults.get (.closure c) != 0)) ∧
    ((at_ 32).getLsbD 0 = s.holds .store .saveFailed ∧ (at_ 32).getLsbD 1 = s.holds .store .defaulted) ∧
    at_ 33 = BitVec.ofNat 8 s.dis.entries.length ∧
    at_ 34 = BitVec.ofNat 8 (s.dis.entries.filter fun e => e.activated ≠ none).length ∧
    at_ 35 = BitVec.ofNat 8 s.link.alarm.length ∧ at_ 36 = BitVec.ofNat 8 s.link.notice.length ∧
    (let flag := fun (b : Bool) => if b then (1 : Byte) else 0
     let none4 : Payload := [0xFF, 0xFF, 0xFF, 0xFF]
     let left := fun (e : Option Instant) => match e with
       | none => none4
       | some e => if reached s.uptime e then [0, 0, 0, 0] else enc32 (e - s.uptime)
     let ms := fun (n : Nat) => enc32 (BitVec.ofNat 32 n)
     let ago := fun (e : Instant) => enc32 (s.uptime - e)
     let faults := fun (o : Obj) =>
       [(s.faults.get o).extractLsb' 8 8, (s.faults.get o).extractLsb' 0 8]
     let entry := fun (t : Target) => match s.entryOf t with
       | none => [0, 0, 0, 0, 0]
       | some e => (if e.activated = none then 1 else if e.limit = 0 then 2 else 3) :: enc32 (e.expiry.getD 0)
     let causes := fun (p : Cause → Bool) => byteOf (s.causes.filter p).length
     (∀ d : DetNo, let x := s.det d; let cfg := s.detCfg d
       s.objectRecord (.detector d) =
         [byteOf (number d), byteOf (numberOrZero cfg.line), byteOf (numberOrZero cfg.zone), cfg.supervision.code,
           x.mode.code, flag x.busy, (match x.lastLevel with | none => 0xFF | some l => BitVec.ofNat 8 l.val),
           byteOf x.openRun, byteOf x.shortRun] ++ faults (.detector d) ++ [flag x.lit] ++
         (match x.glare with | .none => 0 :: none4 | .glaring => 1 :: none4 | .clearing t => 2 :: ago t) ++
         (match x.lastPulse with
           | none => [0xFF, 0xFF, 0xFF] ++ none4
           | some p => enc16 p.width ++ [p.cls.code] ++ enc32 p.at_) ++
         (match x.candidate with
           | none => [0xFF, 0xFF] ++ none4
           | some c => [if c.ember then 2 else 1, byteOf c.weight] ++ enc32 c.at_) ++
         entry (.detector d) ++ [flag (decide (s.causeOf (.detector d) ≠ none))] ++ enc16 x.deliveries) ∧
     (∀ f : InputNo, let x := s.input f; let cfg := s.inputCfg f
       s.objectRecord (.fireInput f) =
         [byteOf (number f), byteOf (numberOrZero cfg.zone), if cfg.level = .fire then 3 else 2, cfg.type.code,
           flag x.raw, x.phase.code] ++ left x.timer ++
         (match s.causeOf (.fireInput f) with | none => [0xFF, 0xFF] | some r => [r.level.code, flag r.latched]) ++
         entry (.fireInput f)) ∧
     (∀ n : LineNo, let x := s.station n
       s.objectRecord (.station n) = [byteOf (number n), x.valve.code, flag x.valveOn, flag x.wconf] ++
         (match x.valveOn, x.outputOn with | true, some t => ago t | _, _ => [0, 0, 0, 0]) ++ left x.confirmTimer ++
         faults (.station n) ++ [flag (decide (s.causeOf (.station n) ≠ none))] ++ entry (.station n) ++
         [byteOf x.windows.length] ++ (x.windows.flatMap fun w =>
           enc32 (w.start - s.uptime) ++ enc32 (w.stop - s.uptime) ++ [w.origin.code, flag w.late, byteOf w.merged]) ++
         enc16 x.offered ++ enc16 x.refused ++ enc16 x.forced) ∧
     (∀ n : LineNo, let x := s.line n; let m := s.meter n
       let dets := fun (p : DetNo → Bool) => byteOf ((List.finRange 24).filter p).length
       let word := fun (v : Option Nat) => match v with | none => [0xFF, 0xFF] | some v => enc16 v
       s.objectRecord (.line n) = [byteOf (number n), x.state.code, x.stopCause.code] ++ ago x.entered ++
         [flag x.fan, flag x.feed, flag x.gate, flag x.fstop, flag x.gopen] ++ enc16 x.counter ++ left x.countWindow ++
         left x.startTimer ++ left x.dwellTimer ++ left x.gateTimer ++ left x.rundownTimer ++
         [flag x.blind] ++ left x.blindTimer ++
         [dets fun d => decide ((s.detCfg d).line = some n),
           dets fun d => decide ((s.detCfg d).line = some n ∧ s.faults.get (.detector d) = 0 ∧
             s.disabled (.detector d) = false),
           byteOf ((List.finRange 16).filter fun c => decide ((s.closureCfg c).kind = .damper ∧
             (s.closureCfg c).line = some n ∧ (s.closure c).state ≠ .held)).length,
           (match s.causeOf (.line n) with | none => 0xFF | some r => r.level.code)] ++ faults (.line n) ++
         [flag m.running] ++ enc16 m.count ++
         (match m.gateStart with | none => [0, 0, 0, 0] | some t => ms (min (s.uptime - t).toNat 249)) ++
         word m.lastCount ++ word m.lastRaw ++ enc16 m.vf ++ [byteOf m.lowRun] ++ enc16 m.gateEnds) ∧
     (∀ z : ZoneNo,
       s.objectRecord (.zone z) = [byteOf (number z), (s.zone z).level.code] ++
         (match (s.zone z).changed with | none => none4 | some t => enc32 t) ++
         [causes fun r => decide (r.zone = z ∧ r.level = .spark), causes fun r => decide (r.zone = z ∧ r.level = .alert),
           causes fun r => decide (r.zone = z ∧ r.level = .fire), causes fun r => decide (r.zone = z ∧ r.latched = true),
           causes fun r => decide (r.zone = z ∧ r.latched = true ∧
             ∃ f, r.source = .fireInput f ∧ (s.input f).phase = .idle)]) ∧
     (∀ c : ClosureNo, let x := s.closure c; let cfg := s.closureCfg c
       ∃ near : ZoneSet, (∀ z : ZoneNo, near.getLsbD z.val = true ↔ zoneIn cfg.zones z = true ∧
           (if cfg.trigger = .fire then 3 else 2) ≤ (s.zone z).level.rank) ∧
         s.objectRecord (.closure c) = [byteOf (number c), cfg.kind.code] ++ enc16 cfg.zones.toNat ++
           [if cfg.trigger = .fire then 3 else 2, byteOf (numberOrZero cfg.line), x.state.code, x.direction.code,
             flag x.hold, flag x.copen, flag x.cshut, if x.cshut then 1 else if x.copen then 0 else 2] ++
           ago x.entered ++ left x.travelTimer ++ left x.waitTimer ++ [x.origin.code] ++ enc16 near.toNat ++
           faults (.closure c) ++ entry (.closure c)) ∧
     (∀ n : SectorNo, let x := s.sector n; let cfg := s.sectorCfg n
       let stands := fun (r : Cause) => zoneIn cfg.zones r.zone = true ∧ (r.level = .alert ∨ r.level = .fire)
       s.objectRecord (.sector n) = [byteOf (number n)] ++ enc16 cfg.zones.toNat ++
         [byteOf (numberOrZero cfg.alertPattern), byteOf (numberOrZero cfg.firePattern)] ++ enc16 cfg.silenceInhibit ++
         [x.state.code, x.demand.code, x.playing.code, x.pendingLevel.code, byteOf (numberOrZero x.pattern)] ++
         (match x.cycle with
           | none => [0xFF, 0xFF, 0, 0, 0, 0, 0, 0, 0, 0]
           | some c => [byteOf c.phase.step, flag c.phase.on] ++ left (some c.phaseStop) ++ left (some c.stop)) ++
         (match x.state, x.soundingSince with | .sounding, some t => ago t | _, _ => [0, 0, 0, 0]) ++
         ms (if x.state = .sounding
           then cfg.silenceInhibit * 1000 - (s.uptime - x.soundingSince.getD s.uptime).toNat else 0) ++
         (match x.state, x.testEnd with | .test, some t => left (some t) | _, _ => [0, 0, 0, 0]) ++
         [causes fun r => decide (stands r ∧ r.silenced.getLsbD n.val = false),
           causes fun r => decide (stands r ∧ r.silenced.getLsbD n.val = true), x.highest.code, flag x.siren] ++
         entry (.sector n)) ∧
     s.objectRecord .store =
       (match s.store.write with
         | none => [0, 0, 0xFF, 0]
         | some w => [1, w.op.code, byteOf w.current.num, byteOf (w.rest.length + 1)]) ++
       (allSections.flatMap fun k => let x := s.flagsOf k
         [flag x.lock, flag x.modified, flag x.defaulted, flag x.writeFailed]) ++ faults .store ++
       [flag s.service] ++ enc16 s.history.records.length ++
       (match s.history.records with | [] => none4 | r :: _ => enc32 r.seq) ++ enc32 s.history.next)

/-- READ-HISTORY (R168): a count is brought into 1 to 6; from a held number the records from it on are returned, from an
older one the oldest held with the overwritten flag, from a number not yet written none; nothing changes but the link. -/
def Obligations.HistoryIsReadFromTheNumberAsked : Prop :=
  ∀ (s : State) (k : Link) (p : Payload) (count : Byte),
    s.history.sound → p.length = 4 → s.link.claim (.request 0x24 (p ++ [count])) = some k →
    let first : BitVec 32 := BitVec.ofNat 32 (word32At p 0)
    let c := max 1 (min count.toNat 6)
    let h := s.history
    let oldest := h.next - BitVec.ofNat 32 h.records.length
    let reply := fun (l : List Record) (overwritten : Byte) => Host.Outcome.next (σ := State) (φ := Fault) (ρ := Refusal)
      ((s.withLink k).answered ⟨0xA4, enc32 oldest ++ enc32 h.next ++ [overwritten, BitVec.ofNat 8 l.length] ++
        l.flatMap fun (r : Record) => enc32 r.seq ++ enc32 r.at_ ++
          [r.kind.code, r.objKind, r.objNum, r.detail.d0, r.detail.d1, r.detail.d2, r.detail.d3, r.detail.d4]⟩)
    (∀ i (hi : i < h.records.length), (h.records[i]).seq = first →
      exec (.readHistory (p ++ [count])) s = reply ((h.records.drop i).take c) 0) ∧
    (h.records.length < (h.next - first).toNat → (h.next - first).toNat ≤ 2 ^ 31 →
      exec (.readHistory (p ++ [count])) s = reply (h.records.take c) 1) ∧
    (first = h.next ∨ 2 ^ 31 < (h.next - first).toNat → exec (.readHistory (p ++ [count])) s = reply [] 0)

/-- An event of note (R161, R167, R188): one history record with the next sequence number and the present instant, the
oldest lost from a full ring, and one report made of the same contents at the end of its queue, or dropped with the
dropped flag where the queue is full. Nothing else changes. -/
def Obligations.EventsAreRecordedAndReported : Prop :=
  ∀ (s : State) (q : Queue) (k : RecordKind) (rk : Byte) (o : Obj) (d : Detail),
    let t := s.objEvent q k rk o d
    let r : Record := ⟨s.history.next, s.uptime, k, o.kindCode, BitVec.ofNat 8 o.num, d⟩
    let f : Frame := ⟨rk, enc32 s.uptime ++ [o.kindCode, BitVec.ofNat 8 o.num, d.d0, d.d1, d.d2, d.d3, d.d4]⟩
    KeptBut [.history, .link] s t ∧
    t.history.next = s.history.next + 1 ∧
    (s.history.records.length < 512 → t.history.records = s.history.records ++ [r]) ∧
    (s.history.records.length = 512 → t.history.records = s.history.records.tail ++ [r]) ∧
    (q = .alarm → t.link = if s.link.alarm.length < 16 then { s.link with alarm := s.link.alarm ++ [f] }
      else { s.link with dropped := true }) ∧
    (q = .notice → t.link = if s.link.notice.length < 32 then { s.link with notice := s.link.notice ++ [f] }
      else { s.link with dropped := true })

/-! ### Resets -/

/-- POWER-ON RESET (R20, R34, R55, R78, R101, R121, R138, R151, R166, R169, R177): the clock starts at 0, every block
takes up its start, the history holds the START record and, where a section failed its check, the DEFAULTED fault,
whose report waits behind the START report being sent. That the pins are kept, and the values of items no table lists,
are the model's readings (log entries 14 and 39). -/
def Obligations.PowerOnResetStartsEveryBlock : Prop :=
  ∀ s : State, ∃ t, exec .powerOnReset s = .next t ∧ s.startedFrom t ∧ t.uptime = 0 ∧ t.tenth = 0 ∧
    (∀ n, t.line n =
      { state := .off, stopCause := .none, entered := 0, fan := false, feed := false, gate := false, counter := 0,
        countWindow :=
          if (t.lineCfg n).sparkWindow = 0 then none else some (BitVec.ofNat 32 ((t.lineCfg n).sparkWindow * 100)),
        startTimer := none, dwellTimer := none, gateTimer := none, rundownTimer := none,
        blind := decide (∀ d, (t.detCfg d).line ≠ some n),
        blindTimer := if ∀ d, (t.detCfg d).line ≠ some n
          then some (BitVec.ofNat 32 ((t.lineCfg n).blindLimit * 1000)) else none,
        fstop := (s.line n).fstop, gopen := (s.line n).gopen } ∧ t.faults.get (.line n) = 0) ∧
    t.causes = [] ∧ (∀ z, t.zone z = ⟨.quiet, none⟩) ∧
    (∀ c, t.closure c =
      { state := if (s.closure c).position = .opened then .held else .ready, direction := .none, hold := true,
        travelTimer := if (t.closureCfg c).kind = .damper ∧ (s.closure c).position ≠ .opened
          then some (BitVec.ofNat 32 ((t.closureCfg c).travelTime * 1000)) else none,
        waitTimer := none, entered := 0, origin := .none, copen := (s.closure c).copen, cshut := (s.closure c).cshut } ∧
      t.faults.get (.closure c) = 0) ∧
    (∀ n, t.sector n = resetSector) ∧
    (let failed := ∃ k, (t.flagsOf k).defaulted = true
     let start : Frame := ⟨0x40, [0, 0, 0, 0, 0, 0, 1, 0, 0, 0, 0]⟩
     let line_ : Link := { Link.fresh with sending := some ⟨start, ⟨0, 0⟩⟩ }
     (failed → t.faults.store = 0x2000 ∧ t.faultOutput = true ∧
        t.link = { line_ with notice := [⟨0x45, [0, 0, 0, 0, 8, 0, 14, 1, 0, 0, 0]⟩] } ∧
        t.history = ⟨[⟨1, 0, .start, 0, 0, ⟨1, 0, 0, 0, 0⟩⟩, ⟨2, 0, .fault, 8, 0, ⟨14, 1, 0, 0, 0⟩⟩], 3⟩) ∧
     (¬failed → t.faults.store = 0 ∧ t.faultOutput = false ∧ t.link = line_ ∧
        t.history = ⟨[⟨1, 0, .start, 0, 0, ⟨1, 0, 0, 0, 0⟩⟩], 2⟩))

/-- RESTART, by the reset input or at the end of a RESTART reply, which differ in the source carried alone (R79, R101,
R122, R138, R165, R166; log entry 10 for the end of a frame). `u` is the part with every block started and no record
written: the clock and the history run on, a line that was STOPPED stays locked out with its gate, a closure that was SHUT
stays shut, and all else starts anew. The part then writes START, raises DEFAULTED where a section failed its check, tests
the closures kept SHUT, re-enters the causes of STOPPED lines, and derives each zone's level once, with all that this
hands to closures and sectors. The clauses after it say what is left: the lines, their causes, the zone levels, the kept
closures; and, with no cause re-entered, every closure, sector and report. The order DEFAULTED, closures, causes and zones
is the model's choice (log entry 13); that the pins are kept, and the values of items no table lists, are its readings
(log entries 14 and 39). -/
def Obligations.RestartKeepsLockouts : Prop :=
  ∀ (s : State) (i : Instr) (source : Byte),
    (i = .resetInput ∧ source = 2) ∨ (i = .transmitFrameEnd ∧ source = 1 ∧ s.link.restartPending = true ∧
      ∃ x, s.link.sending = some x ∧ x.frame.kind = 0x84 ∧
        125 * (x.frame.payload.length + 5) ≤ 144 * s.tenthsSince x.begun) →
    let lineStart := fun (v : State) (n : LineNo) =>
      ({ state := if (s.line n).state = .stopped then .stopped else .off
         stopCause := if (s.line n).state = .stopped then (s.line n).stopCause else .none
         entered := if (s.line n).state = .stopped then (s.line n).entered else s.uptime
         fan := false, feed := false, gate := decide ((s.line n).state = .stopped) && (s.line n).gate, counter := 0,
         countWindow := if (v.lineCfg n).sparkWindow = 0 then none
           else some (s.uptime + BitVec.ofNat 32 ((v.lineCfg n).sparkWindow * 100)),
         startTimer := none, dwellTimer := none, gateTimer := none, rundownTimer := none,
         blind := decide (∀ d, (v.detCfg d).line ≠ some n),
         blindTimer := if ∀ d, (v.detCfg d).line ≠ some n
           then some (s.uptime + BitVec.ofNat 32 ((v.lineCfg n).blindLimit * 1000)) else none,
         fstop := (s.line n).fstop, gopen := (s.line n).gopen } : Line)
    let closureStart := fun (v : State) (c : ClosureNo) =>
      if (s.closure c).state = .shut
      then { s.closure c with direction := .none, hold := false, travelTimer := none, waitTimer := none }
      else
        { state := if (s.closure c).position = .opened then .held else .ready, direction := .none, hold := true,
          travelTimer := if (v.closureCfg c).kind = .damper ∧ (s.closure c).position ≠ .opened
            then some (s.uptime + BitVec.ofNat 32 ((v.closureCfg c).travelTime * 1000)) else none,
          waitTimer := none, entered := s.uptime, origin := .none, copen := (s.closure c).copen,
          cshut := (s.closure c).cshut }
    let start := enc32 s.uptime ++ [0, 0, 2, source, 0, 0, 0]
    ∃ u t, exec i s = .next t ∧
    (s.startedFrom u ∧ u.uptime = s.uptime ∧ u.tenth = s.tenth ∧ u.freeCount = s.freeCount ∧
      u.history = s.history ∧ u.link = Link.fresh ∧ u.causes = [] ∧ (∀ z, u.zone z = ⟨.quiet, none⟩) ∧
      u.faults = FaultTable.empty ∧ u.faultOutput = false ∧ (∀ n, u.line n = lineStart u n) ∧
      (∀ c, u.closure c = closureStart u c) ∧ ∀ n, u.sector n = resetSector) ∧
    (let announced := { u with
       history := s.history.add s.uptime .start 0 0 ⟨2, source, 0, 0, 0⟩
       link := { Link.fresh with notice := [⟨0x40, start⟩] } }
     let loaded := if allSections.any fun k => (u.flagsOf k).defaulted
       then announced.raiseFault .store .defaulted else announced
     let tested := forAll (fun c (v : State) =>
       if (v.closure c).state = .shut ∧ (v.closure c).position = .opened
       then v.raiseFault (.closure c) .openedWhileShut else v) loaded
     let reentered := forAll (fun n (v : State) =>
       match (s.line n).state, s.causeOf (.line n), (v.lineCfg n).zone with
       | .stopped, some r, some z => v.putCause (.line n) z r.level none
       | _, _, _ => v) tested
     t = (forAll (fun z (v : State) => v.deriveZone z) reentered).settle) ∧
    s.startedFrom t ∧ t.uptime = s.uptime ∧ t.tenth = s.tenth ∧
    (∀ n, t.line n = lineStart t n ∧ t.faults.get (.line n) = 0) ∧
    (∀ n, t.causeOf (.line n) =
      match (s.line n).state, s.causeOf (.line n), (t.lineCfg n).zone with
      | .stopped, some r, some z => some ⟨.line n, z, r.level, true, s.uptime, s.uptime, 0, none⟩
      | _, _, _ => none) ∧
    (∀ r ∈ t.causes, ∃ n, r.source = .line n) ∧
    (∀ z, t.zoneSound z ∧ (t.zone z).changed = if (t.zone z).level = .quiet then none else some s.uptime) ∧
    (∀ c, (s.closure c).state = .shut → t.closure c = closureStart t c ∧
      t.holds (.closure c) .openedWhileShut = decide ((s.closure c).position = .opened)) ∧
    (t.causes = [] → t.link.dropped = false ∧ (∀ z, t.zone z = ⟨.quiet, none⟩) ∧ (∀ n, t.sector n = resetSector) ∧
      ∀ c, t.closure c = closureStart t c ∧ ((s.closure c).state ≠ .shut → t.faults.get (.closure c) = 0)) ∧
    (t.causes = [] → (∀ k, (t.flagsOf k).defaulted = false) →
      (∀ c, (s.closure c).state = .shut → (s.closure c).position ≠ .opened) →
      t.history = s.history.add s.uptime .start 0 0 ⟨2, source, 0, 0, 0⟩ ∧ t.faultOutput = false ∧
      t.link = { Link.fresh with sending := some ⟨⟨0x40, start⟩, s.stamp⟩ }) ∧
    t.link.receiver = .hunt ∧ t.link.buffer = [] ∧ t.link.slot = none ∧ t.link.partHolding = false ∧
    t.link.flow = none ∧ t.link.hostHeld = false ∧ t.link.restartPending = false

/-! ### Detector channels -/

/-- When a channel samples (R1 to R3, R6). SAMPLE_START: an idle channel that is not OFF starts a sample once one
interval has passed since the start of its last, 125 ms in CONTINUOUS and 4 s in PERIODIC; earlier, while BUSY or OFF
nothing happens. The derivation of the effective mode after a change of setting or shift: during a sample the derived
mode waits for its end; otherwise it holds at once. Leaving OFF a sample starts; between the others one starts where
the recomputed start is not later than now; a channel turned OFF drops its counts, its level and its loop faults. A
SAMPLE_START before its instant changes nothing, and a channel without a last start takes its sample at once: the
model's choices (log entries 11 and 38). -/
def Obligations.SamplesFollowTheDerivedMode : Prop :=
  ∀ (s : State) (d : DetNo),
    let x := s.det d
    let m := match (s.detCfg d).supervision, s.shift with
      | .off, _ => Supervision.off
      | .continuous, .day => .continuous
      | _, _ => .periodic
    let t := s.deriveMode d
    let start := s.setDet d { x with busy := true, lastStart := some s.uptime }
    (x.busy = true ∨ x.mode = .off → exec (.sampleStart d) s = .next s.settle) ∧
    (x.busy = false → x.mode ≠ .off → x.lastStart = none → exec (.sampleStart d) s = .next start.settle) ∧
    (x.busy = false → ∀ t₀, x.lastStart = some t₀ → (s.uptime - t₀).toNat < 2 ^ 31 →
      (x.mode = .continuous → exec (.sampleStart d) s =
        .next (if 125 ≤ (s.uptime - t₀).toNat then start else s).settle) ∧
      (x.mode = .periodic → exec (.sampleStart d) s =
        .next (if 4000 ≤ (s.uptime - t₀).toNat then start else s).settle)) ∧
    (x.busy = true → t = s.setDet d { x with nextMode := some m }) ∧
    (x.busy = false →
      (m = x.mode → t = s.setDet d { x with nextMode := none }) ∧
      (m ≠ x.mode → m = .off →
        t.det d = { x with mode := .off, nextMode := none, busy := false, lastLevel := none, openRun := 0,
                           shortRun := 0 } ∧
        t.holds (.detector d) .openLoop = false ∧ t.holds (.detector d) .short = false ∧
        t.holds (.detector d) .glare = s.holds (.detector d) .glare ∧
        KeptBut [.detectors, .faults, .link, .history] s t) ∧
      (m ≠ x.mode → m ≠ .off →
        (x.mode = .off ∨ x.lastStart = none → t = s.setDet d
          { x with mode := m, nextMode := none, busy := true, lastStart := some s.uptime }) ∧
        (x.mode ≠ .off → ∀ t₀, x.lastStart = some t₀ → (s.uptime - t₀).toNat < 2 ^ 31 → t = s.setDet d
          (if (if m = .continuous then 125 else 4000) ≤ (s.uptime - t₀).toNat
            then { x with mode := m, nextMode := none, busy := true, lastStart := some s.uptime }
            else { x with mode := m, nextMode := none }))))

/-- SAMPLE_END (R2 to R6, R71): the level moves the two run counts, raises OPEN or SHORT at the fourth sample in its
band and clears them by the bands; a raised fault discards the candidate; a waiting mode then takes hold, and every
line's blindness is judged anew. Nothing happens before 8 ms have passed. That a SAMPLE_END before its instant changes
nothing is the model's choice (log entry 11); blindness is judged after a mode change too (log entry 32). The order of
the records is the model's choice (log entry 13). -/
def Obligations.SampleEndJudgesTheLoop : Prop :=
  ∀ (s : State) (d : DetNo) (level : Fin 16) (t₀ : Instant),
    let x := s.det d
    x.busy = true → x.lastStart = some t₀ → (s.uptime - t₀).toNat < 2 ^ 31 →
    let o := s.holds (.detector d) .openLoop
    let h := s.holds (.detector d) .short
    let a := if level.val ≤ 1 then min (x.openRun + 1) 4 else 0
    let b := if level.val = 15 then min (x.shortRun + 1) 4 else 0
    let opens := a = 4 ∧ o = false
    let shorts := b = 4 ∧ h = false
    ((s.uptime - t₀).toNat < 8 → exec (.sampleEnd d level) s = .next s.settle) ∧
    (8 ≤ (s.uptime - t₀).toNat → ∃ t, exec (.sampleEnd d level) s = .next t ∧
      KeptBut [.detectors, .faults, .lines, .link, .history] s t ∧
      (∀ e, e ≠ d → t.det e = s.det e ∧ t.faults.get (.detector e) = s.faults.get (.detector e)) ∧
      (let y := { x with busy := false, lastLevel := some level, openRun := a, shortRun := b, nextMode := none,
                         candidate := if opens ∨ shorts then none else x.candidate }
       x.nextMode ≠ some .off →
        t.det d = { y with mode := x.nextMode.getD x.mode } ∧
        t.holds (.detector d) .openLoop =
          (if opens then true else if shorts then false else if 3 ≤ level.val ∧ level.val ≤ 14 then false else o) ∧
        t.holds (.detector d) .short =
          (if shorts then true else if opens then false else if 3 ≤ level.val ∧ level.val ≤ 12 then false else h)) ∧
      (x.nextMode = some .off →
        t.det d = { x with mode := .off, nextMode := none, busy := false, lastLevel := none, openRun := 0, shortRun := 0,
                           candidate := if opens ∨ shorts then none else x.candidate } ∧
        t.holds (.detector d) .openLoop = false ∧ t.holds (.detector d) .short = false) ∧
      t.holds (.detector d) .glare = s.holds (.detector d) .glare ∧
      (∀ n, t.line n = { s.line n with
        blind := t.isBlind n
        blindTimer := if t.isBlind n = (s.line n).blind then (s.line n).blindTimer
          else if t.isBlind n then some (s.after ((s.lineCfg n).blindLimit * 1000)) else none }))

/-- The pulse edges (R7, R8, R10, R11): a leading edge starts the width and, under GLARE, the glare phase; a trailing
edge records the pulse with its class by w_min and w_max, or GLARE while the fault is held; NOISE, a pulse under GLARE,
and a pulse of a channel that holds a fault or is disabled make no record, no report and touch no candidate. An edge
the line already has changes nothing: the model's choice (log entry 11). -/
def Obligations.PulsesAreMeasuredAndClassed : Prop :=
  ∀ (s : State) (d : DetNo),
    let x := s.det d
    let cfg := s.detCfg d
    let glared := s.holds (.detector d) .glare
    let cls : PulseClass :=
      if glared = true then .glare else if x.width < cfg.wMin then .noise
      else if x.width ≤ cfg.wMax then .spark else .ember
    let dark := s.setDet d { x with
      lit := false, lastEdge := some s.uptime, lastPulse := some ⟨x.width, cls, s.uptime⟩,
      glare := if glared = true then .clearing s.uptime else x.glare }
    (x.lit = true → exec (.pulseLeadingEdge d) s = .next s.settle) ∧
    (x.lit = false → exec (.pulseLeadingEdge d) s = .next (s.setDet d { x with
      lit := true, lastEdge := some s.uptime, width := 0,
      glare := if glared = true then .glaring else x.glare }).settle) ∧
    (x.lit = false → exec (.pulseTrailingEdge d) s = .next s.settle) ∧
    (x.lit = true → cls = .noise ∨ cls = .glare ∨ s.faults.get (.detector d) ≠ 0 ∨ s.disabled (.detector d) = true →
      exec (.pulseTrailingEdge d) s = .next dark.settle)

/-- A qualifying pulse (R12, R13, R14): in DAY it is delivered at its trailing edge with its class, its weight and the
mark not confirmed; in WATCH the first is kept as the candidate, and a second within 1,000 ms confirms it, delivered
once with the higher class and weight and the mark confirmed; an older candidate is discarded with reason EXPIRED
first. The discarding by the edge itself is the model's reading (log entry 25). -/
def Obligations.QualifyingPulsesAreDeliveredOrConfirmed : Prop :=
  ∀ (s : State) (d : DetNo),
    let x := s.det d
    let cfg := s.detCfg d
    x.lit = true → s.faults.get (.detector d) = 0 → s.disabled (.detector d) = false → cfg.wMin ≤ x.width →
    let ember := decide (cfg.wMax < x.width)
    let weight := if cfg.wMax < x.width then 4 else 1
    let y := { x with
      lit := false, lastEdge := some s.uptime,
      lastPulse := some ⟨x.width, if cfg.wMax < x.width then .ember else .spark, s.uptime⟩ }
    (s.shift = .day → exec (.pulseTrailingEdge d) s = .next ((s.setDet d y).deliver d ember weight false).settle) ∧
    (s.shift = .watch →
      (x.candidate = none → exec (.pulseTrailingEdge d) s =
        .next (s.setDet d { y with candidate := some ⟨ember, weight, s.uptime⟩ }).settle) ∧
      (∀ c, x.candidate = some c → (s.uptime - c.at_).toNat ≤ 1000 → exec (.pulseTrailingEdge d) s =
        .next ((s.setDet d { y with candidate := none }).deliver d (c.ember || ember) (max c.weight weight) true).settle) ∧
      (∀ c, x.candidate = some c → 1000 < (s.uptime - c.at_).toNat → exec (.pulseTrailingEdge d) s =
        .next ((s.record .unconfirmed 1 (BitVec.ofNat 8 (number d))
          ⟨if c.ember then 2 else 1, byteOf c.weight, 1, 0, 0⟩).setDet d
            { y with candidate := some ⟨ember, weight, s.uptime⟩ }).settle))

/-- One delivery (R15, R16, R28, R36): the window computed from the velocity of this instant is offered to the station of
the detector's line, the delivery is counted, recorded and reported with the same contents, its weight is added at the
line and the SPARK cause raised in the zone for spark_hold; a setting of 0 leaves its part out. The zones whose causes
have changed are then derived, each once (R92). The order of the parts, and so of their records, is the model's choice
(log entry 13). -/
def Obligations.DeliveryReachesTheBlocksNamed : Prop :=
  ∀ (s : State) (d : DetNo) (ember confirmed : Bool) (weight : Nat),
    let cfg := s.detCfg d
    let noted := fun (u : State) (first : Nat) (a b : Nat) =>
      let x := { s.det d with deliveries := min ((s.det d).deliveries + 1) 65535 }
      let a := a + if ember then 32768 else 0
      let detail : Detail :=
        ⟨BitVec.ofNat 8 (first + (if confirmed then 16 else 0) + numberOrZero cfg.line), highByte a, lowByte a,
          highByte b, lowByte b⟩
      ((u.setDet d x).record .spark 1 (BitVec.ofNat 8 (number d)) detail).report .notice
        ⟨0x41, enc32 s.uptime ++ [BitVec.ofNat 8 (number d), detail.d0, detail.d1, detail.d2, detail.d3, detail.d4]⟩
    let caused := fun (u : State) => (match cfg.zone with
      | none => u
      | some z => u.putCause (.detector d) z .spark
          (some (s.uptime + BitVec.ofNat 32 (cfg.sparkHold * 1000)))).deriveChanged s.causes
    (cfg.line = none → s.deliver d ember weight confirmed = caused (noted s 0 0 0)) ∧
    (∀ n, cfg.line = some n →
      (∀ hold, shotOf cfg.distance (s.meter n).vf (s.lineCfg n) = .flood hold →
        let w : Window := ⟨s.uptime, s.uptime + BitVec.ofNat 32 (hold * 1000), .flood, false, 1⟩
        s.deliver d ember weight confirmed = caused ((if s.disabled (.station n)
          then noted (s.offerWindow n w) 192 0 0 else noted (s.offerWindow n w) 128 0 hold).countSpark n weight d)) ∧
      (∀ a b late, shotOf cfg.distance (s.meter n).vf (s.lineCfg n) = .timed a b late →
        let w : Window := ⟨s.uptime + BitVec.ofNat 32 a, s.uptime + BitVec.ofNat 32 b, .detector d, late, 1⟩
        s.deliver d ember weight confirmed = caused ((noted (s.offerWindow n w)
          ((if s.disabled (.station n) then 192 else 64) + if late then 32 else 0) a b).countSpark n weight d)))

/-- The timed events of a channel: a pulse still lit at glare_limit raises GLARE and discards the candidate with reason
FAULT (R9); GLARE is cleared after glare_clear of dark (R10); a candidate is discarded with reason EXPIRED after 1,000
ms (R14); the SPARK cause is removed at its hold expiry (R84). Before their instants nothing happens. An event before
its instant changes nothing: the model's choice (log entry 11). FAULT before UNCONFIRMED is too (log entry 13). -/
def Obligations.GlareCandidateAndHoldEndInTime : Prop :=
  ∀ (s : State) (d : DetNo),
    let x := s.det d
    let o := Obj.detector d
    (x.lit = true → s.holds o .glare = false → (s.detCfg d).glareLimit * 10 ≤ x.width →
      exec (.glareLimitReached d) s =
        .next ((((s.setDet d { x with glare := .glaring }).raiseFault o .glare).dropCandidate d 2).judgeBlind).settle) ∧
    (x.lit = false ∨ s.holds o .glare = true ∨ x.width < (s.detCfg d).glareLimit * 10 →
      exec (.glareLimitReached d) s = .next s.settle) ∧
    (∀ since, s.holds o .glare = true → x.glare = .clearing since → (s.uptime - since).toNat < 2 ^ 31 →
      (s.detCfg d).glareClear < 2 ^ 31 → exec (.glareCleared d) s =
        .next (if (s.detCfg d).glareClear ≤ (s.uptime - since).toNat
          then ((s.setDet d { x with glare := .none }).clearFault o .glare).judgeBlind else s).settle) ∧
    (x.glare = .glaring → exec (.glareCleared d) s = .next s.settle) ∧
    (∀ c, x.candidate = some c → (s.uptime - c.at_).toNat < 2 ^ 31 → exec (.candidateExpired d) s =
      .next (if 1000 ≤ (s.uptime - c.at_).toNat
        then (s.setDet d { x with candidate := none }).record .unconfirmed 1 (BitVec.ofNat 8 (number d))
          ⟨if c.ember then 2 else 1, byteOf c.weight, 1, 0, 0⟩ else s).settle) ∧
    (∀ r e, s.causeOf (.detector d) = some r → r.hold = some e → exec (.sparkHoldExpired d) s =
      .next (if reached s.uptime e then s.removeCause (.detector d) else s).settle) ∧
    (s.causeOf (.detector d) = none → exec (.sparkHoldExpired d) s = .next s.settle)

/-! ### Air velocity and stations -/

/-- The velocity meter (R21 to R24): pulses are counted up to 4095 while measurement runs; 250 ms after the gate's start
the raw velocity is floor(N × K / 25) held at 10,000, the filtered one floor((3 V + v + 2) / 4), the low-flow run count
goes up to 4 or back to 0, and the next gate starts; the line is then handed the new values. A pulse or gate end with
the meter stopped, or before 250 ms, changes nothing: the model's choice (log entry 11). LOW-FLOW before the LINE-STATE
is too (log entry 13). -/
def Obligations.GateEndsGiveTheVelocity : Prop :=
  ∀ (s : State) (n : LineNo) (t₀ : Instant),
    let m := s.meter n
    (m.running = false → exec (.velocityPulse n) s = .next s.settle ∧ exec (.gateEnd n) s = .next s.settle) ∧
    (m.running = true →
      exec (.velocityPulse n) s = .next (s.setMeter n { m with count := min (m.count + 1) 4095 }).settle ∧
      (m.gateStart = some t₀ → (s.uptime - t₀).toNat < 2 ^ 31 →
        let v := min (m.count * (s.lineCfg n).kFactor / 25) 10000
        let vf := (3 * m.vf + v + 2) / 4
        let u := s.setMeter n
          { running := true, gateStart := some s.uptime, count := 0, lastCount := some m.count, lastRaw := some v,
            vf := vf, lowRun := if vf < (s.lineCfg n).vMin then min (m.lowRun + 1) 4 else 0,
            gateEnds := min (m.gateEnds + 1) 65535 }
        ((s.uptime - t₀).toNat < 250 → exec (.gateEnd n) s = .next s.settle) ∧
        (250 ≤ (s.uptime - t₀).toNat → exec (.gateEnd n) s = .next (u.gateAtLine n).settle ∧
          ((s.line n).state = .starting → (s.lineCfg n).vMin ≤ vf → u.gateAtLine n = u.runLine n) ∧
          ((s.line n).state = .starting → vf < (s.lineCfg n).vMin → u.gateAtLine n = u) ∧
          ((s.line n).state = .run → vf < (s.lineCfg n).vMin → 3 ≤ m.lowRun →
            u.gateAtLine n = (u.raiseFault (.line n) .lowFlow).stopLine n .lowFlow) ∧
          ((s.line n).state = .run → (s.lineCfg n).vMin ≤ vf ∨ m.lowRun < 3 → u.gateAtLine n = u) ∧
          ((s.line n).state = .stopping → u.gateAtLine n = u.testRundown n) ∧
          ((s.line n).state = .off ∨ (s.line n).state = .abort ∨ (s.line n).state = .stopped →
            u.gateAtLine n = u))))

/-- The transit computation (R29 to R31): below v_min, and beyond 8,191 ms, a spark is flooded for flood_hold; otherwise
with T the least time that covers the distance and P the margin, the window starts T − A − P after the delivery, 0 where
that is below 0, ends T − A + P + H after it but no sooner than H, and is LATE exactly where T is below A. With the
settings in range a timed window is at least 100 ms long and starts within 8,191 ms. -/
def Obligations.WindowsAreTimedByTransit : Prop :=
  ∀ (distance vf : Nat) (cfg : LineSettings), 1 ≤ cfg.vMin →
    (vf < cfg.vMin → shotOf distance vf cfg = .flood cfg.floodHold) ∧
    (cfg.vMin ≤ vf → 8191 * vf < distance * 1000 → shotOf distance vf cfg = .flood cfg.floodHold) ∧
    (cfg.vMin ≤ vf → distance * 1000 ≤ 8191 * vf → ∃ T P : Nat,
      T * vf < distance * 1000 + vf ∧ distance * 1000 ≤ T * vf ∧ T ≤ 8191 ∧
      P * 64 ≤ T * cfg.uncertainty ∧ T * cfg.uncertainty < (P + 1) * 64 ∧
      ∃ S E late, shotOf distance vf cfg = .timed S E late ∧
        (S : Int) = max 0 ((T : Int) - cfg.valveLatency - P) ∧
        (E : Int) = max ((T : Int) - cfg.valveLatency + P + cfg.windowHold) cfg.windowHold ∧
        (late = true ↔ T < cfg.valveLatency) ∧ S ≤ 8191 ∧
        (100 ≤ cfg.windowHold → S + 100 ≤ E) ∧ (0 < S → E - S = 2 * P + cfg.windowHold))

/-- The window list (R35 to R39). The hull of two windows covers both, carries either's LATE flag, both counts and the
earlier start's origin. A window inserted into a list of at most four windows in order of start, more than 50 ms apart,
leaves such a list; every instant that a listed window or the new one covers is still covered; and with room and no
listed window within 50 ms the list only gains the new window. The window joined first is the nearest, and on a tie the
earlier: within 50 ms its hull with the new one is inserted among the others; beyond 50 ms that is done, as a forced
merge, only in a full list. -/
def Obligations.InsertedWindowsCoverEverySpray : Prop :=
  ∀ (now : Instant) (w : Window) (l : List Window),
    let at_ := fun (t : Instant) => (t - now).toInt
    let covers := fun (v : Window) (t : Instant) => at_ v.start ≤ at_ t ∧ at_ t < at_ v.stop
    let apart := fun (a b : Window) => at_ a.stop + 50 < at_ b.start
    let proper := fun (v : Window) => at_ v.start < at_ v.stop
    (∀ v : Window, let h := hull now v w
      at_ h.start = min (at_ v.start) (at_ w.start) ∧ at_ h.stop = max (at_ v.stop) (at_ w.stop) ∧
      h.late = (v.late || w.late) ∧ h.merged = min (v.merged + w.merged) 255 ∧
      h.origin = if at_ w.start < at_ v.start then w.origin else v.origin) ∧
    (proper w → (∀ v ∈ l, proper v) → l.Pairwise apart → l.length ≤ 4 →
      let r := insertWindow now w l
      (∀ v ∈ r.1, proper v) ∧ r.1.Pairwise apart ∧ r.1 ≠ [] ∧ r.1.length ≤ 4 ∧
      (∀ t, (covers w t ∨ ∃ v ∈ l, covers v t) → ∃ v ∈ r.1, covers v t) ∧
      (l.length < 4 → (∀ v ∈ l, apart v w ∨ apart w v) → r.1.Perm (w :: l) ∧ r.2 = false) ∧
      (l.length = 4 → (∀ v ∈ l, apart v w ∨ apart w v) → r.2 = true) ∧
      (r.2 = true → l.length = 4) ∧
      (let gap_ := fun (v : Window) => if at_ w.start ≤ at_ v.start then at_ v.start - at_ w.stop
         else at_ w.start - at_ v.stop
       ∀ v ∈ l, (∀ u ∈ l, gap_ v < gap_ u ∨ (gap_ v = gap_ u ∧ at_ v.start ≤ at_ u.start)) →
         (gap_ v ≤ 50 → r = ((insertWindow now (hull now v w) (l.erase v)).1, false)) ∧
         (50 < gap_ v → l.length = 4 → r = ((insertWindow now (hull now v w) (l.erase v)).1, true))))

/-- A window offered to a station, and the station's valve (R36, R40 to R43, R46, R52): under an ACTIVE entry the offer
is refused and only counted; otherwise the list takes it, and the output turns on at once where the first window has
started. WINDOW_START turns the output on at the first window's start and WINDOW_END ends that window. Outside these the
two events change nothing: the model's choice (log entry 11). VALVE before the ACTIVATED of a PENDING entry is too (log
entry 13). -/
def Obligations.WindowsOpenAndCloseTheValve : Prop :=
  ∀ (s : State) (n : LineNo) (w : Window),
    let x := s.station n
    let active := s.disabled (.station n)
    let turnedOn := fun (u : State) => u.setStation n { u.station n with
      valveOn := true, outputOn := some s.uptime, valve := if x.wconf then .opened else .opening,
      waterConfirmed := x.wconf, waterSeen := x.wconf,
      confirmTimer := if x.wconf = true ∨ s.holds (.station n) .noWater = true then none
        else some (s.uptime + BitVec.ofNat 32 s.store.live.general.confirmTime) }
    (active = true → s.offerWindow n w = s.setStation n
      { x with offered := min (x.offered + 1) 65535, refused := min (x.refused + 1) 65535 }) ∧
    (active = false →
      let r := insertWindow s.uptime w x.windows
      let u := s.setStation n
        { x with offered := min (x.offered + 1) 65535, windows := r.1,
                 forced := if r.2 = true then min (x.forced + 1) 65535 else x.forced }
      (x.valveOn = true → x.valve ≠ .closed → s.offerWindow n w = u) ∧
      (x.valveOn = false → ∀ v rest, r.1 = v :: rest →
        (v.running s.uptime = true → s.offerWindow n w = turnedOn u) ∧
        (v.running s.uptime = false → s.offerWindow n w =
          if x.valve = .closed then u.setStation n { u.station n with valve := .armed } else u))) ∧
    (∀ v rest, x.windows = v :: rest →
      (v.running s.uptime = true → x.valveOn = false → active = false →
        exec (.windowStart n) s = .next (turnedOn s).settle) ∧
      (v.running s.uptime = false ∨ x.valveOn = true ∨ active = true → exec (.windowStart n) s = .next s.settle) ∧
      (reached s.uptime v.stop = false → exec (.windowEnd n) s = .next s.settle) ∧
      (reached s.uptime v.stop = true →
        let off := s.setStation n { x with
          windows := rest, valveOn := false, valve := if rest = [] then .closed else .armed, outputOn := none,
          confirmTimer := none }
        let noted := fun (since : Instant) =>
          let ms := min (s.uptime - since).toNat 0xFFFFFF
          off.record .valve 3 (BitVec.ofNat 8 (number n))
            ⟨BitVec.ofNat 8 (ms / 65536), BitVec.ofNat 8 (ms / 256), BitVec.ofNat 8 ms,
              BitVec.ofNat 8 ((if x.waterSeen then 1 else 0) + (if v.late then 2 else 0) + v.origin.code.toNat * 4),
              byteOf v.merged⟩
        (∀ since, x.valveOn = true → x.outputOn = some since → exec (.windowEnd n) s =
          .next (if rest = [] then (noted since).endActivity (.station n) else noted since).settle) ∧
        (x.valveOn = false → exec (.windowEnd n) s =
          .next (if rest = [] then off.endActivity (.station n) else off).settle))) ∧
    (x.windows = [] → exec (.windowStart n) s = .next s.settle ∧ exec (.windowEnd n) s = .next s.settle)

/-- Water (R44, R45, R47 to R49): WCONF becoming active confirms water in OPENING; becoming inactive it takes an OPEN
station back to OPENING with the confirm timer started anew unless NO-WATER is held; the timer's expiry in OPENING
raises NO-WATER, sends a STARTING or RUN line to ABORT, and raises the station cause at ALERT in the line's zone. The
order of fault, abort and cause is the model's reading (log entry 12). -/
def Obligations.WaterIsConfirmedOrMissed : Prop :=
  ∀ (s : State) (n : LineNo),
    let x := s.station n
    (x.valve = .opening → exec (.wconfActive n) s = .next (s.setStation n { x with
      wconf := true, valve := .opened, waterConfirmed := true, waterSeen := true, confirmTimer := none }).settle) ∧
    (x.valve ≠ .opening → exec (.wconfActive n) s = .next (s.setStation n { x with wconf := true }).settle) ∧
    (x.valve = .opened → exec (.wconfInactive n) s = .next (s.setStation n { x with
      wconf := false, valve := .opening, waterConfirmed := false,
      confirmTimer := if s.holds (.station n) .noWater then none
        else some (s.uptime + BitVec.ofNat 32 s.store.live.general.confirmTime) }).settle) ∧
    (x.valve ≠ .opened → exec (.wconfInactive n) s = .next (s.setStation n { x with wconf := false }).settle) ∧
    (x.valve ≠ .opening ∨ s.expired x.confirmTimer = false → exec (.confirmTimerExpired n) s = .next s.settle) ∧
    (x.valve = .opening → s.expired x.confirmTimer = true →
      let u := (s.setStation n { x with confirmTimer := none }).raiseFault (.station n) .noWater
      let v := if (s.line n).state = .starting ∨ (s.line n).state = .run then u.abortLine n .noWater else u
      ((s.lineCfg n).zone = none → exec (.confirmTimerExpired n) s = .next v.settle) ∧
      ∀ z, (s.lineCfg n).zone = some z → exec (.confirmTimerExpired n) s =
        .next (v.raiseCause (.station n) z .alert none).settle)

/-- RESET-STATION and FLOOD-STATION (R50, R51): a spraying station is refused STATE, otherwise NO-WATER and the station
cause go and the reply says whether NO-WATER was held; a station with a disablement entry is not flooded, otherwise a
MANUAL window of 1 to 120 s starting now is offered and recorded, and the reply gives the window now running. The
refusals carry detail 0 (log entry 15). The clearing of NO-WATER before the removal of the cause is the model's choice
(log entry 13). -/
def Obligations.StationRequestsResetAndFlood : Prop :=
  ∀ (s : State) (k : Link) (n : LineNo) (bad seconds : Byte),
    let me := BitVec.ofNat 8 (number n)
    let u := s.withLink k
    (bad.toNat = 0 ∨ 8 < bad.toNat →
      (s.link.claim (.request 0x0C [bad]) = some k →
        exec (.resetStation [bad]) s = .next (u.answered ⟨0xFF, [0x0C, 4, 0, 0, 0, 0]⟩)) ∧
      (s.link.claim (.request 0x0D [bad, seconds]) = some k →
        exec (.floodStation [bad, seconds]) s = .next (u.answered ⟨0xFF, [0x0D, 4, 0, 0, 0, 0]⟩))) ∧
    (s.link.claim (.request 0x0C [me]) = some k →
      ((s.station n).valveOn = true →
        exec (.resetStation [me]) s = .next (u.answered ⟨0xFF, [0x0C, 5, 0, 0, 0, 0]⟩)) ∧
      ((s.station n).valveOn = false → exec (.resetStation [me]) s =
        .next (((u.clearFault (.station n) .noWater).removeCause (.station n)).answered
          ⟨0x8C, [if s.holds (.station n) .noWater then 1 else 0]⟩))) ∧
    (s.link.claim (.request 0x0D [me, seconds]) = some k →
      (s.hasEntry (.station n) = true →
        exec (.floodStation [me, seconds]) s = .next (u.answered ⟨0xFF, [0x0D, 17, 0, 0, 0, 0]⟩)) ∧
      (s.hasEntry (.station n) = false →
        let secs := max 1 (min seconds.toNat 120)
        let w : Window := ⟨s.uptime, s.uptime + BitVec.ofNat 32 (secs * 1000), .manual, false, 1⟩
        let t := (u.offerWindow n w).record .manualFlood 3 me ⟨BitVec.ofNat 8 secs, 0, 0, 0, 0⟩
        let v := ((t.station n).windows.find? (fun v => v.running s.uptime)).getD w
        exec (.floodStation [me, seconds]) s = .next (t.answered
          ⟨0x8D, enc32 (v.start - s.uptime) ++ enc32 (v.stop - s.uptime) ++ [v.origin.code, byteOf v.merged]⟩)))

/-! ### Extraction lines -/

/-- START-LINE (R59, R60, R62): the checks in their order, each with its reason and detail: a number of no line, a line
not OFF, the WATCH mode, a held line cause, the lowest-numbered damper not HELD, the lowest-numbered trip zone at FIRE; a
refused request changes nothing but the link. Accepted, the line enters STARTING, with its start timer, its counter
cleared and its counting window restarted; the reply gives the timer's expiry in ms. -/
def Obligations.StartLineIsDecidedInOrder : Prop :=
  ∀ (s : State) (k : Link) (n : LineNo) (bad : Byte),
    let me := BitVec.ofNat 8 (number n)
    let cfg := s.lineCfg n
    let ms := cfg.startTimeout * 1000
    let refused := fun (reason detail : Byte) => Host.Outcome.next (σ := State) (φ := Fault) (ρ := Refusal)
      ((s.withLink k).answered ⟨0xFF, [0x08, reason, 0, 0, 0, detail]⟩)
    (s.link.claim (.request 0x08 [bad]) = some k → bad.toNat = 0 ∨ 8 < bad.toNat →
      exec (.startLine [bad]) s = refused 4 0) ∧
    (s.link.claim (.request 0x08 [me]) = some k →
      ((s.line n).state ≠ .off → exec (.startLine [me]) s = refused 5 (s.line n).state.code) ∧
      ((s.line n).state = .off →
        (s.shift = .watch → exec (.startLine [me]) s = refused 9 0) ∧
        (s.shift = .day →
          (∀ r, s.causeOf (.line n) = some r → exec (.startLine [me]) s = refused 8 r.level.code) ∧
          (s.causeOf (.line n) = none →
            (∀ c, s.damperOf n c = true → (s.closure c).state ≠ .held →
              (∀ b < c, s.damperOf n b = true → (s.closure b).state = .held) →
              exec (.startLine [me]) s = refused 7 (BitVec.ofNat 8 (number c))) ∧
            ((∀ c, s.damperOf n c = true → (s.closure c).state = .held) →
              (∀ z, zoneIn cfg.tripZones z = true → (s.zone z).level = .fire →
                (∀ y < z, zoneIn cfg.tripZones y = true → (s.zone y).level ≠ .fire) →
                exec (.startLine [me]) s = refused 6 (BitVec.ofNat 8 (number z))) ∧
              ((∀ z, zoneIn cfg.tripZones z = true → (s.zone z).level ≠ .fire) →
                exec (.startLine [me]) s = .next (((s.withLink k).moveLine n .starting .none (fun x => { x with
                  counter := 0
                  countWindow := if cfg.sparkWindow = 0 then none
                    else some (s.uptime + BitVec.ofNat 32 (cfg.sparkWindow * 100))
                  startTimer := some (s.uptime + BitVec.ofNat 32 ms) })).answered
                    ⟨0x88, enc32 (BitVec.ofNat 32 ms)⟩)))))))

/-- A change of a line's state (R56, R57, R109): the outputs follow the state entered, GATE standing as it did in
STOPPING and STOPPED; the state, cause and entry instant are set, the timers as the change says; one LINE-STATE record
and report are made; and a change to OFF or STOPPED ends the waits of the line's dampers. Entry to STOPPING starts the
rundown timer and tests the end of the rundown at once; entry to ABORT starts the dwell timer, and the gate timer
unless the gate is open; the end of the rundown takes an orderly stop to OFF and any other to STOPPED. Entry to RUN stops
the start timer, and a blind line with blind_stop on goes on to STOPPING with BLIND (R60, R72). The end of a damper's wait
takes it to RELEASING with its travel timer and, where it stands CLOSED, on to SHUT; a closure in another state takes no
action. Dampers are taken in number order, and the record before the fault: the model's choices (log entry 13). -/
def Obligations.LineChangesFollowTheirState : Prop :=
  ∀ (s : State) (n : LineNo) (st : LineState) (cause : StopCause) (f : Line → Line),
    let x := s.line n
    let cfg := s.lineCfg n
    let entered := (s.setLine n { f x with
      state := st, stopCause := cause, entered := s.uptime
      fan := decide (st = .starting ∨ st = .run ∨ st = .abort), feed := decide (st = .run)
      gate := decide (st = .abort) || (decide (st = .stopping ∨ st = .stopped) && x.gate) }).objEvent
        (if st = .abort ∨ st = .stopping ∨ st = .stopped then .alarm else .notice) .lineState 0x44 (.line n)
        ⟨x.state.code, st.code, cause.code, 0, 0⟩
    let down := x.fstop = true ∨ (s.meter n).vf < cfg.vMin / 4
    s.moveLine n st cause f = (if st = .off ∨ st = .stopped
      then forAll (fun c u => if u.damperOf n c then u.endWait c else u) entered else entered) ∧
    s.abortLine n cause = s.moveLine n .abort cause (fun y => { y with
      startTimer := none, dwellTimer := some (s.uptime + BitVec.ofNat 32 (cfg.abortDwell * 1000))
      gateTimer := if x.gopen then none else some (s.uptime + BitVec.ofNat 32 (cfg.gateTime * 1000)) }) ∧
    (let stopped := s.moveLine n .stopping cause (fun y => { y with
       startTimer := none, dwellTimer := none,
       rundownTimer := some (s.uptime + BitVec.ofNat 32 (cfg.rundownTimeout * 1000)) })
     (¬down → s.stopLine n cause = stopped) ∧ (down → s.stopLine n cause = stopped.testRundown n)) ∧
    (x.state ≠ .stopping ∨ ¬down → s.testRundown n = s) ∧
    (x.state = .stopping → down →
      (x.stopCause = .orderly → s.testRundown n = s.moveLine n .off .none (fun y => { y with
        rundownTimer := none, gateTimer := none })) ∧
      (x.stopCause ≠ .orderly → x.stopCause ≠ .startFail → s.testRundown n =
        s.moveLine n .stopped x.stopCause (fun y => { y with rundownTimer := none })) ∧
      (x.stopCause = .startFail → s.testRundown n =
        (s.moveLine n .stopped .startFail (fun y => { y with rundownTimer := none })).raiseFault (.line n) .startFail)) ∧
    (let ran := s.moveLine n .run .none (fun y => { y with startTimer := none })
     (cfg.blindStop = true → s.holds (.line n) .blind = true → s.runLine n = ran.stopLine n .blind) ∧
     (cfg.blindStop = false ∨ s.holds (.line n) .blind = false → s.runLine n = ran)) ∧
    (∀ c, let y := s.closure c
      let gone := s.moveClosure c .releasing .none .none (fun v => { v with
        travelTimer := some (s.uptime + BitVec.ofNat 32 ((s.closureCfg c).travelTime * 1000)), waitTimer := none })
      (y.state ≠ .waiting → s.endWait c = s) ∧
      (y.state = .waiting → y.cshut = false → s.endWait c = gone) ∧
      (y.state = .waiting → y.cshut = true → s.endWait c = gone.moveClosure c .shut .none .none
        (fun v => { v with travelTimer := none, waitTimer := none })))

/-- STOP-LINE and RESET-LINE (R61, R75): STOP-LINE stops a STARTING or RUN line in order, leaves an OFF, STOPPING or
STOPPED one, and is refused in ABORT; RESET-LINE takes a STOPPED line, or an OFF line holding its cause, whose station
has no window and whose trip zones hold no FIRE cause of a fire input, to OFF, gate off and timer stopped, its cause
and its four faults cleared and its counter restarted. A number that names no line is refused BAD-OBJECT. The detail 0 of
the refusals without one and the order of the faults cleared are the model's readings (log entries 15 and 13). -/
def Obligations.StopAndResetLineAreDecided : Prop :=
  ∀ (s : State) (k : Link) (n : LineNo) (bad : Byte),
    let me := BitVec.ofNat 8 (number n)
    let x := s.line n
    let u := s.withLink k
    (bad.toNat = 0 ∨ 8 < bad.toNat →
      (s.link.claim (.request 0x09 [bad]) = some k →
        exec (.stopLine [bad]) s = .next (u.answered ⟨0xFF, [0x09, 4, 0, 0, 0, 0]⟩)) ∧
      (s.link.claim (.request 0x0A [bad]) = some k →
        exec (.resetLine [bad]) s = .next (u.answered ⟨0xFF, [0x0A, 4, 0, 0, 0, 0]⟩))) ∧
    (s.link.claim (.request 0x09 [me]) = some k →
      (x.state = .abort → exec (.stopLine [me]) s = .next (u.answered ⟨0xFF, [0x09, 5, 0, 0, 0, 0]⟩)) ∧
      (x.state = .starting ∨ x.state = .run → exec (.stopLine [me]) s =
        .next ((u.stopLine n .orderly).answered ⟨0x89, [((u.stopLine n .orderly).line n).state.code]⟩)) ∧
      (x.state = .off ∨ x.state = .stopping ∨ x.state = .stopped →
        exec (.stopLine [me]) s = .next (u.answered ⟨0x89, [x.state.code]⟩))) ∧
    (s.link.claim (.request 0x0A [me]) = some k →
      (¬(x.state = .stopped ∨ x.state = .off ∧ s.causeOf (.line n) ≠ none) → exec (.resetLine [me]) s =
        .next (u.answered ⟨0xFF, [0x0A, 5, 0, 0, 0, x.state.code]⟩)) ∧
      (x.state = .stopped ∨ x.state = .off ∧ s.causeOf (.line n) ≠ none →
        ((s.station n).windows ≠ [] → exec (.resetLine [me]) s = .next (u.answered
          ⟨0xFF, [0x0A, 5] ++ enc32 (BitVec.ofNat 32 (s.station n).windows.length)⟩)) ∧
        ((s.station n).windows = [] →
          let held := fun (z : ZoneNo) => zoneIn (s.lineCfg n).tripZones z = true ∧
            ∃ r ∈ s.causes, r.zone = z ∧ r.level = .fire ∧ ∃ f, r.source = .fireInput f
          (∀ z, held z → (∀ y < z, ¬held y) → exec (.resetLine [me]) s =
            .next (u.answered ⟨0xFF, [0x0A, 6, 0, 0, 0, BitVec.ofNat 8 (number z)]⟩)) ∧
          ((∀ z, ¬held z) →
            let o := Obj.line n
            let off := if x.state = .off then u.setLine n { x with gate := false, gateTimer := none }
              else u.moveLine n .off .none (fun y => { y with gateTimer := none })
            let t := ((((off.removeCause (.line n)).clearFault o .lowFlow).clearFault o .gate).clearFault o
              .rundown).clearFault o .startFail
            let cleared : BitVec 16 := s.faults.get o &&& 0x00B8
            exec (.resetLine [me]) s = .next ((t.setLine n { t.line n with
              counter := 0
              countWindow := if (s.lineCfg n).sparkWindow = 0 then none
                else some (s.uptime + BitVec.ofNat 32 ((s.lineCfg n).sparkWindow * 100)) }).answered
              ⟨0x8A, [cleared.extractLsb' 8 8, cleared.extractLsb' 0 8]⟩)))))

/-- The timed events of a line (R60, R62, R66, R67, R71 to R73), each before its instant without effect. That they have
no effect before their instant, that FSTOP and GOPEN fall by the same commands, and the order of the line before its
dampers are the model's choices (log entries 11, 7 and 13). The faults before the LINE-STATE are too (log entry 13). -/
def Obligations.LineTimersAct : Prop :=
  ∀ (s : State) (n : LineNo),
    let x := s.line n
    let o := Obj.line n
    (exec (.startTimerExpired n) s = .next
      (if x.state = .starting ∧ s.expired x.startTimer = true then s.stopLine n .startFail else s).settle) ∧
    (exec (.abortDwellExpired n) s = .next
      (if x.state = .abort ∧ s.expired x.dwellTimer = true then s.stopLine n x.stopCause else s).settle) ∧
    (let u := (s.setLine n { x with gateTimer := none }).raiseFault o .gate
     exec (.gateTimerExpired n) s = .next (if s.expired x.gateTimer = true
       then (if x.state = .abort then u.stopLine n .gate else u) else s).settle) ∧
    (let u := (s.raiseFault o .rundown).moveLine n .stopped x.stopCause (fun y => { y with rundownTimer := none })
     exec (.rundownTimerExpired n) s = .next (if x.state = .stopping ∧ s.expired x.rundownTimer = true
       then (if x.stopCause = .startFail then u.raiseFault o .startFail else u) else s).settle) ∧
    (let u := (s.setLine n { x with blindTimer := none }).raiseFault o .blind
     exec (.blindTimerExpired n) s = .next (if s.expired x.blindTimer = true
       then (if x.state = .run ∧ (s.lineCfg n).blindStop = true then u.stopLine n .blind else u) else s).settle) ∧
    (exec (.countingWindowExpired n) s = .next (if s.expired x.countWindow = true
       then s.setLine n { x with
         counter := 0
         countWindow := if (s.lineCfg n).sparkWindow = 0 then none
           else some (s.uptime + BitVec.ofNat 32 ((s.lineCfg n).sparkWindow * 100)) }
       else s).settle) ∧
    exec (.gopenActive n true) s = .next (s.setLine n { x with gopen := true, gateTimer := none }).settle ∧
    exec (.gopenActive n false) s = .next (s.setLine n { x with gopen := false }).settle ∧
    exec (.fstopActive n false) s = .next (s.setLine n { x with fstop := false }).settle ∧
    (let u := s.setLine n { x with fstop := true }
     exec (.fstopActive n true) s = .next (forAll (fun c v => if v.damperOf n c then v.endWait c else v)
       (if x.state = .stopping then u.testRundown n else u)).settle)

/-- The spark counter (R62, R63, R74): a weight below the threshold is added; at the threshold the counter is cleared,
the window restarted, ESCALATION recorded, and the line escalates by its state, its cause raised in its zone as one of
the causes of the delivery. The order of record, line and cause is the model's reading (log entry 12). -/
def Obligations.SparkCounterEscalates : Prop :=
  ∀ (s : State) (n : LineNo) (weight : Nat) (d : DetNo),
    let x := s.line n
    let cfg := s.lineCfg n
    let c := min (x.counter + weight) 1023
    (c < cfg.sparkThreshold → s.countSpark n weight d = s.setLine n { x with counter := c }) ∧
    (cfg.sparkThreshold ≤ c →
      let y := { x with
        counter := 0
        countWindow := if cfg.sparkWindow = 0 then none
          else some (s.uptime + BitVec.ofNat 32 (cfg.sparkWindow * 100)) }
      let u := (s.setLine n y).record .escalation 4 (BitVec.ofNat 8 (number n))
        ⟨x.state.code, BitVec.ofNat 8 (c / 256), BitVec.ofNat 8 c, BitVec.ofNat 8 (number d), 0⟩
      let caused := fun (v : State) (l : Level) =>
        match cfg.zone with
        | none => v
        | some z => v.putCause (.line n) z l none
      (x.state = .starting ∨ x.state = .run →
        s.countSpark n weight d = caused (u.abortLine n .escalation) .alert) ∧
      (x.state = .abort → s.countSpark n weight d = caused (u.stopLine n .fire) .fire) ∧
      (x.state = .stopping → s.countSpark n weight d =
        caused (if x.stopCause = .orderly then u.setLine n { y with stopCause := .fire } else u) .fire) ∧
      (x.state = .off ∨ x.state = .stopped → s.countSpark n weight d = caused u .fire))

/-! ### Zones, causes, faults and shift modes -/

/-- A raise adds a record at the end of the list, raises the level of the record held, or refreshes it (R81); a removal
takes the record out (R82). Each but the refresh is a cause change: one CAUSE record and report, the zone's level derived
anew, and the change handed to the sectors of the zone (R83). In an event that may make several cause changes the zone is
left to the event's end (R92). R83 gives no order to the zone and the sectors: zone first is the model's choice (log entry
13). -/
def Obligations.CausesAreRaisedRefreshedAndRemoved : Prop :=
  ∀ (s : State) (src : Source) (z : ZoneNo) (l : Level) (hold : Option Instant),
    let latch := match src with
      | .line _ => true
      | .fireInput _ => l == .fire
      | _ => false
    let type_ : Byte := match src with
      | .fireInput f => (s.inputCfg f).type.code
      | _ => 0
    let changed := fun (alone : Bool) (causes : List Cause) (y : ZoneNo) (before after : Byte) (latched : Bool) =>
      let u := ({ s with causes := causes }).objEvent .notice .cause 0x42 src.obj
        ⟨BitVec.ofNat 8 (number y), before, after, if latched then 1 else 0, type_⟩
      (if alone then u.deriveZone y else u).handSectors y
    let created := fun (alone : Bool) =>
      changed alone (s.causes ++ [⟨src, z, l, latch, s.uptime, s.uptime, 0, hold⟩]) z 0xFF l.code latch
    (s.causeOf src = none → s.raiseCause src z l hold = created true ∧ s.putCause src z l hold = created false ∧
      s.removeCause src = s) ∧
    (∀ r, s.causeOf src = some r →
      (let risen := fun (alone : Bool) => changed alone
         (s.causes.map fun (x : Cause) => if x.source = src then { r with
           level := l, latched := r.latched || latch, changed := s.uptime, silenced := 0, hold := hold } else x)
         r.zone r.level.code l.code (r.latched || latch)
       r.level.rank < l.rank → s.raiseCause src z l hold = risen true ∧ s.putCause src z l hold = risen false) ∧
      (let refreshed := { s with causes := s.causes.map fun (x : Cause) =>
         if x.source = src then { x with changed := s.uptime, hold := hold } else x }
       l.rank ≤ r.level.rank → s.raiseCause src z l hold = refreshed ∧ s.putCause src z l hold = refreshed) ∧
      s.removeCause src = changed true (s.causes.filter fun (x : Cause) => x.source ≠ src) r.zone r.level.code 0xFF
        r.latched)

/-- A zone's level (R92): the highest among its records, QUIET without any. Where that is the level it had, nothing
happens; otherwise the change is recorded and reported on the alarm queue, handed to the closures and the lines of the
zone, and shown at its sectors. At a line that a change to FIRE reaches both as a trip and through a damper's release,
either may be taken first, line by line: for some choice among these lines their trips come before the closures, the
others after them. An event that may make several cause changes derives each zone whose records then give another level,
once, in number order. That and the number order within each group, and that a line STOPPING with ORDERLY is among the lines with a choice, are the
model's choices (log entries 13 and 5). -/
def Obligations.ZoneLevelFollowsItsCauses : Prop :=
  ∀ (s : State) (z : ZoneNo) (l : Level),
    (∀ r ∈ s.causes, r.zone = z → r.level.rank ≤ l.rank) → (l = .quiet ∨ ∃ r ∈ s.causes, r.zone = z ∧ r.level = l) →
    let old := (s.zone z).level
    let noted := (s.setZone z ⟨l, some s.uptime⟩).objEvent .alarm .zoneLevel 0x43 (.zone z) ⟨old.code, l.code, 0, 0, 0⟩
    let trips := fun (u : State) (n : LineNo) => zoneIn (u.lineCfg n).tripZones z = true ∧ (u.zone z).level = .fire
    let released := fun (u : State) (c : ClosureNo) => u.triggers c z = true ∧ u.disabled (.closure c) = false
    let bothWays := fun (u : State) (n : LineNo) => trips u n ∧
      ((u.line n).state = .starting ∨ (u.line n).state = .run ∨ (u.line n).state = .abort ∨
        ((u.line n).state = .stopping ∧ (u.line n).stopCause = .orderly ∧ (u.line n).fstop = false)) ∧
      ∃ c, released u c ∧ (u.closureCfg c).kind = .damper ∧ (u.closureCfg c).line = some n ∧
        ((u.closure c).state = .held ∨ (u.closure c).state = .ready ∨
          ((u.closure c).state = .stuck ∧ (u.closure c).direction = .opening))
    let early := fun (first : LineNo → Bool) => forAll (fun n (u : State) =>
      if bothWays u n then
        let v := { u with freeCount := u.freeCount + 1 }
        if first n then v.protectLine n .fire else v
      else u)
    let closures := forAll (fun c (u : State) => if released u c then u.releaseClosure c (.zone z) else u)
    let lines := forAll (fun n (u : State) => if trips u n then u.protectLine n .fire else u)
    let sectors := forAll (fun n (u : State) =>
      if zoneIn (u.sectorCfg n).zones z = true then
        u.setSector n { u.sector n with highest := u.highestOf (u.sectorCfg n).zones } else u)
    (old = l → s.deriveZone z = s) ∧
    (old ≠ l → ∃ first, s.deriveZone z = sectors (lines (closures (early first noted)))) ∧
    (∀ before : List Cause,
      (∀ y, levelOfZone before y = levelOfZone s.causes y) → s.deriveChanged before = s) ∧
    (∀ before : List Cause, levelOfZone before z ≠ l → (∀ y, y ≠ z → levelOfZone before y = levelOfZone s.causes y) →
      s.deriveChanged before = s.deriveZone z) ∧
    (∀ before : List Cause, s.deriveChanged before = forAll (fun y (u : State) =>
      if levelOfZone before y = levelOfZone s.causes y then u else u.deriveZone y) s) ∧
    levelOfZone s.causes z = l

/-- The fire inputs (R86 to R88): the phases by edge and expiry. The debounced activation records INPUT and raises the
cause at the input's level unless the input is disabled or has zone 0; the deactivation records INPUT and removes a
record that is not latched. An event that does not apply changes nothing but the raw level: the model's choice (log
entry 11). -/
def Obligations.FireInputsAreDebounced : Prop :=
  ∀ (s : State) (f : InputNo),
    let x := s.input f
    let cfg := s.inputCfg f
    let timer := some (s.uptime + BitVec.ofNat 32 cfg.debounce)
    let edge := fun (active : Bool) (y : FireInput) => exec (.fireInputEdge f active) s = .next (s.setInput f y).settle
    (x.phase = .idle → edge true ⟨true, .rising, timer⟩ ∧ edge false { x with raw := false }) ∧
    (x.phase = .rising → edge false ⟨false, .idle, none⟩ ∧ edge true { x with raw := true }) ∧
    (x.phase = .on → edge false ⟨false, .falling, timer⟩ ∧ edge true { x with raw := true }) ∧
    (x.phase = .falling → edge true ⟨true, .on, none⟩ ∧ edge false { x with raw := false }) ∧
    (s.expired x.timer = false ∨ x.phase = .idle ∨ x.phase = .on →
      exec (.debounceTimerExpired f) s = .next s.settle) ∧
    (s.expired x.timer = true →
      let noted := fun (p : Debounce) => (s.setInput f { x with phase := p, timer := none }).record .input 2
        (BitVec.ofNat 8 (number f)) ⟨p.code, cfg.type.code, 0, 0, 0⟩
      (x.phase = .rising → s.disabled (.fireInput f) = true ∨ cfg.zone = none →
        exec (.debounceTimerExpired f) s = .next (noted .on).settle) ∧
      (x.phase = .rising → s.disabled (.fireInput f) = false → ∀ z, cfg.zone = some z →
        exec (.debounceTimerExpired f) s =
          .next ((noted .on).raiseCause (.fireInput f) z (if cfg.level = .fire then .fire else .alert) none).settle) ∧
      (x.phase = .falling →
        (s.causeOf (.fireInput f) = none → exec (.debounceTimerExpired f) s = .next (noted .idle).settle) ∧
        ∀ r, s.causeOf (.fireInput f) = some r → exec (.debounceTimerExpired f) s =
          .next (if r.latched then noted .idle else (noted .idle).removeCause (.fireInput f)).settle))

/-- RESET-ZONE and READ-CAUSES (R93, R95): RESET-ZONE removes the latched records of the zone's fire inputs that have
settled to IDLE and no others, derives the zone and says how many went and how many stay; READ-CAUSES returns up to six
of the selected records from a first number on and changes nothing. A first of 0 is taken as 1: the model's choice (log
entry 22). -/
def Obligations.ZoneRequestsResetAndRead : Prop :=
  ∀ (s : State) (k : Link) (z : ZoneNo) (a first count : Byte),
    let me := BitVec.ofNat 8 (number z)
    let goes := fun (r : Cause) => decide (r.zone = z ∧ r.latched = true ∧
      ∃ f, r.source = .fireInput f ∧ (s.input f).phase = .idle)
    (s.causesSound → s.link.claim (.request 0x10 [me]) = some k → ∃ u,
      exec (.resetZone [me]) s = .next (u.answered ⟨0x90, [byteOf (s.causes.filter goes).length,
        byteOf ((s.causes.filter fun r => decide (r.zone = z) && !goes r).length)]⟩) ∧
      u.causes = s.causes.filter (fun r => !goes r) ∧ u.zoneSound z ∧ (∀ y, y ≠ z → u.zone y = s.zone y) ∧
      KeptBut [.causes, .zones, .closures, .lines, .sectors, .faults, .disablements, .link, .history, .freeValues] s u) ∧
    (s.link.claim (.request 0x10 [a]) = some k → a.toNat = 0 ∨ 16 < a.toNat →
      exec (.resetZone [a]) s = .next ((s.withLink k).answered ⟨0xFF, [0x10, 4, 0, 0, 0, 0]⟩)) ∧
    (s.link.claim (.request 0x11 [a, first, count]) = some k →
      (16 < a.toNat → exec (.readCauses [a, first, count]) s =
        .next ((s.withLink k).answered ⟨0xFF, [0x11, 4, 0, 0, 0, 0]⟩)) ∧
      (a.toNat ≤ 16 →
        let l := s.causes.filter fun r => decide (a = 0 ∨ number r.zone = a.toNat)
        let some_ := (l.drop (first.toNat - 1)).take (max 1 (min count.toNat 6))
        exec (.readCauses [a, first, count]) s = .next ((s.withLink k).answered ⟨0x91, byteOf l.length ::
          some_.flatMap fun (r : Cause) =>
            [r.source.obj.kindCode, BitVec.ofNat 8 r.source.obj.num, BitVec.ofNat 8 (number r.zone), r.level.code,
              if r.latched then 1 else 0] ++ enc32 r.raised ++ enc32 r.changed ++ [r.silenced.setWidth 8] ++
              match r.hold with
              | none => [0xFF, 0xFF, 0xFF, 0xFF]
              | some e => if reached s.uptime e then [0, 0, 0, 0] else enc32 (e - s.uptime)⟩)))

/-- SET-SHIFT (R98 to R100): a mode other than DAY and WATCH is refused; the present mode is accepted without effect;
DAY to WATCH needs every line OFF or STOPPED, and otherwise names the lowest other. A change is recorded and reported,
the detectors derive their modes, the meters stop with V_f 0 or start. To DAY every candidate is discarded, one record
UNCONFIRMED with reason SHIFT for each channel that held one, after the record of the change. That blindness is judged
after it is the model's reading (log entry 32). SHIFT first, the candidates after the modes, and their number order are
its choices (log entry 13). -/
def Obligations.ShiftChangesAreHandedOn : Prop :=
  ∀ (s : State) (k : Link) (mode : Byte),
    s.link.claim (.request 0x12 [mode]) = some k →
    let u := s.withLink k
    let changed := fun (m : Shift) => (forAll State.deriveMode (({ u with shift := m }).event .notice .shift 0x48 0 0
      ⟨s.shift.code, m.code, 0, 0, 0⟩)).judgeBlind
    let still := ∀ n, (s.line n).state = .off ∨ (s.line n).state = .stopped
    let dropped := fun (h : History) (d : DetNo) => match (s.det d).candidate with
      | none => h
      | some c => h.add s.uptime .unconfirmed 1 (BitVec.ofNat 8 (number d))
          ⟨if c.ember then 2 else 1, byteOf c.weight, 4, 0, 0⟩
    (1 < mode.toNat → exec (.setShift [mode]) s = .next (u.answered ⟨0xFF, [0x12, 4, 0, 0, 0, 0]⟩)) ∧
    (mode = s.shift.code → exec (.setShift [mode]) s = .next (u.answered ⟨0x92, [mode]⟩)) ∧
    (mode = 1 → s.shift = .day →
      (∀ n, ¬((s.line n).state = .off ∨ (s.line n).state = .stopped) →
        (∀ i < n, (s.line i).state = .off ∨ (s.line i).state = .stopped) →
        exec (.setShift [mode]) s = .next (u.answered ⟨0xFF, [0x12, 5, 0, 0, 0, BitVec.ofNat 8 (number n)]⟩)) ∧
      (still → ∃ t, exec (.setShift [mode]) s = .next (t.answered ⟨0x92, [1]⟩) ∧
        KeptBut [.meters] (changed .watch) t ∧
        ∀ n, t.meter n = if (s.meter n).running then
          ⟨false, none, 0, none, none, 0, 0, 0⟩ else s.meter n)) ∧
    (mode = 0 → s.shift = .watch → ∃ t, exec (.setShift [mode]) s = .next (t.answered ⟨0x92, [0]⟩) ∧
      KeptBut [.meters, .detectors, .history] (changed .day) t ∧
      t.history = (List.finRange 24).foldl dropped (changed .day).history ∧
      (∀ n, t.meter n = if (s.meter n).running then s.meter n else
        ⟨true, some s.uptime, 0, none, none, 0, 0, 0⟩) ∧
      ∀ d, t.det d = { (changed .day).det d with candidate := none })

/-- A fault raised or cleared by its owner (R96, R97): the set of that object alone changes, one FAULT record and report
are made, NO-WATER raised on the alarm queue and every other change on the notice queue, and the FAULT output is derived
anew; a fault already held, or one not held, changes nothing. -/
def Obligations.FaultsAreKeptRecordedAndShown : Prop :=
  ∀ (s : State) (o : Obj) (f : FaultCode),
    (∀ x, o ≠ .fireInput x) → (∀ x, o ≠ .zone x) → (∀ x, o ≠ .sector x) →
    let held := (s.faults.get o).getLsbD (f.num - 1)
    let noted := fun (q : Queue) (v : Byte) =>
      s.objEvent q .fault 0x45 o ⟨BitVec.ofNat 8 f.num, v, 0, 0, 0⟩
    let after := fun (t n : State) (set : FaultSet) =>
      t.faults.get o = set ∧ (∀ p, p ≠ o → t.faults.get p = s.faults.get p) ∧
      (t.faultOutput = true ↔ (∃ p, t.faults.get p ≠ 0) ∨ ∃ e ∈ s.dis.entries, e.activated ≠ none) ∧
      t.history = n.history ∧ t.link = n.link ∧ KeptBut [.faults, .history, .link] s t
    (held = true → s.raiseFault o f = s ∧
      after (s.clearFault o f) (noted .notice 0) (s.faults.get o &&& ~~~((1 : FaultSet) <<< (f.num - 1)))) ∧
    (held = false → s.clearFault o f = s ∧
      after (s.raiseFault o f) (noted (if f = .noWater then .alarm else .notice) 1)
        (s.faults.get o ||| ((1 : FaultSet) <<< (f.num - 1))))

/-! ### Fire closures and duct dampers -/

/-- A release (R102, R104 to R109, R113): a closure that is HELD, READY or STUCK opening takes the origin; a passage,
and a damper whose fan is not running, lets go, to SHUT where it is CLOSED and else to RELEASING with its travel timer;
a damper whose fan is running enters WAITING with its wait timer and its line is told to stop, as it is when the damper
leaves HELD while its line runs. In any other state nothing happens. A change of state sets HOLD and the direction,
makes one record and report, keeps STUCK exactly in STUCK, and ends a PENDING entry's wait. The state recorded before
its fault, and the demand on entering WAITING from any state, are the model's readings (log entries 13 and 26). -/
def Obligations.ClosuresAreReleasedByKindAndFan : Prop :=
  ∀ (s : State) (c : ClosureNo) (origin : ReleaseOrigin),
    let x := s.closure c
    let cfg := s.closureCfg c
    let acts := x.state = .held ∨ x.state = .ready ∨ (x.state = .stuck ∧ x.direction = .opening)
    let u := s.setClosure c { x with origin := origin }
    let timed := fun (seconds : Nat) => some (s.uptime + BitVec.ofNat 32 (seconds * 1000))
    let letGo := if x.position = .closed
      then u.moveClosure c .shut .none origin (fun y => { y with travelTimer := none, waitTimer := none })
      else u.moveClosure c .releasing .none origin
        (fun y => { y with travelTimer := timed cfg.travelTime, waitTimer := none })
    let fan := fun (n : LineNo) => ((s.line n).state = .starting ∨ (s.line n).state = .run ∨ (s.line n).state = .abort ∨
      (s.line n).state = .stopping) ∧ (s.line n).fstop = false
    (¬acts → s.releaseClosure c origin = s) ∧
    (acts → cfg.kind = .passage → s.releaseClosure c origin = letGo) ∧
    (acts → cfg.kind = .damper → cfg.line = none → s.releaseClosure c origin = letGo) ∧
    (acts → cfg.kind = .damper → ∀ n, cfg.line = some n →
      (fan n → s.releaseClosure c origin = (u.moveClosure c .waiting .none origin
        (fun y => { y with travelTimer := none, waitTimer := timed cfg.waitMax })).protectLine n .damper) ∧
      (¬fan n → x.state ≠ .held ∨ ((s.line n).state ≠ .starting ∧ (s.line n).state ≠ .run ∧ (s.line n).state ≠ .abort) →
        s.releaseClosure c origin = letGo) ∧
      (¬fan n → x.state = .held → ((s.line n).state = .starting ∨ (s.line n).state = .run ∨ (s.line n).state = .abort) →
        s.releaseClosure c origin = letGo.protectLine n .damper)) ∧
    (∀ (st : ClosureState) (dir : Direction) (timers : Closure → Closure),
      (x.state = st → s.moveClosure c st dir origin timers = s) ∧
      (x.state ≠ st →
        let v := (s.setClosure c { timers x with
          state := st, direction := dir, entered := s.uptime
          hold := decide (st = .held ∨ st = .ready ∨ st = .waiting ∨ (st = .stuck ∧ dir = .opening)) }).objEvent
            (if st = .stuck then .alarm else .notice) .closure 0x46 (.closure c)
            ⟨cfg.kind.code, x.state.code, st.code, dir.code, origin.code⟩
        let w := if st = .stuck then v.raiseFault (.closure c) .stuck
          else if x.state = .stuck then v.clearFault (.closure c) .stuck else v
        s.moveClosure c st dir origin timers =
          if (x.state = .waiting ∨ x.state = .releasing) ∧ st ≠ .waiting ∧ st ≠ .releasing
          then w.endActivity (.closure c) else w))

/-- The limit inputs and timers of a closure (R103, R109 to R114): the position is CLOSED while CSHUT is active, else
OPEN while COPEN is, else MID; a change of input that leaves the position does nothing more; CLOSED and OPEN becoming
active, the travel timer and the wait timer act by state as the tables say; a wait that ends in a CLOSED damper makes
two changes, to RELEASING and to SHUT (R104). A timer's command before its instant changes nothing: the model's choice
(log entry 11). The order of the records is too (log entry 13). -/
def Obligations.ClosureInputsAndTimersAct : Prop :=
  ∀ (s : State) (c : ClosureNo) (limit : Limit) (active : Bool),
    let x := s.closure c
    let cfg := s.closureCfg c
    let y := match limit with
      | .openLimit => { x with copen := active }
      | .shutLimit => { x with cshut := active }
    let pos := fun (z : Closure) =>
      if z.cshut = true then Position.closed else if z.copen = true then .opened else .mid
    let u := s.setClosure c y
    let goes := fun (t : State) => exec (.closureLimitChange c limit active) s = .next t.settle
    let to_ := fun (v : State) (st : ClosureState) =>
      v.moveClosure c st .none .none (fun z => { z with travelTimer := none, waitTimer := none })
    let runs := fun (n : LineNo) =>
      (s.line n).state = .starting ∨ (s.line n).state = .run ∨ (s.line n).state = .abort
    let o := Obj.closure c
    (pos y = pos x ∨ pos y = .mid → goes u) ∧
    (pos y ≠ pos x → pos y = .closed →
      (x.state = .held → cfg.kind = .passage → goes (to_ u .ready)) ∧
      (x.state = .held → cfg.kind = .damper →
        (∀ n, cfg.line = some n → runs n → goes ((to_ u .shut).protectLine n .damper)) ∧
        ((∀ n, cfg.line = some n → ¬runs n) → goes (to_ u .shut))) ∧
      (x.state = .waiting ∨ x.state = .releasing ∨ (x.state = .stuck ∧ x.direction = .closing) → goes (to_ u .shut)) ∧
      (x.state = .shut → goes (u.clearFault o .openedWhileShut)) ∧
      (x.state = .ready ∨ (x.state = .stuck ∧ x.direction ≠ .closing) → goes u)) ∧
    (pos y ≠ pos x → pos y = .opened →
      (x.state = .ready ∨ (x.state = .stuck ∧ x.direction = .opening) → goes (to_ u .held)) ∧
      (x.state = .shut → goes (u.raiseFault o .openedWhileShut)) ∧
      (x.state = .held ∨ x.state = .waiting ∨ x.state = .releasing ∨ (x.state = .stuck ∧ x.direction ≠ .opening) →
        goes u)) ∧
    exec (.travelTimerExpired c) s = .next (if s.expired x.travelTimer = true ∧ x.state = .releasing
      then s.moveClosure c .stuck .closing .none (fun z => { z with travelTimer := none })
      else if s.expired x.travelTimer = true ∧ x.state = .ready
      then s.moveClosure c .stuck .opening .none (fun z => { z with travelTimer := none }) else s).settle ∧
    (x.state ≠ .waiting ∨ s.expired x.waitTimer = false → exec (.waitTimerExpired c) s = .next s.settle) ∧
    (x.state = .waiting → s.expired x.waitTimer = true →
      let v := s.raiseFault o .damperForced
      let gone := v.moveClosure c .releasing .none .none (fun z => { z with
        travelTimer := some (s.uptime + BitVec.ofNat 32 (cfg.travelTime * 1000)), waitTimer := none })
      exec (.waitTimerExpired c) s = .next (if pos x = .closed then to_ gone .shut else gone).settle)

/-- RELEASE-CLOSURE and RESET-CLOSURE (R113, R115, R116): a closure with a disablement entry is not released, any other
is, and the reply gives its state; a SHUT or STUCK closure none of whose zones stands at its trigger level has its
three faults cleared and is held again, going on to HELD where it stands OPEN, and the reply gives state and faults
cleared. A number that names no closure is refused BAD-OBJECT. The detail 0 of the refusals without one and the order of
the faults cleared are the model's readings (log entries 15 and 13). -/
def Obligations.ClosureRequestsReleaseAndReset : Prop :=
  ∀ (s : State) (k : Link) (c : ClosureNo) (bad : Byte),
    let me := BitVec.ofNat 8 (number c)
    let x := s.closure c
    let cfg := s.closureCfg c
    let u := s.withLink k
    let o := Obj.closure c
    let at_ := fun (z : ZoneNo) => zoneIn cfg.zones z = true ∧
      (if cfg.trigger = .fire then 3 else 2) ≤ (s.zone z).level.rank
    (bad.toNat = 0 ∨ 16 < bad.toNat →
      (s.link.claim (.request 0x14 [bad]) = some k →
        exec (.releaseClosure [bad]) s = .next (u.answered ⟨0xFF, [0x14, 4, 0, 0, 0, 0]⟩)) ∧
      (s.link.claim (.request 0x15 [bad]) = some k →
        exec (.resetClosure [bad]) s = .next (u.answered ⟨0xFF, [0x15, 4, 0, 0, 0, 0]⟩))) ∧
    (s.link.claim (.request 0x14 [me]) = some k →
      (s.hasEntry (.closure c) = true →
        exec (.releaseClosure [me]) s = .next (u.answered ⟨0xFF, [0x14, 17, 0, 0, 0, 0]⟩)) ∧
      (s.hasEntry (.closure c) = false →
        let t := u.releaseClosure c .request
        exec (.releaseClosure [me]) s =
          .next (t.answered ⟨0x94, [(t.closure c).state.code, (t.closure c).direction.code]⟩))) ∧
    (s.link.claim (.request 0x15 [me]) = some k →
      (x.state ≠ .shut → x.state ≠ .stuck →
        exec (.resetClosure [me]) s = .next (u.answered ⟨0xFF, [0x15, 5, 0, 0, 0, x.state.code]⟩)) ∧
      (x.state = .shut ∨ x.state = .stuck →
        (∀ z, at_ z → (∀ y < z, ¬at_ y) →
          exec (.resetClosure [me]) s = .next (u.answered ⟨0xFF, [0x15, 6, 0, 0, 0, BitVec.ofNat 8 (number z)]⟩)) ∧
        ((∀ z, ¬at_ z) →
          let v := ((u.clearFault o .stuck).clearFault o .openedWhileShut).clearFault o .damperForced
          let opened := x.cshut = false ∧ x.copen = true
          let r := (v.setClosure c { v.closure c with travelTimer := none }).moveClosure c .ready .none .none
            (fun y => { y with
              travelTimer := if cfg.kind = .damper ∧ ¬opened
                then some (s.uptime + BitVec.ofNat 32 (cfg.travelTime * 1000)) else none
              waitTimer := none })
          let t := if opened then r.moveClosure c .held .none .none
            (fun y => { y with travelTimer := none, waitTimer := none }) else r
          let cleared := s.faults.get o &&& 0x0E00
          exec (.resetClosure [me]) s = .next (t.answered ⟨0x95, [(t.closure c).state.code,
            cleared.extractLsb' 8 8, cleared.extractLsb' 0 8]⟩))))

/-! ### Yard sirens -/

/-- A sector follows the causes (R123, R124, R127 to R129, R133): its demand is the highest level among the causes at
ALERT or FIRE of its zones that are not silenced in it; a rise is taken at once, also out of TEST; a fall to ALERT
waits for the cycle's end, or is taken at once with no cycle; a fall to none ends in SILENCED or QUIET; a change of
state or of playing level is recorded and reported. Level none and pattern 0 in the record of a stop are the model's
reading (log entry 21). -/
def Obligations.SectorsFollowTheCauses : Prop :=
  ∀ (s : State) (n : SectorNo) (d : Demand),
    let x := s.sector n
    let cfg := s.sectorCfg n
    let stands := fun (r : Cause) => zoneIn cfg.zones r.zone = true ∧ (r.level = .alert ∨ r.level = .fire)
    let counts := fun (r : Cause) => stands r ∧ r.silenced.getLsbD n.val = false
    d = (if ∃ r ∈ s.causes, counts r ∧ r.level = .fire then .fire
      else if ∃ r ∈ s.causes, counts r then .alert else .none) →
    let rest : SectorState := if ∃ r ∈ s.causes, stands r then .silenced else .quiet
    let noted := fun (before : Sector) (u : State) =>
      if before.state = (u.sector n).state ∧ before.playing = (u.sector n).playing then u
      else u.objEvent .notice .sector 0x47 (.sector n) ⟨before.state.code, (u.sector n).state.code,
        (u.sector n).demand.code, (u.sector n).playing.code, byteOf (numberOrZero (u.sector n).pattern)⟩
    let pattern := if d = .fire then cfg.firePattern else cfg.alertPattern
    let rise := noted x ((s.setSector n { x with
      state := .sounding, demand := d, playing := d, pendingLevel := .none, pattern := pattern
      soundingSince := if x.state = .sounding then x.soundingSince else some s.uptime
      testEnd := none }).startCycle n)
    let t := s.deriveSector n
    (x.state ≠ .sounding → d ≠ .none → t = rise) ∧
    (x.state = .test → d = .none → t = s.setSector n { x with demand := .none }) ∧
    (x.state = .quiet ∨ x.state = .silenced → d = .none →
      t = noted x (s.setSector n { x with state := rest, demand := .none })) ∧
    (x.state = .sounding →
      (d = .none → t = noted x (s.setSector n { x with
        state := rest, demand := .none, playing := .none, pendingLevel := .none, pattern := none, cycle := none,
        soundingSince := none, testEnd := none, siren := false })) ∧
      (d ≠ .none →
        (x.playing = .none ∨ (x.playing = .alert ∧ d = .fire) → t = rise) ∧
        (x.playing = d → t = s.setSector n { x with demand := d, pendingLevel := .none }) ∧
        (x.playing = .fire → d = .alert →
          (x.cycle ≠ none → t = s.setSector n { x with demand := d, pendingLevel := d }) ∧
          (x.cycle = none → t = noted { x with demand := d } ((s.setSector n { x with
            demand := d, playing := d, pendingLevel := .none, pattern := cfg.alertPattern }).startCycle n)))))

/-- How a sector plays (R125, R126, R129, R135): a cycle takes the pattern's steps as they stand, ON and OFF in order
with phases of length 0 passed over, and no cycle from an empty pattern; the output is on in an ON phase of SOUNDING or
TEST without an ACTIVE entry; at a phase's end the next begins, and at the cycle's end the pending level, else the
playing one, takes its pattern anew, or in TEST the test pattern goes on. A PHASE_END before its instant changes
nothing: the model's choice (log entry 11). -/
def Obligations.CyclesRunThroughTheirPhases : Prop :=
  ∀ (s : State) (n : SectorNo),
    let x := s.sector n
    let cfg := s.sectorCfg n
    let sounds := fun (p : Phase) =>
      decide (x.state = .sounding ∨ x.state = .test) && p.on && !s.disabled (.sector n)
    let started := fun (l : List Phase) => s.setSector n (match l with
      | [] => { x with cycle := none, siren := false }
      | p :: rest => { x with
        cycle := some ⟨p, rest, s.uptime, s.uptime + BitVec.ofNat 32 ((l.map (·.ms)).sum),
          s.uptime + BitVec.ofNat 32 p.ms⟩
        siren := sounds p })
    let again := fun (level : Demand) =>
      let pattern := match level with
        | .none => none
        | .alert => cfg.alertPattern
        | .fire => cfg.firePattern
      let u := (s.setSector n { x with playing := level, pendingLevel := .none, pattern := pattern }).startCycle n
      if x.playing = level then u else u.objEvent .notice .sector 0x47 (.sector n)
        ⟨x.state.code, x.state.code, x.demand.code, level.code, byteOf (numberOrZero pattern)⟩
    (x.pattern = none → s.startCycle n = started []) ∧
    (∀ p, x.pattern = some p → s.startCycle n = started
      ((((List.finRange 4).take (s.patternCfg p).stepCount).flatMap fun i =>
        [(⟨i.val + 1, true, ((s.patternCfg p).onTimes[i.val]) * 10⟩ : Phase),
          ⟨i.val + 1, false, ((s.patternCfg p).offTimes[i.val]) * 10⟩]).filter fun q => decide (q.ms ≠ 0))) ∧
    (x.cycle = none → exec (.phaseEnd n) s = .next s.settle) ∧
    (∀ c, x.cycle = some c →
      (reached s.uptime c.phaseStop = false → exec (.phaseEnd n) s = .next s.settle) ∧
      (reached s.uptime c.phaseStop = true →
        (∀ p rest, c.rest = p :: rest → exec (.phaseEnd n) s = .next (s.setSector n { x with
          cycle := some ⟨p, rest, c.start, c.stop, s.uptime + BitVec.ofNat 32 p.ms⟩, siren := sounds p }).settle) ∧
        (c.rest = [] →
          (x.state ≠ .sounding → exec (.phaseEnd n) s = .next (s.startCycle n).settle) ∧
          (x.state = .sounding → exec (.phaseEnd n) s =
            .next (again (if x.pendingLevel = .none then x.playing else x.pendingLevel)).settle))))

/-- SILENCE-SECTOR, TEST-SECTOR and the end of a test (R130, R132, R133): a SOUNDING sector is silenced once
silence_inhibit has passed since it began, marking the causes that count for it, and a QUIET sector without a
disablement entry is tested for 1 to 60 s; other requests are refused with the state, the ms still to wait, or
DISABLED, and a number that names no sector or no pattern is refused BAD-OBJECT. At the test's end the sector is QUIET or
SILENCED by the causes. One SECTOR record for all marks, pattern 0 after a stop, and the detail 0 of the refusals without
one, are the model's readings (log entries 31, 21 and 15). -/
def Obligations.SectorsAreSilencedAndTested : Prop :=
  ∀ (s : State) (k : Link) (n : SectorNo) (p : PatternNo) (seconds sector pattern : Byte),
    let me := BitVec.ofNat 8 (number n)
    let x := s.sector n
    let u := s.withLink k
    let quiet := fun (v : State) (st : SectorState) => (v.setSector n { x with
      state := st, demand := .none, playing := .none, pendingLevel := .none, pattern := none, cycle := none,
      soundingSince := none, testEnd := none, siren := false }).objEvent .notice .sector 0x47 (.sector n)
        ⟨x.state.code, st.code, 0xFF, 0xFF, 0⟩
    (sector.toNat = 0 ∨ 6 < sector.toNat → s.link.claim (.request 0x18 [sector]) = some k →
      exec (.silenceSector [sector]) s = .next (u.answered ⟨0xFF, [0x18, 4, 0, 0, 0, 0]⟩)) ∧
    (sector.toNat = 0 ∨ 6 < sector.toNat ∨ pattern.toNat = 0 ∨ 8 < pattern.toNat →
      s.link.claim (.request 0x19 [sector, pattern, seconds]) = some k →
      exec (.testSector [sector, pattern, seconds]) s = .next (u.answered ⟨0xFF, [0x19, 4, 0, 0, 0, 0]⟩)) ∧
    (s.link.claim (.request 0x18 [me]) = some k →
      (x.state ≠ .sounding → exec (.silenceSector [me]) s =
        .next (u.answered ⟨0xFF, [0x18, 5, 0, 0, 0, x.state.code]⟩)) ∧
      (x.state = .sounding → ∀ since, x.soundingSince = some since →
        let elapsed := (s.uptime - since).toNat
        let inhibit := (s.sectorCfg n).silenceInhibit * 1000
        (elapsed < inhibit → exec (.silenceSector [me]) s = .next (u.answered
          ⟨0xFF, [0x18, 16] ++ enc32 (BitVec.ofNat 32 (inhibit - elapsed))⟩)) ∧
        (inhibit ≤ elapsed → exec (.silenceSector [me]) s = .next ((quiet { u with
          causes := s.causes.map fun r =>
            if s.countsFor n r then { r with silenced := r.silenced ||| (1 : SectorSet) <<< n.val } else r }
            .silenced).answered ⟨0x98, [byteOf (s.causes.filter (s.countsFor n)).length]⟩)))) ∧
    (s.link.claim (.request 0x19 [me, BitVec.ofNat 8 (number p), seconds]) = some k →
      let asked := exec (.testSector [me, BitVec.ofNat 8 (number p), seconds]) s
      (s.hasEntry (.sector n) = true → asked = .next (u.answered ⟨0xFF, [0x19, 17, 0, 0, 0, 0]⟩)) ∧
      (s.hasEntry (.sector n) = false →
        (x.state ≠ .quiet → asked = .next (u.answered ⟨0xFF, [0x19, 5, 0, 0, 0, x.state.code]⟩)) ∧
        (x.state = .quiet →
          let ms := max 1 (min seconds.toNat 60) * 1000
          let v := (u.setSector n { x with
            state := .test, testEnd := some (s.uptime + BitVec.ofNat 32 ms), pattern := some p
            playing := .none }).startCycle n
          asked = .next ((v.objEvent .notice .sector 0x47 (.sector n)
            ⟨0, 3, x.demand.code, 0xFF, BitVec.ofNat 8 (number p)⟩).answered ⟨0x99, enc32 (BitVec.ofNat 32 ms)⟩)))) ∧
    (x.state ≠ .test ∨ s.expired x.testEnd = false → exec (.testEnd n) s = .next s.settle) ∧
    (x.state = .test → s.expired x.testEnd = true → exec (.testEnd n) s = .next
      (quiet s (if ∃ r ∈ s.causes, s.standsFor n r = true then .silenced else .quiet)).settle)

/-! ### Disablements -/

/-- DISABLE-PREPARE and DISABLE-CONFIRM (R141, R143, R144): the checks in their order, each with its reason and detail;
a break in the sequence discards the prepare and sets the latch; an accepted prepare holds target, limit and an expiry
10 s on; an accepted confirmation creates the entry, PENDING while the target's owner has work in hand and otherwise
ACTIVE with its effects at once. The record of a sequence error shows the state and limit of the target's entry, fields
no rule names are 0, and an entry ACTIVE at once makes one record, before those of the target: the model's readings (log
entries 20 and 13). -/
def Obligations.DisablingTakesPrepareThenConfirm : Prop :=
  ∀ (s : State) (k : Link) (t : Target) (kind num hi lo : Byte),
    let u := s.withLink k
    let tk := (targetObj t).kindCode
    let tn := BitVec.ofNat 8 (targetObj t).num
    let refused := fun (v : State) (req reason detail : Byte) =>
      Host.Outcome.next (σ := State) (φ := Fault) (ρ := Refusal) (v.answered ⟨0xFF, [req, reason, 0, 0, 0, detail]⟩)
    let noted := fun (v : State) (d : Detail) => v.objEvent .notice .disablement 0x49 (targetObj t) d
    let broken := fun (detail : Byte) => noted { u with dis := { s.dis with prepare := none, latch := true } }
      (match s.entryOf t with
        | none => ⟨6, 0, 0, 0, detail + if s.dis.prepare.isSome then 128 else 0⟩
        | some e => ⟨6, if e.activated = none then 1 else if e.limit = 0 then 2 else 3, highByte e.limit,
            lowByte e.limit, detail + if s.dis.prepare.isSome then 128 else 0⟩)
    ((∀ o : Target, ¬((targetObj o).kindCode = kind ∧ (targetObj o).num = num.toNat)) →
      (s.link.claim (.request 0x1C [kind, num, hi, lo]) = some k →
        exec (.disablePrepare [kind, num, hi, lo]) s = refused u 0x1C 4 0) ∧
      (s.link.claim (.request 0x1D [kind, num]) = some k → exec (.disableConfirm [kind, num]) s = refused u 0x1D 4 0)) ∧
    (s.link.claim (.request 0x1C [tk, tn, hi, lo]) = some k →
      let asked := exec (.disablePrepare [tk, tn, hi, lo]) s
      let m := min (hi.toNat * 256 + lo.toNat) 1440
      (s.service = false → asked = refused u 0x1C 12 0) ∧
      (s.service = true → s.dis.latch = true → asked = refused u 0x1C 13 1) ∧
      (s.service = true → s.dis.latch = false →
        (s.dis.prepare ≠ none → asked = refused (broken 2) 0x1C 13 2) ∧
        (s.dis.prepare = none →
          (∀ e, s.entryOf t = some e → asked = refused u 0x1C 14
            (if e.activated = none then 1 else if e.limit = 0 then 2 else 3)) ∧
          (s.entryOf t = none → 32 ≤ s.dis.entries.length → asked = refused u 0x1C 15 0) ∧
          (s.entryOf t = none → s.dis.entries.length < 32 → asked = .next
            ((noted { u with dis := { s.dis with prepare := some ⟨t, m, s.uptime, s.uptime + 10000⟩ } }
              ⟨1, 0, BitVec.ofNat 8 (m / 256), BitVec.ofNat 8 m, 0⟩).answered
              ⟨0x9C, [BitVec.ofNat 8 (m / 256), BitVec.ofNat 8 m, 0, 0, 0x27, 0x10]⟩))))) ∧
    (s.link.claim (.request 0x1D [tk, tn]) = some k →
      let asked := exec (.disableConfirm [tk, tn]) s
      (s.service = false → asked = refused u 0x1D 12 0) ∧
      (s.service = true → s.dis.latch = true → asked = refused u 0x1D 13 1) ∧
      (s.service = true → s.dis.latch = false →
        (s.dis.prepare = none → asked = refused (broken 3) 0x1D 13 3) ∧
        (∀ p, s.dis.prepare = some p → p.target ≠ t → asked = refused (broken 4) 0x1D 13 4) ∧
        (∀ p, s.dis.prepare = some p → p.target = t →
          let working := match t with
            | .station n => (s.station n).windows ≠ []
            | .closure c => (s.closure c).state = .waiting ∨ (s.closure c).state = .releasing
            | _ => False
          let created := fun (e : Entry) (code : Byte) =>
            noted { u with dis := { s.dis with prepare := none, entries := s.dis.entries ++ [e] } }
              ⟨3, code, highByte p.limit, lowByte p.limit, 0⟩
          (working → asked = .next ((created ⟨t, s.uptime, p.limit, none, none⟩ 1).answered ⟨0x9D, [1, 0, 0, 0, 0]⟩)) ∧
          (¬working →
            let v := (created ⟨t, s.uptime, p.limit, some s.uptime, if p.limit = 0 then none
              else some (s.uptime + BitVec.ofNat 32 (p.limit * 60000))⟩ (if p.limit = 0 then 2 else 3)).deriveFault
            let w := match t with
              | .detector d => ((v.dropCandidate d 3).removeCause (.detector d)).judgeBlind
              | .fireInput f => (match s.causeOf (.fireInput f) with
                | none => v
                | some r => if r.latched then v else v.removeCause (.fireInput f))
              | .sector n => v.refreshSiren n
              | _ => v
            asked = .next (w.answered
              ⟨0x9D, (if p.limit = 0 then 2 else 3) :: enc32 (BitVec.ofNat 32 (p.limit * 60000))⟩)))))

/-- The rest of the disablement table (R140, R142, R145 to R148, R150): ENABLE and the expiry of a limit remove an
entry, with the effects at its target where it was ACTIVE; a PENDING entry becomes ACTIVE when its owner falls idle;
SERVICE becoming inactive and the prepare's expiry discard the prepare; the latch is cleared with SERVICE active; the
list shows the table and changes nothing. A closure whose entry ends, or whose zones or trigger level are written, tests
its zones: it is released by the lowest-numbered zone at its trigger level, unless it is disabled (R117, R119). A first of
0 is taken as 1, an expiry before its instant changes nothing, the record of the table stands before or after the target's
own, a fire input debounced anew makes no INPUT record, and the limit of an absent prepare is sent as 0: the model's
choices (log entries 22, 11, 13, 41 and 43). An ENABLE that names no target is refused BAD-OBJECT, with detail 0 (log
entry 15). -/
def Obligations.EntriesEndAndTheTableIsShown : Prop :=
  ∀ (s : State) (k : Link) (t : Target) (first count kind num : Byte),
    let u := s.withLink k
    let tk := (targetObj t).kindCode
    let tn := BitVec.ofNat 8 (targetObj t).num
    let code := fun (e : Entry) => if e.activated = none then (1 : Byte) else if e.limit = 0 then 2 else 3
    let noted := fun (v : State) (o : Target) (d : Detail) => v.objEvent .notice .disablement 0x49 (targetObj o) d
    let removed := fun (v : State) (e : Entry) (reason : Byte) =>
      let w := noted { v with dis := { s.dis with entries := s.dis.entries.filter fun (x : Entry) => x.target ≠ t } } t
        ⟨5, code e, highByte e.limit, lowByte e.limit, reason⟩
      if e.activated = none then w else match t with
        | .detector _ => w.deriveFault.judgeBlind
        | .fireInput f =>
          if (s.input f).raw then w.deriveFault.setInput f
            ⟨true, .rising, some (s.uptime + BitVec.ofNat 32 (s.inputCfg f).debounce)⟩
          else w.deriveFault.setInput f ⟨false, .idle, none⟩
        | .sector n => w.deriveFault.refreshSiren n
        | .closure c => w.deriveFault.testZones c
        | .station _ => w.deriveFault
    let dropped := fun (p : Prepare) (reason : Byte) (v : State) =>
      noted { v with dis := { s.dis with prepare := none } } p.target ⟨2, 0, highByte p.limit, lowByte p.limit, reason⟩
    ((∀ o : Target, ¬((targetObj o).kindCode = kind ∧ (targetObj o).num = num.toNat)) →
      s.link.claim (.request 0x1E [kind, num]) = some k →
      exec (.enable [kind, num]) s = .next (u.answered ⟨0xFF, [0x1E, 4, 0, 0, 0, 0]⟩)) ∧
    (s.link.claim (.request 0x1E [tk, tn]) = some k →
      (s.entryOf t = none → exec (.enable [tk, tn]) s = .next (u.answered ⟨0x9E, [0]⟩)) ∧
      ∀ e, s.entryOf t = some e → exec (.enable [tk, tn]) s = .next ((removed u e 3).answered ⟨0x9E, [code e]⟩)) ∧
    (s.entryOf t = none → exec (.entryExpired t) s = .next s.settle ∧ s.endActivity t = s) ∧
    (∀ c, let cfg := s.closureCfg c
      let near := fun (z : ZoneNo) => zoneIn cfg.zones z = true ∧
        (if cfg.trigger = .fire then 3 else 2) ≤ (s.zone z).level.rank
      ((∀ z, ¬near z) → s.testZones c = s) ∧
      ∀ z, near z → (∀ y < z, ¬near y) →
        s.testZones c = if s.disabled (.closure c) then s else s.releaseClosure c (.zone z)) ∧
    (∀ e, s.entryOf t = some e →
      exec (.entryExpired t) s = .next (if e.activated ≠ none ∧ s.expired e.expiry = true
        then removed s e 1 else s).settle ∧
      (e.activated ≠ none → s.endActivity t = s) ∧
      (e.activated = none →
        let a := { e with
          activated := some s.uptime
          expiry := if e.limit = 0 then none else some (s.uptime + BitVec.ofNat 32 (e.limit * 60000)) }
        s.endActivity t = (noted { s with dis := { s.dis with
            entries := s.dis.entries.map fun (x : Entry) => if x.target = t then a else x } } t
          ⟨4, code a, highByte e.limit, lowByte e.limit, 0⟩).deriveFault)) ∧
    exec (.serviceChange true) s = .next ({ s with service := true }).settle ∧
    (s.dis.prepare = none → exec (.serviceChange false) s = .next ({ s with service := false }).settle ∧
      exec .prepareExpired s = .next s.settle) ∧
    (∀ p, s.dis.prepare = some p →
      exec (.serviceChange false) s = .next (dropped p 2 { s with service := false }).settle ∧
      exec .prepareExpired s = .next (if reached s.uptime p.expiry = true then dropped p 1 s else s).settle) ∧
    (s.link.claim (.request 0x1F []) = some k →
      (s.service = false → exec (.clearDisableError []) s = .next (u.answered ⟨0xFF, [0x1F, 12, 0, 0, 0, 0]⟩)) ∧
      (s.service = true → s.dis.latch = false → exec (.clearDisableError []) s = .next (u.answered ⟨0x9F, [0]⟩)) ∧
      (s.service = true → s.dis.latch = true → exec (.clearDisableError []) s =
        .next ((({ u with dis := { s.dis with latch := false } }).event .notice .disablement 0x49 0 0
          ⟨7, 0, 0, 0, 0⟩).answered ⟨0x9F, [1]⟩))) ∧
    (s.link.claim (.request 0x20 [first, count]) = some k →
      let some_ := (s.dis.entries.drop (first.toNat - 1)).take (max 1 (min count.toNat 6))
      let left := fun (e : Option Instant) => match e with
        | none => [0xFF, 0xFF, 0xFF, 0xFF]
        | some e => if reached s.uptime e then [0, 0, 0, 0] else enc32 (e - s.uptime)
      exec (.listDisablements [first, count]) s = .next (u.answered ⟨0xA0,
        [byteOf s.dis.entries.length, byteOf (s.dis.entries.filter fun e => decide (e.activated ≠ none)).length,
          if s.dis.latch then 1 else 0] ++
        (match s.dis.prepare with
          | none => [0, 0, 0, 0, 0xFF, 0xFF, 0xFF, 0xFF]
          | some p => [(targetObj p.target).kindCode, BitVec.ofNat 8 (targetObj p.target).num] ++ enc16 p.limit ++
            left (some p.expiry)) ++
        [byteOf some_.length] ++ some_.flatMap fun (e : Entry) =>
          [(targetObj e.target).kindCode, BitVec.ofNat 8 (targetObj e.target).num, code e] ++
            enc32 (s.uptime - e.created) ++ enc16 e.limit ++
            (match e.activated with
              | none => [0xFF, 0xFF, 0xFF, 0xFF]
              | some a => enc32 (s.uptime - a)) ++ left e.expiry⟩))

/-! ### The settings store -/

/-- WRITE-SETTING and READ-SETTING (R171, R172): section, index and field are checked in that order; a write is refused
BUSY with the sections still to be written, LOCKED without SERVICE, and STATE by the owner; an accepted one stores the
value brought into its range, leaves every other setting, marks the section modified, writes one SETTING record, hands
the value to its owner, and answers what it stored and whether that differs from what was asked. Which writes an owner
refuses (R18, R76, R90, R118), and what it does at once with a value handed to it (R9, R10, R17, R64, R119, R135, R136),
setting by setting. The detail 0 of an owner's refusal, the clamped flag of a zone set, the SETTING record before the
owner's own, and blindness judged after a change of mode, are the model's readings (log entries 15, 23, 13 and 32). An
owner's check is made on the value in its range (log entry 45). -/
def Obligations.SettingsAreWrittenAndRead : Prop :=
  (∀ sec index field : Nat,
    let counts := [24, 8, 16, 16, 6, 8]
    let fields := [9, 16, 4, 6, 4, 9, 2]
    let indexed := if sec = 7 then index = 0 else 1 ≤ index ∧ index ≤ counts.getD (sec - 1) 0
    (sec = 0 ∨ 7 < sec → settingOf sec index field = .error 1) ∧
    (1 ≤ sec → sec ≤ 7 →
      (¬indexed → settingOf sec index field = .error 2) ∧
      (indexed → (field = 0 ∨ fields.getD (sec - 1) 0 < field → settingOf sec index field = .error 3) ∧
        (1 ≤ field → field ≤ fields.getD (sec - 1) 0 →
          ∃ kk name, settingOf sec index field = .ok (kk, name) ∧ kk.num = sec ∧
            settingAt kk index field = some name)))) ∧
  ∀ (s : State) (k : Link) (sec index field : Byte) (v : BitVec 32),
    let u := s.withLink k
    let at_ := settingOf sec.toNat index.toNat field.toNat
    let asked := exec (.writeSetting ([sec, index, field] ++ enc32 v)) s
    (∀ e, at_ = .error e →
      (s.link.claim (.request 0x26 ([sec, index, field] ++ enc32 v)) = some k →
        asked = .next (u.answered ⟨0xFF, [0x26, 4, 0, 0, 0, BitVec.ofNat 8 e]⟩)) ∧
      (s.link.claim (.request 0x25 [sec, index, field]) = some k → exec (.readSetting [sec, index, field]) s =
        .next (u.answered ⟨0xFF, [0x25, 4, 0, 0, 0, BitVec.ofNat 8 e]⟩))) ∧
    (∀ kk name, at_ = .ok (kk, name) →
      let flags := s.flagsOf kk
      let old := s.store.live
      (s.link.claim (.request 0x25 [sec, index, field]) = some k → exec (.readSetting [sec, index, field]) s =
        .next (u.answered ⟨0xA5, enc32 (BitVec.ofNat 32 (old.value name)) ++
          [if flags.lock then 1 else 0, if flags.modified then 1 else 0]⟩)) ∧
      (s.link.claim (.request 0x26 ([sec, index, field] ++ enc32 v)) = some k →
        (∀ w, s.store.write = some w → asked = .next (u.answered
          ⟨0xFF, [0x26, 11] ++ enc32 (BitVec.ofNat 32 (w.rest.length + 1))⟩)) ∧
        (s.store.write = none →
          (flags.lock = true → s.service = false → asked = .next (u.answered ⟨0xFF, [0x26, 10, 0, 0, 0, 0]⟩)) ∧
          (flags.lock = false ∨ s.service = true →
            ∃ new : Settings, new = old.write name v.toNat ∧
              (∀ other, other ≠ name → new.value other = old.value other) ∧
              (name.isZoneSet = true → new.value name = v.toNat % 65536) ∧
              (name.isZoneSet = false → (∀ d, name ≠ .detector d 4 ∧ name ≠ .detector d 5) →
                new.value name = max name.range.1 (min v.toNat name.range.2)) ∧
              (∀ d, name = .detector d 4 → 1 ≤ (s.detCfg d).wMax →
                new.value name = max 1 (min v.toNat (min 50 (s.detCfg d).wMax))) ∧
              (∀ d, name = .detector d 5 → (s.detCfg d).wMin ≤ 2000 →
                new.value name = max (s.detCfg d).wMin (min v.toNat 2000)) ∧
              (s.refuses name new = true → asked = .next (u.answered ⟨0xFF, [0x26, 5, 0, 0, 0, 0]⟩)) ∧
              (s.refuses name new = false →
                let stored := new.value name
                let t := (({ u with store := { s.store with live := new } }).setFlags kk
                  { flags with modified := true }).record .setting sec index
                    ⟨field, highByte (old.value name), lowByte (old.value name), highByte stored, lowByte stored⟩
                asked = .next ((t.handSetting name).answered ⟨0xA6, enc32 (BitVec.ofNat 32 stored) ++
                  [if name.isZoneSet = false ∧ stored ≠ v.toNat then 1 else 0]⟩)))))) ∧
    (let rests := fun (l : Option LineNo) => ∀ n, l = some n → (s.line n).state = .off ∨ (s.line n).state = .stopped
     ∀ new : Settings,
      (∀ d f, s.refuses (.detector d f) new = true ↔
        (f = 1 ∧ ¬(rests (s.detCfg d).line ∧ rests (new.detectors[d.val]).line)) ∨
        (f = 2 ∧ s.causeOf (.detector d) ≠ none) ∨ (f = 3 ∧ ¬rests (s.detCfg d).line)) ∧
      (∀ n f, s.refuses (.line n f) new = true ↔ ¬rests (some n) ∨ (f = 1 ∧ s.causeOf (.line n) ≠ none)) ∧
      (∀ i f, s.refuses (.input i f) new = true ↔ f = 1 ∧ s.causeOf (.fireInput i) ≠ none) ∧
      (∀ c f, s.refuses (.closure c f) new = true ↔
        (f = 1 ∧ ¬(((s.closure c).state = .held ∨ (s.closure c).state = .shut) ∧ rests (s.closureCfg c).line)) ∨
        (f = 5 ∧ ¬(rests (s.closureCfg c).line ∧ rests (new.closures[c.val]).line))) ∧
      (∀ n f, s.refuses (.sector n f) new = false) ∧ (∀ p f, s.refuses (.pattern p f) new = false) ∧
      ∀ f, s.refuses (.general f) new = false) ∧
    (∀ d f, let x := s.det d; let cfg := s.detCfg d; let o := Obj.detector d
      let handed := s.handSetting (.detector d f)
      (f = 1 → handed = s.judgeBlind) ∧
      (f = 6 → handed = if x.lit = true ∧ s.holds o .glare = false ∧ cfg.glareLimit * 10 ≤ x.width
        then (((s.setDet d { x with glare := .glaring }).raiseFault o .glare).dropCandidate d 2).judgeBlind else s) ∧
      (f = 7 → (s.holds o .glare = false ∨ (∀ since, x.glare ≠ .clearing since) → handed = s) ∧
        ∀ since, s.holds o .glare = true → x.glare = .clearing since → (s.uptime - since).toNat < 2 ^ 31 →
          cfg.glareClear < 2 ^ 31 → handed = if cfg.glareClear ≤ (s.uptime - since).toNat
            then ((s.setDet d { x with glare := .none }).clearFault o .glare).judgeBlind else s) ∧
      (f = 8 → handed = (s.deriveMode d).judgeBlind) ∧ (f ≠ 1 → f ≠ 6 → f ≠ 7 → f ≠ 8 → handed = s)) ∧
    (∀ n f, s.handSetting (.line n f) = if f = 5 ∨ f = 6 then s.setLine n { s.line n with
      counter := 0
      countWindow := if (s.lineCfg n).sparkWindow = 0 then none
        else some (s.uptime + BitVec.ofNat 32 ((s.lineCfg n).sparkWindow * 100)) } else s) ∧
    (∀ c f, s.handSetting (.closure c f) = if f = 2 ∨ f = 3 then s.testZones c else s) ∧
    (∀ n f, let x := s.sector n; let cfg := s.sectorCfg n
      let handed := s.handSetting (.sector n f)
      let taken := fun (level : Demand) (pattern : Option PatternNo) =>
        if x.state = .sounding ∧ x.playing = level ∧ x.cycle = none
        then (s.setSector n { x with pendingLevel := .none, pattern := pattern }).startCycle n else s
      (f = 1 → handed = (s.setSector n { x with highest := s.highestOf cfg.zones }).deriveSector n) ∧
      (f = 2 → handed = taken .alert cfg.alertPattern) ∧ (f = 3 → handed = taken .fire cfg.firePattern) ∧
      (f ≠ 1 → f ≠ 2 → f ≠ 3 → handed = s)) ∧
    (∀ p f, s.handSetting (.pattern p f) = forAll (fun n u =>
      if (u.sector n).pattern = some p ∧ (u.sector n).cycle = none then u.startCycle n else u) s) ∧
    (∀ i f, s.handSetting (.input i f) = s) ∧ ∀ f, s.handSetting (.general f) = s

/-- SAVE-SETTINGS, LOCK-SECTION, LOAD-DEFAULTS and the end of a section's write (R173 to R175): an operation writes its
sections one after another, 200 ms each, from the contents and locks as they stand; each write's result sets the
section's flags and the store faults; the end is recorded and reported with the sections written and failed.
LOAD-DEFAULTS is refused with the lowest-numbered object whose owner would refuse a write of its settings, which is
written out section by section. The detail 0 of BUSY, the written set with failed sections in it and the modified flag
where no rule gives it are the model's readings (log entries 15, 16 and 17). SAVE-FAILED before DEFAULTED, and the
owners before STORE-OP, are its choices (log entry 13). -/
def Obligations.StoreOperationsWriteSectionsInTurn : Prop :=
  ∀ (s : State) (k : Link) (sec : Byte) (good : Bool),
    let u := s.withLink k
    let begun := fun (v : State) (op : StoreOp) (kk : StoreSection) (rest written failed : List StoreSection) =>
      let w := v.setMark kk ⟨(v.flagsOf kk).lock, false⟩
      { w with store := { w.store with
        stored := v.store.stored.copySection kk v.store.live
        write := some ⟨op, kk, rest, s.uptime + 200, written, failed⟩ } }
    let noted := fun (v : State) (op : StoreOp) => v.record .storeOp 8 0 ⟨op.code, 1, 0, 0, 0⟩
    (s.link.claim (.request 0x27 []) = some k →
      (s.store.write ≠ none → exec (.saveSettings []) s = .next (u.answered ⟨0xFF, [0x27, 11, 0, 0, 0, 0]⟩)) ∧
      (s.store.write = none → exec (.saveSettings []) s = .next ((begun (noted u .save) .save .detectors
        [.lines, .inputs, .closures, .sectors, .patterns, .general] [] []).answered ⟨0xA7, [7, 0, 0, 0x05, 0x78]⟩))) ∧
    (∀ kk, kk.num = sec.toNat →
      (s.link.claim (.request 0x28 [sec]) = some k →
        (s.store.write ≠ none → exec (.lockSection [sec]) s = .next (u.answered ⟨0xFF, [0x28, 11, 0, 0, 0, 0]⟩)) ∧
        (s.store.write = none →
          ((s.flagsOf kk).lock = true → exec (.lockSection [sec]) s = .next (u.answered ⟨0xA8, [1]⟩)) ∧
          ((s.flagsOf kk).lock = false → exec (.lockSection [sec]) s = .next ((begun
            (noted (u.setFlags kk { s.flagsOf kk with lock := true }) .lock) .lock kk [] [] []).answered ⟨0xA8, [0]⟩)))) ∧
      (s.link.claim (.request 0x29 [sec]) = some k →
        let asked := exec (.loadDefaults [sec]) s
        (s.service = false → asked = .next (u.answered ⟨0xFF, [0x29, 12, 0, 0, 0, 0]⟩)) ∧
        (s.service = true → ∀ w, s.store.write = some w →
          asked = .next (u.answered ⟨0xFF, [0x29, 11] ++ enc32 (BitVec.ofNat 32 (w.rest.length + 1))⟩)) ∧
        (s.service = true → s.store.write = none →
          (∀ i, s.defaultsRefused kk = some i →
            asked = .next (u.answered ⟨0xFF, [0x29, 5] ++ enc32 (BitVec.ofNat 32 i)⟩)) ∧
          (s.defaultsRefused kk = none →
            let live := s.store.live.copySection kk factorySettings
            let v := ({ u with store := { s.store with live := live } }).setFlags kk { s.flagsOf kk with
              lock := false, modified := (s.flagsOf kk).modified || decide (live ≠ s.store.live) }
            let w := forEach kk.indices (fun i t => forEach (settingsOf kk i) State.handSetting t) v
            asked = .next ((begun (noted w .defaults) .defaults kk [] [] []).answered ⟨0xA9, []⟩))))) ∧
    ((∀ kk : StoreSection, kk.num ≠ sec.toNat) →
      (s.link.claim (.request 0x28 [sec]) = some k →
        exec (.lockSection [sec]) s = .next (u.answered ⟨0xFF, [0x28, 4, 0, 0, 0, 0]⟩)) ∧
      (s.link.claim (.request 0x29 [sec]) = some k →
        exec (.loadDefaults [sec]) s = .next (u.answered ⟨0xFF, [0x29, 4, 0, 0, 0, 0]⟩))) ∧
    (let rests := fun (l : Option LineNo) => ∀ n, l = some n → (s.line n).state = .off ∨ (s.line n).state = .stopped
     let would := fun (kk : StoreSection) (i : Nat) => match kk with
       | .detectors => ∃ d : DetNo, number d = i ∧ (¬rests (s.detCfg d).line ∨ s.causeOf (.detector d) ≠ none)
       | .lines => ∃ n : LineNo, number n = i ∧ (¬rests (some n) ∨ s.causeOf (.line n) ≠ none)
       | .inputs => ∃ f : InputNo, number f = i ∧ s.causeOf (.fireInput f) ≠ none
       | .closures => ∃ c : ClosureNo, number c = i ∧ (¬((s.closure c).state = .held ∨ (s.closure c).state = .shut) ∨
           ¬rests (s.closureCfg c).line)
       | .sectors | .patterns | .general => False
     ∀ kk, (s.defaultsRefused kk = none ↔ ∀ i, ¬would kk i) ∧
       ∀ i, s.defaultsRefused kk = some i ↔ would kk i ∧ ∀ j < i, ¬would kk j) ∧
    (s.store.write = none → exec (.sectionWriteEnd good) s = .next s.settle) ∧
    (∀ w, s.store.write = some w →
      (reached s.uptime w.ends = false → exec (.sectionWriteEnd good) s = .next s.settle) ∧
      (reached s.uptime w.ends = true →
        let x := s.flagsOf w.current
        let marked := (s.setMark w.current ⟨(s.store.marks[w.current.idx.val]).lock, good⟩).setFlags w.current
          (if good then { x with modified := false, defaulted := false, writeFailed := false }
            else { x with writeFailed := true })
        let saveFailed := allSections.any fun kk => (marked.flagsOf kk).writeFailed
        let defaulted := allSections.any fun kk => (marked.flagsOf kk).defaulted
        let v := if saveFailed then marked.raiseFault .store .saveFailed else marked.clearFault .store .saveFailed
        let t := if defaulted then v.raiseFault .store .defaulted else v.clearFault .store .defaulted
        let written := w.written ++ [w.current]
        let failed := if good then w.failed else w.failed ++ [w.current]
        (∀ next rest, w.rest = next :: rest →
          exec (.sectionWriteEnd good) s = .next (begun t w.op next rest written failed).settle) ∧
        (w.rest = [] → exec (.sectionWriteEnd good) s =
          .next (({ t with store := { t.store with write := none } }).objEvent .notice .storeOp 0x4A .store
            ⟨w.op.code, 2, sectionSet written, sectionSet failed, 0⟩).settle)))

/-! ### What every step keeps -/

/-- The link within its capacities (R152, R153, R155, R157, R159, R161) and the history one unbroken run of at most 512
numbers (R167), from every state in which they are, reached or not. -/
def Obligations.LinkAndHistoryStayWithinTheirBounds : Prop :=
  ∀ s t : State, step s = .next t →
    (s.link.receiver.sound → t.link.receiver.sound) ∧ (s.link.capacities → t.link.capacities) ∧
    (s.link.busyWhileWaiting → t.link.busyWhileWaiting) ∧ (s.history.sound → t.history.sound)

/-- The outputs follow the states (R42, R56, R102, R126): fan, feed and gate of each line, HOLD and direction of each
closure, the siren of each sector, the valve of each station. -/
def Obligations.OutputsFollowTheStates : Prop :=
  ∀ s t : State, step s = .next t →
    ((∀ n, s.lineOutputs n) → ∀ n, t.lineOutputs n) ∧ ((∀ c, s.closureOutputs c) → ∀ c, t.closureOutputs c) ∧
    ((∀ n, s.sectorOutput n) → ∀ n, t.sectorOutput n) ∧ ((∀ n, s.valveSound n) → ∀ n, t.valveSound n)

/-- The FAULT output (R97): on exactly while an object holds a fault or an entry is ACTIVE. Every step keeps it so, given
a table with one entry per target, and both resets make it so. -/
def Obligations.FaultOutputShowsEveryFault : Prop :=
  (∀ s t : State, step s = .next t → s.tableSound → s.faultSound → t.faultSound) ∧
  ∀ s t : State, exec .powerOnReset s = .next t ∨ exec .resetInput s = .next t → t.faultSound

/-- Causes, zones and sectors agree (R80 to R85, R92, R123 to R125): one record per source, each as its source makes it;
each zone at the highest level of its records; each sector's demand, state, playing level and highest zone level as the
causes give them. -/
def Obligations.CausesZonesAndSectorsAgree : Prop :=
  ∀ s t : State, step s = .next t →
    (s.causesSound → t.causesSound) ∧
    (s.causesSound → (∀ z, s.zoneSound z) → ∀ z, t.zoneSound z) ∧
    (s.causesSound → (∀ n, s.sectorSound n) → ∀ n, t.sectorSound n) ∧
    ((∀ n, (s.sector n).playingSound) → ∀ n, (t.sector n).playingSound)

/-- Lines and closures in order (R58 to R73, R107 to R113): timers and stop causes go with the states; each spark counter
is below its threshold; a line is blind exactly without a usable detector; a damper waits only on a running fan. -/
def Obligations.LinesAndClosuresStayInOrder : Prop :=
  ∀ s t : State, step s = .next t →
    ((∀ n, (s.line n).timersSound) → ∀ n, (t.line n).timersSound) ∧
    (s.countersSound → t.countersSound) ∧
    ((∀ n, s.blindSound n) → ∀ n, t.blindSound n) ∧
    ((∀ c, s.closureSound c) → ∀ c, t.closureSound c) ∧
    ((∀ c, s.waitSound c) → ∀ c, t.waitSound c)

/-- No line is in STARTING or RUN while a damper assigned to it is in a state other than HELD (R69), and every line stays
OFF or STOPPED for as long as the mode is WATCH (R98). A stop demand is taken at once by a line in STARTING, RUN or
ABORT, replaces an orderly cause in STOPPING, and changes no other line. -/
def Obligations.NoLineRunsWithADamperNotHeldOrInWatch : Prop :=
  (∀ s t : State, step s = .next t →
    ((∀ n, s.dampersHeld n) → ∀ n, t.dampersHeld n) ∧ (s.watchStill → t.watchStill)) ∧
  ∀ (s : State) (n : LineNo) (cause : StopCause),
    let x := s.line n
    (x.state = .starting ∨ x.state = .run ∨ x.state = .abort → s.protectLine n cause = s.stopLine n cause) ∧
    (x.state = .stopping → x.stopCause = .orderly →
      s.protectLine n cause = s.setLine n { x with stopCause := cause }) ∧
    (x.state = .off ∨ x.state = .stopped ∨ (x.state = .stopping ∧ x.stopCause ≠ .orderly) →
      s.protectLine n cause = s)

/-- The lockouts hold (R114, R73, R79): a SHUT closure stays SHUT until RESET-CLOSURE or a power-on reset, and until a
power-on reset while a zone of it stands at its trigger level, with its HOLD off as long as it stays SHUT; a STOPPED line
stays STOPPED, with its stop cause, until RESET-LINE or a power-on reset. -/
def Obligations.LockoutsHoldUntilReset : Prop :=
  ∀ (c : Instr) (s t : State), exec c s = .next t → c ≠ .powerOnReset →
    (∀ x, (s.closure x).state = .shut →
      ((∀ p, c ≠ .resetClosure p) → (t.closure x).state = .shut) ∧
      (∀ z, s.triggers x z = true → (t.closure x).state = .shut) ∧
      (s.closureOutputs x → (t.closure x).state = .shut → (t.closure x).hold = false)) ∧
    (∀ n, (s.line n).state = .stopped → (∀ p, c ≠ .resetLine p) →
      (t.line n).state = .stopped ∧ (t.line n).stopCause = (s.line n).stopCause)

/-- The disablement table in order (R139 to R146): at most 32 entries, one per target, limits of at most 1,440 minutes,
an entry PENDING only while its owner has work in hand, and a prepare only with SERVICE active, the latch clear, and room
for the entry it asks for. -/
def Obligations.DisablementTableStaysInOrder : Prop :=
  ∀ s t : State, step s = .next t → s.tableSound → s.prepareSound → t.tableSound ∧ t.prepareSound

/-- Detector channels and fire inputs in order (R1, R3 to R6, R9, R10, R13, R14, R86 to R89). -/
def Obligations.DetectorsAndInputsStayInOrder : Prop :=
  ∀ s t : State, step s = .next t →
    ((∀ d, s.detectorSound d) → ∀ d, t.detectorSound d) ∧
    (s.causesSound → (∀ f, s.inputSound f) → ∀ f, t.inputSound f)

/-- Both copies of the settings stay within their ranges (R18, R171), and SAVE-FAILED and DEFAULTED are held exactly
while a section's flag is set (R170). -/
def Obligations.SettingsAndStoreFaultsStaySound : Prop :=
  ∀ s t : State, step s = .next t →
    (s.store.live.inRange → s.store.stored.inRange → t.store.live.inRange ∧ t.store.stored.inRange) ∧
    (s.storeFaultsSound → t.storeFaultsSound)

/-- The state after reset has all of these, with the free-value counter and the queue at their starts. State.reset has
a store never written and every pin inactive: the model's choices (log entries 8 and 9). -/
def Obligations.ResetStateIsInOrder : Prop :=
  let s := State.reset
  s.link.receiver.sound ∧ s.link.capacities ∧ s.link.busyWhileWaiting ∧ s.history.sound ∧
  (∀ n, s.lineOutputs n) ∧ (∀ c, s.closureOutputs c) ∧ (∀ n, s.sectorOutput n) ∧ (∀ n, s.valveSound n) ∧
  s.faultSound ∧ s.causesSound ∧ (∀ z, s.zoneSound z) ∧ (∀ n, s.sectorSound n) ∧ (∀ n, (s.sector n).playingSound) ∧
  (∀ n, (s.line n).timersSound) ∧ s.countersSound ∧ (∀ n, s.blindSound n) ∧ (∀ c, s.closureSound c) ∧
  (∀ c, s.waitSound c) ∧ (∀ n, s.dampersHeld n) ∧ s.watchStill ∧ s.tableSound ∧ s.prepareSound ∧
  (∀ d, s.detectorSound d) ∧ (∀ f, s.inputSound f) ∧ s.store.live.inRange ∧ s.store.stored.inRange ∧
  s.storeFaultsSound ∧ s.freeCount = 0 ∧ s.pending = [] ∧ ∃ t, exec .powerOnReset s = .next t ∧ t = s

end
end

