-- ==== Sys2Proof/Laws/State.lean ====
section
/-! SUPPORT. The small lemmas of the state's updates, so that no later proof unfolds a record update: for each update,
what it puts is read back, and every other field and every reading that rests on another field is as before. -/

namespace Sys2Proof.Machine

variable (s : State)

/-! ### `State.setDet` -/

@[simp] theorem State.setDet_det (d : DetNo) (x : Detector) (e : DetNo) :
    (s.setDet d x).det e = if d = e then x else s.det e := by
  simp only [State.det, State.setDet, Vector.getElem_set, Fin.ext_iff]
@[simp] theorem State.setDet_det_self (d : DetNo) (x : Detector) : (s.setDet d x).det d = x := by
  simp [State.det, State.setDet]
@[simp] theorem State.setDet_uptime (d : DetNo) (x : Detector) : (s.setDet d x).uptime = s.uptime := rfl
@[simp] theorem State.setDet_tenth (d : DetNo) (x : Detector) : (s.setDet d x).tenth = s.tenth := rfl
@[simp] theorem State.setDet_meters (d : DetNo) (x : Detector) : (s.setDet d x).meters = s.meters := rfl
@[simp] theorem State.setDet_stations (d : DetNo) (x : Detector) : (s.setDet d x).stations = s.stations := rfl
@[simp] theorem State.setDet_lines (d : DetNo) (x : Detector) : (s.setDet d x).lines = s.lines := rfl
@[simp] theorem State.setDet_causes (d : DetNo) (x : Detector) : (s.setDet d x).causes = s.causes := rfl
@[simp] theorem State.setDet_zones (d : DetNo) (x : Detector) : (s.setDet d x).zones = s.zones := rfl
@[simp] theorem State.setDet_inputs (d : DetNo) (x : Detector) : (s.setDet d x).inputs = s.inputs := rfl
@[simp] theorem State.setDet_faults (d : DetNo) (x : Detector) : (s.setDet d x).faults = s.faults := rfl
@[simp] theorem State.setDet_faultOutput (d : DetNo) (x : Detector) : (s.setDet d x).faultOutput = s.faultOutput := rfl
@[simp] theorem State.setDet_shift (d : DetNo) (x : Detector) : (s.setDet d x).shift = s.shift := rfl
@[simp] theorem State.setDet_closures (d : DetNo) (x : Detector) : (s.setDet d x).closures = s.closures := rfl
@[simp] theorem State.setDet_sectors (d : DetNo) (x : Detector) : (s.setDet d x).sectors = s.sectors := rfl
@[simp] theorem State.setDet_dis (d : DetNo) (x : Detector) : (s.setDet d x).dis = s.dis := rfl
@[simp] theorem State.setDet_service (d : DetNo) (x : Detector) : (s.setDet d x).service = s.service := rfl
@[simp] theorem State.setDet_link (d : DetNo) (x : Detector) : (s.setDet d x).link = s.link := rfl
@[simp] theorem State.setDet_history (d : DetNo) (x : Detector) : (s.setDet d x).history = s.history := rfl
@[simp] theorem State.setDet_store (d : DetNo) (x : Detector) : (s.setDet d x).store = s.store := rfl
@[simp] theorem State.setDet_freeCount (d : DetNo) (x : Detector) : (s.setDet d x).freeCount = s.freeCount := rfl
@[simp] theorem State.setDet_pending (d : DetNo) (x : Detector) : (s.setDet d x).pending = s.pending := rfl
@[simp] theorem State.setDet_meter (d : DetNo) (x : Detector) (e : LineNo) :
    (s.setDet d x).meter e = s.meter e := rfl
@[simp] theorem State.setDet_station (d : DetNo) (x : Detector) (e : LineNo) :
    (s.setDet d x).station e = s.station e := rfl
@[simp] theorem State.setDet_line (d : DetNo) (x : Detector) (e : LineNo) : (s.setDet d x).line e = s.line e := rfl
@[simp] theorem State.setDet_zone (d : DetNo) (x : Detector) (e : ZoneNo) : (s.setDet d x).zone e = s.zone e := rfl
@[simp] theorem State.setDet_input (d : DetNo) (x : Detector) (e : InputNo) :
    (s.setDet d x).input e = s.input e := rfl
@[simp] theorem State.setDet_closure (d : DetNo) (x : Detector) (e : ClosureNo) :
    (s.setDet d x).closure e = s.closure e := rfl
@[simp] theorem State.setDet_sector (d : DetNo) (x : Detector) (e : SectorNo) :
    (s.setDet d x).sector e = s.sector e := rfl
@[simp] theorem State.setDet_detCfg (d : DetNo) (x : Detector) (e : DetNo) :
    (s.setDet d x).detCfg e = s.detCfg e := rfl
@[simp] theorem State.setDet_lineCfg (d : DetNo) (x : Detector) (e : LineNo) :
    (s.setDet d x).lineCfg e = s.lineCfg e := rfl
@[simp] theorem State.setDet_inputCfg (d : DetNo) (x : Detector) (e : InputNo) :
    (s.setDet d x).inputCfg e = s.inputCfg e := rfl
@[simp] theorem State.setDet_closureCfg (d : DetNo) (x : Detector) (e : ClosureNo) :
    (s.setDet d x).closureCfg e = s.closureCfg e := rfl
@[simp] theorem State.setDet_sectorCfg (d : DetNo) (x : Detector) (e : SectorNo) :
    (s.setDet d x).sectorCfg e = s.sectorCfg e := rfl
@[simp] theorem State.setDet_patternCfg (d : DetNo) (x : Detector) (e : PatternNo) :
    (s.setDet d x).patternCfg e = s.patternCfg e := rfl
@[simp] theorem State.setDet_disabled (d : DetNo) (x : Detector) (e : Target) :
    (s.setDet d x).disabled e = s.disabled e := rfl
@[simp] theorem State.setDet_entryOf (d : DetNo) (x : Detector) (e : Target) :
    (s.setDet d x).entryOf e = s.entryOf e := rfl
@[simp] theorem State.setDet_hasEntry (d : DetNo) (x : Detector) (e : Target) :
    (s.setDet d x).hasEntry e = s.hasEntry e := rfl
@[simp] theorem State.setDet_causeOf (d : DetNo) (x : Detector) (e : Source) :
    (s.setDet d x).causeOf e = s.causeOf e := rfl
@[simp] theorem State.setDet_causeLevel (d : DetNo) (x : Detector) (e : Source) :
    (s.setDet d x).causeLevel e = s.causeLevel e := rfl
@[simp] theorem State.setDet_after (d : DetNo) (x : Detector) (e : Nat) : (s.setDet d x).after e = s.after e := rfl
@[simp] theorem State.setDet_since (d : DetNo) (x : Detector) (e : Instant) :
    (s.setDet d x).since e = s.since e := rfl
@[simp] theorem State.setDet_expired (d : DetNo) (x : Detector) (e : Option Instant) :
    (s.setDet d x).expired e = s.expired e := rfl
@[simp] theorem State.setDet_stamp (d : DetNo) (x : Detector) : (s.setDet d x).stamp = s.stamp := rfl
@[simp] theorem State.setDet_holds (d : DetNo) (x : Detector) (o : Obj) (g : FaultCode) :
    (s.setDet d x).holds o g = s.holds o g := rfl

/-! ### `State.setMeter` -/

@[simp] theorem State.setMeter_meter (d : LineNo) (x : Meter) (e : LineNo) :
    (s.setMeter d x).meter e = if d = e then x else s.meter e := by
  simp only [State.meter, State.setMeter, Vector.getElem_set, Fin.ext_iff]
@[simp] theorem State.setMeter_meter_self (d : LineNo) (x : Meter) : (s.setMeter d x).meter d = x := by
  simp [State.meter, State.setMeter]
@[simp] theorem State.setMeter_uptime (d : LineNo) (x : Meter) : (s.setMeter d x).uptime = s.uptime := rfl
@[simp] theorem State.setMeter_tenth (d : LineNo) (x : Meter) : (s.setMeter d x).tenth = s.tenth := rfl
@[simp] theorem State.setMeter_detectors (d : LineNo) (x : Meter) : (s.setMeter d x).detectors = s.detectors := rfl
@[simp] theorem State.setMeter_stations (d : LineNo) (x : Meter) : (s.setMeter d x).stations = s.stations := rfl
@[simp] theorem State.setMeter_lines (d : LineNo) (x : Meter) : (s.setMeter d x).lines = s.lines := rfl
@[simp] theorem State.setMeter_causes (d : LineNo) (x : Meter) : (s.setMeter d x).causes = s.causes := rfl
@[simp] theorem State.setMeter_zones (d : LineNo) (x : Meter) : (s.setMeter d x).zones = s.zones := rfl
@[simp] theorem State.setMeter_inputs (d : LineNo) (x : Meter) : (s.setMeter d x).inputs = s.inputs := rfl
@[simp] theorem State.setMeter_faults (d : LineNo) (x : Meter) : (s.setMeter d x).faults = s.faults := rfl
@[simp] theorem State.setMeter_faultOutput (d : LineNo) (x : Meter) : (s.setMeter d x).faultOutput = s.faultOutput := rfl
@[simp] theorem State.setMeter_shift (d : LineNo) (x : Meter) : (s.setMeter d x).shift = s.shift := rfl
@[simp] theorem State.setMeter_closures (d : LineNo) (x : Meter) : (s.setMeter d x).closures = s.closures := rfl
@[simp] theorem State.setMeter_sectors (d : LineNo) (x : Meter) : (s.setMeter d x).sectors = s.sectors := rfl
@[simp] theorem State.setMeter_dis (d : LineNo) (x : Meter) : (s.setMeter d x).dis = s.dis := rfl
@[simp] theorem State.setMeter_service (d : LineNo) (x : Meter) : (s.setMeter d x).service = s.service := rfl
@[simp] theorem State.setMeter_link (d : LineNo) (x : Meter) : (s.setMeter d x).link = s.link := rfl
@[simp] theorem State.setMeter_history (d : LineNo) (x : Meter) : (s.setMeter d x).history = s.history := rfl
@[simp] theorem State.setMeter_store (d : LineNo) (x : Meter) : (s.setMeter d x).store = s.store := rfl
@[simp] theorem State.setMeter_freeCount (d : LineNo) (x : Meter) : (s.setMeter d x).freeCount = s.freeCount := rfl
@[simp] theorem State.setMeter_pending (d : LineNo) (x : Meter) : (s.setMeter d x).pending = s.pending := rfl
@[simp] theorem State.setMeter_det (d : LineNo) (x : Meter) (e : DetNo) : (s.setMeter d x).det e = s.det e := rfl
@[simp] theorem State.setMeter_station (d : LineNo) (x : Meter) (e : LineNo) :
    (s.setMeter d x).station e = s.station e := rfl
@[simp] theorem State.setMeter_line (d : LineNo) (x : Meter) (e : LineNo) : (s.setMeter d x).line e = s.line e := rfl
@[simp] theorem State.setMeter_zone (d : LineNo) (x : Meter) (e : ZoneNo) : (s.setMeter d x).zone e = s.zone e := rfl
@[simp] theorem State.setMeter_input (d : LineNo) (x : Meter) (e : InputNo) :
    (s.setMeter d x).input e = s.input e := rfl
@[simp] theorem State.setMeter_closure (d : LineNo) (x : Meter) (e : ClosureNo) :
    (s.setMeter d x).closure e = s.closure e := rfl
@[simp] theorem State.setMeter_sector (d : LineNo) (x : Meter) (e : SectorNo) :
    (s.setMeter d x).sector e = s.sector e := rfl
@[simp] theorem State.setMeter_detCfg (d : LineNo) (x : Meter) (e : DetNo) :
    (s.setMeter d x).detCfg e = s.detCfg e := rfl
@[simp] theorem State.setMeter_lineCfg (d : LineNo) (x : Meter) (e : LineNo) :
    (s.setMeter d x).lineCfg e = s.lineCfg e := rfl
@[simp] theorem State.setMeter_inputCfg (d : LineNo) (x : Meter) (e : InputNo) :
    (s.setMeter d x).inputCfg e = s.inputCfg e := rfl
@[simp] theorem State.setMeter_closureCfg (d : LineNo) (x : Meter) (e : ClosureNo) :
    (s.setMeter d x).closureCfg e = s.closureCfg e := rfl
@[simp] theorem State.setMeter_sectorCfg (d : LineNo) (x : Meter) (e : SectorNo) :
    (s.setMeter d x).sectorCfg e = s.sectorCfg e := rfl
@[simp] theorem State.setMeter_patternCfg (d : LineNo) (x : Meter) (e : PatternNo) :
    (s.setMeter d x).patternCfg e = s.patternCfg e := rfl
@[simp] theorem State.setMeter_disabled (d : LineNo) (x : Meter) (e : Target) :
    (s.setMeter d x).disabled e = s.disabled e := rfl
@[simp] theorem State.setMeter_entryOf (d : LineNo) (x : Meter) (e : Target) :
    (s.setMeter d x).entryOf e = s.entryOf e := rfl
@[simp] theorem State.setMeter_hasEntry (d : LineNo) (x : Meter) (e : Target) :
    (s.setMeter d x).hasEntry e = s.hasEntry e := rfl
@[simp] theorem State.setMeter_causeOf (d : LineNo) (x : Meter) (e : Source) :
    (s.setMeter d x).causeOf e = s.causeOf e := rfl
@[simp] theorem State.setMeter_causeLevel (d : LineNo) (x : Meter) (e : Source) :
    (s.setMeter d x).causeLevel e = s.causeLevel e := rfl
@[simp] theorem State.setMeter_after (d : LineNo) (x : Meter) (e : Nat) : (s.setMeter d x).after e = s.after e := rfl
@[simp] theorem State.setMeter_since (d : LineNo) (x : Meter) (e : Instant) :
    (s.setMeter d x).since e = s.since e := rfl
@[simp] theorem State.setMeter_expired (d : LineNo) (x : Meter) (e : Option Instant) :
    (s.setMeter d x).expired e = s.expired e := rfl
@[simp] theorem State.setMeter_stamp (d : LineNo) (x : Meter) : (s.setMeter d x).stamp = s.stamp := rfl
@[simp] theorem State.setMeter_holds (d : LineNo) (x : Meter) (o : Obj) (g : FaultCode) :
    (s.setMeter d x).holds o g = s.holds o g := rfl

/-! ### `State.setStation` -/

@[simp] theorem State.setStation_station (d : LineNo) (x : Station) (e : LineNo) :
    (s.setStation d x).station e = if d = e then x else s.station e := by
  simp only [State.station, State.setStation, Vector.getElem_set, Fin.ext_iff]
@[simp] theorem State.setStation_station_self (d : LineNo) (x : Station) : (s.setStation d x).station d = x := by
  simp [State.station, State.setStation]
@[simp] theorem State.setStation_uptime (d : LineNo) (x : Station) : (s.setStation d x).uptime = s.uptime := rfl
@[simp] theorem State.setStation_tenth (d : LineNo) (x : Station) : (s.setStation d x).tenth = s.tenth := rfl
@[simp] theorem State.setStation_detectors (d : LineNo) (x : Station) : (s.setStation d x).detectors = s.detectors := rfl
@[simp] theorem State.setStation_meters (d : LineNo) (x : Station) : (s.setStation d x).meters = s.meters := rfl
@[simp] theorem State.setStation_lines (d : LineNo) (x : Station) : (s.setStation d x).lines = s.lines := rfl
@[simp] theorem State.setStation_causes (d : LineNo) (x : Station) : (s.setStation d x).causes = s.causes := rfl
@[simp] theorem State.setStation_zones (d : LineNo) (x : Station) : (s.setStation d x).zones = s.zones := rfl
@[simp] theorem State.setStation_inputs (d : LineNo) (x : Station) : (s.setStation d x).inputs = s.inputs := rfl
@[simp] theorem State.setStation_faults (d : LineNo) (x : Station) : (s.setStation d x).faults = s.faults := rfl
@[simp] theorem State.setStation_faultOutput (d : LineNo) (x : Station) : (s.setStation d x).faultOutput = s.faultOutput := rfl
@[simp] theorem State.setStation_shift (d : LineNo) (x : Station) : (s.setStation d x).shift = s.shift := rfl
@[simp] theorem State.setStation_closures (d : LineNo) (x : Station) : (s.setStation d x).closures = s.closures := rfl
@[simp] theorem State.setStation_sectors (d : LineNo) (x : Station) : (s.setStation d x).sectors = s.sectors := rfl
@[simp] theorem State.setStation_dis (d : LineNo) (x : Station) : (s.setStation d x).dis = s.dis := rfl
@[simp] theorem State.setStation_service (d : LineNo) (x : Station) : (s.setStation d x).service = s.service := rfl
@[simp] theorem State.setStation_link (d : LineNo) (x : Station) : (s.setStation d x).link = s.link := rfl
@[simp] theorem State.setStation_history (d : LineNo) (x : Station) : (s.setStation d x).history = s.history := rfl
@[simp] theorem State.setStation_store (d : LineNo) (x : Station) : (s.setStation d x).store = s.store := rfl
@[simp] theorem State.setStation_freeCount (d : LineNo) (x : Station) : (s.setStation d x).freeCount = s.freeCount := rfl
@[simp] theorem State.setStation_pending (d : LineNo) (x : Station) : (s.setStation d x).pending = s.pending := rfl
@[simp] theorem State.setStation_det (d : LineNo) (x : Station) (e : DetNo) :
    (s.setStation d x).det e = s.det e := rfl
@[simp] theorem State.setStation_meter (d : LineNo) (x : Station) (e : LineNo) :
    (s.setStation d x).meter e = s.meter e := rfl
@[simp] theorem State.setStation_line (d : LineNo) (x : Station) (e : LineNo) :
    (s.setStation d x).line e = s.line e := rfl
@[simp] theorem State.setStation_zone (d : LineNo) (x : Station) (e : ZoneNo) :
    (s.setStation d x).zone e = s.zone e := rfl
@[simp] theorem State.setStation_input (d : LineNo) (x : Station) (e : InputNo) :
    (s.setStation d x).input e = s.input e := rfl
@[simp] theorem State.setStation_closure (d : LineNo) (x : Station) (e : ClosureNo) :
    (s.setStation d x).closure e = s.closure e := rfl
@[simp] theorem State.setStation_sector (d : LineNo) (x : Station) (e : SectorNo) :
    (s.setStation d x).sector e = s.sector e := rfl
@[simp] theorem State.setStation_detCfg (d : LineNo) (x : Station) (e : DetNo) :
    (s.setStation d x).detCfg e = s.detCfg e := rfl
@[simp] theorem State.setStation_lineCfg (d : LineNo) (x : Station) (e : LineNo) :
    (s.setStation d x).lineCfg e = s.lineCfg e := rfl
@[simp] theorem State.setStation_inputCfg (d : LineNo) (x : Station) (e : InputNo) :
    (s.setStation d x).inputCfg e = s.inputCfg e := rfl
@[simp] theorem State.setStation_closureCfg (d : LineNo) (x : Station) (e : ClosureNo) :
    (s.setStation d x).closureCfg e = s.closureCfg e := rfl
@[simp] theorem State.setStation_sectorCfg (d : LineNo) (x : Station) (e : SectorNo) :
    (s.setStation d x).sectorCfg e = s.sectorCfg e := rfl
@[simp] theorem State.setStation_patternCfg (d : LineNo) (x : Station) (e : PatternNo) :
    (s.setStation d x).patternCfg e = s.patternCfg e := rfl
@[simp] theorem State.setStation_disabled (d : LineNo) (x : Station) (e : Target) :
    (s.setStation d x).disabled e = s.disabled e := rfl
@[simp] theorem State.setStation_entryOf (d : LineNo) (x : Station) (e : Target) :
    (s.setStation d x).entryOf e = s.entryOf e := rfl
@[simp] theorem State.setStation_hasEntry (d : LineNo) (x : Station) (e : Target) :
    (s.setStation d x).hasEntry e = s.hasEntry e := rfl
@[simp] theorem State.setStation_causeOf (d : LineNo) (x : Station) (e : Source) :
    (s.setStation d x).causeOf e = s.causeOf e := rfl
@[simp] theorem State.setStation_causeLevel (d : LineNo) (x : Station) (e : Source) :
    (s.setStation d x).causeLevel e = s.causeLevel e := rfl
@[simp] theorem State.setStation_after (d : LineNo) (x : Station) (e : Nat) :
    (s.setStation d x).after e = s.after e := rfl
@[simp] theorem State.setStation_since (d : LineNo) (x : Station) (e : Instant) :
    (s.setStation d x).since e = s.since e := rfl
@[simp] theorem State.setStation_expired (d : LineNo) (x : Station) (e : Option Instant) :
    (s.setStation d x).expired e = s.expired e := rfl
@[simp] theorem State.setStation_stamp (d : LineNo) (x : Station) : (s.setStation d x).stamp = s.stamp := rfl
@[simp] theorem State.setStation_holds (d : LineNo) (x : Station) (o : Obj) (g : FaultCode) :
    (s.setStation d x).holds o g = s.holds o g := rfl

/-! ### `State.setLine` -/

@[simp] theorem State.setLine_line (d : LineNo) (x : Line) (e : LineNo) :
    (s.setLine d x).line e = if d = e then x else s.line e := by
  simp only [State.line, State.setLine, Vector.getElem_set, Fin.ext_iff]
@[simp] theorem State.setLine_line_self (d : LineNo) (x : Line) : (s.setLine d x).line d = x := by
  simp [State.line, State.setLine]
@[simp] theorem State.setLine_uptime (d : LineNo) (x : Line) : (s.setLine d x).uptime = s.uptime := rfl
@[simp] theorem State.setLine_tenth (d : LineNo) (x : Line) : (s.setLine d x).tenth = s.tenth := rfl
@[simp] theorem State.setLine_detectors (d : LineNo) (x : Line) : (s.setLine d x).detectors = s.detectors := rfl
@[simp] theorem State.setLine_meters (d : LineNo) (x : Line) : (s.setLine d x).meters = s.meters := rfl
@[simp] theorem State.setLine_stations (d : LineNo) (x : Line) : (s.setLine d x).stations = s.stations := rfl
@[simp] theorem State.setLine_causes (d : LineNo) (x : Line) : (s.setLine d x).causes = s.causes := rfl
@[simp] theorem State.setLine_zones (d : LineNo) (x : Line) : (s.setLine d x).zones = s.zones := rfl
@[simp] theorem State.setLine_inputs (d : LineNo) (x : Line) : (s.setLine d x).inputs = s.inputs := rfl
@[simp] theorem State.setLine_faults (d : LineNo) (x : Line) : (s.setLine d x).faults = s.faults := rfl
@[simp] theorem State.setLine_faultOutput (d : LineNo) (x : Line) : (s.setLine d x).faultOutput = s.faultOutput := rfl
@[simp] theorem State.setLine_shift (d : LineNo) (x : Line) : (s.setLine d x).shift = s.shift := rfl
@[simp] theorem State.setLine_closures (d : LineNo) (x : Line) : (s.setLine d x).closures = s.closures := rfl
@[simp] theorem State.setLine_sectors (d : LineNo) (x : Line) : (s.setLine d x).sectors = s.sectors := rfl
@[simp] theorem State.setLine_dis (d : LineNo) (x : Line) : (s.setLine d x).dis = s.dis := rfl
@[simp] theorem State.setLine_service (d : LineNo) (x : Line) : (s.setLine d x).service = s.service := rfl
@[simp] theorem State.setLine_link (d : LineNo) (x : Line) : (s.setLine d x).link = s.link := rfl
@[simp] theorem State.setLine_history (d : LineNo) (x : Line) : (s.setLine d x).history = s.history := rfl
@[simp] theorem State.setLine_store (d : LineNo) (x : Line) : (s.setLine d x).store = s.store := rfl
@[simp] theorem State.setLine_freeCount (d : LineNo) (x : Line) : (s.setLine d x).freeCount = s.freeCount := rfl
@[simp] theorem State.setLine_pending (d : LineNo) (x : Line) : (s.setLine d x).pending = s.pending := rfl
@[simp] theorem State.setLine_det (d : LineNo) (x : Line) (e : DetNo) : (s.setLine d x).det e = s.det e := rfl
@[simp] theorem State.setLine_meter (d : LineNo) (x : Line) (e : LineNo) : (s.setLine d x).meter e = s.meter e := rfl
@[simp] theorem State.setLine_station (d : LineNo) (x : Line) (e : LineNo) :
    (s.setLine d x).station e = s.station e := rfl
@[simp] theorem State.setLine_zone (d : LineNo) (x : Line) (e : ZoneNo) : (s.setLine d x).zone e = s.zone e := rfl
@[simp] theorem State.setLine_input (d : LineNo) (x : Line) (e : InputNo) :
    (s.setLine d x).input e = s.input e := rfl
@[simp] theorem State.setLine_closure (d : LineNo) (x : Line) (e : ClosureNo) :
    (s.setLine d x).closure e = s.closure e := rfl
@[simp] theorem State.setLine_sector (d : LineNo) (x : Line) (e : SectorNo) :
    (s.setLine d x).sector e = s.sector e := rfl
@[simp] theorem State.setLine_detCfg (d : LineNo) (x : Line) (e : DetNo) :
    (s.setLine d x).detCfg e = s.detCfg e := rfl
@[simp] theorem State.setLine_lineCfg (d : LineNo) (x : Line) (e : LineNo) :
    (s.setLine d x).lineCfg e = s.lineCfg e := rfl
@[simp] theorem State.setLine_inputCfg (d : LineNo) (x : Line) (e : InputNo) :
    (s.setLine d x).inputCfg e = s.inputCfg e := rfl
@[simp] theorem State.setLine_closureCfg (d : LineNo) (x : Line) (e : ClosureNo) :
    (s.setLine d x).closureCfg e = s.closureCfg e := rfl
@[simp] theorem State.setLine_sectorCfg (d : LineNo) (x : Line) (e : SectorNo) :
    (s.setLine d x).sectorCfg e = s.sectorCfg e := rfl
@[simp] theorem State.setLine_patternCfg (d : LineNo) (x : Line) (e : PatternNo) :
    (s.setLine d x).patternCfg e = s.patternCfg e := rfl
@[simp] theorem State.setLine_disabled (d : LineNo) (x : Line) (e : Target) :
    (s.setLine d x).disabled e = s.disabled e := rfl
@[simp] theorem State.setLine_entryOf (d : LineNo) (x : Line) (e : Target) :
    (s.setLine d x).entryOf e = s.entryOf e := rfl
@[simp] theorem State.setLine_hasEntry (d : LineNo) (x : Line) (e : Target) :
    (s.setLine d x).hasEntry e = s.hasEntry e := rfl
@[simp] theorem State.setLine_causeOf (d : LineNo) (x : Line) (e : Source) :
    (s.setLine d x).causeOf e = s.causeOf e := rfl
@[simp] theorem State.setLine_causeLevel (d : LineNo) (x : Line) (e : Source) :
    (s.setLine d x).causeLevel e = s.causeLevel e := rfl
@[simp] theorem State.setLine_after (d : LineNo) (x : Line) (e : Nat) : (s.setLine d x).after e = s.after e := rfl
@[simp] theorem State.setLine_since (d : LineNo) (x : Line) (e : Instant) :
    (s.setLine d x).since e = s.since e := rfl
@[simp] theorem State.setLine_expired (d : LineNo) (x : Line) (e : Option Instant) :
    (s.setLine d x).expired e = s.expired e := rfl
@[simp] theorem State.setLine_stamp (d : LineNo) (x : Line) : (s.setLine d x).stamp = s.stamp := rfl
@[simp] theorem State.setLine_holds (d : LineNo) (x : Line) (o : Obj) (g : FaultCode) :
    (s.setLine d x).holds o g = s.holds o g := rfl

/-! ### `State.setZone` -/

@[simp] theorem State.setZone_zone (d : ZoneNo) (x : Zone) (e : ZoneNo) :
    (s.setZone d x).zone e = if d = e then x else s.zone e := by
  simp only [State.zone, State.setZone, Vector.getElem_set, Fin.ext_iff]
@[simp] theorem State.setZone_zone_self (d : ZoneNo) (x : Zone) : (s.setZone d x).zone d = x := by
  simp [State.zone, State.setZone]
@[simp] theorem State.setZone_uptime (d : ZoneNo) (x : Zone) : (s.setZone d x).uptime = s.uptime := rfl
@[simp] theorem State.setZone_tenth (d : ZoneNo) (x : Zone) : (s.setZone d x).tenth = s.tenth := rfl
@[simp] theorem State.setZone_detectors (d : ZoneNo) (x : Zone) : (s.setZone d x).detectors = s.detectors := rfl
@[simp] theorem State.setZone_meters (d : ZoneNo) (x : Zone) : (s.setZone d x).meters = s.meters := rfl
@[simp] theorem State.setZone_stations (d : ZoneNo) (x : Zone) : (s.setZone d x).stations = s.stations := rfl
@[simp] theorem State.setZone_lines (d : ZoneNo) (x : Zone) : (s.setZone d x).lines = s.lines := rfl
@[simp] theorem State.setZone_causes (d : ZoneNo) (x : Zone) : (s.setZone d x).causes = s.causes := rfl
@[simp] theorem State.setZone_inputs (d : ZoneNo) (x : Zone) : (s.setZone d x).inputs = s.inputs := rfl
@[simp] theorem State.setZone_faults (d : ZoneNo) (x : Zone) : (s.setZone d x).faults = s.faults := rfl
@[simp] theorem State.setZone_faultOutput (d : ZoneNo) (x : Zone) : (s.setZone d x).faultOutput = s.faultOutput := rfl
@[simp] theorem State.setZone_shift (d : ZoneNo) (x : Zone) : (s.setZone d x).shift = s.shift := rfl
@[simp] theorem State.setZone_closures (d : ZoneNo) (x : Zone) : (s.setZone d x).closures = s.closures := rfl
@[simp] theorem State.setZone_sectors (d : ZoneNo) (x : Zone) : (s.setZone d x).sectors = s.sectors := rfl
@[simp] theorem State.setZone_dis (d : ZoneNo) (x : Zone) : (s.setZone d x).dis = s.dis := rfl
@[simp] theorem State.setZone_service (d : ZoneNo) (x : Zone) : (s.setZone d x).service = s.service := rfl
@[simp] theorem State.setZone_link (d : ZoneNo) (x : Zone) : (s.setZone d x).link = s.link := rfl
@[simp] theorem State.setZone_history (d : ZoneNo) (x : Zone) : (s.setZone d x).history = s.history := rfl
@[simp] theorem State.setZone_store (d : ZoneNo) (x : Zone) : (s.setZone d x).store = s.store := rfl
@[simp] theorem State.setZone_freeCount (d : ZoneNo) (x : Zone) : (s.setZone d x).freeCount = s.freeCount := rfl
@[simp] theorem State.setZone_pending (d : ZoneNo) (x : Zone) : (s.setZone d x).pending = s.pending := rfl
@[simp] theorem State.setZone_det (d : ZoneNo) (x : Zone) (e : DetNo) : (s.setZone d x).det e = s.det e := rfl
@[simp] theorem State.setZone_meter (d : ZoneNo) (x : Zone) (e : LineNo) : (s.setZone d x).meter e = s.meter e := rfl
@[simp] theorem State.setZone_station (d : ZoneNo) (x : Zone) (e : LineNo) :
    (s.setZone d x).station e = s.station e := rfl
@[simp] theorem State.setZone_line (d : ZoneNo) (x : Zone) (e : LineNo) : (s.setZone d x).line e = s.line e := rfl
@[simp] theorem State.setZone_input (d : ZoneNo) (x : Zone) (e : InputNo) :
    (s.setZone d x).input e = s.input e := rfl
@[simp] theorem State.setZone_closure (d : ZoneNo) (x : Zone) (e : ClosureNo) :
    (s.setZone d x).closure e = s.closure e := rfl
@[simp] theorem State.setZone_sector (d : ZoneNo) (x : Zone) (e : SectorNo) :
    (s.setZone d x).sector e = s.sector e := rfl
@[simp] theorem State.setZone_detCfg (d : ZoneNo) (x : Zone) (e : DetNo) :
    (s.setZone d x).detCfg e = s.detCfg e := rfl
@[simp] theorem State.setZone_lineCfg (d : ZoneNo) (x : Zone) (e : LineNo) :
    (s.setZone d x).lineCfg e = s.lineCfg e := rfl
@[simp] theorem State.setZone_inputCfg (d : ZoneNo) (x : Zone) (e : InputNo) :
    (s.setZone d x).inputCfg e = s.inputCfg e := rfl
@[simp] theorem State.setZone_closureCfg (d : ZoneNo) (x : Zone) (e : ClosureNo) :
    (s.setZone d x).closureCfg e = s.closureCfg e := rfl
@[simp] theorem State.setZone_sectorCfg (d : ZoneNo) (x : Zone) (e : SectorNo) :
    (s.setZone d x).sectorCfg e = s.sectorCfg e := rfl
@[simp] theorem State.setZone_patternCfg (d : ZoneNo) (x : Zone) (e : PatternNo) :
    (s.setZone d x).patternCfg e = s.patternCfg e := rfl
@[simp] theorem State.setZone_disabled (d : ZoneNo) (x : Zone) (e : Target) :
    (s.setZone d x).disabled e = s.disabled e := rfl
@[simp] theorem State.setZone_entryOf (d : ZoneNo) (x : Zone) (e : Target) :
    (s.setZone d x).entryOf e = s.entryOf e := rfl
@[simp] theorem State.setZone_hasEntry (d : ZoneNo) (x : Zone) (e : Target) :
    (s.setZone d x).hasEntry e = s.hasEntry e := rfl
@[simp] theorem State.setZone_causeOf (d : ZoneNo) (x : Zone) (e : Source) :
    (s.setZone d x).causeOf e = s.causeOf e := rfl
@[simp] theorem State.setZone_causeLevel (d : ZoneNo) (x : Zone) (e : Source) :
    (s.setZone d x).causeLevel e = s.causeLevel e := rfl
@[simp] theorem State.setZone_after (d : ZoneNo) (x : Zone) (e : Nat) : (s.setZone d x).after e = s.after e := rfl
@[simp] theorem State.setZone_since (d : ZoneNo) (x : Zone) (e : Instant) :
    (s.setZone d x).since e = s.since e := rfl
@[simp] theorem State.setZone_expired (d : ZoneNo) (x : Zone) (e : Option Instant) :
    (s.setZone d x).expired e = s.expired e := rfl
@[simp] theorem State.setZone_stamp (d : ZoneNo) (x : Zone) : (s.setZone d x).stamp = s.stamp := rfl
@[simp] theorem State.setZone_holds (d : ZoneNo) (x : Zone) (o : Obj) (g : FaultCode) :
    (s.setZone d x).holds o g = s.holds o g := rfl

/-! ### `State.setInput` -/

@[simp] theorem State.setInput_input (d : InputNo) (x : FireInput) (e : InputNo) :
    (s.setInput d x).input e = if d = e then x else s.input e := by
  simp only [State.input, State.setInput, Vector.getElem_set, Fin.ext_iff]
@[simp] theorem State.setInput_input_self (d : InputNo) (x : FireInput) : (s.setInput d x).input d = x := by
  simp [State.input, State.setInput]
@[simp] theorem State.setInput_uptime (d : InputNo) (x : FireInput) : (s.setInput d x).uptime = s.uptime := rfl
@[simp] theorem State.setInput_tenth (d : InputNo) (x : FireInput) : (s.setInput d x).tenth = s.tenth := rfl
@[simp] theorem State.setInput_detectors (d : InputNo) (x : FireInput) : (s.setInput d x).detectors = s.detectors := rfl
@[simp] theorem State.setInput_meters (d : InputNo) (x : FireInput) : (s.setInput d x).meters = s.meters := rfl
@[simp] theorem State.setInput_stations (d : InputNo) (x : FireInput) : (s.setInput d x).stations = s.stations := rfl
@[simp] theorem State.setInput_lines (d : InputNo) (x : FireInput) : (s.setInput d x).lines = s.lines := rfl
@[simp] theorem State.setInput_causes (d : InputNo) (x : FireInput) : (s.setInput d x).causes = s.causes := rfl
@[simp] theorem State.setInput_zones (d : InputNo) (x : FireInput) : (s.setInput d x).zones = s.zones := rfl
@[simp] theorem State.setInput_faults (d : InputNo) (x : FireInput) : (s.setInput d x).faults = s.faults := rfl
@[simp] theorem State.setInput_faultOutput (d : InputNo) (x : FireInput) : (s.setInput d x).faultOutput = s.faultOutput := rfl
@[simp] theorem State.setInput_shift (d : InputNo) (x : FireInput) : (s.setInput d x).shift = s.shift := rfl
@[simp] theorem State.setInput_closures (d : InputNo) (x : FireInput) : (s.setInput d x).closures = s.closures := rfl
@[simp] theorem State.setInput_sectors (d : InputNo) (x : FireInput) : (s.setInput d x).sectors = s.sectors := rfl
@[simp] theorem State.setInput_dis (d : InputNo) (x : FireInput) : (s.setInput d x).dis = s.dis := rfl
@[simp] theorem State.setInput_service (d : InputNo) (x : FireInput) : (s.setInput d x).service = s.service := rfl
@[simp] theorem State.setInput_link (d : InputNo) (x : FireInput) : (s.setInput d x).link = s.link := rfl
@[simp] theorem State.setInput_history (d : InputNo) (x : FireInput) : (s.setInput d x).history = s.history := rfl
@[simp] theorem State.setInput_store (d : InputNo) (x : FireInput) : (s.setInput d x).store = s.store := rfl
@[simp] theorem State.setInput_freeCount (d : InputNo) (x : FireInput) : (s.setInput d x).freeCount = s.freeCount := rfl
@[simp] theorem State.setInput_pending (d : InputNo) (x : FireInput) : (s.setInput d x).pending = s.pending := rfl
@[simp] theorem State.setInput_det (d : InputNo) (x : FireInput) (e : DetNo) :
    (s.setInput d x).det e = s.det e := rfl
@[simp] theorem State.setInput_meter (d : InputNo) (x : FireInput) (e : LineNo) :
    (s.setInput d x).meter e = s.meter e := rfl
@[simp] theorem State.setInput_station (d : InputNo) (x : FireInput) (e : LineNo) :
    (s.setInput d x).station e = s.station e := rfl
@[simp] theorem State.setInput_line (d : InputNo) (x : FireInput) (e : LineNo) :
    (s.setInput d x).line e = s.line e := rfl
@[simp] theorem State.setInput_zone (d : InputNo) (x : FireInput) (e : ZoneNo) :
    (s.setInput d x).zone e = s.zone e := rfl
@[simp] theorem State.setInput_closure (d : InputNo) (x : FireInput) (e : ClosureNo) :
    (s.setInput d x).closure e = s.closure e := rfl
@[simp] theorem State.setInput_sector (d : InputNo) (x : FireInput) (e : SectorNo) :
    (s.setInput d x).sector e = s.sector e := rfl
@[simp] theorem State.setInput_detCfg (d : InputNo) (x : FireInput) (e : DetNo) :
    (s.setInput d x).detCfg e = s.detCfg e := rfl
@[simp] theorem State.setInput_lineCfg (d : InputNo) (x : FireInput) (e : LineNo) :
    (s.setInput d x).lineCfg e = s.lineCfg e := rfl
@[simp] theorem State.setInput_inputCfg (d : InputNo) (x : FireInput) (e : InputNo) :
    (s.setInput d x).inputCfg e = s.inputCfg e := rfl
@[simp] theorem State.setInput_closureCfg (d : InputNo) (x : FireInput) (e : ClosureNo) :
    (s.setInput d x).closureCfg e = s.closureCfg e := rfl
@[simp] theorem State.setInput_sectorCfg (d : InputNo) (x : FireInput) (e : SectorNo) :
    (s.setInput d x).sectorCfg e = s.sectorCfg e := rfl
@[simp] theorem State.setInput_patternCfg (d : InputNo) (x : FireInput) (e : PatternNo) :
    (s.setInput d x).patternCfg e = s.patternCfg e := rfl
@[simp] theorem State.setInput_disabled (d : InputNo) (x : FireInput) (e : Target) :
    (s.setInput d x).disabled e = s.disabled e := rfl
@[simp] theorem State.setInput_entryOf (d : InputNo) (x : FireInput) (e : Target) :
    (s.setInput d x).entryOf e = s.entryOf e := rfl
@[simp] theorem State.setInput_hasEntry (d : InputNo) (x : FireInput) (e : Target) :
    (s.setInput d x).hasEntry e = s.hasEntry e := rfl
@[simp] theorem State.setInput_causeOf (d : InputNo) (x : FireInput) (e : Source) :
    (s.setInput d x).causeOf e = s.causeOf e := rfl
@[simp] theorem State.setInput_causeLevel (d : InputNo) (x : FireInput) (e : Source) :
    (s.setInput d x).causeLevel e = s.causeLevel e := rfl
@[simp] theorem State.setInput_after (d : InputNo) (x : FireInput) (e : Nat) :
    (s.setInput d x).after e = s.after e := rfl
@[simp] theorem State.setInput_since (d : InputNo) (x : FireInput) (e : Instant) :
    (s.setInput d x).since e = s.since e := rfl
@[simp] theorem State.setInput_expired (d : InputNo) (x : FireInput) (e : Option Instant) :
    (s.setInput d x).expired e = s.expired e := rfl
@[simp] theorem State.setInput_stamp (d : InputNo) (x : FireInput) : (s.setInput d x).stamp = s.stamp := rfl
@[simp] theorem State.setInput_holds (d : InputNo) (x : FireInput) (o : Obj) (g : FaultCode) :
    (s.setInput d x).holds o g = s.holds o g := rfl

/-! ### `State.setClosure` -/

@[simp] theorem State.setClosure_closure (d : ClosureNo) (x : Closure) (e : ClosureNo) :
    (s.setClosure d x).closure e = if d = e then x else s.closure e := by
  simp only [State.closure, State.setClosure, Vector.getElem_set, Fin.ext_iff]
@[simp] theorem State.setClosure_closure_self (d : ClosureNo) (x : Closure) : (s.setClosure d x).closure d = x := by
  simp [State.closure, State.setClosure]
@[simp] theorem State.setClosure_uptime (d : ClosureNo) (x : Closure) : (s.setClosure d x).uptime = s.uptime := rfl
@[simp] theorem State.setClosure_tenth (d : ClosureNo) (x : Closure) : (s.setClosure d x).tenth = s.tenth := rfl
@[simp] theorem State.setClosure_detectors (d : ClosureNo) (x : Closure) : (s.setClosure d x).detectors = s.detectors := rfl
@[simp] theorem State.setClosure_meters (d : ClosureNo) (x : Closure) : (s.setClosure d x).meters = s.meters := rfl
@[simp] theorem State.setClosure_stations (d : ClosureNo) (x : Closure) : (s.setClosure d x).stations = s.stations := rfl
@[simp] theorem State.setClosure_lines (d : ClosureNo) (x : Closure) : (s.setClosure d x).lines = s.lines := rfl
@[simp] theorem State.setClosure_causes (d : ClosureNo) (x : Closure) : (s.setClosure d x).causes = s.causes := rfl
@[simp] theorem State.setClosure_zones (d : ClosureNo) (x : Closure) : (s.setClosure d x).zones = s.zones := rfl
@[simp] theorem State.setClosure_inputs (d : ClosureNo) (x : Closure) : (s.setClosure d x).inputs = s.inputs := rfl
@[simp] theorem State.setClosure_faults (d : ClosureNo) (x : Closure) : (s.setClosure d x).faults = s.faults := rfl
@[simp] theorem State.setClosure_faultOutput (d : ClosureNo) (x : Closure) : (s.setClosure d x).faultOutput = s.faultOutput := rfl
@[simp] theorem State.setClosure_shift (d : ClosureNo) (x : Closure) : (s.setClosure d x).shift = s.shift := rfl
@[simp] theorem State.setClosure_sectors (d : ClosureNo) (x : Closure) : (s.setClosure d x).sectors = s.sectors := rfl
@[simp] theorem State.setClosure_dis (d : ClosureNo) (x : Closure) : (s.setClosure d x).dis = s.dis := rfl
@[simp] theorem State.setClosure_service (d : ClosureNo) (x : Closure) : (s.setClosure d x).service = s.service := rfl
@[simp] theorem State.setClosure_link (d : ClosureNo) (x : Closure) : (s.setClosure d x).link = s.link := rfl
@[simp] theorem State.setClosure_history (d : ClosureNo) (x : Closure) : (s.setClosure d x).history = s.history := rfl
@[simp] theorem State.setClosure_store (d : ClosureNo) (x : Closure) : (s.setClosure d x).store = s.store := rfl
@[simp] theorem State.setClosure_freeCount (d : ClosureNo) (x : Closure) : (s.setClosure d x).freeCount = s.freeCount := rfl
@[simp] theorem State.setClosure_pending (d : ClosureNo) (x : Closure) : (s.setClosure d x).pending = s.pending := rfl
@[simp] theorem State.setClosure_det (d : ClosureNo) (x : Closure) (e : DetNo) :
    (s.setClosure d x).det e = s.det e := rfl
@[simp] theorem State.setClosure_meter (d : ClosureNo) (x : Closure) (e : LineNo) :
    (s.setClosure d x).meter e = s.meter e := rfl
@[simp] theorem State.setClosure_station (d : ClosureNo) (x : Closure) (e : LineNo) :
    (s.setClosure d x).station e = s.station e := rfl
@[simp] theorem State.setClosure_line (d : ClosureNo) (x : Closure) (e : LineNo) :
    (s.setClosure d x).line e = s.line e := rfl
@[simp] theorem State.setClosure_zone (d : ClosureNo) (x : Closure) (e : ZoneNo) :
    (s.setClosure d x).zone e = s.zone e := rfl
@[simp] theorem State.setClosure_input (d : ClosureNo) (x : Closure) (e : InputNo) :
    (s.setClosure d x).input e = s.input e := rfl
@[simp] theorem State.setClosure_sector (d : ClosureNo) (x : Closure) (e : SectorNo) :
    (s.setClosure d x).sector e = s.sector e := rfl
@[simp] theorem State.setClosure_detCfg (d : ClosureNo) (x : Closure) (e : DetNo) :
    (s.setClosure d x).detCfg e = s.detCfg e := rfl
@[simp] theorem State.setClosure_lineCfg (d : ClosureNo) (x : Closure) (e : LineNo) :
    (s.setClosure d x).lineCfg e = s.lineCfg e := rfl
@[simp] theorem State.setClosure_inputCfg (d : ClosureNo) (x : Closure) (e : InputNo) :
    (s.setClosure d x).inputCfg e = s.inputCfg e := rfl
@[simp] theorem State.setClosure_closureCfg (d : ClosureNo) (x : Closure) (e : ClosureNo) :
    (s.setClosure d x).closureCfg e = s.closureCfg e := rfl
@[simp] theorem State.setClosure_sectorCfg (d : ClosureNo) (x : Closure) (e : SectorNo) :
    (s.setClosure d x).sectorCfg e = s.sectorCfg e := rfl
@[simp] theorem State.setClosure_patternCfg (d : ClosureNo) (x : Closure) (e : PatternNo) :
    (s.setClosure d x).patternCfg e = s.patternCfg e := rfl
@[simp] theorem State.setClosure_disabled (d : ClosureNo) (x : Closure) (e : Target) :
    (s.setClosure d x).disabled e = s.disabled e := rfl
@[simp] theorem State.setClosure_entryOf (d : ClosureNo) (x : Closure) (e : Target) :
    (s.setClosure d x).entryOf e = s.entryOf e := rfl
@[simp] theorem State.setClosure_hasEntry (d : ClosureNo) (x : Closure) (e : Target) :
    (s.setClosure d x).hasEntry e = s.hasEntry e := rfl
@[simp] theorem State.setClosure_causeOf (d : ClosureNo) (x : Closure) (e : Source) :
    (s.setClosure d x).causeOf e = s.causeOf e := rfl
@[simp] theorem State.setClosure_causeLevel (d : ClosureNo) (x : Closure) (e : Source) :
    (s.setClosure d x).causeLevel e = s.causeLevel e := rfl
@[simp] theorem State.setClosure_after (d : ClosureNo) (x : Closure) (e : Nat) :
    (s.setClosure d x).after e = s.after e := rfl
@[simp] theorem State.setClosure_since (d : ClosureNo) (x : Closure) (e : Instant) :
    (s.setClosure d x).since e = s.since e := rfl
@[simp] theorem State.setClosure_expired (d : ClosureNo) (x : Closure) (e : Option Instant) :
    (s.setClosure d x).expired e = s.expired e := rfl
@[simp] theorem State.setClosure_stamp (d : ClosureNo) (x : Closure) : (s.setClosure d x).stamp = s.stamp := rfl
@[simp] theorem State.setClosure_holds (d : ClosureNo) (x : Closure) (o : Obj) (g : FaultCode) :
    (s.setClosure d x).holds o g = s.holds o g := rfl

/-! ### `State.setSector` -/

@[simp] theorem State.setSector_sector (d : SectorNo) (x : Sector) (e : SectorNo) :
    (s.setSector d x).sector e = if d = e then x else s.sector e := by
  simp only [State.sector, State.setSector, Vector.getElem_set, Fin.ext_iff]
@[simp] theorem State.setSector_sector_self (d : SectorNo) (x : Sector) : (s.setSector d x).sector d = x := by
  simp [State.sector, State.setSector]
@[simp] theorem State.setSector_uptime (d : SectorNo) (x : Sector) : (s.setSector d x).uptime = s.uptime := rfl
@[simp] theorem State.setSector_tenth (d : SectorNo) (x : Sector) : (s.setSector d x).tenth = s.tenth := rfl
@[simp] theorem State.setSector_detectors (d : SectorNo) (x : Sector) : (s.setSector d x).detectors = s.detectors := rfl
@[simp] theorem State.setSector_meters (d : SectorNo) (x : Sector) : (s.setSector d x).meters = s.meters := rfl
@[simp] theorem State.setSector_stations (d : SectorNo) (x : Sector) : (s.setSector d x).stations = s.stations := rfl
@[simp] theorem State.setSector_lines (d : SectorNo) (x : Sector) : (s.setSector d x).lines = s.lines := rfl
@[simp] theorem State.setSector_causes (d : SectorNo) (x : Sector) : (s.setSector d x).causes = s.causes := rfl
@[simp] theorem State.setSector_zones (d : SectorNo) (x : Sector) : (s.setSector d x).zones = s.zones := rfl
@[simp] theorem State.setSector_inputs (d : SectorNo) (x : Sector) : (s.setSector d x).inputs = s.inputs := rfl
@[simp] theorem State.setSector_faults (d : SectorNo) (x : Sector) : (s.setSector d x).faults = s.faults := rfl
@[simp] theorem State.setSector_faultOutput (d : SectorNo) (x : Sector) : (s.setSector d x).faultOutput = s.faultOutput := rfl
@[simp] theorem State.setSector_shift (d : SectorNo) (x : Sector) : (s.setSector d x).shift = s.shift := rfl
@[simp] theorem State.setSector_closures (d : SectorNo) (x : Sector) : (s.setSector d x).closures = s.closures := rfl
@[simp] theorem State.setSector_dis (d : SectorNo) (x : Sector) : (s.setSector d x).dis = s.dis := rfl
@[simp] theorem State.setSector_service (d : SectorNo) (x : Sector) : (s.setSector d x).service = s.service := rfl
@[simp] theorem State.setSector_link (d : SectorNo) (x : Sector) : (s.setSector d x).link = s.link := rfl
@[simp] theorem State.setSector_history (d : SectorNo) (x : Sector) : (s.setSector d x).history = s.history := rfl
@[simp] theorem State.setSector_store (d : SectorNo) (x : Sector) : (s.setSector d x).store = s.store := rfl
@[simp] theorem State.setSector_freeCount (d : SectorNo) (x : Sector) : (s.setSector d x).freeCount = s.freeCount := rfl
@[simp] theorem State.setSector_pending (d : SectorNo) (x : Sector) : (s.setSector d x).pending = s.pending := rfl
@[simp] theorem State.setSector_det (d : SectorNo) (x : Sector) (e : DetNo) :
    (s.setSector d x).det e = s.det e := rfl
@[simp] theorem State.setSector_meter (d : SectorNo) (x : Sector) (e : LineNo) :
    (s.setSector d x).meter e = s.meter e := rfl
@[simp] theorem State.setSector_station (d : SectorNo) (x : Sector) (e : LineNo) :
    (s.setSector d x).station e = s.station e := rfl
@[simp] theorem State.setSector_line (d : SectorNo) (x : Sector) (e : LineNo) :
    (s.setSector d x).line e = s.line e := rfl
@[simp] theorem State.setSector_zone (d : SectorNo) (x : Sector) (e : ZoneNo) :
    (s.setSector d x).zone e = s.zone e := rfl
@[simp] theorem State.setSector_input (d : SectorNo) (x : Sector) (e : InputNo) :
    (s.setSector d x).input e = s.input e := rfl
@[simp] theorem State.setSector_closure (d : SectorNo) (x : Sector) (e : ClosureNo) :
    (s.setSector d x).closure e = s.closure e := rfl
@[simp] theorem State.setSector_detCfg (d : SectorNo) (x : Sector) (e : DetNo) :
    (s.setSector d x).detCfg e = s.detCfg e := rfl
@[simp] theorem State.setSector_lineCfg (d : SectorNo) (x : Sector) (e : LineNo) :
    (s.setSector d x).lineCfg e = s.lineCfg e := rfl
@[simp] theorem State.setSector_inputCfg (d : SectorNo) (x : Sector) (e : InputNo) :
    (s.setSector d x).inputCfg e = s.inputCfg e := rfl
@[simp] theorem State.setSector_closureCfg (d : SectorNo) (x : Sector) (e : ClosureNo) :
    (s.setSector d x).closureCfg e = s.closureCfg e := rfl
@[simp] theorem State.setSector_sectorCfg (d : SectorNo) (x : Sector) (e : SectorNo) :
    (s.setSector d x).sectorCfg e = s.sectorCfg e := rfl
@[simp] theorem State.setSector_patternCfg (d : SectorNo) (x : Sector) (e : PatternNo) :
    (s.setSector d x).patternCfg e = s.patternCfg e := rfl
@[simp] theorem State.setSector_disabled (d : SectorNo) (x : Sector) (e : Target) :
    (s.setSector d x).disabled e = s.disabled e := rfl
@[simp] theorem State.setSector_entryOf (d : SectorNo) (x : Sector) (e : Target) :
    (s.setSector d x).entryOf e = s.entryOf e := rfl
@[simp] theorem State.setSector_hasEntry (d : SectorNo) (x : Sector) (e : Target) :
    (s.setSector d x).hasEntry e = s.hasEntry e := rfl
@[simp] theorem State.setSector_causeOf (d : SectorNo) (x : Sector) (e : Source) :
    (s.setSector d x).causeOf e = s.causeOf e := rfl
@[simp] theorem State.setSector_causeLevel (d : SectorNo) (x : Sector) (e : Source) :
    (s.setSector d x).causeLevel e = s.causeLevel e := rfl
@[simp] theorem State.setSector_after (d : SectorNo) (x : Sector) (e : Nat) :
    (s.setSector d x).after e = s.after e := rfl
@[simp] theorem State.setSector_since (d : SectorNo) (x : Sector) (e : Instant) :
    (s.setSector d x).since e = s.since e := rfl
@[simp] theorem State.setSector_expired (d : SectorNo) (x : Sector) (e : Option Instant) :
    (s.setSector d x).expired e = s.expired e := rfl
@[simp] theorem State.setSector_stamp (d : SectorNo) (x : Sector) : (s.setSector d x).stamp = s.stamp := rfl
@[simp] theorem State.setSector_holds (d : SectorNo) (x : Sector) (o : Obj) (g : FaultCode) :
    (s.setSector d x).holds o g = s.holds o g := rfl

/-! ### `State.record` -/

@[simp] theorem State.record_uptime (k : RecordKind) (a b : Byte) (d : Detail) : (s.record k a b d).uptime = s.uptime := by
  simp only [State.record]
@[simp] theorem State.record_tenth (k : RecordKind) (a b : Byte) (d : Detail) : (s.record k a b d).tenth = s.tenth := by
  simp only [State.record]
@[simp] theorem State.record_detectors (k : RecordKind) (a b : Byte) (d : Detail) : (s.record k a b d).detectors = s.detectors := by
  simp only [State.record]
@[simp] theorem State.record_meters (k : RecordKind) (a b : Byte) (d : Detail) : (s.record k a b d).meters = s.meters := by
  simp only [State.record]
@[simp] theorem State.record_stations (k : RecordKind) (a b : Byte) (d : Detail) : (s.record k a b d).stations = s.stations := by
  simp only [State.record]
@[simp] theorem State.record_lines (k : RecordKind) (a b : Byte) (d : Detail) : (s.record k a b d).lines = s.lines := by
  simp only [State.record]
@[simp] theorem State.record_causes (k : RecordKind) (a b : Byte) (d : Detail) : (s.record k a b d).causes = s.causes := by
  simp only [State.record]
@[simp] theorem State.record_zones (k : RecordKind) (a b : Byte) (d : Detail) : (s.record k a b d).zones = s.zones := by
  simp only [State.record]
@[simp] theorem State.record_inputs (k : RecordKind) (a b : Byte) (d : Detail) : (s.record k a b d).inputs = s.inputs := by
  simp only [State.record]
@[simp] theorem State.record_faults (k : RecordKind) (a b : Byte) (d : Detail) : (s.record k a b d).faults = s.faults := by
  simp only [State.record]
@[simp] theorem State.record_faultOutput (k : RecordKind) (a b : Byte) (d : Detail) : (s.record k a b d).faultOutput = s.faultOutput := by
  simp only [State.record]
@[simp] theorem State.record_shift (k : RecordKind) (a b : Byte) (d : Detail) : (s.record k a b d).shift = s.shift := by
  simp only [State.record]
@[simp] theorem State.record_closures (k : RecordKind) (a b : Byte) (d : Detail) : (s.record k a b d).closures = s.closures := by
  simp only [State.record]
@[simp] theorem State.record_sectors (k : RecordKind) (a b : Byte) (d : Detail) : (s.record k a b d).sectors = s.sectors := by
  simp only [State.record]
@[simp] theorem State.record_dis (k : RecordKind) (a b : Byte) (d : Detail) : (s.record k a b d).dis = s.dis := by
  simp only [State.record]
@[simp] theorem State.record_service (k : RecordKind) (a b : Byte) (d : Detail) : (s.record k a b d).service = s.service := by
  simp only [State.record]
@[simp] theorem State.record_link (k : RecordKind) (a b : Byte) (d : Detail) : (s.record k a b d).link = s.link := by
  simp only [State.record]
@[simp] theorem State.record_store (k : RecordKind) (a b : Byte) (d : Detail) : (s.record k a b d).store = s.store := by
  simp only [State.record]
@[simp] theorem State.record_freeCount (k : RecordKind) (a b : Byte) (d : Detail) : (s.record k a b d).freeCount = s.freeCount := by
  simp only [State.record]
@[simp] theorem State.record_pending (k : RecordKind) (a b : Byte) (d : Detail) : (s.record k a b d).pending = s.pending := by
  simp only [State.record]
@[simp] theorem State.record_det (k : RecordKind) (a b : Byte) (d : Detail) (e : DetNo) :
    (s.record k a b d).det e = s.det e := by
  simp [State.det]
@[simp] theorem State.record_meter (k : RecordKind) (a b : Byte) (d : Detail) (e : LineNo) :
    (s.record k a b d).meter e = s.meter e := by
  simp [State.meter]
@[simp] theorem State.record_station (k : RecordKind) (a b : Byte) (d : Detail) (e : LineNo) :
    (s.record k a b d).station e = s.station e := by
  simp [State.station]
@[simp] theorem State.record_line (k : RecordKind) (a b : Byte) (d : Detail) (e : LineNo) :
    (s.record k a b d).line e = s.line e := by
  simp [State.line]
@[simp] theorem State.record_zone (k : RecordKind) (a b : Byte) (d : Detail) (e : ZoneNo) :
    (s.record k a b d).zone e = s.zone e := by
  simp [State.zone]
@[simp] theorem State.record_input (k : RecordKind) (a b : Byte) (d : Detail) (e : InputNo) :
    (s.record k a b d).input e = s.input e := by
  simp [State.input]
@[simp] theorem State.record_closure (k : RecordKind) (a b : Byte) (d : Detail) (e : ClosureNo) :
    (s.record k a b d).closure e = s.closure e := by
  simp [State.closure]
@[simp] theorem State.record_sector (k : RecordKind) (a b : Byte) (d : Detail) (e : SectorNo) :
    (s.record k a b d).sector e = s.sector e := by
  simp [State.sector]
@[simp] theorem State.record_detCfg (k : RecordKind) (a b : Byte) (d : Detail) (e : DetNo) :
    (s.record k a b d).detCfg e = s.detCfg e := by
  simp [State.detCfg]
@[simp] theorem State.record_lineCfg (k : RecordKind) (a b : Byte) (d : Detail) (e : LineNo) :
    (s.record k a b d).lineCfg e = s.lineCfg e := by
  simp [State.lineCfg]
@[simp] theorem State.record_inputCfg (k : RecordKind) (a b : Byte) (d : Detail) (e : InputNo) :
    (s.record k a b d).inputCfg e = s.inputCfg e := by
  simp [State.inputCfg]
@[simp] theorem State.record_closureCfg (k : RecordKind) (a b : Byte) (d : Detail) (e : ClosureNo) :
    (s.record k a b d).closureCfg e = s.closureCfg e := by
  simp [State.closureCfg]
@[simp] theorem State.record_sectorCfg (k : RecordKind) (a b : Byte) (d : Detail) (e : SectorNo) :
    (s.record k a b d).sectorCfg e = s.sectorCfg e := by
  simp [State.sectorCfg]
@[simp] theorem State.record_patternCfg (k : RecordKind) (a b : Byte) (d : Detail) (e : PatternNo) :
    (s.record k a b d).patternCfg e = s.patternCfg e := by
  simp [State.patternCfg]
@[simp] theorem State.record_disabled (k : RecordKind) (a b : Byte) (d : Detail) (e : Target) :
    (s.record k a b d).disabled e = s.disabled e := by
  simp [State.disabled, State.entryOf]
@[simp] theorem State.record_entryOf (k : RecordKind) (a b : Byte) (d : Detail) (e : Target) :
    (s.record k a b d).entryOf e = s.entryOf e := by
  simp [State.entryOf]
@[simp] theorem State.record_hasEntry (k : RecordKind) (a b : Byte) (d : Detail) (e : Target) :
    (s.record k a b d).hasEntry e = s.hasEntry e := by
  simp [State.hasEntry, State.entryOf]
@[simp] theorem State.record_causeOf (k : RecordKind) (a b : Byte) (d : Detail) (e : Source) :
    (s.record k a b d).causeOf e = s.causeOf e := by
  simp [State.causeOf]
@[simp] theorem State.record_causeLevel (k : RecordKind) (a b : Byte) (d : Detail) (e : Source) :
    (s.record k a b d).causeLevel e = s.causeLevel e := by
  simp [State.causeLevel, State.causeOf]
@[simp] theorem State.record_after (k : RecordKind) (a b : Byte) (d : Detail) (e : Nat) :
    (s.record k a b d).after e = s.after e := by
  simp [State.after]
@[simp] theorem State.record_since (k : RecordKind) (a b : Byte) (d : Detail) (e : Instant) :
    (s.record k a b d).since e = s.since e := by
  simp [State.since]
@[simp] theorem State.record_expired (k : RecordKind) (a b : Byte) (d : Detail) (e : Option Instant) :
    (s.record k a b d).expired e = s.expired e := by
  simp [State.expired]
@[simp] theorem State.record_stamp (k : RecordKind) (a b : Byte) (d : Detail) :
    (s.record k a b d).stamp = s.stamp := by
  simp [State.stamp]
@[simp] theorem State.record_holds (k : RecordKind) (a b : Byte) (d : Detail) (o : Obj) (g : FaultCode) :
    (s.record k a b d).holds o g = s.holds o g := by
  simp [State.holds]

/-! ### `State.report` -/

@[simp] theorem State.report_uptime (q : Queue) (f : Frame) : (s.report q f).uptime = s.uptime := by
  simp only [State.report]
@[simp] theorem State.report_tenth (q : Queue) (f : Frame) : (s.report q f).tenth = s.tenth := by
  simp only [State.report]
@[simp] theorem State.report_detectors (q : Queue) (f : Frame) : (s.report q f).detectors = s.detectors := by
  simp only [State.report]
@[simp] theorem State.report_meters (q : Queue) (f : Frame) : (s.report q f).meters = s.meters := by
  simp only [State.report]
@[simp] theorem State.report_stations (q : Queue) (f : Frame) : (s.report q f).stations = s.stations := by
  simp only [State.report]
@[simp] theorem State.report_lines (q : Queue) (f : Frame) : (s.report q f).lines = s.lines := by
  simp only [State.report]
@[simp] theorem State.report_causes (q : Queue) (f : Frame) : (s.report q f).causes = s.causes := by
  simp only [State.report]
@[simp] theorem State.report_zones (q : Queue) (f : Frame) : (s.report q f).zones = s.zones := by
  simp only [State.report]
@[simp] theorem State.report_inputs (q : Queue) (f : Frame) : (s.report q f).inputs = s.inputs := by
  simp only [State.report]
@[simp] theorem State.report_faults (q : Queue) (f : Frame) : (s.report q f).faults = s.faults := by
  simp only [State.report]
@[simp] theorem State.report_faultOutput (q : Queue) (f : Frame) : (s.report q f).faultOutput = s.faultOutput := by
  simp only [State.report]
@[simp] theorem State.report_shift (q : Queue) (f : Frame) : (s.report q f).shift = s.shift := by
  simp only [State.report]
@[simp] theorem State.report_closures (q : Queue) (f : Frame) : (s.report q f).closures = s.closures := by
  simp only [State.report]
@[simp] theorem State.report_sectors (q : Queue) (f : Frame) : (s.report q f).sectors = s.sectors := by
  simp only [State.report]
@[simp] theorem State.report_dis (q : Queue) (f : Frame) : (s.report q f).dis = s.dis := by
  simp only [State.report]
@[simp] theorem State.report_service (q : Queue) (f : Frame) : (s.report q f).service = s.service := by
  simp only [State.report]
@[simp] theorem State.report_history (q : Queue) (f : Frame) : (s.report q f).history = s.history := by
  simp only [State.report]
@[simp] theorem State.report_store (q : Queue) (f : Frame) : (s.report q f).store = s.store := by
  simp only [State.report]
@[simp] theorem State.report_freeCount (q : Queue) (f : Frame) : (s.report q f).freeCount = s.freeCount := by
  simp only [State.report]
@[simp] theorem State.report_pending (q : Queue) (f : Frame) : (s.report q f).pending = s.pending := by
  simp only [State.report]
@[simp] theorem State.report_det (q : Queue) (f : Frame) (e : DetNo) : (s.report q f).det e = s.det e := by
  simp [State.det]
@[simp] theorem State.report_meter (q : Queue) (f : Frame) (e : LineNo) : (s.report q f).meter e = s.meter e := by
  simp [State.meter]
@[simp] theorem State.report_station (q : Queue) (f : Frame) (e : LineNo) :
    (s.report q f).station e = s.station e := by
  simp [State.station]
@[simp] theorem State.report_line (q : Queue) (f : Frame) (e : LineNo) : (s.report q f).line e = s.line e := by
  simp [State.line]
@[simp] theorem State.report_zone (q : Queue) (f : Frame) (e : ZoneNo) : (s.report q f).zone e = s.zone e := by
  simp [State.zone]
@[simp] theorem State.report_input (q : Queue) (f : Frame) (e : InputNo) : (s.report q f).input e = s.input e := by
  simp [State.input]
@[simp] theorem State.report_closure (q : Queue) (f : Frame) (e : ClosureNo) :
    (s.report q f).closure e = s.closure e := by
  simp [State.closure]
@[simp] theorem State.report_sector (q : Queue) (f : Frame) (e : SectorNo) :
    (s.report q f).sector e = s.sector e := by
  simp [State.sector]
@[simp] theorem State.report_detCfg (q : Queue) (f : Frame) (e : DetNo) : (s.report q f).detCfg e = s.detCfg e := by
  simp [State.detCfg]
@[simp] theorem State.report_lineCfg (q : Queue) (f : Frame) (e : LineNo) :
    (s.report q f).lineCfg e = s.lineCfg e := by
  simp [State.lineCfg]
@[simp] theorem State.report_inputCfg (q : Queue) (f : Frame) (e : InputNo) :
    (s.report q f).inputCfg e = s.inputCfg e := by
  simp [State.inputCfg]
@[simp] theorem State.report_closureCfg (q : Queue) (f : Frame) (e : ClosureNo) :
    (s.report q f).closureCfg e = s.closureCfg e := by
  simp [State.closureCfg]
@[simp] theorem State.report_sectorCfg (q : Queue) (f : Frame) (e : SectorNo) :
    (s.report q f).sectorCfg e = s.sectorCfg e := by
  simp [State.sectorCfg]
@[simp] theorem State.report_patternCfg (q : Queue) (f : Frame) (e : PatternNo) :
    (s.report q f).patternCfg e = s.patternCfg e := by
  simp [State.patternCfg]
@[simp] theorem State.report_disabled (q : Queue) (f : Frame) (e : Target) :
    (s.report q f).disabled e = s.disabled e := by
  simp [State.disabled, State.entryOf]
@[simp] theorem State.report_entryOf (q : Queue) (f : Frame) (e : Target) :
    (s.report q f).entryOf e = s.entryOf e := by
  simp [State.entryOf]
@[simp] theorem State.report_hasEntry (q : Queue) (f : Frame) (e : Target) :
    (s.report q f).hasEntry e = s.hasEntry e := by
  simp [State.hasEntry, State.entryOf]
@[simp] theorem State.report_causeOf (q : Queue) (f : Frame) (e : Source) :
    (s.report q f).causeOf e = s.causeOf e := by
  simp [State.causeOf]
@[simp] theorem State.report_causeLevel (q : Queue) (f : Frame) (e : Source) :
    (s.report q f).causeLevel e = s.causeLevel e := by
  simp [State.causeLevel, State.causeOf]
@[simp] theorem State.report_after (q : Queue) (f : Frame) (e : Nat) : (s.report q f).after e = s.after e := by
  simp [State.after]
@[simp] theorem State.report_since (q : Queue) (f : Frame) (e : Instant) : (s.report q f).since e = s.since e := by
  simp [State.since]
@[simp] theorem State.report_expired (q : Queue) (f : Frame) (e : Option Instant) :
    (s.report q f).expired e = s.expired e := by
  simp [State.expired]
@[simp] theorem State.report_stamp (q : Queue) (f : Frame) : (s.report q f).stamp = s.stamp := by
  simp [State.stamp]
@[simp] theorem State.report_holds (q : Queue) (f : Frame) (o : Obj) (g : FaultCode) :
    (s.report q f).holds o g = s.holds o g := by
  simp [State.holds]

/-! ### `State.event` -/

@[simp] theorem State.event_uptime (q : Queue) (k : RecordKind) (r a b : Byte) (d : Detail) : (s.event q k r a b d).uptime = s.uptime := by
  simp [State.event]
@[simp] theorem State.event_tenth (q : Queue) (k : RecordKind) (r a b : Byte) (d : Detail) : (s.event q k r a b d).tenth = s.tenth := by
  simp [State.event]
@[simp] theorem State.event_detectors (q : Queue) (k : RecordKind) (r a b : Byte) (d : Detail) : (s.event q k r a b d).detectors = s.detectors := by
  simp [State.event]
@[simp] theorem State.event_meters (q : Queue) (k : RecordKind) (r a b : Byte) (d : Detail) : (s.event q k r a b d).meters = s.meters := by
  simp [State.event]
@[simp] theorem State.event_stations (q : Queue) (k : RecordKind) (r a b : Byte) (d : Detail) : (s.event q k r a b d).stations = s.stations := by
  simp [State.event]
@[simp] theorem State.event_lines (q : Queue) (k : RecordKind) (r a b : Byte) (d : Detail) : (s.event q k r a b d).lines = s.lines := by
  simp [State.event]
@[simp] theorem State.event_causes (q : Queue) (k : RecordKind) (r a b : Byte) (d : Detail) : (s.event q k r a b d).causes = s.causes := by
  simp [State.event]
@[simp] theorem State.event_zones (q : Queue) (k : RecordKind) (r a b : Byte) (d : Detail) : (s.event q k r a b d).zones = s.zones := by
  simp [State.event]
@[simp] theorem State.event_inputs (q : Queue) (k : RecordKind) (r a b : Byte) (d : Detail) : (s.event q k r a b d).inputs = s.inputs := by
  simp [State.event]
@[simp] theorem State.event_faults (q : Queue) (k : RecordKind) (r a b : Byte) (d : Detail) : (s.event q k r a b d).faults = s.faults := by
  simp [State.event]
@[simp] theorem State.event_faultOutput (q : Queue) (k : RecordKind) (r a b : Byte) (d : Detail) : (s.event q k r a b d).faultOutput = s.faultOutput := by
  simp [State.event]
@[simp] theorem State.event_shift (q : Queue) (k : RecordKind) (r a b : Byte) (d : Detail) : (s.event q k r a b d).shift = s.shift := by
  simp [State.event]
@[simp] theorem State.event_closures (q : Queue) (k : RecordKind) (r a b : Byte) (d : Detail) : (s.event q k r a b d).closures = s.closures := by
  simp [State.event]
@[simp] theorem State.event_sectors (q : Queue) (k : RecordKind) (r a b : Byte) (d : Detail) : (s.event q k r a b d).sectors = s.sectors := by
  simp [State.event]
@[simp] theorem State.event_dis (q : Queue) (k : RecordKind) (r a b : Byte) (d : Detail) : (s.event q k r a b d).dis = s.dis := by
  simp [State.event]
@[simp] theorem State.event_service (q : Queue) (k : RecordKind) (r a b : Byte) (d : Detail) : (s.event q k r a b d).service = s.service := by
  simp [State.event]
@[simp] theorem State.event_store (q : Queue) (k : RecordKind) (r a b : Byte) (d : Detail) : (s.event q k r a b d).store = s.store := by
  simp [State.event]
@[simp] theorem State.event_freeCount (q : Queue) (k : RecordKind) (r a b : Byte) (d : Detail) : (s.event q k r a b d).freeCount = s.freeCount := by
  simp [State.event]
@[simp] theorem State.event_pending (q : Queue) (k : RecordKind) (r a b : Byte) (d : Detail) : (s.event q k r a b d).pending = s.pending := by
  simp [State.event]
@[simp] theorem State.event_det (q : Queue) (k : RecordKind) (r a b : Byte) (d : Detail) (e : DetNo) :
    (s.event q k r a b d).det e = s.det e := by
  simp [State.det]
@[simp] theorem State.event_meter (q : Queue) (k : RecordKind) (r a b : Byte) (d : Detail) (e : LineNo) :
    (s.event q k r a b d).meter e = s.meter e := by
  simp [State.meter]
@[simp] theorem State.event_station (q : Queue) (k : RecordKind) (r a b : Byte) (d : Detail) (e : LineNo) :
    (s.event q k r a b d).station e = s.station e := by
  simp [State.station]
@[simp] theorem State.event_line (q : Queue) (k : RecordKind) (r a b : Byte) (d : Detail) (e : LineNo) :
    (s.event q k r a b d).line e = s.line e := by
  simp [State.line]
@[simp] theorem State.event_zone (q : Queue) (k : RecordKind) (r a b : Byte) (d : Detail) (e : ZoneNo) :
    (s.event q k r a b d).zone e = s.zone e := by
  simp [State.zone]
@[simp] theorem State.event_input (q : Queue) (k : RecordKind) (r a b : Byte) (d : Detail) (e : InputNo) :
    (s.event q k r a b d).input e = s.input e := by
  simp [State.input]
@[simp] theorem State.event_closure (q : Queue) (k : RecordKind) (r a b : Byte) (d : Detail) (e : ClosureNo) :
    (s.event q k r a b d).closure e = s.closure e := by
  simp [State.closure]
@[simp] theorem State.event_sector (q : Queue) (k : RecordKind) (r a b : Byte) (d : Detail) (e : SectorNo) :
    (s.event q k r a b d).sector e = s.sector e := by
  simp [State.sector]
@[simp] theorem State.event_detCfg (q : Queue) (k : RecordKind) (r a b : Byte) (d : Detail) (e : DetNo) :
    (s.event q k r a b d).detCfg e = s.detCfg e := by
  simp [State.detCfg]
@[simp] theorem State.event_lineCfg (q : Queue) (k : RecordKind) (r a b : Byte) (d : Detail) (e : LineNo) :
    (s.event q k r a b d).lineCfg e = s.lineCfg e := by
  simp [State.lineCfg]
@[simp] theorem State.event_inputCfg (q : Queue) (k : RecordKind) (r a b : Byte) (d : Detail) (e : InputNo) :
    (s.event q k r a b d).inputCfg e = s.inputCfg e := by
  simp [State.inputCfg]
@[simp] theorem State.event_closureCfg (q : Queue) (k : RecordKind) (r a b : Byte) (d : Detail) (e : ClosureNo) :
    (s.event q k r a b d).closureCfg e = s.closureCfg e := by
  simp [State.closureCfg]
@[simp] theorem State.event_sectorCfg (q : Queue) (k : RecordKind) (r a b : Byte) (d : Detail) (e : SectorNo) :
    (s.event q k r a b d).sectorCfg e = s.sectorCfg e := by
  simp [State.sectorCfg]
@[simp] theorem State.event_patternCfg (q : Queue) (k : RecordKind) (r a b : Byte) (d : Detail) (e : PatternNo) :
    (s.event q k r a b d).patternCfg e = s.patternCfg e := by
  simp [State.patternCfg]
@[simp] theorem State.event_disabled (q : Queue) (k : RecordKind) (r a b : Byte) (d : Detail) (e : Target) :
    (s.event q k r a b d).disabled e = s.disabled e := by
  simp [State.disabled, State.entryOf]
@[simp] theorem State.event_entryOf (q : Queue) (k : RecordKind) (r a b : Byte) (d : Detail) (e : Target) :
    (s.event q k r a b d).entryOf e = s.entryOf e := by
  simp [State.entryOf]
@[simp] theorem State.event_hasEntry (q : Queue) (k : RecordKind) (r a b : Byte) (d : Detail) (e : Target) :
    (s.event q k r a b d).hasEntry e = s.hasEntry e := by
  simp [State.hasEntry, State.entryOf]
@[simp] theorem State.event_causeOf (q : Queue) (k : RecordKind) (r a b : Byte) (d : Detail) (e : Source) :
    (s.event q k r a b d).causeOf e = s.causeOf e := by
  simp [State.causeOf]
@[simp] theorem State.event_causeLevel (q : Queue) (k : RecordKind) (r a b : Byte) (d : Detail) (e : Source) :
    (s.event q k r a b d).causeLevel e = s.causeLevel e := by
  simp [State.causeLevel, State.causeOf]
@[simp] theorem State.event_after (q : Queue) (k : RecordKind) (r a b : Byte) (d : Detail) (e : Nat) :
    (s.event q k r a b d).after e = s.after e := by
  simp [State.after]
@[simp] theorem State.event_since (q : Queue) (k : RecordKind) (r a b : Byte) (d : Detail) (e : Instant) :
    (s.event q k r a b d).since e = s.since e := by
  simp [State.since]
@[simp] theorem State.event_expired (q : Queue) (k : RecordKind) (r a b : Byte) (d : Detail) (e : Option Instant) :
    (s.event q k r a b d).expired e = s.expired e := by
  simp [State.expired]
@[simp] theorem State.event_stamp (q : Queue) (k : RecordKind) (r a b : Byte) (d : Detail) :
    (s.event q k r a b d).stamp = s.stamp := by
  simp [State.stamp]
@[simp] theorem State.event_holds (q : Queue) (k : RecordKind) (r a b : Byte) (d : Detail) (o : Obj) (g : FaultCode) :
    (s.event q k r a b d).holds o g = s.holds o g := by
  simp [State.holds]

/-! ### `State.objEvent` -/

@[simp] theorem State.objEvent_uptime (q : Queue) (k : RecordKind) (r : Byte) (p : Obj) (d : Detail) : (s.objEvent q k r p d).uptime = s.uptime := by
  simp [State.objEvent]
@[simp] theorem State.objEvent_tenth (q : Queue) (k : RecordKind) (r : Byte) (p : Obj) (d : Detail) : (s.objEvent q k r p d).tenth = s.tenth := by
  simp [State.objEvent]
@[simp] theorem State.objEvent_detectors (q : Queue) (k : RecordKind) (r : Byte) (p : Obj) (d : Detail) : (s.objEvent q k r p d).detectors = s.detectors := by
  simp [State.objEvent]
@[simp] theorem State.objEvent_meters (q : Queue) (k : RecordKind) (r : Byte) (p : Obj) (d : Detail) : (s.objEvent q k r p d).meters = s.meters := by
  simp [State.objEvent]
@[simp] theorem State.objEvent_stations (q : Queue) (k : RecordKind) (r : Byte) (p : Obj) (d : Detail) : (s.objEvent q k r p d).stations = s.stations := by
  simp [State.objEvent]
@[simp] theorem State.objEvent_lines (q : Queue) (k : RecordKind) (r : Byte) (p : Obj) (d : Detail) : (s.objEvent q k r p d).lines = s.lines := by
  simp [State.objEvent]
@[simp] theorem State.objEvent_causes (q : Queue) (k : RecordKind) (r : Byte) (p : Obj) (d : Detail) : (s.objEvent q k r p d).causes = s.causes := by
  simp [State.objEvent]
@[simp] theorem State.objEvent_zones (q : Queue) (k : RecordKind) (r : Byte) (p : Obj) (d : Detail) : (s.objEvent q k r p d).zones = s.zones := by
  simp [State.objEvent]
@[simp] theorem State.objEvent_inputs (q : Queue) (k : RecordKind) (r : Byte) (p : Obj) (d : Detail) : (s.objEvent q k r p d).inputs = s.inputs := by
  simp [State.objEvent]
@[simp] theorem State.objEvent_faults (q : Queue) (k : RecordKind) (r : Byte) (p : Obj) (d : Detail) : (s.objEvent q k r p d).faults = s.faults := by
  simp [State.objEvent]
@[simp] theorem State.objEvent_faultOutput (q : Queue) (k : RecordKind) (r : Byte) (p : Obj) (d : Detail) : (s.objEvent q k r p d).faultOutput = s.faultOutput := by
  simp [State.objEvent]
@[simp] theorem State.objEvent_shift (q : Queue) (k : RecordKind) (r : Byte) (p : Obj) (d : Detail) : (s.objEvent q k r p d).shift = s.shift := by
  simp [State.objEvent]
@[simp] theorem State.objEvent_closures (q : Queue) (k : RecordKind) (r : Byte) (p : Obj) (d : Detail) : (s.objEvent q k r p d).closures = s.closures := by
  simp [State.objEvent]
@[simp] theorem State.objEvent_sectors (q : Queue) (k : RecordKind) (r : Byte) (p : Obj) (d : Detail) : (s.objEvent q k r p d).sectors = s.sectors := by
  simp [State.objEvent]
@[simp] theorem State.objEvent_dis (q : Queue) (k : RecordKind) (r : Byte) (p : Obj) (d : Detail) : (s.objEvent q k r p d).dis = s.dis := by
  simp [State.objEvent]
@[simp] theorem State.objEvent_service (q : Queue) (k : RecordKind) (r : Byte) (p : Obj) (d : Detail) : (s.objEvent q k r p d).service = s.service := by
  simp [State.objEvent]
@[simp] theorem State.objEvent_store (q : Queue) (k : RecordKind) (r : Byte) (p : Obj) (d : Detail) : (s.objEvent q k r p d).store = s.store := by
  simp [State.objEvent]
@[simp] theorem State.objEvent_freeCount (q : Queue) (k : RecordKind) (r : Byte) (p : Obj) (d : Detail) : (s.objEvent q k r p d).freeCount = s.freeCount := by
  simp [State.objEvent]
@[simp] theorem State.objEvent_pending (q : Queue) (k : RecordKind) (r : Byte) (p : Obj) (d : Detail) : (s.objEvent q k r p d).pending = s.pending := by
  simp [State.objEvent]
@[simp] theorem State.objEvent_det (q : Queue) (k : RecordKind) (r : Byte) (p : Obj) (d : Detail) (e : DetNo) :
    (s.objEvent q k r p d).det e = s.det e := by
  simp [State.det]
@[simp] theorem State.objEvent_meter (q : Queue) (k : RecordKind) (r : Byte) (p : Obj) (d : Detail) (e : LineNo) :
    (s.objEvent q k r p d).meter e = s.meter e := by
  simp [State.meter]
@[simp] theorem State.objEvent_station (q : Queue) (k : RecordKind) (r : Byte) (p : Obj) (d : Detail) (e : LineNo) :
    (s.objEvent q k r p d).station e = s.station e := by
  simp [State.station]
@[simp] theorem State.objEvent_line (q : Queue) (k : RecordKind) (r : Byte) (p : Obj) (d : Detail) (e : LineNo) :
    (s.objEvent q k r p d).line e = s.line e := by
  simp [State.line]
@[simp] theorem State.objEvent_zone (q : Queue) (k : RecordKind) (r : Byte) (p : Obj) (d : Detail) (e : ZoneNo) :
    (s.objEvent q k r p d).zone e = s.zone e := by
  simp [State.zone]
@[simp] theorem State.objEvent_input (q : Queue) (k : RecordKind) (r : Byte) (p : Obj) (d : Detail) (e : InputNo) :
    (s.objEvent q k r p d).input e = s.input e := by
  simp [State.input]
@[simp] theorem State.objEvent_closure (q : Queue) (k : RecordKind) (r : Byte) (p : Obj) (d : Detail) (e : ClosureNo) :
    (s.objEvent q k r p d).closure e = s.closure e := by
  simp [State.closure]
@[simp] theorem State.objEvent_sector (q : Queue) (k : RecordKind) (r : Byte) (p : Obj) (d : Detail) (e : SectorNo) :
    (s.objEvent q k r p d).sector e = s.sector e := by
  simp [State.sector]
@[simp] theorem State.objEvent_detCfg (q : Queue) (k : RecordKind) (r : Byte) (p : Obj) (d : Detail) (e : DetNo) :
    (s.objEvent q k r p d).detCfg e = s.detCfg e := by
  simp [State.detCfg]
@[simp] theorem State.objEvent_lineCfg (q : Queue) (k : RecordKind) (r : Byte) (p : Obj) (d : Detail) (e : LineNo) :
    (s.objEvent q k r p d).lineCfg e = s.lineCfg e := by
  simp [State.lineCfg]
@[simp] theorem State.objEvent_inputCfg (q : Queue) (k : RecordKind) (r : Byte) (p : Obj) (d : Detail) (e : InputNo) :
    (s.objEvent q k r p d).inputCfg e = s.inputCfg e := by
  simp [State.inputCfg]
@[simp] theorem State.objEvent_closureCfg (q : Queue) (k : RecordKind) (r : Byte) (p : Obj) (d : Detail) (e : ClosureNo) :
    (s.objEvent q k r p d).closureCfg e = s.closureCfg e := by
  simp [State.closureCfg]
@[simp] theorem State.objEvent_sectorCfg (q : Queue) (k : RecordKind) (r : Byte) (p : Obj) (d : Detail) (e : SectorNo) :
    (s.objEvent q k r p d).sectorCfg e = s.sectorCfg e := by
  simp [State.sectorCfg]
@[simp] theorem State.objEvent_patternCfg (q : Queue) (k : RecordKind) (r : Byte) (p : Obj) (d : Detail) (e : PatternNo) :
    (s.objEvent q k r p d).patternCfg e = s.patternCfg e := by
  simp [State.patternCfg]
@[simp] theorem State.objEvent_disabled (q : Queue) (k : RecordKind) (r : Byte) (p : Obj) (d : Detail) (e : Target) :
    (s.objEvent q k r p d).disabled e = s.disabled e := by
  simp [State.disabled, State.entryOf]
@[simp] theorem State.objEvent_entryOf (q : Queue) (k : RecordKind) (r : Byte) (p : Obj) (d : Detail) (e : Target) :
    (s.objEvent q k r p d).entryOf e = s.entryOf e := by
  simp [State.entryOf]
@[simp] theorem State.objEvent_hasEntry (q : Queue) (k : RecordKind) (r : Byte) (p : Obj) (d : Detail) (e : Target) :
    (s.objEvent q k r p d).hasEntry e = s.hasEntry e := by
  simp [State.hasEntry, State.entryOf]
@[simp] theorem State.objEvent_causeOf (q : Queue) (k : RecordKind) (r : Byte) (p : Obj) (d : Detail) (e : Source) :
    (s.objEvent q k r p d).causeOf e = s.causeOf e := by
  simp [State.causeOf]
@[simp] theorem State.objEvent_causeLevel (q : Queue) (k : RecordKind) (r : Byte) (p : Obj) (d : Detail) (e : Source) :
    (s.objEvent q k r p d).causeLevel e = s.causeLevel e := by
  simp [State.causeLevel, State.causeOf]
@[simp] theorem State.objEvent_after (q : Queue) (k : RecordKind) (r : Byte) (p : Obj) (d : Detail) (e : Nat) :
    (s.objEvent q k r p d).after e = s.after e := by
  simp [State.after]
@[simp] theorem State.objEvent_since (q : Queue) (k : RecordKind) (r : Byte) (p : Obj) (d : Detail) (e : Instant) :
    (s.objEvent q k r p d).since e = s.since e := by
  simp [State.since]
@[simp] theorem State.objEvent_expired (q : Queue) (k : RecordKind) (r : Byte) (p : Obj) (d : Detail) (e : Option Instant) :
    (s.objEvent q k r p d).expired e = s.expired e := by
  simp [State.expired]
@[simp] theorem State.objEvent_stamp (q : Queue) (k : RecordKind) (r : Byte) (p : Obj) (d : Detail) :
    (s.objEvent q k r p d).stamp = s.stamp := by
  simp [State.stamp]
@[simp] theorem State.objEvent_holds (q : Queue) (k : RecordKind) (r : Byte) (p : Obj) (d : Detail) (o : Obj) (g : FaultCode) :
    (s.objEvent q k r p d).holds o g = s.holds o g := by
  simp [State.holds]

/-! ### `State.settle` -/

@[simp] theorem State.settle_uptime : (s.settle).uptime = s.uptime := by
  simp only [State.settle]
@[simp] theorem State.settle_tenth : (s.settle).tenth = s.tenth := by
  simp only [State.settle]
@[simp] theorem State.settle_detectors : (s.settle).detectors = s.detectors := by
  simp only [State.settle]
@[simp] theorem State.settle_meters : (s.settle).meters = s.meters := by
  simp only [State.settle]
@[simp] theorem State.settle_stations : (s.settle).stations = s.stations := by
  simp only [State.settle]
@[simp] theorem State.settle_lines : (s.settle).lines = s.lines := by
  simp only [State.settle]
@[simp] theorem State.settle_causes : (s.settle).causes = s.causes := by
  simp only [State.settle]
@[simp] theorem State.settle_zones : (s.settle).zones = s.zones := by
  simp only [State.settle]
@[simp] theorem State.settle_inputs : (s.settle).inputs = s.inputs := by
  simp only [State.settle]
@[simp] theorem State.settle_faults : (s.settle).faults = s.faults := by
  simp only [State.settle]
@[simp] theorem State.settle_faultOutput : (s.settle).faultOutput = s.faultOutput := by
  simp only [State.settle]
@[simp] theorem State.settle_shift : (s.settle).shift = s.shift := by
  simp only [State.settle]
@[simp] theorem State.settle_closures : (s.settle).closures = s.closures := by
  simp only [State.settle]
@[simp] theorem State.settle_sectors : (s.settle).sectors = s.sectors := by
  simp only [State.settle]
@[simp] theorem State.settle_dis : (s.settle).dis = s.dis := by
  simp only [State.settle]
@[simp] theorem State.settle_service : (s.settle).service = s.service := by
  simp only [State.settle]
@[simp] theorem State.settle_history : (s.settle).history = s.history := by
  simp only [State.settle]
@[simp] theorem State.settle_store : (s.settle).store = s.store := by
  simp only [State.settle]
@[simp] theorem State.settle_freeCount : (s.settle).freeCount = s.freeCount := by
  simp only [State.settle]
@[simp] theorem State.settle_pending : (s.settle).pending = s.pending := by
  simp only [State.settle]
@[simp] theorem State.settle_det (e : DetNo) : (s.settle).det e = s.det e := by
  simp [State.det]
@[simp] theorem State.settle_meter (e : LineNo) : (s.settle).meter e = s.meter e := by
  simp [State.meter]
@[simp] theorem State.settle_station (e : LineNo) : (s.settle).station e = s.station e := by
  simp [State.station]
@[simp] theorem State.settle_line (e : LineNo) : (s.settle).line e = s.line e := by
  simp [State.line]
@[simp] theorem State.settle_zone (e : ZoneNo) : (s.settle).zone e = s.zone e := by
  simp [State.zone]
@[simp] theorem State.settle_input (e : InputNo) : (s.settle).input e = s.input e := by
  simp [State.input]
@[simp] theorem State.settle_closure (e : ClosureNo) : (s.settle).closure e = s.closure e := by
  simp [State.closure]
@[simp] theorem State.settle_sector (e : SectorNo) : (s.settle).sector e = s.sector e := by
  simp [State.sector]
@[simp] theorem State.settle_detCfg (e : DetNo) : (s.settle).detCfg e = s.detCfg e := by
  simp [State.detCfg]
@[simp] theorem State.settle_lineCfg (e : LineNo) : (s.settle).lineCfg e = s.lineCfg e := by
  simp [State.lineCfg]
@[simp] theorem State.settle_inputCfg (e : InputNo) : (s.settle).inputCfg e = s.inputCfg e := by
  simp [State.inputCfg]
@[simp] theorem State.settle_closureCfg (e : ClosureNo) : (s.settle).closureCfg e = s.closureCfg e := by
  simp [State.closureCfg]
@[simp] theorem State.settle_sectorCfg (e : SectorNo) : (s.settle).sectorCfg e = s.sectorCfg e := by
  simp [State.sectorCfg]
@[simp] theorem State.settle_patternCfg (e : PatternNo) : (s.settle).patternCfg e = s.patternCfg e := by
  simp [State.patternCfg]
@[simp] theorem State.settle_disabled (e : Target) : (s.settle).disabled e = s.disabled e := by
  simp [State.disabled, State.entryOf]
@[simp] theorem State.settle_entryOf (e : Target) : (s.settle).entryOf e = s.entryOf e := by
  simp [State.entryOf]
@[simp] theorem State.settle_hasEntry (e : Target) : (s.settle).hasEntry e = s.hasEntry e := by
  simp [State.hasEntry, State.entryOf]
@[simp] theorem State.settle_causeOf (e : Source) : (s.settle).causeOf e = s.causeOf e := by
  simp [State.causeOf]
@[simp] theorem State.settle_causeLevel (e : Source) : (s.settle).causeLevel e = s.causeLevel e := by
  simp [State.causeLevel, State.causeOf]
@[simp] theorem State.settle_after (e : Nat) : (s.settle).after e = s.after e := by
  simp [State.after]
@[simp] theorem State.settle_since (e : Instant) : (s.settle).since e = s.since e := by
  simp [State.since]
@[simp] theorem State.settle_expired (e : Option Instant) : (s.settle).expired e = s.expired e := by
  simp [State.expired]
@[simp] theorem State.settle_stamp : (s.settle).stamp = s.stamp := by
  simp [State.stamp]
@[simp] theorem State.settle_holds (o : Obj) (g : FaultCode) : (s.settle).holds o g = s.holds o g := by
  simp [State.holds]

/-! ### `State.setFlags` -/

@[simp] theorem State.setFlags_uptime (k : StoreSection) (x : SectionFlags) : (s.setFlags k x).uptime = s.uptime := rfl
@[simp] theorem State.setFlags_tenth (k : StoreSection) (x : SectionFlags) : (s.setFlags k x).tenth = s.tenth := rfl
@[simp] theorem State.setFlags_detectors (k : StoreSection) (x : SectionFlags) : (s.setFlags k x).detectors = s.detectors := rfl
@[simp] theorem State.setFlags_meters (k : StoreSection) (x : SectionFlags) : (s.setFlags k x).meters = s.meters := rfl
@[simp] theorem State.setFlags_stations (k : StoreSection) (x : SectionFlags) : (s.setFlags k x).stations = s.stations := rfl
@[simp] theorem State.setFlags_lines (k : StoreSection) (x : SectionFlags) : (s.setFlags k x).lines = s.lines := rfl
@[simp] theorem State.setFlags_causes (k : StoreSection) (x : SectionFlags) : (s.setFlags k x).causes = s.causes := rfl
@[simp] theorem State.setFlags_zones (k : StoreSection) (x : SectionFlags) : (s.setFlags k x).zones = s.zones := rfl
@[simp] theorem State.setFlags_inputs (k : StoreSection) (x : SectionFlags) : (s.setFlags k x).inputs = s.inputs := rfl
@[simp] theorem State.setFlags_faults (k : StoreSection) (x : SectionFlags) : (s.setFlags k x).faults = s.faults := rfl
@[simp] theorem State.setFlags_faultOutput (k : StoreSection) (x : SectionFlags) : (s.setFlags k x).faultOutput = s.faultOutput := rfl
@[simp] theorem State.setFlags_shift (k : StoreSection) (x : SectionFlags) : (s.setFlags k x).shift = s.shift := rfl
@[simp] theorem State.setFlags_closures (k : StoreSection) (x : SectionFlags) : (s.setFlags k x).closures = s.closures := rfl
@[simp] theorem State.setFlags_sectors (k : StoreSection) (x : SectionFlags) : (s.setFlags k x).sectors = s.sectors := rfl
@[simp] theorem State.setFlags_dis (k : StoreSection) (x : SectionFlags) : (s.setFlags k x).dis = s.dis := rfl
@[simp] theorem State.setFlags_service (k : StoreSection) (x : SectionFlags) : (s.setFlags k x).service = s.service := rfl
@[simp] theorem State.setFlags_link (k : StoreSection) (x : SectionFlags) : (s.setFlags k x).link = s.link := rfl
@[simp] theorem State.setFlags_history (k : StoreSection) (x : SectionFlags) : (s.setFlags k x).history = s.history := rfl
@[simp] theorem State.setFlags_freeCount (k : StoreSection) (x : SectionFlags) : (s.setFlags k x).freeCount = s.freeCount := rfl
@[simp] theorem State.setFlags_pending (k : StoreSection) (x : SectionFlags) : (s.setFlags k x).pending = s.pending := rfl
@[simp] theorem State.setFlags_det (k : StoreSection) (x : SectionFlags) (e : DetNo) :
    (s.setFlags k x).det e = s.det e := rfl
@[simp] theorem State.setFlags_meter (k : StoreSection) (x : SectionFlags) (e : LineNo) :
    (s.setFlags k x).meter e = s.meter e := rfl
@[simp] theorem State.setFlags_station (k : StoreSection) (x : SectionFlags) (e : LineNo) :
    (s.setFlags k x).station e = s.station e := rfl
@[simp] theorem State.setFlags_line (k : StoreSection) (x : SectionFlags) (e : LineNo) :
    (s.setFlags k x).line e = s.line e := rfl
@[simp] theorem State.setFlags_zone (k : StoreSection) (x : SectionFlags) (e : ZoneNo) :
    (s.setFlags k x).zone e = s.zone e := rfl
@[simp] theorem State.setFlags_input (k : StoreSection) (x : SectionFlags) (e : InputNo) :
    (s.setFlags k x).input e = s.input e := rfl
@[simp] theorem State.setFlags_closure (k : StoreSection) (x : SectionFlags) (e : ClosureNo) :
    (s.setFlags k x).closure e = s.closure e := rfl
@[simp] theorem State.setFlags_sector (k : StoreSection) (x : SectionFlags) (e : SectorNo) :
    (s.setFlags k x).sector e = s.sector e := rfl
@[simp] theorem State.setFlags_disabled (k : StoreSection) (x : SectionFlags) (e : Target) :
    (s.setFlags k x).disabled e = s.disabled e := rfl
@[simp] theorem State.setFlags_entryOf (k : StoreSection) (x : SectionFlags) (e : Target) :
    (s.setFlags k x).entryOf e = s.entryOf e := rfl
@[simp] theorem State.setFlags_hasEntry (k : StoreSection) (x : SectionFlags) (e : Target) :
    (s.setFlags k x).hasEntry e = s.hasEntry e := rfl
@[simp] theorem State.setFlags_causeOf (k : StoreSection) (x : SectionFlags) (e : Source) :
    (s.setFlags k x).causeOf e = s.causeOf e := rfl
@[simp] theorem State.setFlags_causeLevel (k : StoreSection) (x : SectionFlags) (e : Source) :
    (s.setFlags k x).causeLevel e = s.causeLevel e := rfl
@[simp] theorem State.setFlags_after (k : StoreSection) (x : SectionFlags) (e : Nat) :
    (s.setFlags k x).after e = s.after e := rfl
@[simp] theorem State.setFlags_since (k : StoreSection) (x : SectionFlags) (e : Instant) :
    (s.setFlags k x).since e = s.since e := rfl
@[simp] theorem State.setFlags_expired (k : StoreSection) (x : SectionFlags) (e : Option Instant) :
    (s.setFlags k x).expired e = s.expired e := rfl
@[simp] theorem State.setFlags_stamp (k : StoreSection) (x : SectionFlags) : (s.setFlags k x).stamp = s.stamp := rfl
@[simp] theorem State.setFlags_holds (k : StoreSection) (x : SectionFlags) (o : Obj) (g : FaultCode) :
    (s.setFlags k x).holds o g = s.holds o g := rfl

/-! ### `State.setMark` -/

@[simp] theorem State.setMark_uptime (k : StoreSection) (x : StoredMark) : (s.setMark k x).uptime = s.uptime := rfl
@[simp] theorem State.setMark_tenth (k : StoreSection) (x : StoredMark) : (s.setMark k x).tenth = s.tenth := rfl
@[simp] theorem State.setMark_detectors (k : StoreSection) (x : StoredMark) : (s.setMark k x).detectors = s.detectors := rfl
@[simp] theorem State.setMark_meters (k : StoreSection) (x : StoredMark) : (s.setMark k x).meters = s.meters := rfl
@[simp] theorem State.setMark_stations (k : StoreSection) (x : StoredMark) : (s.setMark k x).stations = s.stations := rfl
@[simp] theorem State.setMark_lines (k : StoreSection) (x : StoredMark) : (s.setMark k x).lines = s.lines := rfl
@[simp] theorem State.setMark_causes (k : StoreSection) (x : StoredMark) : (s.setMark k x).causes = s.causes := rfl
@[simp] theorem State.setMark_zones (k : StoreSection) (x : StoredMark) : (s.setMark k x).zones = s.zones := rfl
@[simp] theorem State.setMark_inputs (k : StoreSection) (x : StoredMark) : (s.setMark k x).inputs = s.inputs := rfl
@[simp] theorem State.setMark_faults (k : StoreSection) (x : StoredMark) : (s.setMark k x).faults = s.faults := rfl
@[simp] theorem State.setMark_faultOutput (k : StoreSection) (x : StoredMark) : (s.setMark k x).faultOutput = s.faultOutput := rfl
@[simp] theorem State.setMark_shift (k : StoreSection) (x : StoredMark) : (s.setMark k x).shift = s.shift := rfl
@[simp] theorem State.setMark_closures (k : StoreSection) (x : StoredMark) : (s.setMark k x).closures = s.closures := rfl
@[simp] theorem State.setMark_sectors (k : StoreSection) (x : StoredMark) : (s.setMark k x).sectors = s.sectors := rfl
@[simp] theorem State.setMark_dis (k : StoreSection) (x : StoredMark) : (s.setMark k x).dis = s.dis := rfl
@[simp] theorem State.setMark_service (k : StoreSection) (x : StoredMark) : (s.setMark k x).service = s.service := rfl
@[simp] theorem State.setMark_link (k : StoreSection) (x : StoredMark) : (s.setMark k x).link = s.link := rfl
@[simp] theorem State.setMark_history (k : StoreSection) (x : StoredMark) : (s.setMark k x).history = s.history := rfl
@[simp] theorem State.setMark_freeCount (k : StoreSection) (x : StoredMark) : (s.setMark k x).freeCount = s.freeCount := rfl
@[simp] theorem State.setMark_pending (k : StoreSection) (x : StoredMark) : (s.setMark k x).pending = s.pending := rfl
@[simp] theorem State.setMark_det (k : StoreSection) (x : StoredMark) (e : DetNo) :
    (s.setMark k x).det e = s.det e := rfl
@[simp] theorem State.setMark_meter (k : StoreSection) (x : StoredMark) (e : LineNo) :
    (s.setMark k x).meter e = s.meter e := rfl
@[simp] theorem State.setMark_station (k : StoreSection) (x : StoredMark) (e : LineNo) :
    (s.setMark k x).station e = s.station e := rfl
@[simp] theorem State.setMark_line (k : StoreSection) (x : StoredMark) (e : LineNo) :
    (s.setMark k x).line e = s.line e := rfl
@[simp] theorem State.setMark_zone (k : StoreSection) (x : StoredMark) (e : ZoneNo) :
    (s.setMark k x).zone e = s.zone e := rfl
@[simp] theorem State.setMark_input (k : StoreSection) (x : StoredMark) (e : InputNo) :
    (s.setMark k x).input e = s.input e := rfl
@[simp] theorem State.setMark_closure (k : StoreSection) (x : StoredMark) (e : ClosureNo) :
    (s.setMark k x).closure e = s.closure e := rfl
@[simp] theorem State.setMark_sector (k : StoreSection) (x : StoredMark) (e : SectorNo) :
    (s.setMark k x).sector e = s.sector e := rfl
@[simp] theorem State.setMark_disabled (k : StoreSection) (x : StoredMark) (e : Target) :
    (s.setMark k x).disabled e = s.disabled e := rfl
@[simp] theorem State.setMark_entryOf (k : StoreSection) (x : StoredMark) (e : Target) :
    (s.setMark k x).entryOf e = s.entryOf e := rfl
@[simp] theorem State.setMark_hasEntry (k : StoreSection) (x : StoredMark) (e : Target) :
    (s.setMark k x).hasEntry e = s.hasEntry e := rfl
@[simp] theorem State.setMark_causeOf (k : StoreSection) (x : StoredMark) (e : Source) :
    (s.setMark k x).causeOf e = s.causeOf e := rfl
@[simp] theorem State.setMark_causeLevel (k : StoreSection) (x : StoredMark) (e : Source) :
    (s.setMark k x).causeLevel e = s.causeLevel e := rfl
@[simp] theorem State.setMark_after (k : StoreSection) (x : StoredMark) (e : Nat) :
    (s.setMark k x).after e = s.after e := rfl
@[simp] theorem State.setMark_since (k : StoreSection) (x : StoredMark) (e : Instant) :
    (s.setMark k x).since e = s.since e := rfl
@[simp] theorem State.setMark_expired (k : StoreSection) (x : StoredMark) (e : Option Instant) :
    (s.setMark k x).expired e = s.expired e := rfl
@[simp] theorem State.setMark_stamp (k : StoreSection) (x : StoredMark) : (s.setMark k x).stamp = s.stamp := rfl
@[simp] theorem State.setMark_holds (k : StoreSection) (x : StoredMark) (o : Obj) (g : FaultCode) :
    (s.setMark k x).holds o g = s.holds o g := rfl

/-! ### `State.deriveFault` -/

@[simp] theorem State.deriveFault_uptime : (s.deriveFault).uptime = s.uptime := by
  simp only [State.deriveFault]
@[simp] theorem State.deriveFault_tenth : (s.deriveFault).tenth = s.tenth := by
  simp only [State.deriveFault]
@[simp] theorem State.deriveFault_detectors : (s.deriveFault).detectors = s.detectors := by
  simp only [State.deriveFault]
@[simp] theorem State.deriveFault_meters : (s.deriveFault).meters = s.meters := by
  simp only [State.deriveFault]
@[simp] theorem State.deriveFault_stations : (s.deriveFault).stations = s.stations := by
  simp only [State.deriveFault]
@[simp] theorem State.deriveFault_lines : (s.deriveFault).lines = s.lines := by
  simp only [State.deriveFault]
@[simp] theorem State.deriveFault_causes : (s.deriveFault).causes = s.causes := by
  simp only [State.deriveFault]
@[simp] theorem State.deriveFault_zones : (s.deriveFault).zones = s.zones := by
  simp only [State.deriveFault]
@[simp] theorem State.deriveFault_inputs : (s.deriveFault).inputs = s.inputs := by
  simp only [State.deriveFault]
@[simp] theorem State.deriveFault_faults : (s.deriveFault).faults = s.faults := by
  simp only [State.deriveFault]
@[simp] theorem State.deriveFault_shift : (s.deriveFault).shift = s.shift := by
  simp only [State.deriveFault]
@[simp] theorem State.deriveFault_closures : (s.deriveFault).closures = s.closures := by
  simp only [State.deriveFault]
@[simp] theorem State.deriveFault_sectors : (s.deriveFault).sectors = s.sectors := by
  simp only [State.deriveFault]
@[simp] theorem State.deriveFault_dis : (s.deriveFault).dis = s.dis := by
  simp only [State.deriveFault]
@[simp] theorem State.deriveFault_service : (s.deriveFault).service = s.service := by
  simp only [State.deriveFault]
@[simp] theorem State.deriveFault_link : (s.deriveFault).link = s.link := by
  simp only [State.deriveFault]
@[simp] theorem State.deriveFault_history : (s.deriveFault).history = s.history := by
  simp only [State.deriveFault]
@[simp] theorem State.deriveFault_store : (s.deriveFault).store = s.store := by
  simp only [State.deriveFault]
@[simp] theorem State.deriveFault_freeCount : (s.deriveFault).freeCount = s.freeCount := by
  simp only [State.deriveFault]
@[simp] theorem State.deriveFault_pending : (s.deriveFault).pending = s.pending := by
  simp only [State.deriveFault]
@[simp] theorem State.deriveFault_det (e : DetNo) : (s.deriveFault).det e = s.det e := by
  simp [State.det]
@[simp] theorem State.deriveFault_meter (e : LineNo) : (s.deriveFault).meter e = s.meter e := by
  simp [State.meter]
@[simp] theorem State.deriveFault_station (e : LineNo) : (s.deriveFault).station e = s.station e := by
  simp [State.station]
@[simp] theorem State.deriveFault_line (e : LineNo) : (s.deriveFault).line e = s.line e := by
  simp [State.line]
@[simp] theorem State.deriveFault_zone (e : ZoneNo) : (s.deriveFault).zone e = s.zone e := by
  simp [State.zone]
@[simp] theorem State.deriveFault_input (e : InputNo) : (s.deriveFault).input e = s.input e := by
  simp [State.input]
@[simp] theorem State.deriveFault_closure (e : ClosureNo) : (s.deriveFault).closure e = s.closure e := by
  simp [State.closure]
@[simp] theorem State.deriveFault_sector (e : SectorNo) : (s.deriveFault).sector e = s.sector e := by
  simp [State.sector]
@[simp] theorem State.deriveFault_detCfg (e : DetNo) : (s.deriveFault).detCfg e = s.detCfg e := by
  simp [State.detCfg]
@[simp] theorem State.deriveFault_lineCfg (e : LineNo) : (s.deriveFault).lineCfg e = s.lineCfg e := by
  simp [State.lineCfg]
@[simp] theorem State.deriveFault_inputCfg (e : InputNo) : (s.deriveFault).inputCfg e = s.inputCfg e := by
  simp [State.inputCfg]
@[simp] theorem State.deriveFault_closureCfg (e : ClosureNo) : (s.deriveFault).closureCfg e = s.closureCfg e := by
  simp [State.closureCfg]
@[simp] theorem State.deriveFault_sectorCfg (e : SectorNo) : (s.deriveFault).sectorCfg e = s.sectorCfg e := by
  simp [State.sectorCfg]
@[simp] theorem State.deriveFault_patternCfg (e : PatternNo) : (s.deriveFault).patternCfg e = s.patternCfg e := by
  simp [State.patternCfg]
@[simp] theorem State.deriveFault_disabled (e : Target) : (s.deriveFault).disabled e = s.disabled e := by
  simp [State.disabled, State.entryOf]
@[simp] theorem State.deriveFault_entryOf (e : Target) : (s.deriveFault).entryOf e = s.entryOf e := by
  simp [State.entryOf]
@[simp] theorem State.deriveFault_hasEntry (e : Target) : (s.deriveFault).hasEntry e = s.hasEntry e := by
  simp [State.hasEntry, State.entryOf]
@[simp] theorem State.deriveFault_causeOf (e : Source) : (s.deriveFault).causeOf e = s.causeOf e := by
  simp [State.causeOf]
@[simp] theorem State.deriveFault_causeLevel (e : Source) : (s.deriveFault).causeLevel e = s.causeLevel e := by
  simp [State.causeLevel, State.causeOf]
@[simp] theorem State.deriveFault_after (e : Nat) : (s.deriveFault).after e = s.after e := by
  simp [State.after]
@[simp] theorem State.deriveFault_since (e : Instant) : (s.deriveFault).since e = s.since e := by
  simp [State.since]
@[simp] theorem State.deriveFault_expired (e : Option Instant) : (s.deriveFault).expired e = s.expired e := by
  simp [State.expired]
@[simp] theorem State.deriveFault_stamp : (s.deriveFault).stamp = s.stamp := by
  simp [State.stamp]
@[simp] theorem State.deriveFault_holds (o : Obj) (g : FaultCode) : (s.deriveFault).holds o g = s.holds o g := by
  simp [State.holds]

/-! ### `State.putFault` -/

@[simp] theorem State.putFault_uptime (p : Obj) (f : FaultCode) (b : Bool) : (s.putFault p f b).uptime = s.uptime := by
  simp [State.putFault]
@[simp] theorem State.putFault_tenth (p : Obj) (f : FaultCode) (b : Bool) : (s.putFault p f b).tenth = s.tenth := by
  simp [State.putFault]
@[simp] theorem State.putFault_detectors (p : Obj) (f : FaultCode) (b : Bool) : (s.putFault p f b).detectors = s.detectors := by
  simp [State.putFault]
@[simp] theorem State.putFault_meters (p : Obj) (f : FaultCode) (b : Bool) : (s.putFault p f b).meters = s.meters := by
  simp [State.putFault]
@[simp] theorem State.putFault_stations (p : Obj) (f : FaultCode) (b : Bool) : (s.putFault p f b).stations = s.stations := by
  simp [State.putFault]
@[simp] theorem State.putFault_lines (p : Obj) (f : FaultCode) (b : Bool) : (s.putFault p f b).lines = s.lines := by
  simp [State.putFault]
@[simp] theorem State.putFault_causes (p : Obj) (f : FaultCode) (b : Bool) : (s.putFault p f b).causes = s.causes := by
  simp [State.putFault]
@[simp] theorem State.putFault_zones (p : Obj) (f : FaultCode) (b : Bool) : (s.putFault p f b).zones = s.zones := by
  simp [State.putFault]
@[simp] theorem State.putFault_inputs (p : Obj) (f : FaultCode) (b : Bool) : (s.putFault p f b).inputs = s.inputs := by
  simp [State.putFault]
@[simp] theorem State.putFault_shift (p : Obj) (f : FaultCode) (b : Bool) : (s.putFault p f b).shift = s.shift := by
  simp [State.putFault]
@[simp] theorem State.putFault_closures (p : Obj) (f : FaultCode) (b : Bool) : (s.putFault p f b).closures = s.closures := by
  simp [State.putFault]
@[simp] theorem State.putFault_sectors (p : Obj) (f : FaultCode) (b : Bool) : (s.putFault p f b).sectors = s.sectors := by
  simp [State.putFault]
@[simp] theorem State.putFault_dis (p : Obj) (f : FaultCode) (b : Bool) : (s.putFault p f b).dis = s.dis := by
  simp [State.putFault]
@[simp] theorem State.putFault_service (p : Obj) (f : FaultCode) (b : Bool) : (s.putFault p f b).service = s.service := by
  simp [State.putFault]
@[simp] theorem State.putFault_store (p : Obj) (f : FaultCode) (b : Bool) : (s.putFault p f b).store = s.store := by
  simp [State.putFault]
@[simp] theorem State.putFault_freeCount (p : Obj) (f : FaultCode) (b : Bool) : (s.putFault p f b).freeCount = s.freeCount := by
  simp [State.putFault]
@[simp] theorem State.putFault_pending (p : Obj) (f : FaultCode) (b : Bool) : (s.putFault p f b).pending = s.pending := by
  simp [State.putFault]
@[simp] theorem State.putFault_det (p : Obj) (f : FaultCode) (b : Bool) (e : DetNo) :
    (s.putFault p f b).det e = s.det e := by
  simp [State.det]
@[simp] theorem State.putFault_meter (p : Obj) (f : FaultCode) (b : Bool) (e : LineNo) :
    (s.putFault p f b).meter e = s.meter e := by
  simp [State.meter]
@[simp] theorem State.putFault_station (p : Obj) (f : FaultCode) (b : Bool) (e : LineNo) :
    (s.putFault p f b).station e = s.station e := by
  simp [State.station]
@[simp] theorem State.putFault_line (p : Obj) (f : FaultCode) (b : Bool) (e : LineNo) :
    (s.putFault p f b).line e = s.line e := by
  simp [State.line]
@[simp] theorem State.putFault_zone (p : Obj) (f : FaultCode) (b : Bool) (e : ZoneNo) :
    (s.putFault p f b).zone e = s.zone e := by
  simp [State.zone]
@[simp] theorem State.putFault_input (p : Obj) (f : FaultCode) (b : Bool) (e : InputNo) :
    (s.putFault p f b).input e = s.input e := by
  simp [State.input]
@[simp] theorem State.putFault_closure (p : Obj) (f : FaultCode) (b : Bool) (e : ClosureNo) :
    (s.putFault p f b).closure e = s.closure e := by
  simp [State.closure]
@[simp] theorem State.putFault_sector (p : Obj) (f : FaultCode) (b : Bool) (e : SectorNo) :
    (s.putFault p f b).sector e = s.sector e := by
  simp [State.sector]
@[simp] theorem State.putFault_detCfg (p : Obj) (f : FaultCode) (b : Bool) (e : DetNo) :
    (s.putFault p f b).detCfg e = s.detCfg e := by
  simp [State.detCfg]
@[simp] theorem State.putFault_lineCfg (p : Obj) (f : FaultCode) (b : Bool) (e : LineNo) :
    (s.putFault p f b).lineCfg e = s.lineCfg e := by
  simp [State.lineCfg]
@[simp] theorem State.putFault_inputCfg (p : Obj) (f : FaultCode) (b : Bool) (e : InputNo) :
    (s.putFault p f b).inputCfg e = s.inputCfg e := by
  simp [State.inputCfg]
@[simp] theorem State.putFault_closureCfg (p : Obj) (f : FaultCode) (b : Bool) (e : ClosureNo) :
    (s.putFault p f b).closureCfg e = s.closureCfg e := by
  simp [State.closureCfg]
@[simp] theorem State.putFault_sectorCfg (p : Obj) (f : FaultCode) (b : Bool) (e : SectorNo) :
    (s.putFault p f b).sectorCfg e = s.sectorCfg e := by
  simp [State.sectorCfg]
@[simp] theorem State.putFault_patternCfg (p : Obj) (f : FaultCode) (b : Bool) (e : PatternNo) :
    (s.putFault p f b).patternCfg e = s.patternCfg e := by
  simp [State.patternCfg]
@[simp] theorem State.putFault_disabled (p : Obj) (f : FaultCode) (b : Bool) (e : Target) :
    (s.putFault p f b).disabled e = s.disabled e := by
  simp [State.disabled, State.entryOf]
@[simp] theorem State.putFault_entryOf (p : Obj) (f : FaultCode) (b : Bool) (e : Target) :
    (s.putFault p f b).entryOf e = s.entryOf e := by
  simp [State.entryOf]
@[simp] theorem State.putFault_hasEntry (p : Obj) (f : FaultCode) (b : Bool) (e : Target) :
    (s.putFault p f b).hasEntry e = s.hasEntry e := by
  simp [State.hasEntry, State.entryOf]
@[simp] theorem State.putFault_causeOf (p : Obj) (f : FaultCode) (b : Bool) (e : Source) :
    (s.putFault p f b).causeOf e = s.causeOf e := by
  simp [State.causeOf]
@[simp] theorem State.putFault_causeLevel (p : Obj) (f : FaultCode) (b : Bool) (e : Source) :
    (s.putFault p f b).causeLevel e = s.causeLevel e := by
  simp [State.causeLevel, State.causeOf]
@[simp] theorem State.putFault_after (p : Obj) (f : FaultCode) (b : Bool) (e : Nat) :
    (s.putFault p f b).after e = s.after e := by
  simp [State.after]
@[simp] theorem State.putFault_since (p : Obj) (f : FaultCode) (b : Bool) (e : Instant) :
    (s.putFault p f b).since e = s.since e := by
  simp [State.since]
@[simp] theorem State.putFault_expired (p : Obj) (f : FaultCode) (b : Bool) (e : Option Instant) :
    (s.putFault p f b).expired e = s.expired e := by
  simp [State.expired]
@[simp] theorem State.putFault_stamp (p : Obj) (f : FaultCode) (b : Bool) : (s.putFault p f b).stamp = s.stamp := by
  simp [State.stamp]

/-! ### `State.raiseFault` -/

@[simp] theorem State.raiseFault_uptime (p : Obj) (f : FaultCode) : (s.raiseFault p f).uptime = s.uptime := by
  unfold State.raiseFault; split <;> simp
@[simp] theorem State.raiseFault_tenth (p : Obj) (f : FaultCode) : (s.raiseFault p f).tenth = s.tenth := by
  unfold State.raiseFault; split <;> simp
@[simp] theorem State.raiseFault_detectors (p : Obj) (f : FaultCode) : (s.raiseFault p f).detectors = s.detectors := by
  unfold State.raiseFault; split <;> simp
@[simp] theorem State.raiseFault_meters (p : Obj) (f : FaultCode) : (s.raiseFault p f).meters = s.meters := by
  unfold State.raiseFault; split <;> simp
@[simp] theorem State.raiseFault_stations (p : Obj) (f : FaultCode) : (s.raiseFault p f).stations = s.stations := by
  unfold State.raiseFault; split <;> simp
@[simp] theorem State.raiseFault_lines (p : Obj) (f : FaultCode) : (s.raiseFault p f).lines = s.lines := by
  unfold State.raiseFault; split <;> simp
@[simp] theorem State.raiseFault_causes (p : Obj) (f : FaultCode) : (s.raiseFault p f).causes = s.causes := by
  unfold State.raiseFault; split <;> simp
@[simp] theorem State.raiseFault_zones (p : Obj) (f : FaultCode) : (s.raiseFault p f).zones = s.zones := by
  unfold State.raiseFault; split <;> simp
@[simp] theorem State.raiseFault_inputs (p : Obj) (f : FaultCode) : (s.raiseFault p f).inputs = s.inputs := by
  unfold State.raiseFault; split <;> simp
@[simp] theorem State.raiseFault_shift (p : Obj) (f : FaultCode) : (s.raiseFault p f).shift = s.shift := by
  unfold State.raiseFault; split <;> simp
@[simp] theorem State.raiseFault_closures (p : Obj) (f : FaultCode) : (s.raiseFault p f).closures = s.closures := by
  unfold State.raiseFault; split <;> simp
@[simp] theorem State.raiseFault_sectors (p : Obj) (f : FaultCode) : (s.raiseFault p f).sectors = s.sectors := by
  unfold State.raiseFault; split <;> simp
@[simp] theorem State.raiseFault_dis (p : Obj) (f : FaultCode) : (s.raiseFault p f).dis = s.dis := by
  unfold State.raiseFault; split <;> simp
@[simp] theorem State.raiseFault_service (p : Obj) (f : FaultCode) : (s.raiseFault p f).service = s.service := by
  unfold State.raiseFault; split <;> simp
@[simp] theorem State.raiseFault_store (p : Obj) (f : FaultCode) : (s.raiseFault p f).store = s.store := by
  unfold State.raiseFault; split <;> simp
@[simp] theorem State.raiseFault_freeCount (p : Obj) (f : FaultCode) : (s.raiseFault p f).freeCount = s.freeCount := by
  unfold State.raiseFault; split <;> simp
@[simp] theorem State.raiseFault_pending (p : Obj) (f : FaultCode) : (s.raiseFault p f).pending = s.pending := by
  unfold State.raiseFault; split <;> simp
@[simp] theorem State.raiseFault_det (p : Obj) (f : FaultCode) (e : DetNo) :
    (s.raiseFault p f).det e = s.det e := by
  unfold State.raiseFault; split <;> simp
@[simp] theorem State.raiseFault_meter (p : Obj) (f : FaultCode) (e : LineNo) :
    (s.raiseFault p f).meter e = s.meter e := by
  unfold State.raiseFault; split <;> simp
@[simp] theorem State.raiseFault_station (p : Obj) (f : FaultCode) (e : LineNo) :
    (s.raiseFault p f).station e = s.station e := by
  unfold State.raiseFault; split <;> simp
@[simp] theorem State.raiseFault_line (p : Obj) (f : FaultCode) (e : LineNo) :
    (s.raiseFault p f).line e = s.line e := by
  unfold State.raiseFault; split <;> simp
@[simp] theorem State.raiseFault_zone (p : Obj) (f : FaultCode) (e : ZoneNo) :
    (s.raiseFault p f).zone e = s.zone e := by
  unfold State.raiseFault; split <;> simp
@[simp] theorem State.raiseFault_input (p : Obj) (f : FaultCode) (e : InputNo) :
    (s.raiseFault p f).input e = s.input e := by
  unfold State.raiseFault; split <;> simp
@[simp] theorem State.raiseFault_closure (p : Obj) (f : FaultCode) (e : ClosureNo) :
    (s.raiseFault p f).closure e = s.closure e := by
  unfold State.raiseFault; split <;> simp
@[simp] theorem State.raiseFault_sector (p : Obj) (f : FaultCode) (e : SectorNo) :
    (s.raiseFault p f).sector e = s.sector e := by
  unfold State.raiseFault; split <;> simp
@[simp] theorem State.raiseFault_detCfg (p : Obj) (f : FaultCode) (e : DetNo) :
    (s.raiseFault p f).detCfg e = s.detCfg e := by
  unfold State.raiseFault; split <;> simp
@[simp] theorem State.raiseFault_lineCfg (p : Obj) (f : FaultCode) (e : LineNo) :
    (s.raiseFault p f).lineCfg e = s.lineCfg e := by
  unfold State.raiseFault; split <;> simp
@[simp] theorem State.raiseFault_inputCfg (p : Obj) (f : FaultCode) (e : InputNo) :
    (s.raiseFault p f).inputCfg e = s.inputCfg e := by
  unfold State.raiseFault; split <;> simp
@[simp] theorem State.raiseFault_closureCfg (p : Obj) (f : FaultCode) (e : ClosureNo) :
    (s.raiseFault p f).closureCfg e = s.closureCfg e := by
  unfold State.raiseFault; split <;> simp
@[simp] theorem State.raiseFault_sectorCfg (p : Obj) (f : FaultCode) (e : SectorNo) :
    (s.raiseFault p f).sectorCfg e = s.sectorCfg e := by
  unfold State.raiseFault; split <;> simp
@[simp] theorem State.raiseFault_patternCfg (p : Obj) (f : FaultCode) (e : PatternNo) :
    (s.raiseFault p f).patternCfg e = s.patternCfg e := by
  unfold State.raiseFault; split <;> simp
@[simp] theorem State.raiseFault_disabled (p : Obj) (f : FaultCode) (e : Target) :
    (s.raiseFault p f).disabled e = s.disabled e := by
  unfold State.raiseFault; split <;> simp
@[simp] theorem State.raiseFault_entryOf (p : Obj) (f : FaultCode) (e : Target) :
    (s.raiseFault p f).entryOf e = s.entryOf e := by
  unfold State.raiseFault; split <;> simp
@[simp] theorem State.raiseFault_hasEntry (p : Obj) (f : FaultCode) (e : Target) :
    (s.raiseFault p f).hasEntry e = s.hasEntry e := by
  unfold State.raiseFault; split <;> simp
@[simp] theorem State.raiseFault_causeOf (p : Obj) (f : FaultCode) (e : Source) :
    (s.raiseFault p f).causeOf e = s.causeOf e := by
  unfold State.raiseFault; split <;> simp
@[simp] theorem State.raiseFault_causeLevel (p : Obj) (f : FaultCode) (e : Source) :
    (s.raiseFault p f).causeLevel e = s.causeLevel e := by
  unfold State.raiseFault; split <;> simp
@[simp] theorem State.raiseFault_after (p : Obj) (f : FaultCode) (e : Nat) :
    (s.raiseFault p f).after e = s.after e := by
  unfold State.raiseFault; split <;> simp
@[simp] theorem State.raiseFault_since (p : Obj) (f : FaultCode) (e : Instant) :
    (s.raiseFault p f).since e = s.since e := by
  unfold State.raiseFault; split <;> simp
@[simp] theorem State.raiseFault_expired (p : Obj) (f : FaultCode) (e : Option Instant) :
    (s.raiseFault p f).expired e = s.expired e := by
  unfold State.raiseFault; split <;> simp
@[simp] theorem State.raiseFault_stamp (p : Obj) (f : FaultCode) : (s.raiseFault p f).stamp = s.stamp := by
  unfold State.raiseFault; split <;> simp

/-! ### `State.clearFault` -/

@[simp] theorem State.clearFault_uptime (p : Obj) (f : FaultCode) : (s.clearFault p f).uptime = s.uptime := by
  unfold State.clearFault; split <;> simp
@[simp] theorem State.clearFault_tenth (p : Obj) (f : FaultCode) : (s.clearFault p f).tenth = s.tenth := by
  unfold State.clearFault; split <;> simp
@[simp] theorem State.clearFault_detectors (p : Obj) (f : FaultCode) : (s.clearFault p f).detectors = s.detectors := by
  unfold State.clearFault; split <;> simp
@[simp] theorem State.clearFault_meters (p : Obj) (f : FaultCode) : (s.clearFault p f).meters = s.meters := by
  unfold State.clearFault; split <;> simp
@[simp] theorem State.clearFault_stations (p : Obj) (f : FaultCode) : (s.clearFault p f).stations = s.stations := by
  unfold State.clearFault; split <;> simp
@[simp] theorem State.clearFault_lines (p : Obj) (f : FaultCode) : (s.clearFault p f).lines = s.lines := by
  unfold State.clearFault; split <;> simp
@[simp] theorem State.clearFault_causes (p : Obj) (f : FaultCode) : (s.clearFault p f).causes = s.causes := by
  unfold State.clearFault; split <;> simp
@[simp] theorem State.clearFault_zones (p : Obj) (f : FaultCode) : (s.clearFault p f).zones = s.zones := by
  unfold State.clearFault; split <;> simp
@[simp] theorem State.clearFault_inputs (p : Obj) (f : FaultCode) : (s.clearFault p f).inputs = s.inputs := by
  unfold State.clearFault; split <;> simp
@[simp] theorem State.clearFault_shift (p : Obj) (f : FaultCode) : (s.clearFault p f).shift = s.shift := by
  unfold State.clearFault; split <;> simp
@[simp] theorem State.clearFault_closures (p : Obj) (f : FaultCode) : (s.clearFault p f).closures = s.closures := by
  unfold State.clearFault; split <;> simp
@[simp] theorem State.clearFault_sectors (p : Obj) (f : FaultCode) : (s.clearFault p f).sectors = s.sectors := by
  unfold State.clearFault; split <;> simp
@[simp] theorem State.clearFault_dis (p : Obj) (f : FaultCode) : (s.clearFault p f).dis = s.dis := by
  unfold State.clearFault; split <;> simp
@[simp] theorem State.clearFault_service (p : Obj) (f : FaultCode) : (s.clearFault p f).service = s.service := by
  unfold State.clearFault; split <;> simp
@[simp] theorem State.clearFault_store (p : Obj) (f : FaultCode) : (s.clearFault p f).store = s.store := by
  unfold State.clearFault; split <;> simp
@[simp] theorem State.clearFault_freeCount (p : Obj) (f : FaultCode) : (s.clearFault p f).freeCount = s.freeCount := by
  unfold State.clearFault; split <;> simp
@[simp] theorem State.clearFault_pending (p : Obj) (f : FaultCode) : (s.clearFault p f).pending = s.pending := by
  unfold State.clearFault; split <;> simp
@[simp] theorem State.clearFault_det (p : Obj) (f : FaultCode) (e : DetNo) :
    (s.clearFault p f).det e = s.det e := by
  unfold State.clearFault; split <;> simp
@[simp] theorem State.clearFault_meter (p : Obj) (f : FaultCode) (e : LineNo) :
    (s.clearFault p f).meter e = s.meter e := by
  unfold State.clearFault; split <;> simp
@[simp] theorem State.clearFault_station (p : Obj) (f : FaultCode) (e : LineNo) :
    (s.clearFault p f).station e = s.station e := by
  unfold State.clearFault; split <;> simp
@[simp] theorem State.clearFault_line (p : Obj) (f : FaultCode) (e : LineNo) :
    (s.clearFault p f).line e = s.line e := by
  unfold State.clearFault; split <;> simp
@[simp] theorem State.clearFault_zone (p : Obj) (f : FaultCode) (e : ZoneNo) :
    (s.clearFault p f).zone e = s.zone e := by
  unfold State.clearFault; split <;> simp
@[simp] theorem State.clearFault_input (p : Obj) (f : FaultCode) (e : InputNo) :
    (s.clearFault p f).input e = s.input e := by
  unfold State.clearFault; split <;> simp
@[simp] theorem State.clearFault_closure (p : Obj) (f : FaultCode) (e : ClosureNo) :
    (s.clearFault p f).closure e = s.closure e := by
  unfold State.clearFault; split <;> simp
@[simp] theorem State.clearFault_sector (p : Obj) (f : FaultCode) (e : SectorNo) :
    (s.clearFault p f).sector e = s.sector e := by
  unfold State.clearFault; split <;> simp
@[simp] theorem State.clearFault_detCfg (p : Obj) (f : FaultCode) (e : DetNo) :
    (s.clearFault p f).detCfg e = s.detCfg e := by
  unfold State.clearFault; split <;> simp
@[simp] theorem State.clearFault_lineCfg (p : Obj) (f : FaultCode) (e : LineNo) :
    (s.clearFault p f).lineCfg e = s.lineCfg e := by
  unfold State.clearFault; split <;> simp
@[simp] theorem State.clearFault_inputCfg (p : Obj) (f : FaultCode) (e : InputNo) :
    (s.clearFault p f).inputCfg e = s.inputCfg e := by
  unfold State.clearFault; split <;> simp
@[simp] theorem State.clearFault_closureCfg (p : Obj) (f : FaultCode) (e : ClosureNo) :
    (s.clearFault p f).closureCfg e = s.closureCfg e := by
  unfold State.clearFault; split <;> simp
@[simp] theorem State.clearFault_sectorCfg (p : Obj) (f : FaultCode) (e : SectorNo) :
    (s.clearFault p f).sectorCfg e = s.sectorCfg e := by
  unfold State.clearFault; split <;> simp
@[simp] theorem State.clearFault_patternCfg (p : Obj) (f : FaultCode) (e : PatternNo) :
    (s.clearFault p f).patternCfg e = s.patternCfg e := by
  unfold State.clearFault; split <;> simp
@[simp] theorem State.clearFault_disabled (p : Obj) (f : FaultCode) (e : Target) :
    (s.clearFault p f).disabled e = s.disabled e := by
  unfold State.clearFault; split <;> simp
@[simp] theorem State.clearFault_entryOf (p : Obj) (f : FaultCode) (e : Target) :
    (s.clearFault p f).entryOf e = s.entryOf e := by
  unfold State.clearFault; split <;> simp
@[simp] theorem State.clearFault_hasEntry (p : Obj) (f : FaultCode) (e : Target) :
    (s.clearFault p f).hasEntry e = s.hasEntry e := by
  unfold State.clearFault; split <;> simp
@[simp] theorem State.clearFault_causeOf (p : Obj) (f : FaultCode) (e : Source) :
    (s.clearFault p f).causeOf e = s.causeOf e := by
  unfold State.clearFault; split <;> simp
@[simp] theorem State.clearFault_causeLevel (p : Obj) (f : FaultCode) (e : Source) :
    (s.clearFault p f).causeLevel e = s.causeLevel e := by
  unfold State.clearFault; split <;> simp
@[simp] theorem State.clearFault_after (p : Obj) (f : FaultCode) (e : Nat) :
    (s.clearFault p f).after e = s.after e := by
  unfold State.clearFault; split <;> simp
@[simp] theorem State.clearFault_since (p : Obj) (f : FaultCode) (e : Instant) :
    (s.clearFault p f).since e = s.since e := by
  unfold State.clearFault; split <;> simp
@[simp] theorem State.clearFault_expired (p : Obj) (f : FaultCode) (e : Option Instant) :
    (s.clearFault p f).expired e = s.expired e := by
  unfold State.clearFault; split <;> simp
@[simp] theorem State.clearFault_stamp (p : Obj) (f : FaultCode) : (s.clearFault p f).stamp = s.stamp := by
  unfold State.clearFault; split <;> simp

end Sys2Proof.Machine
end

