-- ==== Sys2Proof/Laws/Frame.lean ====
section
/-! SUPPORT. What each shared operation can change: one lemma per operation, `KeptBut` the blocks it touches. A proof
about a command cites these in place of unfolding the operation; the blocks of a chain are put together by
`KeptBut.andThen`. -/

namespace Sys2Proof.Machine

/-! ### Frames in general -/

theorem KeptBut.refl (l : List Block) (s : State) : KeptBut l s s := by
  intro b _; cases b <;> simp [Block.same]

/-- Two changes in turn, the second within the frame of both. -/
theorem KeptBut.andThen {l l' : List Block} {s t u : State} (h : KeptBut l s t) (h' : KeptBut l' t u)
    (sub : ∀ b ∈ l', b ∈ l) : KeptBut l s u := by
  intro b hb
  have h₁ := h b hb
  have h₂ := h' b (fun m => hb (sub b m))
  cases b <;> simp_all [Block.same]

theorem KeptBut.trans {l : List Block} {s t u : State} (h : KeptBut l s t) (h' : KeptBut l t u) : KeptBut l s u :=
  h.andThen h' (fun _ m => m)

theorem KeptBut.mono {l l' : List Block} {s t : State} (h : KeptBut l' s t) (sub : ∀ b ∈ l', b ∈ l) :
    KeptBut l s t := (KeptBut.refl l s).andThen h sub

theorem forEach_kept {α : Type} {l : List Block} {f : α → State → State} (h : ∀ a s, KeptBut l s (f a s)) :
    ∀ (as : List α) (s : State), KeptBut l s (forEach as f s)
  | [], s => KeptBut.refl l s
  | a :: as, s => (h a s).trans (forEach_kept h as (f a s))

theorem forAll_kept {k : Nat} {l : List Block} {f : Fin k → State → State} (h : ∀ a s, KeptBut l s (f a s))
    (s : State) : KeptBut l s (forAll f s) := forEach_kept h _ s

theorem KeptBut.ite {l : List Block} {p : Prop} [Decidable p] {s t u : State} (h : KeptBut l s t)
    (h' : KeptBut l s u) : KeptBut l s (if p then t else u) := by
  split <;> assumption

/-! ### The blocks of the chains -/

/-- A fault change: the sets, the history and the link. -/
abbrev faultBlocks : List Block := [.faults, .history, .link]

/-- A closure's move. -/
abbrev closureBlocks : List Block := [.closures, .faults, .disablements, .history, .link]

/-- A line's move, with the dampers that wait on it. -/
abbrev lineBlocks : List Block := [.lines, .closures, .faults, .disablements, .history, .link]

/-- A sector's play. -/
abbrev sectorBlocks : List Block := [.sectors, .history, .link]

/-- A channel's loop faults and candidate. -/
abbrev detectorBlocks : List Block := [.detectors, .faults, .history, .link]

/-- A change of a zone's level, with all it is handed to. -/
abbrev zoneBlocks : List Block :=
  [.zones, .sectors, .freeValues, .lines, .closures, .faults, .disablements, .history, .link]

/-- A cause change, with all it is handed to. -/
abbrev causeBlocks : List Block :=
  [.causes, .zones, .sectors, .lines, .closures, .faults, .disablements, .history, .link, .freeValues]

variable (s : State)

/-! ### One object, the history, the link -/

theorem State.setDet_kept (d : DetNo) (x : Detector) : KeptBut [.detectors] s (s.setDet d x) := by
  intro b hb; cases b <;> simp_all [Block.same]

theorem State.setMeter_kept (n : LineNo) (x : Meter) : KeptBut [.meters] s (s.setMeter n x) := by
  intro b hb; cases b <;> simp_all [Block.same]

theorem State.setStation_kept (n : LineNo) (x : Station) : KeptBut [.stations] s (s.setStation n x) := by
  intro b hb; cases b <;> simp_all [Block.same]

theorem State.setLine_kept (n : LineNo) (x : Line) : KeptBut [.lines] s (s.setLine n x) := by
  intro b hb; cases b <;> simp_all [Block.same]

theorem State.setZone_kept (z : ZoneNo) (x : Zone) : KeptBut [.zones] s (s.setZone z x) := by
  intro b hb; cases b <;> simp_all [Block.same]

theorem State.setInput_kept (f : InputNo) (x : FireInput) : KeptBut [.inputs] s (s.setInput f x) := by
  intro b hb; cases b <;> simp_all [Block.same]

theorem State.setClosure_kept (c : ClosureNo) (x : Closure) : KeptBut [.closures] s (s.setClosure c x) := by
  intro b hb; cases b <;> simp_all [Block.same]

theorem State.setSector_kept (n : SectorNo) (x : Sector) : KeptBut [.sectors] s (s.setSector n x) := by
  intro b hb; cases b <;> simp_all [Block.same]

theorem State.setFlags_kept (k : StoreSection) (x : SectionFlags) : KeptBut [.store] s (s.setFlags k x) := by
  intro b hb; cases b <;> simp_all [Block.same]

theorem State.setMark_kept (k : StoreSection) (x : StoredMark) : KeptBut [.store] s (s.setMark k x) := by
  intro b hb; cases b <;> simp_all [Block.same]

theorem State.record_kept (k : RecordKind) (a b : Byte) (d : Detail) : KeptBut [.history] s (s.record k a b d) := by
  intro b hb; cases b <;> simp_all [Block.same]

theorem State.report_kept (q : Queue) (f : Frame) : KeptBut [.link] s (s.report q f) := by
  intro b hb; cases b <;> simp_all [Block.same]

theorem State.deriveFault_kept : KeptBut [.faults] s s.deriveFault := by
  intro b hb; cases b <;> simp_all [Block.same]

theorem State.settle_kept : KeptBut [.link] s s.settle := by
  intro b hb; cases b <;> simp_all [Block.same]

theorem State.objEvent_kept (q : Queue) (k : RecordKind) (r : Byte) (o : Obj) (d : Detail) : KeptBut [.history, .link] s (s.objEvent q k r o d) := by
  exact ((State.record_kept _ _ _ _ _).mono (by decide)).andThen (State.report_kept _ _ _) (by decide)

theorem State.event_kept (q : Queue) (k : RecordKind) (r a b : Byte) (d : Detail) : KeptBut [.history, .link] s (s.event q k r a b d) := by
  exact ((State.record_kept _ _ _ _ _).mono (by decide)).andThen (State.report_kept _ _ _) (by decide)

/-! ### Faults and disablements -/

theorem State.putFault_kept (o : Obj) (f : FaultCode) (r : Bool) : KeptBut faultBlocks s (s.putFault o f r) := by
  unfold State.putFault
  refine KeptBut.andThen ?_ (State.deriveFault_kept _) (by decide)
  refine KeptBut.andThen ?_ (State.objEvent_kept _ _ _ _ _ _) (by decide)
  intro b hb; cases b <;> simp_all [Block.same]

theorem State.raiseFault_kept (o : Obj) (f : FaultCode) : KeptBut faultBlocks s (s.raiseFault o f) := by
  unfold State.raiseFault; split
  · exact KeptBut.refl _ _
  · exact State.putFault_kept _ _ _ _

theorem State.clearFault_kept (o : Obj) (f : FaultCode) : KeptBut faultBlocks s (s.clearFault o f) := by
  unfold State.clearFault; split
  · exact State.putFault_kept _ _ _ _
  · exact KeptBut.refl _ _

theorem State.disEvent_kept (a : DisAction) (t : Option Target) (e : Byte) (m : Nat) (r : Byte) : KeptBut [.history, .link] s (s.disEvent a t e m r) := by
  unfold State.disEvent; split
  · exact State.event_kept _ _ _ _ _ _ _
  · exact State.objEvent_kept _ _ _ _ _ _

theorem State.endActivity_kept (t : Target) : KeptBut [.disablements, .faults, .history, .link] s (s.endActivity t) := by
  unfold State.endActivity
  repeat' split
  · exact KeptBut.refl _ _
  · exact KeptBut.refl _ _
  · refine KeptBut.andThen ?_ (State.deriveFault_kept _) (by decide)
    refine KeptBut.andThen ?_ (State.disEvent_kept _ _ _ _ _ _) (by decide)
    intro b hb; cases b <;> simp_all [Block.same]

/-! ### Sectors -/

theorem State.refreshSiren_kept (n : SectorNo) : KeptBut [.sectors] s (s.refreshSiren n) := State.setSector_kept s n _

theorem State.startCycle_kept (n : SectorNo) : KeptBut [.sectors] s (s.startCycle n) :=
  (State.setSector_kept s n _).trans (State.refreshSiren_kept _ n)

theorem State.noteSector_kept (n : SectorNo) (x : Sector) : KeptBut [.history, .link] s (s.noteSector n x) := by
  unfold State.noteSector
  dsimp only
  split
  · exact KeptBut.refl _ _
  · exact State.objEvent_kept s _ _ _ _ _

theorem State.putSector_kept (n : SectorNo) (x : Sector) : KeptBut sectorBlocks s (s.setSector n x) :=
  (State.setSector_kept s n x).mono (by decide)

theorem State.riseSector_kept (n : SectorNo) (d : Demand) : KeptBut sectorBlocks s (s.riseSector n d) :=
  ((State.putSector_kept s n _).andThen (State.startCycle_kept _ n) (by decide)).andThen
    (State.noteSector_kept _ n _) (by decide)

theorem State.stopSector_kept (n : SectorNo) (st : SectorState) : KeptBut sectorBlocks s (s.stopSector n st) :=
  ((State.putSector_kept s n _).andThen (State.refreshSiren_kept _ n) (by decide)).andThen
    (State.noteSector_kept _ n _) (by decide)

theorem State.switchSector_kept (n : SectorNo) (d : Demand) : KeptBut sectorBlocks s (s.switchSector n d) :=
  ((State.putSector_kept s n _).andThen (State.startCycle_kept _ n) (by decide)).andThen
    (State.noteSector_kept _ n _) (by decide)

theorem State.deriveSector_kept (n : SectorNo) : KeptBut sectorBlocks s (s.deriveSector n) := by
  have set := State.putSector_kept s n
  unfold State.deriveSector
  dsimp only
  split
  · split
    · exact set _
    · exact State.riseSector_kept s n _
  · repeat' split
    · exact State.stopSector_kept s n _
    · exact State.riseSector_kept s n _
    · exact set _
    · exact set _
    · exact (set _).trans (State.switchSector_kept _ n _)
  all_goals
    split
    · exact (set _).andThen (State.noteSector_kept _ n _) (by decide)
    · exact State.riseSector_kept s n _

theorem State.endCycle_kept (n : SectorNo) : KeptBut sectorBlocks s (s.endCycle n) := by
  unfold State.endCycle
  dsimp only
  repeat' split
  · exact State.switchSector_kept s n _
  · exact State.switchSector_kept s n _
  · exact (State.startCycle_kept s n).mono (by decide)

theorem State.refreshHighest_kept (n : SectorNo) : KeptBut [.sectors] s (s.refreshHighest n) :=
  State.setSector_kept s n _

theorem State.handSectors_kept (z : ZoneNo) : KeptBut sectorBlocks s (s.handSectors z) :=
  forAll_kept (fun n t => .ite (State.deriveSector_kept t n) (.refl _ t)) s

theorem State.showSectors_kept (z : ZoneNo) : KeptBut [.sectors] s (s.showSectors z) :=
  forAll_kept (fun n t => .ite (State.refreshHighest_kept t n) (.refl _ t)) s

theorem State.patternWritten_kept (p : PatternNo) : KeptBut [.sectors] s (s.patternWritten p) :=
  forAll_kept (fun n t => .ite (State.startCycle_kept t n) (.refl _ t)) s

theorem State.sectorZonesWritten_kept (n : SectorNo) : KeptBut sectorBlocks s (s.sectorZonesWritten n) :=
  ((State.refreshHighest_kept s n).mono (by decide)).trans (State.deriveSector_kept _ n)

theorem State.sectorPatternWritten_kept (n : SectorNo) (l : Demand) :
    KeptBut sectorBlocks s (s.sectorPatternWritten n l) :=
  .ite (State.switchSector_kept s n l) (.refl _ s)

/-! ### Closures -/

theorem State.moveClosure_kept (c : ClosureNo) (st : ClosureState) (d : Direction) (o : ReleaseOrigin)
    (f : Closure → Closure) : KeptBut closureBlocks s (s.moveClosure c st d o f) := by
  have put (x : Closure) (q : Queue) (e : Detail) :
      KeptBut closureBlocks s ((s.setClosure c x).objEvent q .closure 0x46 (.closure c) e) :=
    ((State.setClosure_kept s c x).mono (by decide)).andThen (State.objEvent_kept _ q _ _ _ e) (by decide)
  have fault (t : State) (h : KeptBut closureBlocks s t) (p q : Prop) [Decidable p] [Decidable q] :
      KeptBut closureBlocks s (if p then t.raiseFault (.closure c) .stuck
        else if q then t.clearFault (.closure c) .stuck else t) :=
    .ite (h.andThen (State.raiseFault_kept t _ _) (by decide))
      (.ite (h.andThen (State.clearFault_kept t _ _) (by decide)) h)
  have last (t : State) (h : KeptBut closureBlocks s t) (b : Bool) :
      KeptBut closureBlocks s (if b then t.endActivity (.closure c) else t) :=
    .ite (h.andThen (State.endActivity_kept t _) (by decide)) h
  exact .ite (.refl _ s) (last _ (fault _ (put _ _ _) _ _) _)

theorem State.startTravel_kept (c : ClosureNo) (o : ReleaseOrigin) : KeptBut closureBlocks s (s.startTravel c o) := by
  unfold State.startTravel
  exact State.moveClosure_kept s c _ _ _ _

theorem State.letGo_kept (c : ClosureNo) (o : ReleaseOrigin) : KeptBut closureBlocks s (s.letGo c o) :=
  .ite (State.moveClosure_kept s c _ _ _ _) (State.startTravel_kept s c o)

theorem State.holdOpen_kept (c : ClosureNo) : KeptBut closureBlocks s (s.holdOpen c) :=
  State.moveClosure_kept s c _ _ _ _

theorem State.shutClosure_kept (c : ClosureNo) : KeptBut closureBlocks s (s.shutClosure c) :=
  State.moveClosure_kept s c _ _ _ _

theorem State.makeReady_kept (c : ClosureNo) : KeptBut closureBlocks s (s.makeReady c) :=
  .ite ((State.moveClosure_kept s c _ _ _ _).trans (State.holdOpen_kept _ c)) (State.moveClosure_kept s c _ _ _ _)

theorem State.endWait_kept (c : ClosureNo) : KeptBut closureBlocks s (s.endWait c) :=
  .ite (.ite ((State.startTravel_kept s c _).trans (State.shutClosure_kept _ c)) (State.startTravel_kept s c _))
    (.refl _ s)

theorem State.endWaits_kept (n : LineNo) : KeptBut closureBlocks s (s.endWaits n) :=
  forAll_kept (fun c t => .ite (State.endWait_kept t c) (.refl _ t)) s

/-! ### Lines -/

theorem State.moveLine_kept (n : LineNo) (st : LineState) (cause : StopCause) (f : Line → Line) :
    KeptBut lineBlocks s (s.moveLine n st cause f) := by
  have put (x : Line) (q : Queue) (e : Detail) :
      KeptBut lineBlocks s ((s.setLine n x).objEvent q .lineState 0x44 (.line n) e) :=
    ((State.setLine_kept s n x).mono (by decide)).andThen (State.objEvent_kept _ q _ _ _ e) (by decide)
  have last (t : State) (h : KeptBut lineBlocks s t) (p : Prop) [Decidable p] :
      KeptBut lineBlocks s (if p then t.endWaits n else t) :=
    .ite (h.andThen (State.endWaits_kept t n) (by decide)) h
  exact last _ (put _ _ _) _

theorem State.restartCount_kept (n : LineNo) : KeptBut [.lines] s (s.restartCount n) := State.setLine_kept s n _

theorem State.stopDone_kept (n : LineNo) : KeptBut lineBlocks s (s.stopDone n) :=
  .ite ((State.moveLine_kept s n _ _ _).andThen (State.raiseFault_kept _ _ _) (by decide))
    (State.moveLine_kept s n _ _ _)

theorem State.testRundown_kept (n : LineNo) : KeptBut lineBlocks s (s.testRundown n) :=
  .ite (.ite (State.moveLine_kept s n _ _ _) (State.stopDone_kept s n)) (.refl _ s)

theorem State.stopLine_kept (n : LineNo) (cause : StopCause) : KeptBut lineBlocks s (s.stopLine n cause) :=
  (State.moveLine_kept s n _ _ _).trans (State.testRundown_kept _ n)

theorem State.abortLine_kept (n : LineNo) (cause : StopCause) : KeptBut lineBlocks s (s.abortLine n cause) := by
  unfold State.abortLine
  exact State.moveLine_kept s n _ _ _

theorem State.runLine_kept (n : LineNo) : KeptBut lineBlocks s (s.runLine n) :=
  .ite ((State.moveLine_kept s n _ _ _).trans (State.stopLine_kept _ n _)) (State.moveLine_kept s n _ _ _)

theorem State.protectLine_kept (n : LineNo) (cause : StopCause) : KeptBut lineBlocks s (s.protectLine n cause) := by
  unfold State.protectLine
  dsimp only
  split
  case h_4 => exact .ite ((State.setLine_kept s n _).mono (by decide)) (.refl _ s)
  all_goals first | exact State.stopLine_kept s n cause | exact .refl _ s

theorem State.judgeLine_kept (n : LineNo) : KeptBut [.lines, .faults, .history, .link] s (s.judgeLine n) :=
  .ite (.refl _ s) (.ite ((State.setLine_kept s n _).mono (by decide))
    (((State.setLine_kept s n _).mono (by decide)).andThen (State.clearFault_kept _ _ _) (by decide)))

theorem State.judgeBlind_kept : KeptBut [.lines, .faults, .history, .link] s s.judgeBlind :=
  forAll_kept (fun n t => State.judgeLine_kept t n) s

/-! ### Releases, zones and causes -/

theorem State.demandStop_kept (c : ClosureNo) : KeptBut lineBlocks s (s.demandStop c) := by
  unfold State.demandStop
  split
  · exact .refl _ s
  · exact State.protectLine_kept s _ _

theorem State.demandIfRunning_kept (c : ClosureNo) : KeptBut lineBlocks s (s.demandIfRunning c) := by
  unfold State.demandIfRunning
  split
  · exact .refl _ s
  · exact .ite (State.protectLine_kept s _ _) (.refl _ s)

theorem State.releaseClosure_kept (c : ClosureNo) (o : ReleaseOrigin) :
    KeptBut lineBlocks s (s.releaseClosure c o) := by
  have put (x : Closure) : KeptBut lineBlocks s (s.setClosure c x) :=
    (State.setClosure_kept s c x).mono (by decide)
  have go (x : Closure) := (put x).andThen (State.letGo_kept _ c o) (by decide)
  have wait (x : Closure) (f : Closure → Closure) :=
    ((put x).andThen (State.moveClosure_kept _ c .waiting .none o f) (by decide)).trans (State.demandStop_kept _ c)
  refine .ite ?_ (.refl _ s)
  dsimp only
  split
  · exact go _
  · exact .ite (wait _ _) (.ite ((go _).trans (State.demandIfRunning_kept _ c)) (go _))

theorem State.triggerClosure_kept (z : ZoneNo) (c : ClosureNo) : KeptBut lineBlocks s (s.triggerClosure z c) :=
  .ite (State.releaseClosure_kept s c _) (.refl _ s)

theorem State.testZones_kept (c : ClosureNo) : KeptBut lineBlocks s (s.testZones c) := by
  unfold State.testZones
  split
  · exact .refl _ s
  · exact .ite (.refl _ s) (State.releaseClosure_kept s c _)

theorem State.handClosures_kept (z : ZoneNo) : KeptBut lineBlocks s (s.handClosures z) :=
  forAll_kept (fun c t => State.triggerClosure_kept t z c) s

theorem State.handLines_kept (z : ZoneNo) : KeptBut lineBlocks s (s.handLines z) :=
  forAll_kept (fun n t => .ite (State.protectLine_kept t n _) (.refl _ t)) s

theorem State.tripEarly_kept (z : ZoneNo) (n : LineNo) :
    KeptBut (.freeValues :: lineBlocks) s (s.tripEarly z n) := by
  have free : KeptBut (.freeValues :: lineBlocks) s { s with freeCount := s.freeCount + 1 } := by
    intro b hb; cases b <;> simp_all [Block.same]
  exact .ite (.ite (free.andThen (State.protectLine_kept _ n _) (by decide)) free) (.refl _ s)

theorem State.handOn_kept (z : ZoneNo) : KeptBut (.freeValues :: lineBlocks) s (s.handOn z) :=
  ((forAll_kept (fun n t => State.tripEarly_kept t z n) s).andThen (State.handClosures_kept _ z) (by decide)).andThen
    (State.handLines_kept _ z) (by decide)

theorem State.deriveZone_kept (z : ZoneNo) : KeptBut zoneBlocks s (s.deriveZone z) :=
  .ite (.refl _ s) (((((State.setZone_kept s z _).mono (by decide)).andThen
    (State.objEvent_kept _ _ _ _ _ _) (by decide)).andThen (State.handOn_kept _ z) (by decide)).andThen
    (State.showSectors_kept _ z) (by decide))

theorem State.causeEvent_kept (r : Cause) (a b : Option Level) : KeptBut [.history, .link] s (s.causeEvent r a b) :=
  State.objEvent_kept s _ _ _ _ _

theorem State.causeChanged_kept (z : ZoneNo) : KeptBut zoneBlocks s (s.causeChanged z) :=
  (State.deriveZone_kept s z).andThen (State.handSectors_kept _ z) (by decide)

theorem State.putCauses_kept (l : List Cause) : KeptBut [.causes] s { s with causes := l } := by
  intro b hb; cases b <;> simp_all [Block.same]

theorem State.deriveChanged_kept (before : List Cause) : KeptBut zoneBlocks s (s.deriveChanged before) :=
  forAll_kept (fun z t => .ite (.refl _ t) (State.deriveZone_kept t z)) s

/-- A raise changes the list, the history and the link, and what follows a cause change. -/
theorem State.raiseThen_kept {after : ZoneNo → State → State} (follows : ∀ t y, KeptBut causeBlocks t (after y t))
    (src : Source) (z : ZoneNo) (l : Level) (h : Option Instant) :
    KeptBut causeBlocks s (s.raiseThen after src z l h) := by
  have changed (m : List Cause) (r : Cause) (a b : Option Level) (y : ZoneNo) :=
    (((State.putCauses_kept s m).mono (l := causeBlocks) (by decide)).andThen
      (State.causeEvent_kept _ r a b) (by decide)).trans (follows _ y)
  unfold State.raiseThen
  split
  · exact changed _ _ _ _ _
  · exact .ite (changed _ _ _ _ _) ((State.putCauses_kept s _).mono (by decide))

theorem State.raiseCause_kept (src : Source) (z : ZoneNo) (l : Level) (h : Option Instant) :
    KeptBut causeBlocks s (s.raiseCause src z l h) :=
  State.raiseThen_kept s (fun t y => (State.causeChanged_kept t y).mono (by decide)) src z l h

theorem State.putCause_kept (src : Source) (z : ZoneNo) (l : Level) (h : Option Instant) :
    KeptBut causeBlocks s (s.putCause src z l h) :=
  State.raiseThen_kept s (fun t y => (State.handSectors_kept t y).mono (by decide)) src z l h

theorem State.dropCause_kept (src : Source) : KeptBut [.causes, .history, .link] s (s.dropCause src) := by
  unfold State.dropCause
  split
  · exact .refl _ s
  · exact ((State.putCauses_kept s _).mono (by decide)).andThen (State.causeEvent_kept _ _ _ _) (by decide)

theorem State.removeCause_kept (src : Source) : KeptBut causeBlocks s (s.removeCause src) := by
  unfold State.removeCause
  split
  · exact .refl _ s
  · exact ((State.dropCause_kept s src).mono (by decide)).andThen (State.causeChanged_kept _ _) (by decide)

/-! ### Stations -/

theorem State.turnOn_kept (n : LineNo) : KeptBut [.stations] s (s.turnOn n) := State.setStation_kept s n _

theorem State.afterInsert_kept (n : LineNo) : KeptBut [.stations] s (s.afterInsert n) :=
  .ite (State.turnOn_kept s n) (.ite (State.setStation_kept s n _) (.refl _ s))

theorem State.offerWindow_kept (n : LineNo) (w : Window) : KeptBut [.stations] s (s.offerWindow n w) :=
  .ite (State.setStation_kept s n _) ((State.setStation_kept s n _).trans (State.afterInsert_kept _ n))

theorem State.endWindow_kept (n : LineNo) :
    KeptBut [.stations, .disablements, .faults, .history, .link] s (s.endWindow n) := by
  have put (x : Station) : KeptBut [.stations, .disablements, .faults, .history, .link] s (s.setStation n x) :=
    (State.setStation_kept s n x).mono (by decide)
  unfold State.endWindow
  dsimp only
  split
  · exact .refl _ s
  · have last (t : State) (h : KeptBut [.stations, .disablements, .faults, .history, .link] s t) (b : Bool) :
        KeptBut [.stations, .disablements, .faults, .history, .link] s
          (if b then t.endActivity (.station n) else t) :=
      .ite (h.andThen (State.endActivity_kept t _) (by decide)) h
    refine last _ ?_ _
    split
    · exact (put _).andThen (State.record_kept _ _ _ _ _) (by decide)
    · exact put _

theorem State.noWater_kept (n : LineNo) : KeptBut (.stations :: causeBlocks) s (s.noWater n) := by
  have fault (x : Station) : KeptBut (.stations :: causeBlocks) s
      ((s.setStation n x).raiseFault (.station n) .noWater) :=
    ((State.setStation_kept s n x).mono (by decide)).andThen (State.raiseFault_kept _ _ _) (by decide)
  have abort (t : State) (h : KeptBut (.stations :: causeBlocks) s t) (p : Prop) [Decidable p] :
      KeptBut (.stations :: causeBlocks) s (if p then t.abortLine n .noWater else t) :=
    .ite (h.andThen (State.abortLine_kept t n _) (by decide)) h
  unfold State.noWater
  dsimp only
  split
  · exact abort _ (fault _) _
  · exact (abort _ (fault _) _).andThen (State.raiseCause_kept _ _ _ _ _) (by decide)

/-! ### Line counters -/

theorem State.raiseLineCause_kept (n : LineNo) (l : Level) : KeptBut causeBlocks s (s.raiseLineCause n l) := by
  unfold State.raiseLineCause
  split
  · exact .refl _ s
  · exact State.putCause_kept s _ _ _ _

theorem State.escalate_kept (n : LineNo) (k : Nat) (d : DetNo) : KeptBut causeBlocks s (s.escalate n k d) := by
  have noted (a b : Byte) (e : Detail) : KeptBut causeBlocks s ((s.restartCount n).record .escalation a b e) :=
    ((State.restartCount_kept s n).mono (by decide)).andThen (State.record_kept _ _ _ _ _) (by decide)
  have stopping (t : State) (x : Line) (p : Prop) [Decidable p] (h : KeptBut causeBlocks s t) :
      KeptBut causeBlocks s (if p then t.setLine n x else t) :=
    .ite (h.andThen (State.setLine_kept t n x) (by decide)) h
  unfold State.escalate
  generalize (s.restartCount n).line n = x
  dsimp only
  split <;> refine KeptBut.trans ?_ (State.raiseLineCause_kept _ n _)
  · exact (noted _ _ _).andThen (State.abortLine_kept _ n _) (by decide)
  · exact (noted _ _ _).andThen (State.abortLine_kept _ n _) (by decide)
  · exact (noted _ _ _).andThen (State.stopLine_kept _ n _) (by decide)
  · exact stopping _ _ _ (noted _ _ _)
  · exact noted _ _ _
  · exact noted _ _ _

theorem State.countSpark_kept (n : LineNo) (w : Nat) (d : DetNo) : KeptBut causeBlocks s (s.countSpark n w d) :=
  .ite (State.escalate_kept s n _ d) ((State.setLine_kept s n _).mono (by decide))

theorem State.gateAtLine_kept (n : LineNo) : KeptBut lineBlocks s (s.gateAtLine n) := by
  unfold State.gateAtLine
  split
  · exact .ite (State.runLine_kept s n) (.refl _ s)
  · exact .ite (((State.raiseFault_kept s _ _).mono (by decide)).trans (State.stopLine_kept _ n _)) (.refl _ s)
  · exact State.testRundown_kept s n
  all_goals exact .refl _ s

/-! ### Detector channels -/

theorem State.dropCandidate_kept (d : DetNo) (r : Byte) : KeptBut [.detectors, .history] s (s.dropCandidate d r) := by
  unfold State.dropCandidate
  split
  · exact .refl _ s
  · exact ((State.setDet_kept s d _).mono (by decide)).andThen (State.record_kept _ _ _ _ _) (by decide)

theorem State.putDet_kept (d : DetNo) (x : Detector) : KeptBut detectorBlocks s (s.setDet d x) :=
  (State.setDet_kept s d x).mono (by decide)

theorem State.raiseDet_kept (d : DetNo) (f : FaultCode) : KeptBut detectorBlocks s (s.raiseDet d f) :=
  .ite (.refl _ s) (((State.raiseFault_kept s _ f).mono (by decide)).andThen
    (State.dropCandidate_kept _ d _) (by decide))

theorem State.applyLevel_kept (d : DetNo) (l : Fin 16) : KeptBut detectorBlocks s (s.applyLevel d l) := by
  have put := State.putDet_kept s d
  have raised (x : Detector) (f g : FaultCode) :=
    ((put x).trans (State.raiseDet_kept _ d f)).andThen (State.clearFault_kept _ (.detector d) g) (by decide)
  have clear (x : Detector) (f : FaultCode) :=
    (put x).andThen (State.clearFault_kept _ (.detector d) f) (by decide)
  exact .ite (raised _ _ _) (.ite (raised _ _ _) (.ite ((clear _ _).andThen (State.clearFault_kept _ _ _) (by decide))
    (.ite (clear _ _) (put _))))

theorem State.turnOff_kept (d : DetNo) : KeptBut detectorBlocks s (s.turnOff d) :=
  ((State.putDet_kept s d _).andThen (State.clearFault_kept _ _ _) (by decide)).andThen
    (State.clearFault_kept _ _ _) (by decide)

theorem State.startSample_kept (d : DetNo) : KeptBut [.detectors] s (s.startSample d) := State.setDet_kept s d _

theorem State.takeMode_kept (d : DetNo) (m : Supervision) : KeptBut detectorBlocks s (s.takeMode d m) := by
  have put := State.putDet_kept s d
  unfold State.takeMode
  dsimp only
  refine .ite (put _) ?_
  split
  · exact State.turnOff_kept s d
  · exact .ite ((put _).andThen (State.startSample_kept _ d) (by decide)) (put _)

theorem State.deriveMode_kept (d : DetNo) : KeptBut detectorBlocks s (s.deriveMode d) :=
  .ite (State.putDet_kept s d _) (State.takeMode_kept s d _)

theorem State.offerSpark_kept (d : DetNo) : KeptBut [.stations] s (s.offerSpark d) := by
  unfold State.offerSpark
  split
  · exact State.offerWindow_kept s _ _
  · exact .refl _ s

theorem State.countAt_kept (d : DetNo) (w : Nat) : KeptBut causeBlocks s (s.countAt d w) := by
  unfold State.countAt
  split
  · exact .refl _ s
  · exact State.countSpark_kept s _ w d

theorem State.sparkCause_kept (d : DetNo) : KeptBut causeBlocks s (s.sparkCause d) := by
  unfold State.sparkCause
  split
  · exact .refl _ s
  · exact State.putCause_kept s _ _ _ _

theorem State.deliver_kept (d : DetNo) (e : Bool) (w : Nat) (c : Bool) :
    KeptBut (.detectors :: .stations :: causeBlocks) s (s.deliver d e w c) :=
  (((((((State.offerSpark_kept s d).mono (by decide)).andThen (State.setDet_kept _ d _) (by decide)).andThen
    (State.record_kept _ _ _ _ _) (by decide)).andThen (State.report_kept _ _ _) (by decide)).andThen
    (State.countAt_kept _ d w) (by decide)).andThen (State.sparkCause_kept _ d) (by decide)).andThen
    (State.deriveChanged_kept _ _) (by decide)

end Sys2Proof.Machine
end

