-- ==== Sys2Proof/Laws/History.lean ====
section
/-! SUPPORT. The history ring (R167): what joining a record does to its length, its numbers and its records. -/

namespace Sys2Proof.Machine

variable (h : History) (at_ : Instant) (k : RecordKind) (a b : Byte) (d : Detail)

@[simp] theorem History.add_next : (h.add at_ k a b d).next = h.next + 1 := rfl

/-- A ring never holds more than its capacity after a record has joined. -/
theorem History.add_length_le : (h.add at_ k a b d).records.length ≤ 512 := by
  simp only [History.add, Config.historyCapacity, List.length_drop, List.length_append, List.length_cons,
    List.length_nil]
  omega

/-- With room the record is added behind the others. -/
theorem History.add_records_of_room (room : h.records.length < 512) :
    (h.add at_ k a b d).records = h.records ++ [⟨h.next, at_, k, a, b, d⟩] := by
  have e : h.records.length + 1 - 512 = 0 := by omega
  simp only [History.add, Config.historyCapacity, e, List.drop_zero]

/-- A full ring loses its oldest record. -/
theorem History.add_records_of_full (full : h.records.length = 512) :
    (h.add at_ k a b d).records = h.records.tail ++ [⟨h.next, at_, k, a, b, d⟩] := by
  obtain ⟨l, n⟩ := h
  cases l with
  | nil => cases full
  | cons r rest =>
    have e : (r :: rest).length + 1 - 512 = 1 := by simp only at full; omega
    simp only [History.add, Config.historyCapacity, e, List.cons_append, List.drop_succ_cons, List.drop_zero,
      List.tail_cons]

end Sys2Proof.Machine
end

