-- ==== Sys2Proof/Laws/Link.lean ====
section
/-! SUPPORT. What each operation of the message link can do, once each (R155 to R159): the offer and the taking of an
entry, the outcome of a request, and the transmitter's choice. -/

namespace Sys2Proof.Machine

/-! ### The inbound buffer -/

/-- An offer adds its entry or, with the buffer full, does nothing; only the buffer and the part hold can change. -/
theorem Link.offer_cases (k : Link) (e : Inbound) :
    (4 ≤ k.buffer.length ∧ k.offer e = k) ∨
    (k.buffer.length < 4 ∧ ¬(k.buffer.length = 3 ∧ k.partHolding = false) ∧
      k.offer e = { k with buffer := k.buffer ++ [e] }) ∨
    (k.buffer.length = 3 ∧ k.partHolding = false ∧
      k.offer e = { k with buffer := k.buffer ++ [e], partHolding := true, flow := some .hold }) := by
  unfold Link.offer
  simp only [Config.bufferCapacity, List.length_append, List.length_cons, List.length_nil]
  split
  · next h =>
    split
    · next g => exact .inr (.inr ⟨by omega, g.2, rfl⟩)
    · next g => exact .inr (.inl ⟨h, fun x => g ⟨by omega, x.2⟩, rfl⟩)
  · next h => exact .inl ⟨by omega, rfl⟩

/-- What leaves when the oldest entry is taken, and when the part hold is released with it (R157). -/
theorem Link.pop_cons {k : Link} {o : Inbound} {rest : List Inbound} (h : k.buffer = o :: rest) :
    k.pop = if k.partHolding = true ∧ rest.length = 1 then
        { k with buffer := rest, partHolding := false, flow := some .go }
      else { k with buffer := rest } := by
  simp only [Link.pop, h]

/-- An entry is taken exactly where the slot is empty, no restart is pending, and it is the oldest of the buffer or the
buffer is empty (R156). -/
theorem Link.claim_some {k k' : Link} {e : Inbound} (h : k.claim e = some k') :
    k.slot = none ∧ k.restartPending = false ∧
      ((k.buffer = [] ∧ k' = k) ∨ ∃ rest, k.buffer = e :: rest ∧ k' = k.pop) := by
  unfold Link.claim at h
  split at h
  · next m =>
    simp only [Link.mayTake, Bool.and_eq_true, Option.isNone_iff_eq_none, Bool.not_eq_true'] at m
    refine ⟨m.1, m.2, ?_⟩
    split at h
    · next b => exact .inl ⟨b, by simpa using h.symm⟩
    · next o rest b =>
      split at h
      · next oe => exact .inr ⟨rest, by rw [b, oe], by simpa using h.symm⟩
      · cases h
  · cases h

/-- Taking an entry changes only the buffer, the part hold and the flow frame that goes with it. -/
theorem Link.claim_frame {k k' : Link} {e : Inbound} (h : k.claim e = some k') :
    k'.receiver = k.receiver ∧ k'.lastChar = k.lastChar ∧ k'.slot = k.slot ∧ k'.hostHeld = k.hostHeld ∧
      k'.sending = k.sending ∧ k'.alarm = k.alarm ∧ k'.notice = k.notice ∧ k'.dropped = k.dropped ∧
      k'.restartPending = k.restartPending := by
  obtain ⟨-, -, ⟨-, rfl⟩ | ⟨rest, b, rfl⟩⟩ := Link.claim_some h
  · simp
  · rw [Link.pop_cons b]; split <;> simp

/-! ### The receiver -/

/-- What a character can do (R153, R154): nothing in HUNT, the next phase, an error entry, or a frame judged, the last
only where no character of the frame had a fault in its stop bit. -/
theorem Link.receive_cases (k : Link) (c : Byte) (now : Stamp) (fault : Bool) :
    (k.receiver = .hunt ∧ k.receive c now fault = k) ∨
    (∃ r, r ≠ .hunt ∧ k.receive c now fault = { k with receiver := r, lastChar := some now }) ∨
    (k.receiver ≠ .hunt ∧ k.receive c now fault = k.hunt.offer .error) ∨
    ∃ chars first, k.receiver = .check chars (some first) false ∧ fault = false ∧
      k.receive c now fault = k.complete chars (first ++ c) := by
  unfold Link.receive
  split
  · next h =>
    split
    · exact .inr (.inl ⟨_, by simp, rfl⟩)
    · exact .inl ⟨h, rfl⟩
  · next h =>
    split
    · exact .inr (.inl ⟨_, by simp, rfl⟩)
    · exact .inr (.inr (.inl ⟨by simp [h], rfl⟩))
  · dsimp only
    split <;> exact .inr (.inl ⟨_, by simp, rfl⟩)
  · exact .inr (.inl ⟨_, by simp, rfl⟩)
  · next chars first faulty h =>
    split
    · exact .inr (.inr (.inl ⟨by simp [h], rfl⟩))
    · next sound =>
      simp only [Bool.or_eq_true, not_or, Bool.not_eq_true] at sound
      exact .inr (.inr (.inr ⟨chars, first, by rw [h, sound.1], sound.2, rfl⟩))

/-! ### Outcomes -/

@[simp] theorem done_eq (s : State) : done s = .next s.settle := rfl

/-- The taking of an entry that cannot be taken now: it is offered to the buffer. -/
theorem take_offered {e : Inbound} {answer : State → State × Frame} {s : State} (h : s.link.claim e = none) :
    take e answer s = .next (s.withLink (s.link.offer e)).settle := by
  simp only [take, h, State.withLink, done_eq]

/-- The taking of an entry: the answer's state, with its frame in the reply slot. -/
theorem take_claimed {e : Inbound} {answer : State → State × Frame} {s : State} {k : Link}
    (h : s.link.claim e = some k) :
    take e answer s = .next ((answer (s.withLink k)).1.answered (answer (s.withLink k)).2) := by
  simp only [take, h, State.withLink, State.answered, done_eq]

/-- Taking an entry always has a next state. -/
theorem take_next (e : Inbound) (answer : State → State × Frame) (s : State) : ∃ t, take e answer s = .next t := by
  cases h : s.link.claim e with
  | none => exact ⟨_, take_offered h⟩
  | some k => exact ⟨_, take_claimed h⟩

/-- A request of a kind's own length, taken: its owner decides. -/
theorem request_claimed {kind : Byte} {p : Payload} {owner : State → State × Answer} {s : State} {k : Link}
    (h : s.link.claim (.request kind p) = some k) (len : p.length = (requestLength kind).getD 0) :
    request kind p owner s =
      .next ((owner (s.withLink k)).1.answered ((owner (s.withLink k)).2.frame kind)) := by
  simp only [request, take_claimed h, len, if_true]

/-- A request that cannot be taken now. -/
theorem request_offered {kind : Byte} {p : Payload} {owner : State → State × Answer} {s : State}
    (h : s.link.claim (.request kind p) = none) :
    request kind p owner s = .next (s.withLink (s.link.offer (.request kind p))).settle := take_offered h

/-- Every request has a next state. -/
theorem request_next (kind : Byte) (p : Payload) (owner : State → State × Answer) (s : State) :
    ∃ t, request kind p owner s = .next t := take_next _ _ s

/-! ### The transmitter -/

/-- What the transmitter's choice can be (R159): nothing, or one frame begun, taken from the place that held it. -/
theorem Link.choose_cases (k : Link) (p : Stamp) :
    k.choose p = k ∨
    (k.sending = none ∧ ∃ f, k.flow = some f ∧
      k.choose p = { k with flow := none, sending := some ⟨flowFrame f, p⟩ }) ∨
    (k.sending = none ∧ k.flow = none ∧ k.hostHeld = false ∧
      ((∃ f, k.slot = some f ∧ k.choose p = { k with slot := none, sending := some ⟨f, p⟩ }) ∨
       (∃ f rest, k.slot = none ∧ k.alarm = f :: rest ∧
          k.choose p = { k with alarm := rest, sending := some ⟨f, p⟩ }) ∨
       (∃ f rest, k.slot = none ∧ k.alarm = [] ∧ k.notice = f :: rest ∧
          k.choose p = { k with notice := rest, sending := some ⟨f, p⟩ }))) := by
  unfold Link.choose
  split
  · exact .inl rfl
  · next b =>
    have idle : k.sending = none := by simpa using b
    split
    · next f hf => exact .inr (.inl ⟨idle, f, hf, rfl⟩)
    · next hf =>
      split
      · exact .inl rfl
      · next hh =>
        have free : k.hostHeld = false := by simpa using hh
        split
        · next f hs => exact .inr (.inr ⟨idle, hf, free, .inl ⟨f, hs, rfl⟩⟩)
        · next f rest hs ha => exact .inr (.inr ⟨idle, hf, free, .inr (.inl ⟨f, rest, hs, ha, rfl⟩)⟩)
        · next f rest hs ha hn => exact .inr (.inr ⟨idle, hf, free, .inr (.inr ⟨f, rest, hs, ha, hn, rfl⟩)⟩)
        · exact .inl rfl

/-- The choice leaves the receiver and the buffer alone. -/
theorem Link.choose_frame (k : Link) (p : Stamp) :
    (k.choose p).receiver = k.receiver ∧ (k.choose p).lastChar = k.lastChar ∧ (k.choose p).buffer = k.buffer ∧
      (k.choose p).partHolding = k.partHolding ∧ (k.choose p).hostHeld = k.hostHeld ∧
      (k.choose p).dropped = k.dropped ∧ (k.choose p).restartPending = k.restartPending := by
  obtain h | ⟨-, f, -, h⟩ | ⟨-, -, -, ⟨f, -, h⟩ | ⟨f, rest, -, -, h⟩ | ⟨f, rest, -, -, -, h⟩⟩ := Link.choose_cases k p
  all_goals rw [h]; simp

end Sys2Proof.Machine
end

