-- ==== Sys2Proof/Laws/Operands.lean ====
section
/-! SUPPORT. The reading of operands: object numbers and targets, the first object of a kind with a property, and codes
that tell their objects apart (R181, R183). -/

namespace Sys2Proof.Machine

@[simp] theorem numbered_number {k : Nat} (i : Fin k) : numbered k (number i) = some i := by
  have h : 1 ≤ number i ∧ number i ≤ k := ⟨by simp [number], i.isLt⟩
  exact dif_pos h

/-- A number names an object exactly where it is that object's. -/
theorem numbered_some {k n : Nat} {i : Fin k} (h : numbered k n = some i) : number i = n := by
  unfold numbered at h
  split at h
  · cases h; simp only [number]; omega
  · cases h

/-- A number names no object exactly where it is 0 or too high. -/
theorem numbered_none {k n : Nat} : numbered k n = none ↔ n = 0 ∨ k < n := by
  unfold numbered
  split
  · simp; omega
  · simp; omega

/-- The first object with a property has it, and none before it does. -/
theorem firstOf_some {k : Nat} {p : Fin k → Bool} {i : Fin k} (h : firstOf p = some i) : p i = true :=
  List.find?_some h

/-- None is found exactly where no object has the property. -/
theorem firstOf_none {k : Nat} {p : Fin k → Bool} : firstOf p = none ↔ ∀ i, p i = false := by
  simp [firstOf, List.find?_eq_none]

/-- A kind code and number name at most one target. -/
theorem targetOf_some {kind num : Nat} {t : Target} (h : targetOf kind num = some t) :
    (targetObj t).kindCode.toNat = kind ∧ (targetObj t).num = num := by
  unfold targetOf at h
  split at h <;> first
    | cases h
    | (obtain ⟨i, hi, rfl⟩ := Option.map_eq_some_iff.mp h
       exact ⟨rfl, numbered_some hi⟩)

/-- Every target is named by its own kind code and number. -/
@[simp] theorem targetOf_self (t : Target) :
    targetOf (targetObj t).kindCode.toNat (targetObj t).num = some t := by
  cases t with
  | detector d => exact congrArg (Option.map Target.detector) (numbered_number d)
  | fireInput d => exact congrArg (Option.map Target.fireInput) (numbered_number d)
  | station d => exact congrArg (Option.map Target.station) (numbered_number d)
  | closure d => exact congrArg (Option.map Target.closure) (numbered_number d)
  | sector d => exact congrArg (Option.map Target.sector) (numbered_number d)

end Sys2Proof.Machine
end

