-- ==== Sys2Proof/Tests/Slice0.lean ====
section
/-! SUPPORT. The model's own tests, all evaluated by the kernel: ill-formed commands refused, numbers the manual works
out, one step of some commands, and for each statement with hypotheses a witness: concrete states and operands that
meet the hypotheses of each of its clauses, at the boundaries of their ranges. -/

namespace Sys2Proof.Tests

open Sys2Proof Sys2Proof.Machine

-- One thread: each of these theorems is a kernel evaluation, and many at once take much memory.
set_option Elab.async false

/-! ### Helpers: small states -/

/-- An outcome is a next state with a property. -/
def yields (o : Out) (p : State → Bool) : Bool :=
  match o with
  | .next t => p t
  | .fault _ => false
  | .refused _ => false

theorem yields_next {o : Out} {p : State → Bool} (h : yields o p = true) : ∃ t, o = .next t ∧ p t = true := by
  cases o with
  | next t => exact ⟨t, rfl, h⟩
  | fault f => cases h
  | refused r => cases h

/-- The state after reset with nothing on the link. -/
def quiet : State := { State.reset with link := Link.fresh }

/-- A state at another time. -/
def clockAt (ms : Nat) (s : State) : State := { s with uptime := BitVec.ofNat 32 ms }
def onDet (d : DetNo) (f : Detector → Detector) (s : State) : State := s.setDet d (f (s.det d))
def onMeter (n : LineNo) (f : Meter → Meter) (s : State) : State := s.setMeter n (f (s.meter n))
def onStation (n : LineNo) (f : Station → Station) (s : State) : State := s.setStation n (f (s.station n))
def onLine (n : LineNo) (f : Line → Line) (s : State) : State := s.setLine n (f (s.line n))
def onInput (n : InputNo) (f : FireInput → FireInput) (s : State) : State := s.setInput n (f (s.input n))
def onClosure (c : ClosureNo) (f : Closure → Closure) (s : State) : State := s.setClosure c (f (s.closure c))
def onSector (n : SectorNo) (f : Sector → Sector) (s : State) : State := s.setSector n (f (s.sector n))
def inZone (z : ZoneNo) (l : Level) (s : State) : State := s.setZone z ⟨l, none⟩
def detSet (d : DetNo) (f : DetSettings → DetSettings) (s : State) : State :=
  s.setLive { s.store.live with detectors := s.store.live.detectors.set d.val (f (s.detCfg d)) d.isLt }
def lineSet (n : LineNo) (f : LineSettings → LineSettings) (s : State) : State :=
  s.setLive { s.store.live with lines := s.store.live.lines.set n.val (f (s.lineCfg n)) n.isLt }
def inputSet (n : InputNo) (f : InputSettings → InputSettings) (s : State) : State :=
  s.setLive { s.store.live with inputs := s.store.live.inputs.set n.val (f (s.inputCfg n)) n.isLt }
def closureSet (c : ClosureNo) (f : ClosureSettings → ClosureSettings) (s : State) : State :=
  s.setLive { s.store.live with closures := s.store.live.closures.set c.val (f (s.closureCfg c)) c.isLt }
def sectorSet (n : SectorNo) (f : SectorSettings → SectorSettings) (s : State) : State :=
  s.setLive { s.store.live with sectors := s.store.live.sectors.set n.val (f (s.sectorCfg n)) n.isLt }

/-- An object holds a fault. -/
def faulty (o : Obj) (f : FaultCode) (s : State) : State := { s with faults := s.faults.put o f.bit }

/-- The table holds an entry, ACTIVE or PENDING, without limit. -/
def entered (t : Target) (active : Bool) (s : State) : State :=
  { s with dis := { s.dis with entries := s.dis.entries ++ [⟨t, 0, 0, if active then some 0 else none, none⟩] } }

/-- The cause list holds a record. -/
def caused (src : Source) (z : ZoneNo) (l : Level) (latched : Bool) (hold : Option Instant) (s : State) : State :=
  { s with causes := s.causes ++ [⟨src, z, l, latched, 0, 0, 0, hold⟩] }

/-- The store has every section good and unlocked, as after a first save. -/
def good : State :=
  { quiet with
    faults := FaultTable.empty, faultOutput := false
    store := ⟨factorySettings, Vector.replicate 7 ⟨false, false, false, false⟩, factorySettings,
      Vector.replicate 7 ⟨false, true⟩, none⟩ }

/-- A request can be taken at once, and taking it leaves the link as it is. -/
abbrev taken (s : State) (kind : Byte) (p : Payload) : Prop := s.link.claim (.request kind p) = some s.link

/-! ### Well-formed commands -/

theorem test_wellFormed_payload : (Instr.startLine (List.replicate 120 0)).wellFormed = true ∧
    (Instr.startLine (List.replicate 121 0)).wellFormed = false := by decide +kernel
theorem test_wellFormed_body : (Instr.inboundFrameComplete (List.replicate 121 0) 0).wellFormed = true ∧
    (Instr.inboundFrameComplete (List.replicate 122 0) 0).wellFormed = false := by decide +kernel
theorem test_wellFormed_unknown_request_kind : (Instr.unknownKind 0x08 [1]).wellFormed = false := by decide +kernel
theorem test_wellFormed_unknown_flow : (Instr.unknownKind 0x70 []).wellFormed = false ∧
    (Instr.unknownKind 0x70 [0]).wellFormed = true := by decide +kernel
theorem test_wellFormed_unknown_payload : (Instr.unknownKind 0x05 (List.replicate 121 0)).wellFormed = false := by
  decide +kernel

/-! ### Words and frames -/

/-- No row of the table has bits, so no word spells a command. -/
theorem test_no_word : decodeTableWord 8 0x08 = none := rfl

/-- R154: over the nine ASCII characters "123456789" the code is 0x29B1. -/
theorem test_check_value : checkValue [0x31, 0x32, 0x33, 0x34, 0x35, 0x36, 0x37, 0x38, 0x39] = 0x29B1 := by
  decide +kernel

/-- Section 11.3: START-LINE is 0x08 with the line, WRITE-SETTING 0x26, LIST-DISABLEMENTS 0x20; 0x05 is no request. -/
theorem test_request_kinds : decodeRequest 0x08 [3] = .startLine [3] ∧
    decodeRequest 0x26 [1, 1, 1, 0, 0, 0, 1] = .writeSetting [1, 1, 1, 0, 0, 0, 1] ∧
    decodeRequest 0x20 [1, 6] = .listDisablements [1, 6] ∧ decodeRequest 0x05 [] = .unknownKind 0x05 [] := by
  decide +kernel

/-! ### Numbers the manual works out -/

/-- Chapter 2, "an ordinary spark": N 220, V_f 2,180 to 2,185, T 824, P 103, S 601, E 1,307. -/
theorem test_ordinary_spark : rawVelocity 220 250 = 2200 ∧ filtered 2180 2200 = 2185 ∧ transit 1800 2185 = 824 ∧
    margin 824 8 = 103 ∧ shotOf 1800 2185 factoryLine = .timed 601 1307 false := by decide +kernel

/-- Chapter 2, "a short transit": T 125; with latency 120 S 0 and E 520, with latency 150 LATE, S 0 and E 500. -/
theorem test_short_transit : shotOf 300 2400 factoryLine = .timed 0 520 false ∧
    shotOf 300 2400 { factoryLine with valveLatency := 150 } = .timed 0 500 true := by decide +kernel

/-- Chapter 2, "a long duct at low speed": 8,572 ms is beyond the limit; at 733 cm/s the transit is 8,186. -/
theorem test_long_duct : shotOf 6000 700 { factoryLine with vMin := 500 } = .flood 10 ∧ transit 6000 733 = 8186 ∧
    transit 6000 732 = 8197 := by decide +kernel

/-- Chapter 2, "cases at the limits". -/
theorem test_transit_limits : rawVelocity 4095 65535 = 10000 ∧
    shotOf 50 10000 { factoryLine with valveLatency := 0, uncertainty := 0, windowHold := 100 } = .timed 5 105 false ∧
    shotOf 50 10000 factoryLine = .timed 0 500 true ∧
    shotOf 1800 2185 { factoryLine with uncertainty := 32 } = .timed 292 1616 false ∧
    shotOf 8191 1000 { factoryLine with vMin := 300, uncertainty := 32, valveLatency := 0, windowHold := 5000 } =
      .timed 4096 17286 false ∧
    shotOf 8192 1000 { factoryLine with vMin := 300 } = .flood 10 := by decide +kernel

/-! ### Reset -/

/-- The literal of `State.reset` is what POWER-ON RESET leaves, from it and from a state that has run. -/
theorem test_powerOn_from_reset :
    yields (exec .powerOnReset State.reset) (fun t => decide (t = State.reset)) = true := by decide +kernel
theorem test_powerOn_from_running :
    yields (exec .powerOnReset (clockAt 77777 (onLine 2 (fun x => { x with state := .stopped, stopCause := .gate })
      (entered (.detector 4) true State.reset)))) (fun t => decide (t = State.reset)) = true := by decide +kernel

/-- R184: the STATUS payload right after reset, with DEFAULTED held and its report waiting. -/
theorem test_status_at_reset : State.reset.statusPayload =
    [0, 0, 0, 0, 0, 1, 0] ++ [0, 0, 0, 0] ++ List.replicate 8 0 ++ List.replicate 6 0 ++ [0, 0, 0, 0, 0, 0, 0, 2] ++
      [0, 0, 0, 1] := by decide +kernel

/-! ### Witnesses: the machine -/

theorem witness_StepRunsFrontCommand :
    ({ quiet with pending := [.hostHold, .hostGo] } : State).pending = .hostHold :: [.hostGo] := rfl

theorem witness_EmptyQueueLetsTimeOrADueEventPass :
    let lit := faulty (.detector 3) .glare
      (onDet 3 (fun x => { x with lit := true, width := 65535, glare := .glaring }) quiet)
    (lit.pending = [] ∧ lit.due = [] ∧ (lit.det 3).lit = true) ∧
    ((clockAt 8 quiet).pending = [] ∧ (clockAt 8 quiet).due ≠ []) := by decide +kernel

theorem witness_OnlyNamedCommandsChangeModesPinsAndSettings :
    yields (exec (.setShift [1]) quiet) (fun t => t.shift ≠ quiet.shift) = true ∧
    yields (exec (.serviceChange true) quiet) (fun t => t.service ≠ quiet.service) = true ∧
    yields (exec (.wconfActive 7) quiet) (fun t => (t.station 7).wconf ≠ (quiet.station 7).wconf) = true ∧
    yields (exec (.fstopActive 0 true) quiet) (fun t => (t.line 0).fstop ≠ (quiet.line 0).fstop) = true ∧
    yields (exec (.gopenActive 0 true) quiet) (fun t => (t.line 0).gopen ≠ (quiet.line 0).gopen) = true ∧
    yields (exec (.fireInputEdge 15 true) quiet) (fun t => (t.input 15).raw ≠ (quiet.input 15).raw) = true ∧
    yields (exec (.pulseLeadingEdge 23) quiet) (fun t => (t.det 23).lit ≠ (quiet.det 23).lit) = true ∧
    yields (exec (.closureLimitChange 0 .openLimit true) quiet)
      (fun t => (t.closure 0).copen ≠ (quiet.closure 0).copen) = true ∧
    yields (exec (.closureLimitChange 0 .shutLimit true) quiet)
      (fun t => (t.closure 0).cshut ≠ (quiet.closure 0).cshut) = true ∧
    yields (exec (.writeSetting [7, 0, 2, 0, 0, 0, 9]) quiet)
      (fun t => t.store.live ≠ quiet.store.live) = true ∧
    yields (exec (.lockSection [7]) (quiet.setLive { factorySettings with general := ⟨200, 9⟩ }))
      (fun t => t.store.stored ≠ quiet.store.stored) = true := by decide +kernel

/-! ### Witnesses: the link -/

theorem witness_RequestTakenInTurnOrBuffered :
    let e : Inbound := .request 0x01 []
    let k := Link.fresh
    let with_ := fun (l : List Inbound) (h : Bool) => { k with buffer := l, partHolding := h }
    (({ k with slot := some ⟨0x81, []⟩ }).slot ≠ none ∧ ({ k with restartPending := true }).restartPending = true) ∧
    (k.slot = none ∧ k.restartPending = false ∧ k.buffer = []) ∧
    ((with_ [.error, e] false).buffer = .error :: [e] ∧ Inbound.error ≠ e) ∧
    ((with_ [e, .error] true).partHolding = true ∧ [Inbound.error].length = 1) ∧
    ¬((with_ [e, .error] false).partHolding = true ∧ [Inbound.error].length = 1) ∧
    ((with_ [.error, .error, e] false).claim e = none ∧ [Inbound.error, .error, e].length = 3) ∧
    ((with_ [.error, .error, e] true).claim e = none ∧
      ¬([Inbound.error, .error, e].length = 3 ∧ (with_ [.error, .error, e] true).partHolding = false)) ∧
    ((with_ [.error, .error, e, e] true).claim e = none ∧ 4 ≤ [Inbound.error, .error, e, e].length) := by
  decide +kernel

theorem witness_LinkRefusesErrorsUnknownKindsAndLengths :
    quiet.link.claim .error = some quiet.link ∧
    (taken quiet 0x00 [] ∧ requestLength 0x00 = none) ∧ (taken quiet 0xFF [1] ∧ requestLength 0xFF = none) ∧
    (taken quiet 0x70 [1] ∧ taken quiet 0x71 [1]) ∧
    (taken quiet 0x08 [] ∧ requestLength 0x08 = some 1 ∧ ([] : Payload).length ≠ 1) := by decide +kernel

theorem witness_ReceiverGoesThroughItsPhases :
    let at_ := fun (r : Receiver) (tenth : Fin 10) =>
      { clockAt 20 quiet with tenth := tenth, link := { Link.fresh with receiver := r, lastChar := some ⟨0, 0⟩ } }
    quiet.link.receiver = .hunt ∧
    (at_ .length 1).link.receiver ≠ .hunt ∧ 200 < (at_ .length 1).tenthsSince ⟨0, 0⟩ ∧
    (at_ .length 0).tenthsSince ⟨0, 0⟩ ≤ 200 ∧ (at_ .length 0).link.lastChar = some ⟨0, 0⟩ ∧
    (1 ≤ (1 : Byte).toNat ∧ (121 : Byte).toNat ≤ 121) ∧ ((0 : Byte).toNat = 0 ∧ 121 < (122 : Byte).toNat) ∧
    (at_ (.body 1 [] false) 0).link.receiver = .body 1 [] false ∧
    (at_ (.check [1] none true) 0).link.receiver = .check [1] none true ∧
    ((at_ (.check [1] (some 2) false) 0).link.receiver = .check [1] (some 2) false ∧
      (⟨3, false⟩ : Received).fault = false ∧ (⟨3, true⟩ : Received).fault = true) ∧
    (at_ (.check [1] (some 2) true) 0).link.receiver = .check [1] (some 2) true := by decide +kernel

/-- R153: the STATUS request, LEN 1 and KIND 0x02 with a right check value, is taken; with a fault in the stop bit of its
second check character it makes an error entry, which is answered FRAME-ERROR. -/
theorem test_stop_bit_fault :
    let check := checkValue [1, 2]
    let s := { quiet with link := { Link.fresh with
      receiver := .check [2] (some (check.extractLsb' 8 8)) false, lastChar := some ⟨0, 0⟩ } }
    let last := check.extractLsb' 0 8
    yields (exec (.characterReceived ⟨last, false⟩) s) (fun t => t.link.buffer = [.request 0x02 []]) = true ∧
    yields (exec (.characterReceived ⟨last, true⟩) s) (fun t => t.link.buffer = [.error]) = true := by decide +kernel

theorem witness_FramesAreJudgedWhenComplete :
    ((List.replicate 122 (0 : Byte)).length = 122 ∧ checkValue (1 :: [0x05]) ≠ 0) ∧
    ((0x08 :: List.replicate 120 (0 : Byte)).length = 121 ∧ (List.replicate 120 (0 : Byte)).length ≤ 120) ∧
    ¬(([0] : Payload) = [] ∧ ((0x70 : Byte) = 0x70 ∨ (0x70 : Byte) = 0x71)) ∧
    quiet.link.receiver = .hunt ∧
    ({ Link.fresh with receiver := .length, lastChar := some ⟨0, 0⟩ }).receiver ≠ .hunt ∧
    (clockAt 20 quiet).tenthsSince ⟨0, 0⟩ = 200 := by decide +kernel

theorem witness_SentRequestComesBackAsItself :
    ((Instr.startLine (List.replicate 120 0)).wellFormed = true ∧
      encodeRequest (.startLine (List.replicate 120 0)) = some (0x08, List.replicate 120 0)) ∧
    ((Instr.unknownKind 0x70 [1]).wellFormed = true ∧ encodeRequest (.unknownKind 0x70 [1]) = some (0x70, [1])) ∧
    Link.fresh.receiver = .hunt ∧ Link.fresh.lastChar = none := by decide +kernel

theorem witness_TransmitterServesInOrder :
    let k := Link.fresh
    let f : Frame := ⟨0x41, []⟩
    State.reset.link.sending ≠ none ∧ k.sending = none ∧
    ({ k with flow := some .hold }).flow = some .hold ∧ ({ k with flow := some .go }).flow = some .go ∧
    (k.flow = none ∧ ({ k with hostHeld := true }).hostHeld = true ∧ k.hostHeld = false) ∧
    (({ k with slot := some f, alarm := [f], notice := [f] }).slot = some f ∧
      ({ k with alarm := [f], notice := [f] }).alarm = f :: [] ∧ ({ k with notice := [f] }).notice = f :: [] ∧
      k.slot = none ∧ k.alarm = [] ∧ k.notice = []) ∧
    yields (exec .hostHold State.reset) (fun t => t.link.sending = State.reset.link.sending) = true := by decide +kernel

/-- The START report of 15 characters takes 1.389 ms: 2,000 of 144 to the tenth. -/
theorem witness_FrameEndChoosesNextOrRestarts :
    let at_ := fun (tenth : Fin 10) => { clockAt 1 State.reset with tenth := tenth }
    let x : Sending := ⟨⟨0x40, [0, 0, 0, 0, 0, 0, 1, 0, 0, 0, 0]⟩, ⟨0, 0⟩⟩
    ((at_ 3).link.sending = some x ∧ 144 * (at_ 3).tenthsSince x.begun < 125 * (x.frame.payload.length + 5)) ∧
    ((at_ 4).link.sending = some x ∧ 125 * (x.frame.payload.length + 5) ≤ 144 * (at_ 4).tenthsSince x.begun ∧
      (at_ 4).link.restartPending = false) ∧
    (({ Link.fresh with restartPending := true, sending := some ⟨⟨0x84, []⟩, ⟨0, 0⟩⟩ }).restartPending = true ∧
      125 * (([] : Payload).length + 5) ≤ 144 * (at_ 4).tenthsSince ⟨0, 0⟩) := by decide +kernel

theorem witness_GeneralRequestsAreAnswered :
    (taken quiet 0x01 [] ∧ taken quiet 0x02 [] ∧ taken quiet 0x04 [] ∧ taken quiet 0x03 [1, 24] ∧
      taken quiet 0x03 [8, 0] ∧ taken quiet 0x03 [1, 25]) ∧
    ((Obj.detector 23).kindCode = 1 ∧ (Obj.detector 23).num = (24 : Byte).toNat) ∧
    (Obj.store.kindCode = 8 ∧ Obj.store.num = (0 : Byte).toNat) ∧
    ∀ o : Obj, ¬(o.kindCode = 1 ∧ o.num = (25 : Byte).toNat) := by
  refine ⟨by decide +kernel, by decide +kernel, by decide +kernel, fun o => ?_⟩
  cases o <;> simp [Obj.kindCode, Obj.num, number]
  omega

/-- R33, R186: the last fields of a line's record, its transit meter within a gate and at the end of it. -/
theorem test_line_record :
    let s := onMeter 2 (fun x => { x with count := 5, gateStart := some 1000 }) quiet
    let transit := fun (t : Nat) => ((clockAt t s).objectRecord (.line 2)).drop 45
    transit 1249 = [1, 0, 5, 0, 0, 0, 249, 0xFF, 0xFF, 0xFF, 0xFF, 0, 0, 0, 0, 0] ∧ transit 1250 = transit 1249 := by
  decide +kernel

theorem witness_HistoryIsReadFromTheNumberAsked :
    let lone : History := ⟨[⟨5, 0, .start, 0, 0, ⟨1, 0, 0, 0, 0⟩⟩], 6⟩
    let s := { quiet with history := lone }
    s.history.sound ∧ ([0, 0, 0, 5] : Payload).length = 4 ∧ taken s 0x24 ([0, 0, 0, 5] ++ [0]) ∧
    taken s 0x24 ([0, 0, 0, 5] ++ [255]) ∧
    ((lone.records[0]'(by decide)).seq = BitVec.ofNat 32 (word32At [0, 0, 0, 5] 0)) ∧
    (lone.records.length < (lone.next - BitVec.ofNat 32 (word32At [0, 0, 0, 4] 0)).toNat) ∧
    (lone.next - BitVec.ofNat 32 (word32At [0x80, 0, 0, 6] 0)).toNat = 2 ^ 31 ∧
    BitVec.ofNat 32 (word32At [0, 0, 0, 6] 0) = lone.next ∧
    2 ^ 31 < (lone.next - BitVec.ofNat 32 (word32At [0, 0, 0, 7] 0)).toNat := by
  unfold History.sound; decide +kernel

theorem witness_EventsAreRecordedAndReported :
    quiet.history.records.length < 512 ∧
    ({ quiet with history := ⟨List.replicate 512 ⟨0, 0, .start, 0, 0, ⟨1, 0, 0, 0, 0⟩⟩, 9⟩ } :
      State).history.records.length = 512 := by decide +kernel

/-! ### Witnesses: resets -/

theorem witness_PowerOnResetStartsEveryBlock :
    yields (exec .powerOnReset State.reset) (fun t => (t.flagsOf .detectors).defaulted = true) = true ∧
    yields (exec .powerOnReset good) (fun t => allSections.all fun k => !(t.flagsOf k).defaulted) = true := by
  decide +kernel

/-- A line STOPPED with its cause, a closure SHUT and CLOSED, and another SHUT and OPEN. -/
def lockedOut : State :=
  good |> onLine 1 (fun x => { x with state := .stopped, stopCause := .fire, gate := true })
    |> lineSet 1 (fun x => { x with zone := some 3 })
    |> (fun s => { s with store := { s.store with stored := s.store.live } })
    |> caused (.line 1) 3 .fire true none
    |> onClosure 0 (fun x => { x with state := .shut, hold := false, cshut := true })
    |> onClosure 1 (fun x => { x with state := .shut, hold := false, copen := true })

/-- The same with the last character of a RESTART reply sent at 1 ms. -/
def replied : State :=
  { clockAt 1 lockedOut with link := { Link.fresh with restartPending := true, sending := some ⟨⟨0x84, []⟩, ⟨0, 0⟩⟩ } }

theorem witness_RestartKeepsLockouts :
    ((lockedOut.line 1).state = .stopped ∧ (lockedOut.causeOf (.line 1)).isSome = true) ∧
    (lockedOut.closure 0).state = .shut ∧ (lockedOut.closure 2).state ≠ .shut ∧
    yields (exec .resetInput lockedOut) (fun t => t.causes ≠ [] ∧ (t.line 1).state = .stopped ∧
      (t.closure 1).state = .shut ∧ t.holds (.closure 1) .openedWhileShut) = true ∧
    yields (exec .resetInput good) (fun t => t.causes = [] ∧ allSections.all fun k => !(t.flagsOf k).defaulted) = true ∧
    (∀ c, (good.closure c).state = .shut → (good.closure c).position ≠ .opened) ∧
    (replied.link.restartPending = true ∧ replied.link.sending = some ⟨⟨0x84, []⟩, ⟨0, 0⟩⟩ ∧
      125 * (([] : Payload).length + 5) ≤ 144 * replied.tenthsSince ⟨0, 0⟩) := by decide +kernel

/-- All lines STOPPED with their causes in Z1, seven at ALERT and the last at FIRE, and every closure and sector on Z1. -/
def allLockedOut : State :=
  let s := (List.finRange 8).foldl (fun s n => s |> lineSet n (fun x => { x with zone := some 0 })
    |> onLine n (fun x => { x with state := .stopped, stopCause := .fire })
    |> caused (.line n) 0 (if n = 7 then .fire else .alert) true none) good
  let s := (List.finRange 16).foldl (fun s c => closureSet c (fun x => { x with zones := 1 }) s) s
  let s := (List.finRange 6).foldl (fun s n => sectorSet n (fun x => { x with zones := 1 }) s) s
  { s with store := { s.store with stored := s.store.live } }

/-- With several causes re-entered, the 37 notices of START, 8 causes, 12 rises of sectors and 16 releases of closures
overrun the queue of 32, which the dropped flag shows (R138, R161); the alarm of Z1 is being sent. -/
theorem witness_RestartKeepsLockouts_several :
    yields (exec .resetInput allLockedOut) (fun t => t.causes.length = 8 ∧ t.link.dropped = true ∧
      t.link.notice.length = 32 ∧ t.history.records.length = allLockedOut.history.records.length + 38 ∧
      (t.zone 0).level = .fire ∧
      (t.link.sending.map (·.frame.kind)) = some 0x43 ∧ (t.closure 15).state = .releasing ∧
      (t.sector 5).state = .sounding) = true := by decide +kernel

/-- R92, R101: two STOPPED lines with causes at ALERT and FIRE in one zone give it one change of level, QUIET to FIRE. -/
theorem test_restart_derives_once :
    let s := lockedOut |> caused (.line 2) 3 .alert true none |> lineSet 2 (fun x => { x with zone := some 3 })
      |> (fun s => { s with store := { s.store with stored := s.store.live } })
      |> onLine 2 (fun x => { x with state := .stopped, stopCause := .fire })
    yields (exec .resetInput s) (fun t => (t.history.records.filter (·.kind = .zoneLevel)).map (·.detail) =
      [⟨0, 3, 0, 0, 0⟩] ∧ (t.history.records.filter (·.kind = .cause)).length = 2) = true := by decide +kernel

/-! ### Witnesses: detector channels -/

theorem witness_SamplesFollowTheDerivedMode :
    let idle := fun (m : Supervision) (t : Option Instant) =>
      onDet 0 (fun x => { x with busy := false, mode := m, lastStart := t })
    (quiet.det 0).busy = true ∧
    ((idle .continuous none quiet).det 0).lastStart = none ∧
    ((idle .off none quiet).det 0).mode = .off ∧
    (125 ≤ ((clockAt 125 quiet).uptime - 0).toNat ∧ ((clockAt 124 quiet).uptime - 0).toNat < 125) ∧
    (4000 ≤ ((clockAt 4000 quiet).uptime - 0).toNat ∧ ((clockAt 3999 quiet).uptime - 0).toNat < 2 ^ 31) ∧
    (((idle .continuous (some 0) quiet).det 0).mode = effectiveMode (quiet.detCfg 0).supervision quiet.shift) ∧
    (let off := detSet 0 (fun x => { x with supervision := .off }) (idle .continuous (some 0) quiet)
     effectiveMode (off.detCfg 0).supervision off.shift = .off ∧ (off.det 0).mode ≠ .off) ∧
    (let leaving := idle .off none quiet
     effectiveMode (leaving.detCfg 0).supervision leaving.shift ≠ .off ∧ (leaving.det 0).mode = .off) ∧
    (let watch := { idle .continuous (some 0) quiet with shift := .watch }
     effectiveMode (watch.detCfg 0).supervision watch.shift = .periodic ∧ (watch.det 0).mode = .continuous) := by
  decide +kernel

/-- The example of R3: SET-SHIFT between samples of a channel that started one at 40,000 ms. -/
theorem test_mode_between_samples :
    let s := clockAt 40060 (onDet 0 (fun x => { x with busy := false, lastStart := some 40000 }) quiet)
    yields (exec (.setShift [1]) s) (fun t => (t.det 0).mode = .periodic ∧ (t.det 0).busy = false) = true ∧
    (clockAt 43999 (onDet 0 (fun x => { x with busy := false, lastStart := some 40000, mode := .periodic })
      quiet)).sampleStartDue 0 = false ∧
    (clockAt 44000 (onDet 0 (fun x => { x with busy := false, lastStart := some 40000, mode := .periodic })
      quiet)).sampleStartDue 0 = true := by decide +kernel

theorem witness_SampleEndJudgesTheLoop :
    ((quiet.det 0).busy = true ∧ (quiet.det 0).lastStart = some 0) ∧
    ((clockAt 7 quiet).uptime - 0).toNat < 8 ∧ 8 ≤ ((clockAt 8 quiet).uptime - 0).toNat ∧
    ((quiet.det 0).nextMode ≠ some .off ∧
      ((onDet 0 (fun x => { x with nextMode := some .off }) quiet).det 0).nextMode = some .off) ∧
    yields (exec (.sampleEnd 0 1) (clockAt 8 (onDet 0 (fun x => { x with openRun := 3 }) quiet)))
      (fun t => t.holds (.detector 0) .openLoop) = true ∧
    yields (exec (.sampleEnd 0 15) (clockAt 8 (onDet 0 (fun x => { x with shortRun := 3 }) quiet)))
      (fun t => t.holds (.detector 0) .short) = true ∧
    yields (exec (.sampleEnd 0 2) (clockAt 8 (onDet 0 (fun x => { x with openRun := 3 }) quiet)))
      (fun t => !t.holds (.detector 0) .openLoop && (t.det 0).openRun == 0) = true := by decide +kernel

/-- A pulse of a width in progress on D1. -/
def litFor (w : Nat) (s : State) : State := onDet 0 (fun x => { x with lit := true, width := w }) s

theorem witness_PulsesAreMeasuredAndClassed :
    (quiet.det 0).lit = false ∧ ((litFor 2 quiet).det 0).lit = true ∧
    ((litFor 2 quiet).det 0).width < (quiet.detCfg 0).wMin ∧
    (faulty (.detector 0) .glare (litFor 9 quiet)).holds (.detector 0) .glare = true ∧
    (faulty (.detector 0) .short (litFor 3 quiet)).faults.get (.detector 0) ≠ 0 ∧
    (entered (.detector 0) true (litFor 3 quiet)).disabled (.detector 0) = true := by decide +kernel

theorem witness_QualifyingPulsesAreDeliveredOrConfirmed :
    let watch := fun (t : Nat) => { clockAt t (litFor 3 quiet) with shift := .watch }
    let held := fun (t : Nat) => onDet 0 (fun x => { x with candidate := some ⟨true, 4, 0⟩ }) (watch t)
    (((litFor 3 quiet).det 0).lit = true ∧ quiet.faults.get (.detector 0) = 0 ∧
      quiet.disabled (.detector 0) = false ∧ (quiet.detCfg 0).wMin ≤ 3 ∧ (quiet.detCfg 0).wMax < 201) ∧
    quiet.shift = .day ∧ (watch 0).shift = .watch ∧ ((watch 0).det 0).candidate = none ∧
    (((held 1000).det 0).candidate = some ⟨true, 4, 0⟩ ∧ ((held 1000).uptime - 0).toNat ≤ 1000) ∧
    1000 < ((held 1001).uptime - 0).toNat := by decide +kernel

/-- R8: with w_min 3 and w_max 200 a width of 200 is a SPARK and 201 an EMBER; the EMBER weighs 4 (R12). -/
theorem test_ember_weight :
    let s := detSet 0 (fun x => { x with line := some 2 }) quiet
    yields (exec (.pulseTrailingEdge 0) (litFor 200 s)) (fun t => (t.line 2).counter == 1) = true ∧
    yields (exec (.pulseTrailingEdge 0) (litFor 201 s)) (fun t => (t.line 2).counter == 4 &&
      decide ((t.det 0).lastPulse.map (·.cls) = some .ember)) = true := by decide +kernel

/-- The worked spark of chapter 2: D9 on L3 at 1,800 cm, V_f 2,185, delivered at 95,000 ms. -/
def workedSpark : State :=
  quiet |> clockAt 95000 |> detSet 8 (fun x => { x with line := some 2, distance := 1800 })
    |> onMeter 2 (fun x => { x with vf := 2185 }) |> onDet 8 (fun x => { x with lit := true, width := 50 })

theorem test_worked_spark :
    yields (exec (.pulseTrailingEdge 8) workedSpark) (fun t =>
      (t.station 2).windows = [⟨95601, 96307, .detector 8, false, 1⟩] ∧ (t.station 2).valve = .armed) = true := by
  decide +kernel

theorem witness_DeliveryReachesTheBlocksNamed :
    (quiet.detCfg 8).line = none ∧ (workedSpark.detCfg 8).line = some 2 ∧
    shotOf 1800 (quiet.meter 2).vf (workedSpark.lineCfg 2) = .flood 10 ∧
    shotOf (workedSpark.detCfg 8).distance (workedSpark.meter 2).vf (workedSpark.lineCfg 2) = .timed 601 1307 false := by
  decide +kernel

theorem witness_GlareCandidateAndHoldEndInTime :
    let glaring := fun (p : GlarePhase) (t : Nat) => clockAt t (faulty (.detector 0) .glare
      (onDet 0 (fun x => { x with glare := p }) quiet))
    let waiting := onDet 0 (fun x => { x with candidate := some ⟨false, 1, 0⟩ }) quiet
    let held := caused (.detector 0) 0 .spark false (some 10000) quiet
    (((litFor 2000 quiet).det 0).lit = true ∧ quiet.holds (.detector 0) .glare = false ∧
      (quiet.detCfg 0).glareLimit * 10 ≤ 2000) ∧
    ((quiet.det 0).lit = false ∧ 1999 < (quiet.detCfg 0).glareLimit * 10) ∧
    ((glaring (.clearing 0) 2000).holds (.detector 0) .glare = true ∧
      ((glaring (.clearing 0) 2000).det 0).glare = .clearing 0 ∧ (quiet.detCfg 0).glareClear < 2 ^ 31) ∧
    ((glaring .glaring 0).det 0).glare = .glaring ∧
    (waiting.det 0).candidate = some ⟨false, 1, 0⟩ ∧
    (held.causeOf (.detector 0)).map (·.hold) = some (some 10000) ∧ quiet.causeOf (.detector 0) = none := by
  decide +kernel

/-! ### Witnesses: air velocity and stations -/

theorem witness_GateEndsGiveTheVelocity :
    let stopped := onMeter 0 (fun x => { x with running := false, gateStart := none }) quiet
    let run := onLine 0 (fun x => { x with state := .run }) (onMeter 0 (fun x => { x with lowRun := 3 }) quiet)
    (stopped.meter 0).running = false ∧ (quiet.meter 0).running = true ∧ (quiet.meter 0).gateStart = some 0 ∧
    ((clockAt 249 quiet).uptime - 0).toNat < 250 ∧ 250 ≤ ((clockAt 250 quiet).uptime - 0).toNat ∧
    ((onLine 0 (fun x => { x with state := .starting }) quiet).line 0).state = .starting ∧
    ((run.line 0).state = .run ∧ 3 ≤ (run.meter 0).lowRun ∧ (quiet.meter 0).lowRun < 3) ∧
    (quiet.lineCfg 0).vMin ≤ (3 * 2000 + min (0 * 250 / 25) 10000 + 2) / 4 ∧
    (3 * 1999 + min (0 * 250 / 25) 10000 + 2) / 4 < (quiet.lineCfg 0).vMin ∧
    ((onLine 0 (fun x => { x with state := .stopping }) quiet).line 0).state = .stopping ∧
    (quiet.line 0).state = .off := by decide +kernel

/-- The gate of the worked case: 220 pulses from V_f 2,180 give 2,185, and a STARTING line runs (R60). -/
theorem test_gate_end :
    let s := clockAt 250 (onLine 2 (fun x => { x with state := .starting })
      (onMeter 2 (fun x => { x with vf := 2180, count := 220 }) quiet))
    yields (exec (.gateEnd 2) s) (fun t => (t.meter 2).vf == 2185 && decide ((t.line 2).state = .run)) = true := by
  decide +kernel

theorem witness_WindowsAreTimedByTransit :
    (1 ≤ factoryLine.vMin ∧ 1499 < factoryLine.vMin) ∧
    (factoryLine.vMin ≤ 1500 ∧ 1800 * 1000 ≤ 8191 * 1500) ∧
    (300 ≤ 1000 ∧ 8191 * 1000 < 8192 * 1000 ∧ 8191 * 1000 ≤ 8191 * 1000) ∧ 100 ≤ factoryLine.windowHold ∧
    shotOf 1800 2185 factoryLine = .timed 601 1307 false := by decide +kernel

theorem witness_InsertedWindowsCoverEverySpray :
    let at_ := fun (w : Window) => ((w.start - 0).toInt, (w.stop - 0).toInt)
    let w : Window := ⟨1000, 1100, .manual, false, 1⟩
    let l : List Window := [⟨0, 100, .flood, false, 1⟩, ⟨200, 300, .flood, false, 1⟩, ⟨400, 500, .flood, false, 1⟩,
      ⟨600, 700, .flood, false, 1⟩]
    (at_ w).1 < (at_ w).2 ∧ (∀ v ∈ l, (at_ v).1 < (at_ v).2) ∧ l.Pairwise (fun a b => (at_ a).2 + 50 < (at_ b).1) ∧
    l.length ≤ 4 ∧ (∀ v ∈ l, (at_ v).2 + 50 < (at_ w).1) ∧ (l.drop 1).length < 4 ∧ l.length = 4 ∧
    (insertWindow 0 w l).2 = true ∧
    (let nearestTo := fun (w v : Window) => ∀ u ∈ l, gap 0 w v < gap 0 w u ∨
       (gap 0 w v = gap 0 w u ∧ (at_ v).1 ≤ (at_ u).1)
     (nearestTo { w with start := 750, stop := 900 } ⟨600, 700, .flood, false, 1⟩ ∧
       gap 0 { w with start := 750, stop := 900 } ⟨600, 700, .flood, false, 1⟩ = 50) ∧
     (nearestTo { w with start := 340, stop := 360 } ⟨200, 300, .flood, false, 1⟩ ∧
       gap 0 { w with start := 340, stop := 360 } ⟨200, 300, .flood, false, 1⟩ = 40 ∧
       gap 0 { w with start := 340, stop := 360 } ⟨400, 500, .flood, false, 1⟩ = 40) ∧
     (nearestTo { w with start := 751, stop := 900 } ⟨600, 700, .flood, false, 1⟩ ∧
       gap 0 { w with start := 751, stop := 900 } ⟨600, 700, .flood, false, 1⟩ = 51)) := by decide +kernel

/-- R37, R38: at a tie the earlier window is joined, and its hull then joins the later. -/
theorem test_nearest_joined :
    let l : List Window := [⟨200, 300, .flood, false, 1⟩, ⟨400, 500, .manual, true, 1⟩]
    insertWindow 0 ⟨340, 360, .detector 3, false, 1⟩ l = ([⟨200, 500, .flood, true, 3⟩], false) ∧
    insertWindow 0 ⟨551, 600, .detector 3, false, 1⟩ l =
      ([⟨200, 300, .flood, false, 1⟩, ⟨400, 500, .manual, true, 1⟩, ⟨551, 600, .detector 3, false, 1⟩], false) := by
  decide +kernel

/-- L1's station with one window from 100 to 600 ms. -/
def armed : State :=
  onStation 0 (fun x => { x with windows := [⟨100, 600, .manual, false, 1⟩], valve := .armed }) quiet

/-- The same station spraying since 100 ms. -/
def spraying : State :=
  onStation 0 (fun x => { x with valve := .opening, valveOn := true, outputOn := some 100 }) armed

theorem witness_WindowsOpenAndCloseTheValve :
    let w : Window := ⟨100, 600, .manual, false, 1⟩
    (entered (.station 0) true quiet).disabled (.station 0) = true ∧ quiet.disabled (.station 0) = false ∧
    ((spraying.station 0).valveOn = true ∧ (spraying.station 0).valve ≠ .closed) ∧
    ((quiet.station 0).valveOn = false ∧ (insertWindow 0 w (quiet.station 0).windows).1 = w :: []) ∧
    (w.running 100 = true ∧ w.running 99 = false) ∧
    (((clockAt 100 armed).station 0).windows = w :: [] ∧ ((clockAt 100 armed).station 0).valveOn = false) ∧
    (reached 599 w.stop = false ∧ reached 600 w.stop = true) ∧
    ((spraying.station 0).outputOn = some 100 ∧ (armed.station 0).valveOn = false) ∧
    (quiet.station 0).windows = [] := by decide +kernel

theorem test_window_opens_and_closes :
    yields (exec (.windowStart 0) (clockAt 100 armed)) (fun t => (t.station 0).valve = .opening ∧
      (t.station 0).confirmTimer = some 1600) = true ∧
    yields (exec (.windowEnd 0) (clockAt 600 spraying)) (fun t => (t.station 0).valve = .closed ∧
      (t.station 0).valveOn = false ∧ t.history.records.length = 3) = true := by decide +kernel

theorem witness_WaterIsConfirmedOrMissed :
    let opened := onStation 0 (fun x => { x with valve := .opened, wconf := true }) spraying
    let late := onStation 0 (fun x => { x with confirmTimer := some 1600 }) spraying
    (spraying.station 0).valve = .opening ∧ (armed.station 0).valve ≠ .opening ∧ (opened.station 0).valve = .opened ∧
    (clockAt 1599 late).expired ((late.station 0).confirmTimer) = false ∧
    (clockAt 1600 late).expired ((late.station 0).confirmTimer) = true ∧
    (quiet.lineCfg 0).zone = none ∧
    ((lineSet 0 (fun x => { x with zone := some 15 }) late).lineCfg 0).zone = some 15 := by decide +kernel

/-- R47 to R49: no water sends a RUN line to ABORT with NO-WATER and raises the station cause at ALERT. -/
theorem test_no_water :
    let s := spraying |> onStation 0 (fun x => { x with confirmTimer := some 1600 }) |> clockAt 1600
      |> lineSet 0 (fun x => { x with zone := some 15 }) |> onLine 0 (fun x => { x with state := .run })
    yields (exec (.confirmTimerExpired 0) s) (fun t => (t.line 0).state = .abort ∧ (t.line 0).stopCause = .noWater ∧
      (t.zone 15).level = .alert ∧ t.holds (.station 0) .noWater) = true := by decide +kernel

theorem witness_StationRequestsResetAndFlood :
    ((0 : Byte).toNat = 0 ∧ 8 < (9 : Byte).toNat ∧ taken quiet 0x0C [9] ∧ taken quiet 0x0D [0, 0]) ∧
    (taken spraying 0x0C [1] ∧ (spraying.station 0).valveOn = true ∧ (quiet.station 0).valveOn = false) ∧
    (taken quiet 0x0D [8, 255] ∧ (entered (.station 7) false quiet).hasEntry (.station 7) = true ∧
      quiet.hasEntry (.station 7) = false) := by decide +kernel

/-! ### Witnesses: extraction lines -/

/-- L1 with a damper C1, which is HELD. -/
def dampered : State :=
  quiet |> closureSet 0 (fun x => { x with kind := .damper, line := some 0, zones := 1 })
    |> onClosure 0 (fun x => { x with state := .held, copen := true })
    |> lineSet 0 (fun x => { x with zone := some 0, tripZones := 0x8001 })

theorem witness_StartLineIsDecidedInOrder :
    (taken quiet 0x08 [9] ∧ taken quiet 0x08 [0] ∧ (0 : Byte).toNat = 0 ∧ 8 < (9 : Byte).toNat) ∧
    (taken dampered 0x08 [1] ∧ (dampered.line 0).state = .off ∧ dampered.shift = .day ∧
      dampered.causeOf (.line 0) = none) ∧
    ((onLine 7 (fun x => { x with state := .starting }) quiet).line 7).state ≠ .off ∧
    ({ quiet with shift := .watch } : State).shift = .watch ∧
    ((caused (.line 0) 0 .fire true none quiet).causeOf (.line 0)).isSome = true ∧
    (let shut := onClosure 0 (fun x => { x with state := .shut }) dampered
     shut.damperOf 0 0 = true ∧ (shut.closure 0).state ≠ .held ∧
      ∀ b < (0 : ClosureNo), shut.damperOf 0 b = true → (shut.closure b).state = .held) ∧
    (∀ c, dampered.damperOf 0 c = true → (dampered.closure c).state = .held) ∧
    (let fire := inZone 15 .fire dampered
     zoneIn (fire.lineCfg 0).tripZones 15 = true ∧ (fire.zone 15).level = .fire ∧
      ∀ y < (15 : ZoneNo), zoneIn (fire.lineCfg 0).tripZones y = true → (fire.zone y).level ≠ .fire) ∧
    (∀ z, zoneIn (dampered.lineCfg 0).tripZones z = true → (dampered.zone z).level ≠ .fire) := by decide +kernel

/-- R59, R60: accepted, L1 enters STARTING, its fan on, the reply giving 20,000 ms; a second START-LINE waits its turn
behind the reply being sent, and is then refused STATE with the state. -/
theorem test_start_line :
    yields (exec (.startLine [1]) dampered) (fun t => (t.line 0).state = .starting ∧ (t.line 0).fan ∧
      (t.line 0).feed = false ∧ t.link.sending = some ⟨⟨0x88, [0, 0, 0x4E, 0x20]⟩, ⟨0, 0⟩⟩) = true ∧
    yields (exec (.startLine [1]) (onLine 0 (fun x => { x with state := .run }) dampered)) (fun t =>
      t.link.sending = some ⟨⟨0xFF, [0x08, 5, 0, 0, 0, 2]⟩, ⟨0, 0⟩⟩) = true := by decide +kernel

theorem witness_LineChangesFollowTheirState :
    let stopping := fun (cause : StopCause) =>
      onLine 0 (fun x => { x with state := .stopping, stopCause := cause, fstop := true }) quiet
    ((stopping .orderly).line 0).fstop = true ∧
    ((quiet.line 0).fstop = false ∧ (quiet.meter 0).vf < (quiet.lineCfg 0).vMin / 4) ∧
    ¬((375 : Nat) < (quiet.lineCfg 0).vMin / 4) ∧ (quiet.line 0).state ≠ .stopping ∧
    ((stopping .orderly).line 0).stopCause = .orderly ∧ ((stopping .startFail).line 0).stopCause = .startFail ∧
    (((stopping .fire).line 0).stopCause ≠ .orderly ∧ ((stopping .fire).line 0).stopCause ≠ .startFail) ∧
    (let blind := faulty (.line 0) .blind (lineSet 0 (fun x => { x with blindStop := true }) quiet)
     (blind.lineCfg 0).blindStop = true ∧ blind.holds (.line 0) .blind = true) ∧ quiet.holds (.line 0) .blind = false ∧
    (let waits := fun (b : Bool) => onClosure 0 (fun x => { x with state := .waiting, cshut := b }) dampered
     ((waits false).closure 0).state = .waiting ∧ ((waits false).closure 0).cshut = false ∧
      ((waits true).closure 0).cshut = true ∧ (dampered.closure 0).state ≠ .waiting) := by
  decide +kernel

/-- R60, R72: a blind line with blind_stop on does not stay in RUN. -/
theorem test_blind_run :
    let s := onMeter 0 (fun x => { x with vf := 2000 }) (faulty (.line 0) .blind
      (lineSet 0 (fun x => { x with blindStop := true }) (onLine 0 (fun x => { x with state := .starting }) quiet)))
    ((s.runLine 0).line 0).state = .stopping ∧ ((s.runLine 0).line 0).stopCause = .blind := by decide +kernel

/-- R104, R109: a wait ended in a CLOSED damper is recorded WAITING to RELEASING (2 to 3) and RELEASING to SHUT. -/
theorem test_wait_ends_closed :
    let s := onClosure 0 (fun x => { x with state := .waiting, cshut := true }) dampered
    yields (exec (.waitTimerExpired 0) (onClosure 0 (fun x => { x with waitTimer := some 0 }) s)) (fun t =>
      (t.closure 0).state = .shut ∧ (t.closure 0).hold = false ∧ (t.closure 0).travelTimer = none ∧
      (t.history.records.filter (·.kind = .closure)).map (fun r => (r.detail.d1, r.detail.d2)) =
        [(ClosureState.waiting.code, ClosureState.releasing.code), (ClosureState.releasing.code, ClosureState.shut.code)])
      = true := by decide +kernel

theorem witness_StopAndResetLineAreDecided :
    let st := fun (x : LineState) => onLine 0 (fun y => { y with state := x }) dampered
    (taken dampered 0x09 [9] ∧ taken dampered 0x0A [0] ∧ (0 : Byte).toNat = 0 ∧ 8 < (9 : Byte).toNat) ∧
    (taken dampered 0x09 [1] ∧ taken dampered 0x0A [1]) ∧
    ((st .abort).line 0).state = .abort ∧ ((st .run).line 0).state = .run ∧ ((st .off).line 0).state = .off ∧
    ¬(((st .off).line 0).state = .stopped ∨ ((st .off).line 0).state = .off ∧
      (st .off).causeOf (.line 0) ≠ none) ∧
    (let locked := caused (.line 0) 0 .fire true none (st .off)
     (locked.line 0).state = .off ∧ locked.causeOf (.line 0) ≠ none) ∧
    (armed.station 0).windows ≠ [] ∧ ((st .stopped).station 0).windows = [] ∧
    (let burning := caused (.fireInput 3) 15 .fire true none (st .stopped)
     zoneIn (burning.lineCfg 0).tripZones 15 = true ∧
      ∃ r ∈ burning.causes, r.zone = 15 ∧ r.level = .fire ∧ r.source = .fireInput 3) ∧
    ∀ r ∈ (st .stopped).causes, r.level ≠ .fire := by decide +kernel

theorem test_reset_line :
    yields (exec (.resetLine [1]) (caused (.line 0) 0 .fire true none (faulty (.line 0) .rundown
      (onLine 0 (fun x => { x with state := .stopped, stopCause := .fire, gate := true }) dampered)))) (fun t =>
      (t.line 0).state = .off ∧ (t.line 0).gate = false ∧ t.causes = [] ∧ t.faults.get (.line 0) = 0 ∧
      t.link.sending = some ⟨⟨0x8A, [0, 0x20]⟩, ⟨0, 0⟩⟩) = true := by decide +kernel

/-- R73: FSTOP in STOPPING ends an orderly stop in OFF, and any other in STOPPED with its cause. -/
theorem test_fstop :
    let s := fun (cause : StopCause) => onMeter 0 (fun x => { x with vf := 2000 })
      (onLine 0 (fun x => { x with state := .stopping, stopCause := cause, rundownTimer := some 9 }) quiet)
    yields (exec (.fstopActive 0 true) (s .orderly)) (fun t => (t.line 0).state = .off) = true ∧
    yields (exec (.fstopActive 0 true) (s .gate)) (fun t => (t.line 0).state = .stopped ∧
      (t.line 0).stopCause = .gate) = true := by decide +kernel

theorem witness_SparkCounterEscalates :
    let at_ := fun (c : Nat) (st : LineState) => onLine 0 (fun x => { x with counter := c, state := st }) dampered
    (min (((at_ 6 .run).line 0).counter + 1) 1023 < (quiet.lineCfg 0).sparkThreshold) ∧
    ((quiet.lineCfg 0).sparkThreshold ≤ min (((at_ 7 .run).line 0).counter + 1) 1023) ∧
    ((at_ 7 .run).line 0).state = .run ∧ ((at_ 7 .abort).line 0).state = .abort ∧
    ((at_ 7 .stopping).line 0).state = .stopping ∧ ((at_ 7 .off).line 0).state = .off := by decide +kernel

/-- R63, R74: at the threshold a RUN line goes to ABORT and its cause stands at ALERT; from ABORT it stops at FIRE. -/
theorem test_escalation :
    let s := fun (st : LineState) => dampered |> onLine 0 (fun x => { x with counter := 7, state := st })
    ((s .run).countSpark 0 1 5).causeLevel (.line 0) = some .alert ∧
    (((s .run).countSpark 0 1 5).line 0).state = .abort ∧ (((s .run).countSpark 0 1 5).line 0).counter = 0 ∧
    ((s .abort).countSpark 0 1 5).causeLevel (.line 0) = some .fire := by decide +kernel

/-! ### Witnesses: zones, causes, faults, shift modes -/

theorem witness_CausesAreRaisedRefreshedAndRemoved :
    quiet.causeOf (.line 0) = none ∧
    ((caused (.line 0) 0 .alert true none quiet).causeOf (.line 0)).map (·.level.rank) = some 2 ∧
    Level.alert.rank < Level.fire.rank ∧ Level.alert.rank ≤ Level.alert.rank := by decide +kernel

theorem witness_ZoneLevelFollowsItsCauses :
    let s := caused (.station 1) 0 .alert false none (caused (.line 0) 0 .fire true none quiet)
    (∀ r ∈ s.causes, r.zone = 0 → r.level.rank ≤ Level.fire.rank) ∧
    (∃ r ∈ s.causes, r.zone = 0 ∧ r.level = .fire) ∧ (s.zone 0).level ≠ .fire ∧
    (∀ r ∈ s.causes, r.zone = 1 → r.level.rank ≤ Level.quiet.rank) ∧ (s.zone 1).level = .quiet ∧
    (levelOfZone [] 0 ≠ levelOfZone s.causes 0 ∧ ∀ y, y ≠ (0 : ZoneNo) → levelOfZone [] y = levelOfZone s.causes y) ∧
    (let two := caused (.station 1) 5 .alert false none s
     levelOfZone [] 0 ≠ levelOfZone two.causes 0 ∧ levelOfZone [] 5 ≠ levelOfZone two.causes 5) := by
  decide +kernel

/-- R92: one event that gave Z1 a line cause and Z6 a detector cause derives both zones, Z1 first. -/
theorem test_two_zones_change :
    let s := caused (.detector 3) 5 .alert false none (caused (.line 0) 0 .fire true none quiet)
    let t := s.deriveChanged []
    (t.zone 0).level = .fire ∧ (t.zone 5).level = .alert ∧ (t.zone 1).level = .quiet ∧
    t.history.records.map (fun r => (r.kind, r.objNum, r.detail.d1)) =
      quiet.history.records.map (fun r => (r.kind, r.objNum, r.detail.d1)) ++
        [(.zoneLevel, 1, Level.fire.code), (.zoneLevel, 6, Level.alert.code)] := by decide +kernel

/-- R92: L1 in RUN, its damper C1 in HELD, and both C1 and the trip of L1 on Z1, which stands at FIRE. Whichever of the
two ways is taken first, L1 stops, with FIRE or with DAMPER, and C1 waits for its fan. -/
theorem test_reached_both_ways :
    let s := inZone 0 .fire (onLine 0 (fun x => { x with state := .run }) (onMeter 0 (fun x => { x with vf := 2000 })
      dampered))
    let trip := ((s.protectLine 0 .fire).handClosures 0).handLines 0
    let release := (s.handClosures 0).handLines 0
    s.raced 0 0 = true ∧ (trip.line 0).state = .stopping ∧ (trip.line 0).stopCause = .fire ∧
    (trip.closure 0).state = .waiting ∧ (release.line 0).state = .stopping ∧ (release.line 0).stopCause = .damper ∧
    (release.closure 0).state = .waiting := by decide +kernel

theorem witness_FireInputsAreDebounced :
    let at_ := fun (p : Debounce) => onInput 0 (fun _ => ⟨p == .rising || p == .on, p,
      if p = .rising ∨ p = .falling then some 200 else none⟩) quiet
    ((at_ .idle).input 0).phase = .idle ∧ ((at_ .rising).input 0).phase = .rising ∧
    ((at_ .on).input 0).phase = .on ∧ ((at_ .falling).input 0).phase = .falling ∧
    (clockAt 199 (at_ .rising)).expired (some 200) = false ∧ (clockAt 200 (at_ .rising)).expired (some 200) = true ∧
    (quiet.inputCfg 0).zone = none ∧ (entered (.fireInput 0) true quiet).disabled (.fireInput 0) = true ∧
    ((inputSet 0 (fun x => { x with zone := some 0 }) quiet).inputCfg 0).zone = some 0 ∧
    quiet.disabled (.fireInput 0) = false ∧ quiet.causeOf (.fireInput 0) = none ∧
    ((caused (.fireInput 0) 0 .alert false none quiet).causeOf (.fireInput 0)).isSome = true := by decide +kernel

/-- R86 to R88: a debounced activation at FIRE raises a latched cause, and the deactivation leaves it. -/
theorem test_fire_input :
    let cfg := inputSet 0 (fun x => { x with zone := some 4 })
    let on := onInput 0 (fun _ => ⟨true, .rising, some 200⟩) (clockAt 200 (cfg quiet))
    let off := caused (.fireInput 0) 4 .fire true none (onInput 0 (fun _ => ⟨false, .falling, some 200⟩) (clockAt 200 quiet))
    yields (exec (.debounceTimerExpired 0) on) (fun t => (t.zone 4).level = .fire ∧
      t.causes.map (·.latched) = [true]) = true ∧
    yields (exec (.debounceTimerExpired 0) off) (fun t => (t.input 0).phase = .idle ∧ t.causes.length = 1) = true := by
  decide +kernel

theorem witness_ZoneRequestsResetAndRead :
    let s := caused (.fireInput 2) 15 .fire true none quiet
    (s.causesSound ∧ taken s 0x10 [16]) ∧ (taken s 0x10 [17] ∧ (0 : Byte).toNat = 0 ∧ 16 < (17 : Byte).toNat) ∧
    (taken s 0x11 [17, 0, 0] ∧ taken s 0x11 [16, 0, 255] ∧ (16 : Byte).toNat ≤ 16) := by
  refine ⟨⟨⟨by decide +kernel, fun r h => ?_⟩, by decide +kernel⟩, by decide +kernel⟩
  obtain rfl := List.mem_singleton.mp h
  exact ⟨.inr rfl, ⟨fun _ => rfl, fun _ => rfl⟩, rfl⟩

theorem test_reset_zone :
    let s := caused (.station 1) 15 .alert false none (caused (.fireInput 2) 15 .fire true none (inZone 15 .fire quiet))
    yields (exec (.resetZone [16]) s) (fun t => (t.zone 15).level = .alert ∧ t.causes.length = 1 ∧
      t.link.sending = some ⟨⟨0x90, [1, 1]⟩, ⟨0, 0⟩⟩) = true := by decide +kernel

/-- WATCH, with an ember of weight 30 waiting on D3 and a spark of weight 300 on D9. -/
def onWatch : State :=
  onDet 2 (fun x => { x with candidate := some ⟨true, 30, 0⟩ })
    (onDet 8 (fun x => { x with candidate := some ⟨false, 300, 0⟩ }) { quiet with shift := .watch })

theorem witness_ShiftChangesAreHandedOn :
    let busy := onLine 7 (fun x => { x with state := .stopping }) quiet
    (taken quiet 0x12 [2] ∧ 1 < (2 : Byte).toNat) ∧ (taken quiet 0x12 [0] ∧ (0 : Byte) = quiet.shift.code) ∧
    (taken busy 0x12 [1] ∧ busy.shift = .day ∧ ¬((busy.line 7).state = .off ∨ (busy.line 7).state = .stopped) ∧
      ∀ i < (7 : LineNo), (busy.line i).state = .off ∨ (busy.line i).state = .stopped) ∧
    (taken quiet 0x12 [1] ∧ ∀ n, (quiet.line n).state = .off ∨ (quiet.line n).state = .stopped) ∧
    (taken { quiet with shift := .watch } 0x12 [0] ∧ ({ quiet with shift := .watch } : State).shift = .watch) ∧
    (taken onWatch 0x12 [0] ∧ onWatch.shift = .watch ∧ (onWatch.det 2).candidate = some ⟨true, 30, 0⟩ ∧
      (onWatch.det 8).candidate = some ⟨false, 300, 0⟩) := by decide +kernel

/-- R98, R100, R14: to DAY the history ends with SHIFT and one UNCONFIRMED for each candidate, with its class, its
weight (255 at most) and reason SHIFT; no report is made of these. -/
theorem test_shift_to_day :
    yields (exec (.setShift [0]) onWatch) (fun t =>
      (t.history.records.drop onWatch.history.records.length).map (fun r => (r.kind, r.objKind, r.objNum, r.detail)) ==
        [(.shift, 0, 0, ⟨1, 0, 0, 0, 0⟩), (.unconfirmed, 1, 3, ⟨2, 30, 4, 0, 0⟩),
          (.unconfirmed, 1, 9, ⟨1, 255, 4, 0, 0⟩)] &&
      t.link.notice.length == onWatch.link.notice.length + 1 &&
      (t.det 2).candidate.isNone && (t.det 8).candidate.isNone) = true := by decide +kernel

theorem witness_FaultsAreKeptRecordedAndShown :
    (quiet.faults.get (.station 7)).getLsbD (FaultCode.noWater.num - 1) = false ∧
    ((faulty (.station 7) .noWater quiet).faults.get (.station 7)).getLsbD (FaultCode.noWater.num - 1) = true ∧
    (∀ x, Obj.station 7 ≠ .fireInput x) ∧ (∀ x, Obj.station 7 ≠ .zone x) ∧ ∀ x, Obj.station 7 ≠ .sector x := by
  decide +kernel

/-! ### Witnesses: closures -/

theorem witness_ClosuresAreReleasedByKindAndFan :
    let fan := onLine 0 (fun x => { x with state := .stopping }) dampered
    ¬((quiet.closure 0).state = .held) ∧ (quiet.closure 0).state = .ready ∧ (quiet.closureCfg 0).kind = .passage ∧
    ((onClosure 0 (fun x => { x with state := .shut }) quiet).closure 0).state = .shut ∧
    (let loose := closureSet 0 (fun x => { x with kind := .damper }) quiet
     (loose.closureCfg 0).kind = .damper ∧ (loose.closureCfg 0).line = none) ∧
    ((dampered.closure 0).state = .held ∧ (dampered.closureCfg 0).kind = .damper ∧
      (dampered.closureCfg 0).line = some 0) ∧
    ((fan.line 0).state = .stopping ∧ (fan.line 0).fstop = false) ∧
    ((onLine 0 (fun x => { x with state := .run, fstop := true }) dampered).line 0).fstop = true ∧
    (let wasStuck := onClosure 0 (fun x => { x with state := .stuck, direction := .opening }) dampered
     (wasStuck.closure 0).state = .stuck ∧ (wasStuck.closure 0).direction = .opening) := by decide +kernel

/-- R106, R107: a passage lets go at once, to RELEASING unless CLOSED; a damper on a running fan waits and its line
stops. -/
theorem test_release_closure :
    let run := onLine 0 (fun x => { x with state := .run }) dampered
    yields (exec (.releaseClosure [2]) quiet) (fun t => (t.closure 1).state = .releasing ∧
      (t.closure 1).travelTimer = some 15000 ∧ t.link.sending = some ⟨⟨0x94, [3, 0]⟩, ⟨0, 0⟩⟩) = true ∧
    yields (exec (.releaseClosure [1]) (onMeter 0 (fun x => { x with vf := 2000 }) run)) (fun t =>
      (t.closure 0).state = .waiting ∧ (t.line 0).state = .stopping ∧ (t.line 0).stopCause = .damper) = true := by
  decide +kernel

theorem witness_ClosureInputsAndTimersAct :
    let at_ := fun (st : ClosureState) => onClosure 0 (fun x => { x with
      state := st, travelTimer := some 15000, waitTimer := some 8000 }) quiet
    let stuck := fun (d : Direction) => onClosure 0 (fun x => { x with state := .stuck, direction := d }) quiet
    (((dampered.closure 0).setLimit .openLimit true).position = (dampered.closure 0).position) ∧
    (((quiet.closure 0).setLimit .shutLimit true).position = .closed ∧ (quiet.closure 0).position = .mid) ∧
    (((quiet.closure 0).setLimit .openLimit true).position = .opened) ∧
    ((dampered.closure 0).state = .held ∧ (dampered.closureCfg 0).kind = .damper ∧
      ((onLine 0 (fun x => { x with state := .abort }) dampered).line 0).state = .abort) ∧
    ((at_ .held).closure 0).state = .held ∧ ((at_ .waiting).closure 0).state = .waiting ∧
    ((at_ .releasing).closure 0).state = .releasing ∧ ((at_ .ready).closure 0).state = .ready ∧
    ((at_ .shut).closure 0).state = .shut ∧ ((stuck .closing).closure 0).direction = .closing ∧
    ((stuck .opening).closure 0).direction = .opening ∧
    (clockAt 15000 (at_ .releasing)).expired ((at_ .releasing).closure 0).travelTimer = true ∧
    (clockAt 7999 (at_ .waiting)).expired ((at_ .waiting).closure 0).waitTimer = false ∧
    (clockAt 8000 (at_ .waiting)).expired ((at_ .waiting).closure 0).waitTimer = true ∧
    ((onClosure 0 (fun x => { x with cshut := true }) (at_ .waiting)).closure 0).position = .closed := by decide +kernel

theorem test_closure_timers :
    let s := onClosure 0 (fun x => { x with state := .releasing, hold := false, travelTimer := some 15000 }) quiet
    yields (exec (.travelTimerExpired 0) (clockAt 15000 s)) (fun t => (t.closure 0).state = .stuck ∧
      (t.closure 0).direction = .closing ∧ (t.closure 0).hold = false ∧ t.holds (.closure 0) .stuck) = true ∧
    yields (exec (.closureLimitChange 0 .shutLimit true) s) (fun t => (t.closure 0).state = .shut ∧
      (t.closure 0).travelTimer = none) = true := by decide +kernel

theorem witness_ClosureRequestsReleaseAndReset :
    let shut := onClosure 0 (fun x => { x with state := .shut }) dampered
    (taken dampered 0x14 [17] ∧ taken dampered 0x15 [0] ∧ (0 : Byte).toNat = 0 ∧ 16 < (17 : Byte).toNat) ∧
    (taken dampered 0x14 [1] ∧ (entered (.closure 0) false dampered).hasEntry (.closure 0) = true ∧
      dampered.hasEntry (.closure 0) = false) ∧
    (taken shut 0x15 [1] ∧ (shut.closure 0).state = .shut ∧ (dampered.closure 0).state ≠ .shut) ∧
    (zoneIn ((inZone 0 .fire shut).closureCfg 0).zones 0 = true ∧ 3 ≤ ((inZone 0 .fire shut).zone 0).level.rank) ∧
    (∀ z, zoneIn (shut.closureCfg 0).zones z = true → (shut.zone z).level.rank < 3) := by decide +kernel

/-! ### Witnesses: sirens -/

/-- S1 on Z1 to Z16, with a cause at a level in Z16. -/
def alarmed (l : Level) : State :=
  caused (.line 0) 15 l true none (sectorSet 0 (fun x => { x with zones := 0xFFFF, alertPattern := some 5 }) quiet)

/-- S1 in a state, playing a level. -/
def sounding (st : SectorState) (p : Demand) (c : Option Cycle) (s : State) : State :=
  onSector 0 (fun x => { x with state := st, playing := p, cycle := c, soundingSince := some 0 }) s

/-- A cycle in its last phase, which ends at 500 ms. -/
def lastPhase : Cycle := ⟨⟨1, false, 500⟩, [], 0, 1000, 500⟩

theorem witness_SectorsFollowTheCauses :
    (alarmed .fire).demandOf 0 = .fire ∧ (alarmed .alert).demandOf 0 = .alert ∧ quiet.demandOf 0 = .none ∧
    (alarmed .spark).demandOf 0 = .none ∧
    ((alarmed .fire).sector 0).state ≠ .sounding ∧ ((sounding .test .none none quiet).sector 0).state = .test ∧
    ((quiet.sector 0).state = .quiet ∧ ((sounding .silenced .none none quiet).sector 0).state = .silenced) ∧
    (let s := sounding .sounding .alert (some lastPhase) (alarmed .fire)
     (s.sector 0).state = .sounding ∧ (s.sector 0).playing = .alert) ∧
    ((sounding .sounding .fire none (alarmed .fire)).sector 0).playing = .fire ∧
    (let s := sounding .sounding .fire (some lastPhase) (alarmed .alert)
     (s.sector 0).playing = .fire ∧ (s.sector 0).cycle ≠ none) ∧
    ((sounding .sounding .fire none (alarmed .alert)).sector 0).cycle = none := by decide +kernel

theorem witness_CyclesRunThroughTheirPhases :
    let playing := fun (c : Cycle) => onSector 0 (fun x => { x with pattern := some 0, pendingLevel := .alert })
      (sounding .sounding .fire (some c) quiet)
    (quiet.sector 0).pattern = none ∧ ((playing lastPhase).sector 0).pattern = some 0 ∧ (quiet.sector 0).cycle = none ∧
    ((playing lastPhase).sector 0).cycle = some lastPhase ∧
    (reached 499 lastPhase.phaseStop = false ∧ reached 500 lastPhase.phaseStop = true ∧ lastPhase.rest = []) ∧
    (({ lastPhase with rest := [⟨2, true, 10⟩] }).rest = ⟨2, true, 10⟩ :: []) ∧
    ((sounding .test .none (some lastPhase) quiet).sector 0).state ≠ .sounding ∧
    ((playing lastPhase).sector 0).pendingLevel ≠ .none := by decide +kernel

/-- R125: factory pattern P3 has three steps, six phases, and a cycle of 3,000 ms. -/
theorem test_pattern_cycle :
    ((factoryPatterns[2]).phases.map (·.ms)) = [300, 300, 300, 300, 300, 1500] ∧
    phasesLength (factoryPatterns[2]).phases = 3000 := by decide +kernel

theorem witness_SectorsAreSilencedAndTested :
    let s := clockAt 30000 (sounding .sounding .fire none quiet)
    (taken quiet 0x18 [7] ∧ taken quiet 0x18 [0] ∧ taken quiet 0x19 [7, 1, 1] ∧ taken quiet 0x19 [6, 9, 1] ∧
      taken quiet 0x19 [1, 0, 1] ∧ (0 : Byte).toNat = 0 ∧ 6 < (7 : Byte).toNat ∧ 8 < (9 : Byte).toNat) ∧
    (taken quiet 0x18 [1] ∧ (quiet.sector 0).state ≠ .sounding) ∧
    ((s.sector 0).state = .sounding ∧ (s.sector 0).soundingSince = some 0) ∧
    (((clockAt 29999 s).uptime - 0).toNat < (s.sectorCfg 0).silenceInhibit * 1000 ∧
      (s.sectorCfg 0).silenceInhibit * 1000 ≤ (s.uptime - 0).toNat) ∧
    (taken quiet 0x19 [6, 8, 0] ∧ (entered (.sector 5) false quiet).hasEntry (.sector 5) = true ∧
      quiet.hasEntry (.sector 5) = false ∧ (quiet.sector 5).state = .quiet ∧ (s.sector 0).state ≠ .quiet) ∧
    (let t := clockAt 1000 (onSector 0 (fun x => { x with state := .test, testEnd := some 1000 }) quiet)
     (t.sector 0).state = .test ∧ t.expired (t.sector 0).testEnd = true ∧
      (clockAt 999 t).expired (t.sector 0).testEnd = false) := by decide +kernel

/-- R130: a sector silenced at 30 s marks its cause and is SILENCED; at 29,999 ms 1 ms is still to wait. -/
theorem test_silence_sector :
    let s := sounding .sounding .fire none (alarmed .fire)
    yields (exec (.silenceSector [1]) (clockAt 30000 s)) (fun t => (t.sector 0).state = .silenced ∧
      t.link.sending = some ⟨⟨0x98, [1]⟩, ⟨30000, 0⟩⟩) = true ∧
    yields (exec (.silenceSector [1]) (clockAt 29999 s)) (fun t => (t.sector 0).state = .sounding ∧
      t.link.sending = some ⟨⟨0xFF, [0x18, 16, 0, 0, 0, 1]⟩, ⟨29999, 0⟩⟩) = true := by decide +kernel

/-! ### Witnesses: disablements -/

/-- SERVICE active, with a prepare outstanding for D24 at 1,440 minutes. -/
def prepared : State := { quiet with service := true, dis := ⟨[], some ⟨.detector 23, 1440, 0, 10000⟩, false⟩ }

theorem witness_DisablingTakesPrepareThenConfirm :
    let service := { quiet with service := true }
    let latched : State := { service with dis := ⟨[], none, true⟩ }
    let full : State := { service with dis := ⟨List.replicate 32 ⟨.sector 0, 0, 0, some 0, none⟩, none, false⟩ }
    (∀ o : Target, ¬((targetObj o).kindCode = 4 ∧ (targetObj o).num = (1 : Byte).toNat)) ∧
    (taken quiet 0x1C [4, 1, 0, 0] ∧ taken quiet 0x1D [4, 1] ∧ taken quiet 0x1C [1, 24, 0xFF, 0xFF] ∧
      taken quiet 0x1D [1, 24]) ∧
    (quiet.service = false ∧ service.service = true ∧ latched.dis.latch = true ∧ service.dis.latch = false) ∧
    (prepared.dis.prepare ≠ none ∧ service.dis.prepare = none) ∧
    ((entered (.detector 23) true service).entryOf (.detector 23)).isSome = true ∧
    (full.entryOf (.detector 23) = none ∧ 32 ≤ full.dis.entries.length) ∧
    (service.entryOf (.detector 23) = none ∧ service.dis.entries.length < 32) ∧
    (prepared.dis.prepare.map (·.target) = some (.detector 23) ∧ Target.detector 23 ≠ .detector 22) ∧
    ((armed.station 0).windows ≠ [] ∧ (quiet.station 0).windows = []) := by
  refine ⟨fun o => ?_, by decide +kernel⟩
  cases o <;> simp [targetObj, Obj.kindCode]

/-- R141, R143: prepared and confirmed, D24 is disabled for 24 h. -/
theorem test_disable :
    yields (exec (.disablePrepare [1, 24, 0xFF, 0xFF]) { quiet with service := true }) (fun t =>
      t.dis.prepare = prepared.dis.prepare ∧
      t.link.sending = some ⟨⟨0x9C, [0x05, 0xA0, 0, 0, 0x27, 0x10]⟩, ⟨0, 0⟩⟩) = true ∧
    yields (exec (.disableConfirm [1, 24]) prepared) (fun t => t.disabled (.detector 23) ∧ t.dis.prepare = none ∧
      t.link.sending = some ⟨⟨0x9D, [3, 0x05, 0x26, 0x5C, 0x00]⟩, ⟨0, 0⟩⟩) = true := by decide +kernel

theorem witness_EntriesEndAndTheTableIsShown :
    let limited : State := { quiet with dis := ⟨[⟨.closure 0, 0, 1, some 0, some 60000⟩], none, false⟩ }
    (∀ o : Target, ¬((targetObj o).kindCode = 4 ∧ (targetObj o).num = (1 : Byte).toNat)) ∧
    (taken quiet 0x1E [4, 1] ∧ taken quiet 0x1E [6, 1] ∧ quiet.entryOf (.closure 0) = none ∧ (limited.entryOf (.closure 0)).isSome = true) ∧
    ((clockAt 60000 limited).expired (some 60000) = true ∧ (clockAt 59999 limited).expired (some 60000) = false) ∧
    ((entered (.closure 0) false quiet).entryOf (.closure 0)).map (·.activated) = some none ∧
    (quiet.dis.prepare = none ∧ prepared.dis.prepare ≠ none ∧ reached 9999 10000 = false ∧
      reached 10000 10000 = true) ∧
    (taken quiet 0x1F [] ∧ quiet.service = false ∧ prepared.service = true ∧ prepared.dis.latch = false) ∧
    ({ prepared with dis := ⟨[], none, true⟩ } : State).dis.latch = true ∧ taken quiet 0x20 [0, 255] ∧
    (let fire := inZone 15 .fire (closureSet 0 (fun x => { x with zones := 0x8001 }) quiet)
     zoneIn (fire.closureCfg 0).zones 15 = true ∧ 3 ≤ (fire.zone 15).level.rank ∧
      ∀ y < (15 : ZoneNo), ¬(zoneIn (fire.closureCfg 0).zones y = true ∧ 3 ≤ (fire.zone y).level.rank)) ∧
    ∀ z, ¬(zoneIn (quiet.closureCfg 0).zones z = true ∧ 3 ≤ (quiet.zone z).level.rank) := by
  refine ⟨fun o => ?_, by decide +kernel⟩
  cases o <;> simp [targetObj, Obj.kindCode]

/-- R149, R185: a DISABLE-CONFIRM without a prepare, of a target with an ACTIVE entry of 300 minutes, is recorded with
that entry's state and limit. -/
theorem test_sequence_error :
    let s := { quiet with service := true, dis := ⟨[⟨.detector 23, 0, 300, some 0, some 18000000⟩], none, false⟩ }
    yields (exec (.disableConfirm [1, 24]) s) (fun t =>
      (t.history.records.filter (·.kind = .disablement)).map (fun r => (r.detail.d0, r.detail.d1, r.detail.d2, r.detail.d3)) =
        [(6, 3, 1, 44)]) = true := by decide +kernel

/-! ### Witnesses: the settings store -/

theorem witness_SettingsAreWrittenAndRead :
    let locked := good.setFlags .lines ⟨true, false, false, false⟩
    let writing : State :=
      { good with store := { good.store with write := some ⟨.lock, .general, [], 200, [], []⟩ } }
    (settingOf 0 1 1 = .error 1 ∧ settingOf 8 1 1 = .error 1 ∧ settingOf 1 25 1 = .error 2 ∧ settingOf 7 0 3 = .error 3 ∧
      settingOf 1 24 9 = .ok (.detectors, .detector 23 9)) ∧
    (taken good 0x26 ([1, 24, 9] ++ enc32 0xFFFFFFFF) ∧ taken good 0x25 [1, 24, 9] ∧ taken good 0x25 [0, 1, 1]) ∧
    (writing.store.write ≠ none ∧ good.store.write = none) ∧
    ((locked.flagsOf .lines).lock = true ∧ locked.service = false ∧ (good.flagsOf .lines).lock = false) ∧
    ((SettingName.line 0 2).isZoneSet = true ∧ (SettingName.detector 0 4).isZoneSet = false) ∧
    (1 ≤ (good.detCfg 0).wMax ∧ (good.detCfg 0).wMin ≤ 2000) ∧
    ((onLine 0 (fun x => { x with state := .run }) good).refuses (.line 0 3)
        (good.store.live.write (.line 0 3) 300) = true ∧
      good.refuses (.line 0 3) (good.store.live.write (.line 0 3) 300) = false) ∧
    (let glaring := fun (t : Nat) => clockAt t (faulty (.detector 0) .glare
       (onDet 0 (fun x => { x with glare := .clearing 0 }) good))
     (glaring 1999).holds (.detector 0) .glare = true ∧ ((glaring 1999).det 0).glare = .clearing 0 ∧
      ((glaring 1999).uptime - 0).toNat < (good.detCfg 0).glareClear ∧
      (good.detCfg 0).glareClear ≤ ((glaring 2000).uptime - 0).toNat ∧ (good.detCfg 0).glareClear < 2 ^ 31) := by
  decide +kernel

/-- R171: a value above its range is stored clamped, the section is modified, and the reply says so. -/
theorem test_write_setting :
    yields (exec (.writeSetting [1, 24, 9, 0, 0, 1, 0]) good) (fun t => (t.detCfg 23).sparkHold = 120 ∧
      (t.flagsOf .detectors).modified ∧ t.link.sending = some ⟨⟨0xA6, [0, 0, 0, 120, 1]⟩, ⟨0, 0⟩⟩) = true := by
  decide +kernel

theorem witness_StoreOperationsWriteSectionsInTurn :
    let writing := fun (rest : List StoreSection) =>
      ({ good with store := { good.store with write := some ⟨.save, .detectors, rest, 200, [], []⟩ } } : State)
    let service := { good with service := true }
    (taken good 0x27 [] ∧ (writing []).store.write ≠ none ∧ good.store.write = none) ∧
    (StoreSection.general.num = (7 : Byte).toNat ∧ taken good 0x28 [7] ∧ taken good 0x29 [7]) ∧
    (((good.setFlags .general ⟨true, false, false, false⟩).flagsOf .general).lock = true ∧
      (good.flagsOf .general).lock = false) ∧
    (good.service = false ∧ service.service = true) ∧
    (let run := lineSet 0 (fun x => { x with kFactor := 9 }) (onLine 0 (fun x => { x with state := .run }) service)
     run.defaultsRefused .lines = some 1 ∧ service.defaultsRefused .lines = none) ∧
    (∀ k ∈ allSections, k.num ≠ (8 : Byte).toNat ∧ k.num ≠ (0 : Byte).toNat) ∧
    (reached 199 200 = false ∧ reached 200 200 = true) ∧
    ((writing [.lines]).store.write.map (·.rest) = some [.lines] ∧ (writing []).store.write.map (·.rest) = some []) := by
  decide +kernel

/-! ### Witnesses: what every step keeps -/

/-- The state after reset with a fire input about to change: the step from it is a next state. -/
def ready : State := { State.reset with pending := [.fireInputEdge 0 true] }

theorem test_ready_steps : yields (step ready) (fun t => (t.input 0).phase = .rising) = true := by decide +kernel

theorem witness_LinkAndHistoryStayWithinTheirBounds :
    ready.link.receiver.sound ∧ ready.link.capacities ∧ ready.link.busyWhileWaiting ∧ ready.history.sound := by
  refine ⟨trivial, ?_, ?_, ?_⟩
  · unfold Link.capacities; decide +kernel
  · unfold Link.busyWhileWaiting; decide +kernel
  · unfold History.sound; decide +kernel

theorem witness_OutputsFollowTheStates :
    (∀ n, ready.lineOutputs n) ∧ (∀ c, ready.closureOutputs c) ∧ (∀ n, (ready.sector n).siren = false) ∧
    (∀ n, (ready.sector n).state = .quiet) ∧ ∀ n, ready.valveSound n := by
  unfold State.lineOutputs State.closureOutputs State.valveSound; decide +kernel

theorem witness_sectorOutput (n : SectorNo) : ready.sectorOutput n := by
  have h := witness_OutputsFollowTheStates
  unfold State.sectorOutput
  simp only [h.2.2.1 n, h.2.2.2.1 n]
  simp

theorem witness_FaultOutputShowsEveryFault : ready.tableSound ∧ ready.faultSound := by
  refine ⟨?_, fun _ => .inl ⟨.store, by decide⟩, fun _ => rfl⟩
  unfold State.tableSound; decide +kernel

theorem witness_CausesZonesAndSectorsAgree :
    ready.causesSound ∧ (∀ z, ready.zoneSound z) ∧ (∀ n, ready.sectorSound n) ∧ ∀ n, (ready.sector n).playingSound := by
  refine ⟨⟨List.nodup_nil, fun _ h => nomatch h⟩, ?_⟩
  unfold State.zoneSound State.sectorSound Sector.playingSound; decide +kernel

theorem witness_LinesAndClosuresStayInOrder :
    (∀ n, (ready.line n).timersSound) ∧ ready.countersSound ∧ (∀ n, ready.blindSound n) ∧
    (∀ c, ready.closureSound c) ∧ ∀ c, ready.waitSound c := by
  unfold Line.timersSound State.countersSound Settings.thresholds State.blindSound State.closureSound State.waitSound
  decide +kernel

theorem witness_NoLineRunsWithADamperNotHeldOrInWatch :
    let st := fun (x : LineState) (c : StopCause) => onLine 0 (fun y => { y with state := x, stopCause := c }) dampered
    ((∀ n, (st .run .none).dampersHeld n) ∧ (st .run .none).watchStill ∧ ((st .run .none).line 0).state = .run) ∧
    (((st .stopping .orderly).line 0).state = .stopping ∧ ((st .stopping .orderly).line 0).stopCause = .orderly) ∧
    (((st .stopping .fire).line 0).stopCause ≠ .orderly ∧ ((st .off .none).line 0).state = .off) := by
  unfold State.dampersHeld State.watchStill; decide +kernel

theorem witness_LockoutsHoldUntilReset :
    ((lockedOut.closure 0).state = .shut ∧ (lockedOut.line 1).state = .stopped) ∧
    (let s := inZone 0 .fire (closureSet 0 (fun x => { x with zones := 1 }) lockedOut)
     s.triggers 0 0 = true ∧ yields (exec (.resetClosure [1]) s) (fun t => (t.closure 0).state = .shut) = true) ∧
    yields (exec .resetInput lockedOut) (fun t => (t.closure 0).state = .shut) = true ∧
    lockedOut.closureOutputs 0 ∧ yields (exec (.hostHold) lockedOut) (fun t => (t.closure 0).state = .shut) = true := by
  unfold State.closureOutputs; decide +kernel

theorem witness_DisablementTableStaysInOrder : prepared.tableSound ∧ prepared.prepareSound := by
  refine ⟨?_, fun p h => ?_⟩
  · unfold State.tableSound; decide +kernel
  · have e : p = ⟨.detector 23, 1440, 0, 10000⟩ := by simpa [prepared] using h.symm
    subst e; decide +kernel

theorem witness_DetectorsAndInputsStayInOrder :
    (∀ d, ready.detectorSound d) ∧ ready.causesSound ∧ ∀ f, ready.inputSound f := by
  refine ⟨fun d => ?_, ⟨List.nodup_nil, fun _ h => nomatch h⟩, fun f => ⟨?_, ?_, fun r h => nomatch h⟩⟩
  · have h : ∀ d, (ready.det d).nextMode = none ∧
        (ready.det d).mode = effectiveMode (ready.detCfg d).supervision ready.shift ∧ (ready.det d).mode ≠ .off ∧
        (ready.det d).openRun ≤ 4 ∧ (ready.det d).shortRun ≤ 4 ∧ ready.holds (.detector d) .openLoop = false ∧
        ready.holds (.detector d) .glare = false ∧ (ready.det d).glare = .none ∧ (ready.det d).candidate = none := by
      decide +kernel
    obtain ⟨next, mode, on, a, b, loop, glare, phase, free⟩ := h d
    refine ⟨fun _ => mode, fun w e => ?_, fun e => absurd e on, a, b, fun e => ?_, ?_, fun e => absurd free e⟩
    · rw [next] at e; cases e
    · rw [loop] at e; cases e.1
    · simp [glare, phase]
  · revert f; decide +kernel
  · revert f; decide +kernel

/-- The factory settings are in range: here each kind of setting at its first fields, the rest having value 0. -/
theorem factory_inRange : factorySettings.inRange := by
  refine ⟨fun name => ?_, by decide +kernel⟩
  have far {t : Settings} {g : Nat → SettingName} {m : Nat} (near : ∀ f < m,
      (g f).range.1 ≤ t.value (g f) ∧ t.value (g f) ≤ (g f).range.2)
      (rest : ∀ k, (g (k + m)).range = (0, 0) ∧ t.value (g (k + m)) = 0) (f : Nat) :
      (g f).range.1 ≤ t.value (g f) ∧ t.value (g f) ≤ (g f).range.2 := by
    by_cases h : f < m
    · exact near f h
    · obtain ⟨k, rfl⟩ : ∃ k, f = k + m := ⟨f - m, by omega⟩
      simp [rest k]
  cases name with
  | detector d f =>
    exact far (g := .detector d) (m := 10) (by revert d; decide +kernel) (fun _ => ⟨rfl, rfl⟩) f
  | line d f => exact far (g := .line d) (m := 17) (by revert d; decide +kernel) (fun _ => ⟨rfl, rfl⟩) f
  | input d f => exact far (g := .input d) (m := 5) (by revert d; decide +kernel) (fun _ => ⟨rfl, rfl⟩) f
  | closure d f => exact far (g := .closure d) (m := 7) (by revert d; decide +kernel) (fun _ => ⟨rfl, rfl⟩) f
  | sector d f => exact far (g := .sector d) (m := 5) (by revert d; decide +kernel) (fun _ => ⟨rfl, rfl⟩) f
  | pattern d f => exact far (g := .pattern d) (m := 10) (by revert d; decide +kernel) (fun _ => ⟨rfl, rfl⟩) f
  | general f => exact far (g := .general) (m := 3) (by decide +kernel) (fun _ => ⟨rfl, rfl⟩) f

theorem witness_SettingsAndStoreFaultsStaySound :
    ready.store.live.inRange ∧ ready.store.stored.inRange ∧ ready.storeFaultsSound := by
  refine ⟨factory_inRange, factory_inRange, ⟨fun h => ?_, fun ⟨k, h⟩ => ?_⟩, fun _ => ⟨.lines, by decide +kernel⟩,
    fun _ => by decide +kernel⟩
  · exact absurd h (by decide +kernel)
  · cases k <;> exact absurd h (by decide +kernel)

end Sys2Proof.Tests
end

