-- ==== Sys2Proof/Proofs/StartLine.lean ====
section
/-! START-LINE (R59, R60): the frames a refusal of one byte's detail makes, what the two searches of R59 find, what the
line controller answers in each of its cases, and from these the statement about the command. -/

namespace Sys2Proof.Machine

/-! ### Searches -/

/-- What is found first has the property, and nothing before it has. -/
theorem firstOf_eq_some_iff {k : Nat} {p : Fin k → Bool} {i : Fin k} :
    firstOf p = some i ↔ p i = true ∧ ∀ j < i, p j = false := by
  constructor
  · intro h
    obtain ⟨hi, m, hm, rfl, before⟩ := List.find?_eq_some_iff_getElem.mp h
    refine ⟨hi, fun j hj => ?_⟩
    simpa using before j.val (by simpa [Fin.lt_def] using hj)
  · rintro ⟨hi, before⟩
    refine List.find?_eq_some_iff_getElem.mpr ⟨hi, i.val, by simp, by simp, fun j hj => ?_⟩
    simpa using before ⟨j, by omega⟩ hj

/-- The damper R59 names: the lowest-numbered one of the line not HELD. -/
theorem State.damperNotHeld_eq_some_iff {s : State} {n : LineNo} {c : ClosureNo} :
    s.damperNotHeld n = some c ↔ (s.damperOf n c = true ∧ (s.closure c).state ≠ .held) ∧
      ∀ b < c, s.damperOf n b = true → (s.closure b).state = .held := by
  simp [State.damperNotHeld, firstOf_eq_some_iff]

theorem State.damperNotHeld_eq_none_iff {s : State} {n : LineNo} :
    s.damperNotHeld n = none ↔ ∀ c, s.damperOf n c = true → (s.closure c).state = .held := by
  simp [State.damperNotHeld, firstOf_none]

/-- The zone R59 names: the lowest-numbered trip zone of the line at FIRE. -/
theorem State.tripAtFire_eq_some_iff {s : State} {n : LineNo} {z : ZoneNo} :
    s.tripAtFire n = some z ↔ (zoneIn (s.lineCfg n).tripZones z = true ∧ (s.zone z).level = .fire) ∧
      ∀ y < z, zoneIn (s.lineCfg n).tripZones y = true → (s.zone y).level ≠ .fire := by
  simp [State.tripAtFire, firstOf_eq_some_iff]

theorem State.tripAtFire_eq_none_iff {s : State} {n : LineNo} :
    s.tripAtFire n = none ↔ ∀ z, zoneIn (s.lineCfg n).tripZones z = true → (s.zone z).level ≠ .fire := by
  simp [State.tripAtFire, firstOf_none]

/-! ### Frames -/

/-- A number of one byte in four bytes: the three high bytes are 0 (R180). -/
theorem enc32_of_lt {d : Nat} (h : d < 256) : enc32 (BitVec.ofNat 32 d) = [0, 0, 0, BitVec.ofNat 8 d] := by
  have high (i : Nat) (hi : 8 ≤ i) : (BitVec.ofNat 32 d).extractLsb' i 8 = 0 := by
    have small : d < 2 ^ i := h.trans_le (Nat.pow_le_pow_right (by omega) hi : 2 ^ 8 ≤ 2 ^ i)
    apply BitVec.eq_of_toNat_eq
    have fits : d % 4294967296 = d := Nat.mod_eq_of_lt (by omega)
    simp [Nat.shiftRight_eq_div_pow, fits, Nat.div_eq_of_lt small]
  have low : (BitVec.ofNat 32 d).extractLsb' 0 8 = BitVec.ofNat 8 d := by
    apply BitVec.eq_of_toNat_eq
    simp
  simp only [enc32, high 24 (by omega), high 16 (by omega), high 8 (by omega), low]

/-- A refusal whose detail is one byte (R160, R182). -/
theorem refusedFrame_of_lt (kind : Byte) (r : Reason) {d : Nat} (h : d < 256) :
    refusedFrame kind r d = ⟨0xFF, [kind, r.code, 0, 0, 0, BitVec.ofNat 8 d]⟩ := by
  rw [refusedFrame, enc32_of_lt h]

/-- An object's number fits one byte where its kind has fewer than 256 objects. -/
theorem number_lt {k : Nat} (i : Fin k) (h : k < 256) : number i < 256 := by
  simp only [number]; omega

/-! ### The line controller's answer -/

theorem State.startReq_noLine (s : State) {num : Nat} (h : num = 0 ∨ 8 < num) :
    s.startReq num = refuse s .badObject 0 := by
  simp only [State.startReq, numbered_none.mpr h]

section
variable (s : State) {n : LineNo}

theorem State.startReq_notOff (h : (s.line n).state ≠ .off) :
    s.startReq (number n) = refuse s .state (s.line n).state.code.toNat := by
  simp [State.startReq, h]

theorem State.startReq_watch (off : (s.line n).state = .off) (h : s.shift = .watch) :
    s.startReq (number n) = refuse s .watch 0 := by
  simp [State.startReq, off, h]

theorem State.startReq_caused (off : (s.line n).state = .off) (day : s.shift = .day) {r : Cause}
    (h : s.causeOf (.line n) = some r) : s.startReq (number n) = refuse s .cause r.level.rank := by
  simp [State.startReq, off, day, State.causeLevel, h]

theorem State.startReq_damper (off : (s.line n).state = .off) (day : s.shift = .day)
    (free : s.causeOf (.line n) = none) {c : ClosureNo} (h : s.damperNotHeld n = some c) :
    s.startReq (number n) = refuse s .damper (number c) := by
  simp [State.startReq, off, day, State.causeLevel, free, h]

theorem State.startReq_trip (off : (s.line n).state = .off) (day : s.shift = .day)
    (free : s.causeOf (.line n) = none) (held : s.damperNotHeld n = none) {z : ZoneNo} (h : s.tripAtFire n = some z) :
    s.startReq (number n) = refuse s .zoneActive (number z) := by
  simp [State.startReq, off, day, State.causeLevel, free, held, h]

/-- Every check of R59 passed: the entry to STARTING, and the reply with the start timer's expiry (R60, R62). -/
theorem State.startReq_accepted (off : (s.line n).state = .off) (day : s.shift = .day)
    (free : s.causeOf (.line n) = none) (held : s.damperNotHeld n = none) (clear : s.tripAtFire n = none) :
    s.startReq (number n) =
      (s.moveLine n .starting .none (fun x => { x with
        counter := 0, countWindow := s.freshWindow n
        startTimer := some (s.after ((s.lineCfg n).startTimeout * 1000)) }),
       .reply (enc32 (BitVec.ofNat 32 ((s.lineCfg n).startTimeout * 1000)))) := by
  simp [State.startReq, off, day, State.causeLevel, free, held, clear]

end

/-! ### The command -/

/-- START-LINE taken: the line controller decides it on the state with the entry gone from the link. -/
theorem exec_startLine_claimed {s : State} {k : Link} {b : Byte} {num : Nat} (hb : b.toNat = num)
    (h : s.link.claim (.request 0x08 [b]) = some k) :
    exec (.startLine [b]) s =
      .next (((s.withLink k).startReq num).1.answered (((s.withLink k).startReq num).2.frame 0x08)) := by
  subst hb
  exact request_claimed h rfl

/-- START-LINE taken and refused: nothing changes but the link, where the refusal stands in the reply slot. -/
theorem exec_startLine_refused {s : State} {k : Link} {b : Byte} {num : Nat} (hb : b.toNat = num)
    (h : s.link.claim (.request 0x08 [b]) = some k) {r : Reason} {d : Nat} (small : d < 256)
    (answer : (s.withLink k).startReq num = refuse (s.withLink k) r d) :
    exec (.startLine [b]) s =
      .next ((s.withLink k).answered ⟨0xFF, [0x08, r.code, 0, 0, 0, BitVec.ofNat 8 d]⟩) := by
  rw [exec_startLine_claimed hb h, answer, ← refusedFrame_of_lt _ _ small]
  rfl

/-- Settles O29: the checks of R59 one after another, each failing in its own clause and passed in those after it. -/
theorem startLineIsDecidedInOrder : Obligations.StartLineIsDecidedInOrder := by
  intro s k n bad me cfg ms refused
  have hme : me.toNat = number n := by
    simpa [me] using number_lt n (by omega)
  refine ⟨fun taken noLine => ?badObject, fun taken => ⟨fun notOff => ?state, fun off =>
    ⟨fun watch => ?watch, fun day => ⟨fun r cause => ?cause, fun free =>
      ⟨fun c damper shut lower => ?damper, fun held =>
        ⟨fun z trip fire lower => ?zone, fun clear => ?accepted⟩⟩⟩⟩⟩⟩
  case badObject =>
    exact exec_startLine_refused rfl taken (by omega) (State.startReq_noLine _ noLine)
  case state =>
    have answered := exec_startLine_refused hme taken (BitVec.isLt _) (State.startReq_notOff (s.withLink k) notOff)
    rwa [BitVec.ofNat_toNat, BitVec.setWidth_eq] at answered
  case watch =>
    exact exec_startLine_refused hme taken (by omega) (State.startReq_watch _ off watch)
  case cause =>
    have small : r.level.rank < 256 := by cases r.level <;> decide
    exact exec_startLine_refused hme taken small (State.startReq_caused (s.withLink k) off day cause)
  case damper =>
    have first : (s.withLink k).damperNotHeld n = some c :=
      State.damperNotHeld_eq_some_iff.mpr ⟨⟨damper, shut⟩, lower⟩
    exact exec_startLine_refused hme taken (number_lt c (by omega))
      (State.startReq_damper (s.withLink k) off day free first)
  case zone =>
    have allHeld : (s.withLink k).damperNotHeld n = none := State.damperNotHeld_eq_none_iff.mpr held
    have first : (s.withLink k).tripAtFire n = some z := State.tripAtFire_eq_some_iff.mpr ⟨⟨trip, fire⟩, lower⟩
    exact exec_startLine_refused hme taken (number_lt z (by omega))
      (State.startReq_trip (s.withLink k) off day free allHeld first)
  case accepted =>
    have allHeld : (s.withLink k).damperNotHeld n = none := State.damperNotHeld_eq_none_iff.mpr held
    have noFire : (s.withLink k).tripAtFire n = none := State.tripAtFire_eq_none_iff.mpr clear
    have answer := State.startReq_accepted (s.withLink k) off day free allHeld noFire
    rw [exec_startLine_claimed hme taken, answer]
    rfl

end Sys2Proof.Machine
end

