-- ==== Sys2Proof/Proofs/Faults.lean ====
section
/-! The fault sets and the FAULT output (R96, R97): what a set reads after it is put, when any object holds a fault, what
a fault change leaves, and from these the statement about a fault raised or cleared. -/

namespace Sys2Proof.Machine

/-! ### The fault table -/

/-- Only detectors, lines, stations, closures and the store have a fault set of their own (section 5.6). -/
def Obj.hasFaultSet : Obj → Prop
  | .fireInput _ | .zone _ | .sector _ => False
  | .detector _ | .line _ | .station _ | .closure _ | .store => True

theorem Obj.hasFaultSet_of_ne {o : Obj} (noInput : ∀ x, o ≠ .fireInput x) (noZone : ∀ x, o ≠ .zone x)
    (noSector : ∀ x, o ≠ .sector x) : o.hasFaultSet := by
  cases o with
  | fireInput x => exact noInput x rfl
  | zone x => exact noZone x rfl
  | sector x => exact noSector x rfl
  | _ => trivial

theorem FaultTable.get_put_self {t : FaultTable} {o : Obj} {set : FaultSet} (owner : o.hasFaultSet) :
    (t.put o set).get o = set := by
  cases o with
  | fireInput | zone | sector => exact owner.elim
  | store => rfl
  | _ => exact Vector.getElem_set_self _

/-- A member of a vector is the same after another member is set. -/
theorem getElem_set_of_ne {α : Type} {n : Nat} {v : Vector α n} {i j : Fin n} {x : α} (h : j ≠ i) :
    (v.set i.val x i.isLt)[j.val] = v[j.val] :=
  Vector.getElem_set_ne i.isLt j.isLt (fun same => h (Fin.ext same.symm))

theorem FaultTable.get_put_of_ne {t : FaultTable} {o p : Obj} {set : FaultSet} (other : p ≠ o) :
    (t.put o set).get p = t.get p := by
  cases o with
  | detector d => cases p with
    | detector => exact getElem_set_of_ne (fun same => other (same ▸ rfl))
    | _ => rfl
  | line n => cases p with
    | line => exact getElem_set_of_ne (fun same => other (same ▸ rfl))
    | _ => rfl
  | station n => cases p with
    | station => exact getElem_set_of_ne (fun same => other (same ▸ rfl))
    | _ => rfl
  | closure c => cases p with
    | closure => exact getElem_set_of_ne (fun same => other (same ▸ rfl))
    | _ => rfl
  | store => cases p with
    | store => exact (other rfl).elim
    | _ => rfl
  | fireInput | zone | sector => rfl

/-- Some set of a vector is not empty exactly where one of its objects holds a fault. -/
theorem any_ne_zero_iff {n : Nat} {v : Vector FaultSet n} :
    v.toList.any (· != 0) = true ↔ ∃ i : Fin n, v[i.val] ≠ 0 := by
  simp [Vector.any_eq_true, Fin.exists_iff]

theorem FaultTable.any_iff {t : FaultTable} : t.any = true ↔ ∃ o, t.get o ≠ 0 := by
  simp only [FaultTable.any, Bool.or_eq_true, any_ne_zero_iff, bne_iff_ne]
  constructor
  · rintro ((((⟨d, h⟩ | ⟨n, h⟩) | ⟨n, h⟩) | ⟨c, h⟩) | h)
    · exact ⟨.detector d, h⟩
    · exact ⟨.line n, h⟩
    · exact ⟨.station n, h⟩
    · exact ⟨.closure c, h⟩
    · exact ⟨.store, h⟩
  · rintro ⟨o, h⟩
    cases o with
    | detector d => exact .inl (.inl (.inl (.inl ⟨d, h⟩)))
    | line n => exact .inl (.inl (.inl (.inr ⟨n, h⟩)))
    | station n => exact .inl (.inl (.inr ⟨n, h⟩))
    | closure c => exact .inl (.inr ⟨c, h⟩)
    | store => exact .inr h
    | fireInput | zone | sector => exact (h rfl).elim

/-! ### The FAULT output -/

theorem Entry.active_iff {e : Entry} : e.active = true ↔ e.activated ≠ none := by
  simp [Entry.active, Option.isSome_iff_ne_none]

/-- The FAULT output shows every fault and entry exactly where it stands as ZON would derive it now. -/
theorem State.faultSound_iff {s : State} : s.faultSound ↔ s.faultOutput = s.faultDue := by
  have due : s.faultDue = true ↔ (∃ o, s.faults.get o ≠ 0) ∨ ∃ e ∈ s.dis.entries, e.activated ≠ none := by
    simp only [State.faultDue, Bool.or_eq_true, FaultTable.any_iff, List.any_eq_true, Entry.active_iff]
  rw [Bool.eq_iff_iff, due, State.faultSound]

theorem State.deriveFault_faultSound (s : State) : s.deriveFault.faultSound := State.faultSound_iff.mpr rfl

theorem State.putFault_faultSound (s : State) (o : Obj) (f : FaultCode) (raised : Bool) :
    (s.putFault o f raised).faultSound := State.deriveFault_faultSound _

/-! ### A fault change -/

theorem FaultCode.byteOf_num (f : FaultCode) : byteOf f.num = BitVec.ofNat 8 f.num := by cases f <;> rfl

@[simp] theorem State.putFault_faults (s : State) (o : Obj) (f : FaultCode) (raised : Bool) :
    (s.putFault o f raised).faults = s.faults.put o
      (if raised then addFault (s.faults.get o) f else dropFault (s.faults.get o) f) := by
  simp [State.putFault]

/-- A fault change makes the record of one FAULT event and no other (R96). -/
theorem State.putFault_history (s : State) (o : Obj) (f : FaultCode) (raised : Bool) (q : Queue) :
    (s.putFault o f raised).history =
      (s.objEvent q .fault 0x45 o ⟨BitVec.ofNat 8 f.num, flagByte raised, 0, 0, 0⟩).history := by
  rw [← f.byteOf_num]
  rfl

/-- A fault change makes the report of one FAULT event and no other, on the queue of its kind (R96). -/
theorem State.putFault_link (s : State) (o : Obj) (f : FaultCode) (raised : Bool) :
    (s.putFault o f raised).link = (s.objEvent (faultQueue f raised) .fault 0x45 o
      ⟨BitVec.ofNat 8 f.num, flagByte raised, 0, 0, 0⟩).link := by
  rw [← f.byteOf_num]
  rfl

theorem faultQueue_raised (f : FaultCode) : faultQueue f true = if f = .noWater then .alarm else .notice := by
  simp [faultQueue]

theorem faultQueue_cleared (f : FaultCode) : faultQueue f false = .notice := by
  simp [faultQueue]

/-- Settles O39: a fault not held is put and a held one taken out by the same change of one set. -/
theorem faultsAreKeptRecordedAndShown : Obligations.FaultsAreKeptRecordedAndShown := by
  intro s o f noInput noZone noSector held noted after
  have owner : o.hasFaultSet := Obj.hasFaultSet_of_ne noInput noZone noSector
  have put (raised : Bool) : after (s.putFault o f raised) (noted (faultQueue f raised) (flagByte raised))
      (if raised then addFault (s.faults.get o) f else dropFault (s.faults.get o) f) := by
    refine ⟨?own, fun p other => ?others, ?output, s.putFault_history o f raised _, s.putFault_link o f raised,
      s.putFault_kept o f raised⟩
    case own => rw [State.putFault_faults, FaultTable.get_put_self owner]
    case others => rw [State.putFault_faults, FaultTable.get_put_of_ne other]
    case output =>
      have shown := s.putFault_faultSound o f raised
      rwa [State.faultSound, State.putFault_dis] at shown
  refine ⟨fun (yes : s.holds o f = true) => ⟨if_pos yes, ?clears⟩,
    fun (no : s.holds o f = false) => ⟨if_neg (by simp [no]), ?raises⟩⟩
  case clears =>
    rw [show s.clearFault o f = s.putFault o f false from if_pos yes, ← faultQueue_cleared f]
    exact put false
  case raises =>
    rw [show s.raiseFault o f = s.putFault o f true from if_neg (by simp [no]), ← faultQueue_raised f]
    exact put true

end Sys2Proof.Machine
end

