-- ==== Sys2Proof/Proofs/FaultOutput.lean ====
section
/-! Every operation keeps the FAULT output showing every fault and ACTIVE entry (R97): what leaves the fault sets and the
disablement table alone does, and so do the fault changes and the changes of the table, each of which derives the output
anew. One lemma per operation that touches either, in the order of the model's files; each has the shape of the operation
it is about. -/

namespace Sys2Proof.Machine

variable {s t : State}

/-! ### The shapes operations are made of -/

/-- A piece of the state that the FAULT output does not rest on. -/
def Block.faultFree : Block → Bool
  | .faults | .disablements => false
  | _ => true

/-- A change outside the fault sets and the disablement table. -/
theorem State.faultSound.along {l : List Block} (h : s.faultSound) (kept : KeptBut l s t)
    (free : l.all Block.faultFree = true) : t.faultSound := by
  have outside (b : Block) (touched : b.faultFree = false) : b ∉ l := fun mem => by
    simp [List.all_eq_true.mp free b mem] at touched
  obtain ⟨sets, output⟩ := kept .faults (outside _ rfl)
  have table : t.dis = s.dis := kept .disablements (outside _ rfl)
  rwa [State.faultSound, sets, output, table]

/-- A change of the table that leaves it with an ACTIVE entry exactly if it had one. -/
theorem State.faultSound.withTable (h : s.faultSound) {d : Disablements}
    (same : (∃ e ∈ d.entries, e.activated ≠ none) ↔ ∃ e ∈ s.dis.entries, e.activated ≠ none) :
    { s with dis := d }.faultSound := by
  simp only [State.faultSound, same]
  exact h

theorem State.faultSound.ite {p : Prop} [Decidable p] (yes : s.faultSound) (no : t.faultSound) :
    (if p then s else t).faultSound := by
  split <;> assumption

theorem State.faultSound.each {α : Type} {f : α → State → State}
    (keeps : ∀ a s, s.faultSound → (f a s).faultSound) {l : List α} (h : s.faultSound) :
    (forEach l f s).faultSound := by
  induction l generalizing s with
  | nil => exact h
  | cons a l ih => exact ih (keeps a s h)

theorem State.faultSound.all {k : Nat} {f : Fin k → State → State}
    (keeps : ∀ a s, s.faultSound → (f a s).faultSound) (h : s.faultSound) : (forAll f s).faultSound := h.each keeps

/-! ### Faults and entries -/

theorem State.faultSound.raiseFault {o : Obj} {f : FaultCode} (h : s.faultSound) : (s.raiseFault o f).faultSound :=
  .ite h (s.putFault_faultSound o f true)

theorem State.faultSound.clearFault {o : Obj} {f : FaultCode} (h : s.faultSound) : (s.clearFault o f).faultSound :=
  .ite (s.putFault_faultSound o f false) h

theorem State.faultSound.endActivity {g : Target} (h : s.faultSound) : (s.endActivity g).faultSound := by
  unfold State.endActivity
  split
  · exact h
  · exact .ite h (State.deriveFault_faultSound _)

/-! ### Closures -/

theorem State.faultSound.moveClosure {c : ClosureNo} {st : ClosureState} {d : Direction} {o : ReleaseOrigin}
    {f : Closure → Closure} (h : s.faultSound) : (s.moveClosure c st d o f).faultSound := by
  have moved (x : Closure) (q : Queue) (e : Detail) :
      ((s.setClosure c x).objEvent q .closure 0x46 (.closure c) e).faultSound :=
    (h.along (s.setClosure_kept c x) rfl).along (State.objEvent_kept _ q _ _ _ e) rfl
  have last {u : State} (hu : u.faultSound) (b : Bool) :
      (if b then u.endActivity (.closure c) else u).faultSound := .ite hu.endActivity hu
  exact .ite h (last (.ite (moved _ _ _).raiseFault (.ite (moved _ _ _).clearFault (moved _ _ _))) _)

theorem State.faultSound.startTravel {c : ClosureNo} {o : ReleaseOrigin} (h : s.faultSound) :
    (s.startTravel c o).faultSound := by
  unfold State.startTravel
  exact h.moveClosure

theorem State.faultSound.letGo {c : ClosureNo} {o : ReleaseOrigin} (h : s.faultSound) : (s.letGo c o).faultSound :=
  .ite h.moveClosure h.startTravel

theorem State.faultSound.holdOpen {c : ClosureNo} (h : s.faultSound) : (s.holdOpen c).faultSound := h.moveClosure

theorem State.faultSound.shutClosure {c : ClosureNo} (h : s.faultSound) : (s.shutClosure c).faultSound := h.moveClosure

theorem State.faultSound.makeReady {c : ClosureNo} (h : s.faultSound) : (s.makeReady c).faultSound :=
  .ite h.moveClosure.holdOpen h.moveClosure

theorem State.faultSound.endWait {c : ClosureNo} (h : s.faultSound) : (s.endWait c).faultSound :=
  .ite (.ite h.startTravel.shutClosure h.startTravel) h

theorem State.faultSound.endWaits {n : LineNo} (h : s.faultSound) : (s.endWaits n).faultSound :=
  h.all fun _ _ hu => .ite hu.endWait hu

/-! ### Lines -/

theorem State.faultSound.moveLine {n : LineNo} {st : LineState} {cause : StopCause} {f : Line → Line}
    (h : s.faultSound) : (s.moveLine n st cause f).faultSound := by
  have moved (x : Line) (q : Queue) (e : Detail) :
      ((s.setLine n x).objEvent q .lineState 0x44 (.line n) e).faultSound :=
    (h.along (s.setLine_kept n x) rfl).along (State.objEvent_kept _ q _ _ _ e) rfl
  exact .ite (moved _ _ _).endWaits (moved _ _ _)

theorem State.faultSound.stopDone {n : LineNo} (h : s.faultSound) : (s.stopDone n).faultSound :=
  .ite h.moveLine.raiseFault h.moveLine

theorem State.faultSound.testRundown {n : LineNo} (h : s.faultSound) : (s.testRundown n).faultSound :=
  .ite (.ite h.moveLine h.stopDone) h

theorem State.faultSound.stopLine {n : LineNo} {cause : StopCause} (h : s.faultSound) :
    (s.stopLine n cause).faultSound := by
  unfold State.stopLine
  exact h.moveLine.testRundown

theorem State.faultSound.abortLine {n : LineNo} {cause : StopCause} (h : s.faultSound) :
    (s.abortLine n cause).faultSound := by
  unfold State.abortLine
  exact h.moveLine

theorem State.faultSound.runLine {n : LineNo} (h : s.faultSound) : (s.runLine n).faultSound :=
  .ite h.moveLine.stopLine h.moveLine

theorem State.faultSound.protectLine {n : LineNo} {cause : StopCause} (h : s.faultSound) :
    (s.protectLine n cause).faultSound := by
  unfold State.protectLine
  dsimp only
  split
  case h_1 | h_2 | h_3 => exact h.stopLine
  case h_4 => exact .ite (h.along (s.setLine_kept n _) rfl) h
  case h_5 | h_6 => exact h

theorem State.faultSound.judgeLine {n : LineNo} (h : s.faultSound) : (s.judgeLine n).faultSound :=
  .ite h (.ite (h.along (s.setLine_kept n _) rfl) (h.along (s.setLine_kept n _) rfl).clearFault)

theorem State.faultSound.judgeBlind (h : s.faultSound) : s.judgeBlind.faultSound := h.all fun _ _ hu => hu.judgeLine

/-! ### Releases -/

theorem State.faultSound.demandStop {c : ClosureNo} (h : s.faultSound) : (s.demandStop c).faultSound := by
  unfold State.demandStop
  split
  · exact h
  · exact h.protectLine

theorem State.faultSound.demandIfRunning {c : ClosureNo} (h : s.faultSound) : (s.demandIfRunning c).faultSound := by
  unfold State.demandIfRunning
  split
  · exact h
  · exact .ite h.protectLine h

theorem State.faultSound.releaseClosure {c : ClosureNo} {o : ReleaseOrigin} (h : s.faultSound) :
    (s.releaseClosure c o).faultSound := by
  have noted (x : Closure) : (s.setClosure c x).faultSound := h.along (s.setClosure_kept c x) rfl
  refine .ite ?_ h
  dsimp only
  split
  · exact (noted _).letGo
  · exact .ite (noted _).moveClosure.demandStop (.ite (noted _).letGo.demandIfRunning (noted _).letGo)

theorem State.faultSound.triggerClosure {z : ZoneNo} {c : ClosureNo} (h : s.faultSound) :
    (s.triggerClosure z c).faultSound := .ite h.releaseClosure h

theorem State.faultSound.testZones {c : ClosureNo} (h : s.faultSound) : (s.testZones c).faultSound := by
  unfold State.testZones
  split
  · exact h
  · exact .ite h h.releaseClosure

/-! ### Zones and causes -/

theorem State.faultSound.handClosures {z : ZoneNo} (h : s.faultSound) : (s.handClosures z).faultSound :=
  h.all fun _ _ hu => hu.triggerClosure

theorem State.faultSound.handLines {z : ZoneNo} (h : s.faultSound) : (s.handLines z).faultSound :=
  h.all fun _ _ hu => .ite hu.protectLine hu

/-- The model's counter of free values is no part of what the FAULT output shows. -/
theorem State.faultSound.withFreeCount {k : Nat} (h : s.faultSound) : { s with freeCount := k }.faultSound := h

theorem State.faultSound.tripEarly {z : ZoneNo} {n : LineNo} (h : s.faultSound) : (s.tripEarly z n).faultSound :=
  .ite (.ite h.withFreeCount.protectLine h.withFreeCount) h

theorem State.faultSound.handOn {z : ZoneNo} (h : s.faultSound) : (s.handOn z).faultSound :=
  (h.all fun _ _ hu => hu.tripEarly).handClosures.handLines

theorem State.faultSound.deriveZone {z : ZoneNo} (h : s.faultSound) : (s.deriveZone z).faultSound :=
  .ite h ((((h.along (s.setZone_kept z _) rfl).along (State.objEvent_kept _ _ _ _ _ _) rfl).handOn).along
    (State.showSectors_kept _ z) rfl)

theorem State.faultSound.handSectors {z : ZoneNo} (h : s.faultSound) : (s.handSectors z).faultSound :=
  h.along (s.handSectors_kept z) rfl

theorem State.faultSound.causeChanged {z : ZoneNo} (h : s.faultSound) : (s.causeChanged z).faultSound :=
  h.deriveZone.handSectors

theorem State.faultSound.deriveChanged {before : List Cause} (h : s.faultSound) :
    (s.deriveChanged before).faultSound := h.all fun _ _ hu => .ite hu hu.deriveZone

theorem State.faultSound.raiseThen {after : ZoneNo → State → State}
    (follows : ∀ z s, s.faultSound → (after z s).faultSound) {src : Source} {z : ZoneNo} {l : Level}
    {hold : Option Instant} (h : s.faultSound) : (s.raiseThen after src z l hold).faultSound := by
  have put (m : List Cause) : { s with causes := m }.faultSound := h.along (s.putCauses_kept m) rfl
  have changed (m : List Cause) (r : Cause) (a b : Option Level) (y : ZoneNo) :=
    follows y _ ((put m).along (State.causeEvent_kept _ r a b) rfl)
  unfold State.raiseThen
  split
  · exact changed _ _ _ _ _
  · exact .ite (changed _ _ _ _ _) (put _)

theorem State.faultSound.raiseCause {src : Source} {z : ZoneNo} {l : Level} {hold : Option Instant}
    (h : s.faultSound) : (s.raiseCause src z l hold).faultSound := h.raiseThen fun _ _ hu => hu.causeChanged

theorem State.faultSound.putCause {src : Source} {z : ZoneNo} {l : Level} {hold : Option Instant}
    (h : s.faultSound) : (s.putCause src z l hold).faultSound := h.raiseThen fun _ _ hu => hu.handSectors

theorem State.faultSound.dropCause {src : Source} (h : s.faultSound) : (s.dropCause src).faultSound :=
  h.along (s.dropCause_kept src) rfl

theorem State.faultSound.removeCause {src : Source} (h : s.faultSound) : (s.removeCause src).faultSound := by
  unfold State.removeCause
  split
  · exact h
  · exact h.dropCause.causeChanged

theorem State.faultSound.removeUnlatched {src : Source} (h : s.faultSound) : (s.removeUnlatched src).faultSound := by
  unfold State.removeUnlatched
  split
  · exact h
  · exact .ite h h.removeCause

/-! ### Stations and line counters -/

theorem State.faultSound.endWindow {n : LineNo} (h : s.faultSound) : (s.endWindow n).faultSound := by
  have put (x : Station) : (s.setStation n x).faultSound := h.along (s.setStation_kept n x) rfl
  have last {u : State} (hu : u.faultSound) (b : Bool) :
      (if b then u.endActivity (.station n) else u).faultSound := .ite hu.endActivity hu
  unfold State.endWindow
  dsimp only
  split
  · exact h
  · refine last ?_ _
    split
    · exact (put _).along (State.record_kept _ _ _ _ _) rfl
    · exact put _

theorem State.faultSound.noWater {n : LineNo} (h : s.faultSound) : (s.noWater n).faultSound := by
  have raised (x : Station) : ((s.setStation n x).raiseFault (.station n) .noWater).faultSound :=
    (h.along (s.setStation_kept n x) rfl).raiseFault
  unfold State.noWater
  dsimp only
  split
  · exact .ite (raised _).abortLine (raised _)
  · exact (State.faultSound.ite (raised _).abortLine (raised _)).raiseCause

theorem State.faultSound.raiseLineCause {n : LineNo} {l : Level} (h : s.faultSound) :
    (s.raiseLineCause n l).faultSound := by
  unfold State.raiseLineCause
  split
  · exact h
  · exact h.putCause

theorem State.faultSound.restartCount {n : LineNo} (h : s.faultSound) : (s.restartCount n).faultSound :=
  h.along (s.restartCount_kept n) rfl

theorem State.faultSound.escalate {n : LineNo} {k : Nat} {d : DetNo} (h : s.faultSound) :
    (s.escalate n k d).faultSound := by
  have noted (a b : Byte) (e : Detail) : ((s.restartCount n).record .escalation a b e).faultSound :=
    h.restartCount.along (State.record_kept _ _ _ _ _) rfl
  unfold State.escalate
  generalize (s.restartCount n).line n = x
  dsimp only
  split
  case h_1 | h_2 => exact (noted _ _ _).abortLine.raiseLineCause
  case h_3 => exact (noted _ _ _).stopLine.raiseLineCause
  case h_4 =>
    exact (State.faultSound.ite ((noted _ _ _).along (State.setLine_kept _ n _) rfl) (noted _ _ _)).raiseLineCause
  case h_5 | h_6 => exact (noted _ _ _).raiseLineCause

theorem State.faultSound.countSpark {n : LineNo} {w : Nat} {d : DetNo} (h : s.faultSound) :
    (s.countSpark n w d).faultSound := .ite h.escalate (h.along (s.setLine_kept n _) rfl)

theorem State.faultSound.gateAtLine {n : LineNo} (h : s.faultSound) : (s.gateAtLine n).faultSound := by
  unfold State.gateAtLine
  split
  · exact .ite h.runLine h
  · exact .ite h.raiseFault.stopLine h
  · exact h.testRundown
  all_goals exact h

/-! ### Detector channels -/

theorem State.faultSound.setDet {d : DetNo} {x : Detector} (h : s.faultSound) : (s.setDet d x).faultSound :=
  h.along (s.setDet_kept d x) rfl

theorem State.faultSound.raiseDet {d : DetNo} {f : FaultCode} (h : s.faultSound) : (s.raiseDet d f).faultSound :=
  .ite h (h.raiseFault.along (State.dropCandidate_kept _ d _) rfl)

theorem State.faultSound.applyLevel {d : DetNo} {l : Fin 16} (h : s.faultSound) : (s.applyLevel d l).faultSound :=
  .ite h.setDet.raiseDet.clearFault (.ite h.setDet.raiseDet.clearFault
    (.ite h.setDet.clearFault.clearFault (.ite h.setDet.clearFault h.setDet)))

theorem State.faultSound.turnOff {d : DetNo} (h : s.faultSound) : (s.turnOff d).faultSound :=
  h.setDet.clearFault.clearFault

theorem State.faultSound.takeMode {d : DetNo} {m : Supervision} (h : s.faultSound) :
    (s.takeMode d m).faultSound := by
  unfold State.takeMode
  refine .ite h.setDet ?_
  split
  · exact h.turnOff
  · exact .ite (h.setDet.along (State.startSample_kept _ d) rfl) h.setDet

theorem State.faultSound.takeWaitingMode {d : DetNo} (h : s.faultSound) : (s.takeWaitingMode d).faultSound := by
  unfold State.takeWaitingMode
  split
  · exact h
  · exact h.turnOff
  · exact h.setDet

theorem State.faultSound.deriveMode {d : DetNo} (h : s.faultSound) : (s.deriveMode d).faultSound :=
  .ite h.setDet h.takeMode

theorem State.faultSound.beginGlare {d : DetNo} (h : s.faultSound) : (s.beginGlare d).faultSound := h.setDet.raiseDet

theorem State.faultSound.endGlare {d : DetNo} (h : s.faultSound) : (s.endGlare d).faultSound := h.setDet.clearFault

theorem State.faultSound.countAt {d : DetNo} {w : Nat} (h : s.faultSound) : (s.countAt d w).faultSound := by
  unfold State.countAt
  split
  · exact h
  · exact h.countSpark

theorem State.faultSound.sparkCause {d : DetNo} (h : s.faultSound) : (s.sparkCause d).faultSound := by
  unfold State.sparkCause
  split
  · exact h
  · exact h.putCause

theorem State.faultSound.deliver {d : DetNo} {e : Bool} {w : Nat} {c : Bool} (h : s.faultSound) :
    (s.deliver d e w c).faultSound :=
  (((h.along (s.offerSpark_kept d) rfl).setDet.along (State.record_kept _ _ _ _ _) rfl).along
    (State.report_kept _ _ _) rfl).countAt.sparkCause.deriveChanged

theorem State.faultSound.watchPulse {d : DetNo} {e : Bool} {w : Nat} (h : s.faultSound) :
    (s.watchPulse d e w).faultSound := by
  unfold State.watchPulse
  dsimp only
  split
  · exact h.setDet
  · exact .ite h.setDet.deliver (h.along (s.dropCandidate_kept d 1) rfl).setDet

theorem State.faultSound.qualified {d : DetNo} {e : Bool} (h : s.faultSound) : (s.qualified d e).faultSound := by
  unfold State.qualified
  dsimp only
  split
  · exact h.deliver
  · exact h.watchPulse

/-! ### Fire inputs and shift modes -/

theorem State.faultSound.inputChanged {f : InputNo} {x : FireInput} {p : Debounce} (h : s.faultSound) :
    ((s.setInput f x).inputRecord f p).faultSound :=
  (h.along (s.setInput_kept f x) rfl).along (State.record_kept _ _ _ _ _) rfl

theorem State.faultSound.inputOn {f : InputNo} (h : s.faultSound) : (s.inputOn f).faultSound := by
  unfold State.inputOn
  refine .ite h.inputChanged ?_
  split
  · exact h.inputChanged
  · exact h.inputChanged.raiseCause

theorem State.faultSound.inputOff {f : InputNo} (h : s.faultSound) : (s.inputOff f).faultSound :=
  h.inputChanged.removeUnlatched

theorem State.faultSound.resetZoneReq {num : Nat} (h : s.faultSound) : (s.resetZoneReq num).1.faultSound := by
  unfold State.resetZoneReq
  split
  · exact h
  · exact (h.each fun _ _ hu => hu.dropCause.handSectors).deriveZone

/-- The detectors and lines after a change of shift mode, before the meters and candidates are taken up. -/
theorem State.faultSound.shiftPut {m : Shift} (h : s.faultSound) :
    (forAll State.deriveMode (s.putShift m)).judgeBlind.faultSound := by
  have put : (s.putShift m).faultSound :=
    State.faultSound.along (s := { s with shift := m }) h (State.event_kept _ _ _ _ _ _ _) rfl
  exact (put.all fun _ _ hu => hu.deriveMode).judgeBlind

theorem State.faultSound.setMeters {f : LineNo → State → Meter} (h : s.faultSound) :
    (forAll (fun n s => s.setMeter n (f n s)) s).faultSound :=
  h.all fun n u hu => hu.along (u.setMeter_kept n _) rfl

theorem State.faultSound.toWatch (h : s.faultSound) : s.toWatch.faultSound := h.shiftPut.setMeters

theorem State.faultSound.toDay (h : s.faultSound) : s.toDay.faultSound :=
  (h.shiftPut.all fun d u hu => hu.along (u.dropCandidate_kept d 4) rfl).setMeters

theorem State.faultSound.setShiftReq {mode : Nat} (h : s.faultSound) : (s.setShiftReq mode).1.faultSound := by
  unfold State.setShiftReq
  split
  case h_2 => exact h.toDay
  case h_4 =>
    split
    · exact h
    · exact h.toWatch
  all_goals exact h

end Sys2Proof.Machine
end

