-- ==== Sys2Proof/Proofs/FaultOutputSteps.lean ====
section
/-! Every command keeps the FAULT output showing every fault and ACTIVE entry (R97): the settings, the disablement table,
the resets, then the outcomes of commands and requests, and from these the statement about every step. -/

namespace Sys2Proof.Machine

variable {s t : State}

/-! ### Answers -/

/-- The answer of a request that makes a check: a refusal, or what follows the check passed. -/
theorem State.faultSound.iteAnswer {p : Prop} [Decidable p] {a b : State × Answer} (yes : a.1.faultSound)
    (no : b.1.faultSound) : (if p then a else b).1.faultSound := by
  split <;> assumption

/-! ### Closures' events and requests -/

theorem State.faultSound.closedReached {c : ClosureNo} (h : s.faultSound) : (s.closedReached c).faultSound := by
  unfold State.closedReached
  split
  · split
    · exact h.makeReady
    · exact h.shutClosure.demandIfRunning
  · exact h.shutClosure
  · exact h.shutClosure
  · exact h.clearFault
  · exact .ite h.shutClosure h
  · exact h

theorem State.faultSound.openReached {c : ClosureNo} (h : s.faultSound) : (s.openReached c).faultSound := by
  unfold State.openReached
  split
  · exact h.holdOpen
  · exact h.raiseFault
  · exact .ite h.holdOpen h
  all_goals exact h

theorem State.faultSound.releaseReq {num : Nat} (h : s.faultSound) : (s.releaseReq num).1.faultSound := by
  unfold State.releaseReq
  split
  · exact h
  · exact .iteAnswer h h.releaseClosure

theorem State.faultSound.reopen {c : ClosureNo} (h : s.faultSound) : (s.reopen c).faultSound := by
  have cleared : (forEach closureFaults (fun f s => s.clearFault (.closure c) f) s).faultSound :=
    h.each fun _ _ hu => hu.clearFault
  exact (cleared.along (State.setClosure_kept _ c _) rfl).makeReady

theorem State.faultSound.resetClosureReq {num : Nat} (h : s.faultSound) : (s.resetClosureReq num).1.faultSound := by
  unfold State.resetClosureReq
  split
  · exact h
  · refine .iteAnswer h ?_
    split
    · exact h
    · exact h.reopen

/-! ### Lines' and stations' requests -/

theorem State.faultSound.startReq {num : Nat} (h : s.faultSound) : (s.startReq num).1.faultSound := by
  unfold State.startReq
  split
  · exact h
  · refine .iteAnswer h (.iteAnswer h ?_)
    split
    case h_4 => exact h.moveLine
    all_goals exact h

theorem State.faultSound.stopReq {num : Nat} (h : s.faultSound) : (s.stopReq num).1.faultSound := by
  unfold State.stopReq
  split
  · exact h
  · split
    case h_2 | h_3 => exact h.stopLine
    all_goals exact h

theorem State.faultSound.clearLine {n : LineNo} (h : s.faultSound) : (s.clearLine n).faultSound := by
  have off (p : Prop) [Decidable p] (x : Line) (f : Line → Line) :
      (if p then s.setLine n x else s.moveLine n .off .none f).faultSound :=
    .ite (h.along (s.setLine_kept n x) rfl) h.moveLine
  exact ((off _ _ _).removeCause.each fun _ _ hu => hu.clearFault).restartCount

theorem State.faultSound.resetLineReq {num : Nat} (h : s.faultSound) : (s.resetLineReq num).1.faultSound := by
  unfold State.resetLineReq
  split
  · exact h
  · refine .iteAnswer h (.iteAnswer h ?_)
    split
    · exact h
    · exact h.clearLine

theorem State.faultSound.resetStationReq {num : Nat} (h : s.faultSound) : (s.resetStationReq num).1.faultSound := by
  unfold State.resetStationReq
  split
  · exact h
  · exact .iteAnswer h h.clearFault.removeCause

theorem State.faultSound.floodReq {num seconds : Nat} (h : s.faultSound) : (s.floodReq num seconds).1.faultSound := by
  unfold State.floodReq
  split
  · exact h
  · exact .iteAnswer h ((h.along (s.offerWindow_kept _ _) rfl).along (State.record_kept _ _ _ _ _) rfl)

/-! ### Sectors' requests -/

theorem State.faultSound.nextPhase {n : SectorNo} (h : s.faultSound) : (s.nextPhase n).faultSound := by
  unfold State.nextPhase
  split
  · exact h
  · split
    · exact h.along (s.endCycle_kept n) rfl
    · exact (h.along (s.setSector_kept n _) rfl).along (State.refreshSiren_kept _ n) rfl

theorem State.faultSound.silenceReq {num : Nat} (h : s.faultSound) : (s.silenceReq num).1.faultSound := by
  unfold State.silenceReq
  split
  · exact h
  · exact .iteAnswer h (.iteAnswer h ((h.along (s.putCauses_kept _) rfl).along (State.stopSector_kept _ _ _) rfl))

theorem State.faultSound.testReq {num pattern seconds : Nat} (h : s.faultSound) :
    (s.testReq num pattern seconds).1.faultSound := by
  unfold State.testReq
  split
  · exact .iteAnswer h (.iteAnswer h (((h.along (s.setSector_kept _ _) rfl).along
      (State.startCycle_kept _ _) rfl).along (State.noteSector_kept _ _ _) rfl))
  · exact h

/-! ### Requests that change neither faults nor entries -/

theorem State.faultSound.readObjectReq {kind num : Nat} (h : s.faultSound) :
    (s.readObjectReq kind num).1.faultSound := by
  unfold State.readObjectReq
  split <;> exact h

theorem State.faultSound.readCausesReq {zone first count : Nat} (h : s.faultSound) :
    (s.readCausesReq zone first count).1.faultSound := by
  unfold State.readCausesReq
  split <;> exact h

theorem State.faultSound.readReq {sec index field : Nat} (h : s.faultSound) :
    (s.readReq sec index field).1.faultSound := by
  unfold State.readReq
  split <;> exact h

/-! ### The settings store -/

theorem State.faultSound.withStore {x : Store} (h : s.faultSound) : { s with store := x }.faultSound := h

theorem State.faultSound.handSetting {name : SettingName} (h : s.faultSound) : (s.handSetting name).faultSound := by
  cases name with
  | detector d f =>
    unfold State.handSetting
    dsimp only
    split
    · exact h.judgeBlind
    · exact .ite h.beginGlare.judgeBlind h
    · exact .ite h.endGlare.judgeBlind h
    · exact h.deriveMode.judgeBlind
    · exact h
  | line n f => exact .ite h.restartCount h
  | closure c f => exact .ite h.testZones h
  | sector n f =>
    unfold State.handSetting
    dsimp only
    split
    · exact h.along (s.sectorZonesWritten_kept n) rfl
    · exact h.along (s.sectorPatternWritten_kept n _) rfl
    · exact h.along (s.sectorPatternWritten_kept n _) rfl
    · exact h
  | pattern p f => exact h.along (s.patternWritten_kept p) rfl
  | input | general => exact h

theorem State.faultSound.writeReq {sec index field v : Nat} (h : s.faultSound) :
    (s.writeReq sec index field v).1.faultSound := by
  have written (x : Settings) (k : StoreSection) (y : SectionFlags) (a b : Byte) (e : Detail) :
      (((s.setLive x).setFlags k y).record .setting a b e).faultSound :=
    (h.withStore.along (State.setFlags_kept _ k y) rfl).along (State.record_kept _ _ _ _ _) rfl
  unfold State.writeReq
  split
  · exact h
  · exact .iteAnswer h (.iteAnswer h (.iteAnswer h (written _ _ _ _ _ _).handSetting))

theorem State.faultSound.opStart {op : StoreOp} (h : s.faultSound) : (s.opStart op).faultSound :=
  h.along (State.record_kept _ _ _ _ _) rfl

theorem State.faultSound.beginSection {op : StoreOp} {k : StoreSection} {rest written failed : List StoreSection}
    (h : s.faultSound) : (s.beginSection op k rest written failed).faultSound :=
  (h.along (s.setMark_kept k _) rfl).withStore

theorem State.faultSound.saveReq (h : s.faultSound) : s.saveReq.1.faultSound :=
  .iteAnswer h h.opStart.beginSection

theorem State.faultSound.lockReq {sec : Nat} (h : s.faultSound) : (s.lockReq sec).1.faultSound := by
  unfold State.lockReq
  split
  · exact h
  · exact .iteAnswer h (.iteAnswer h (h.along (s.setFlags_kept _ _) rfl).opStart.beginSection)

theorem State.faultSound.restoreSection {k : StoreSection} (h : s.faultSound) : (s.restoreSection k).faultSound := by
  have restored (x : Settings) (y : SectionFlags) : ((s.setLive x).setFlags k y).faultSound :=
    h.withStore.along (State.setFlags_kept _ k y) rfl
  exact (restored _ _).each fun _ _ hu => hu.each fun _ _ hv => hv.handSetting

theorem State.faultSound.defaultsReq {sec : Nat} (h : s.faultSound) : (s.defaultsReq sec).1.faultSound := by
  unfold State.defaultsReq
  split
  · exact h
  · refine .iteAnswer h (.iteAnswer h ?_)
    split
    · exact h
    · exact h.restoreSection.opStart.beginSection

theorem State.faultSound.deriveStoreFaults (h : s.faultSound) : s.deriveStoreFaults.faultSound := by
  have saved (p : Prop) [Decidable p] :
      (if p then s.raiseFault .store .saveFailed else s.clearFault .store .saveFailed).faultSound :=
    .ite h.raiseFault h.clearFault
  exact .ite (saved _).raiseFault (saved _).clearFault

theorem State.faultSound.takeResult {k : StoreSection} {good : Bool} (h : s.faultSound) :
    (s.takeResult k good).faultSound :=
  ((h.along (s.setMark_kept k _) rfl).along (State.setFlags_kept _ k _) rfl).deriveStoreFaults

theorem State.faultSound.endSection {good : Bool} (h : s.faultSound) : (s.endSection good).faultSound := by
  unfold State.endSection
  split
  · exact h
  · dsimp only
    split
    · exact h.takeResult.withStore.along (State.objEvent_kept _ _ _ _ _ _) rfl
    · exact h.takeResult.beginSection

/-! ### The disablement table -/

theorem State.faultSound.disEvent {a : DisAction} {g : Option Target} {e : Byte} {m : Nat} {r : Byte}
    (h : s.faultSound) : (s.disEvent a g e m r).faultSound := h.along (s.disEvent_kept a g e m r) rfl

/-- The outstanding prepare and the latch are no part of what the FAULT output shows. -/
theorem State.faultSound.withPlan {p : Option Prepare} {latch : Bool} (h : s.faultSound) :
    { s with dis := ⟨s.dis.entries, p, latch⟩ }.faultSound := h

theorem State.faultSound.entryActive {g : Target} (h : s.faultSound) : (s.entryActive g).faultSound := by
  cases g with
  | detector d => exact (h.along (s.dropCandidate_kept d 3) rfl).removeCause.judgeBlind
  | fireInput f => exact h.removeUnlatched
  | sector n => exact h.along (s.refreshSiren_kept n) rfl
  | station | closure => exact h

theorem State.faultSound.entryRemoved {g : Target} (h : s.faultSound) : (s.entryRemoved g).faultSound := by
  cases g with
  | detector d => exact h.judgeBlind
  | fireInput f => exact h.along (s.setInput_kept f _) rfl
  | sector n => exact h.along (s.refreshSiren_kept n) rfl
  | closure c => exact h.testZones
  | station => exact h

/-- In a table with one entry per target, the entries left when a PENDING one goes are ACTIVE as before. -/
theorem exists_active_of_removed {l : List Entry} {g : Target} {e : Entry} (single : (l.map (·.target)).Nodup)
    (found : l.find? (fun x => x.target = g) = some e) (pending : e.activated = none) :
    (∃ x ∈ l.filter (fun x => x.target ≠ g), x.activated ≠ none) ↔ ∃ x ∈ l, x.activated ≠ none := by
  have named : e.target = g := by simpa using List.find?_some found
  constructor
  · rintro ⟨x, mem, active⟩
    exact ⟨x, List.mem_of_mem_filter mem, active⟩
  · rintro ⟨x, mem, active⟩
    refine ⟨x, List.mem_filter.mpr ⟨mem, decide_eq_true fun same => active ?_⟩, active⟩
    rw [List.inj_on_of_nodup_map single mem (List.mem_of_find?_eq_some found) (same.trans named.symm), pending]

theorem State.faultSound.removeEntry {g : Target} {r : Byte} (h : s.faultSound)
    (single : (s.dis.entries.map (·.target)).Nodup) : (s.removeEntry g r).faultSound := by
  unfold State.removeEntry
  split
  · exact h
  · next e found =>
    dsimp only
    split
    · exact (State.deriveFault_faultSound _).entryRemoved
    · next pending =>
      have none : e.activated = none := by simpa [Entry.active] using pending
      exact (h.withTable (exists_active_of_removed single found none)).disEvent

theorem State.faultSound.discardPrepare {r : Byte} (h : s.faultSound) : (s.discardPrepare r).faultSound := by
  unfold State.discardPrepare
  split
  · exact h
  · exact h.withPlan.disEvent

theorem State.faultSound.sequenceError {g : Target} {detail : Nat} (h : s.faultSound) :
    (s.sequenceError g detail).1.faultSound := h.withPlan.disEvent

theorem State.faultSound.prepareReq {kind num limit : Nat} (h : s.faultSound) :
    (s.prepareReq kind num limit).1.faultSound := by
  unfold State.prepareReq
  split
  · exact h
  · exact .iteAnswer h (.iteAnswer h (.iteAnswer h.sequenceError (.iteAnswer h (.iteAnswer h h.withPlan.disEvent))))

theorem State.faultSound.createEntry {p : Prepare} (h : s.faultSound) : (s.createEntry p).1.faultSound := by
  unfold State.createEntry
  dsimp only
  split
  · exact (State.deriveFault_faultSound _).entryActive
  · next pending =>
    have none : (s.newEntry p).activated = none := by simpa [Entry.active] using pending
    exact (h.withTable (by simp [none])).disEvent

theorem State.faultSound.confirmReq {kind num : Nat} (h : s.faultSound) : (s.confirmReq kind num).1.faultSound := by
  unfold State.confirmReq
  split
  · exact h
  · refine .iteAnswer h (.iteAnswer h ?_)
    split
    · exact h.sequenceError
    · exact .iteAnswer h.createEntry h.sequenceError

theorem State.faultSound.enableReq {kind num : Nat} (h : s.faultSound)
    (single : (s.dis.entries.map (·.target)).Nodup) : (s.enableReq kind num).1.faultSound := by
  unfold State.enableReq
  split
  · exact h
  · exact h.removeEntry single

theorem State.faultSound.clearLatchReq (h : s.faultSound) : s.clearLatchReq.1.faultSound :=
  .iteAnswer h (.iteAnswer h.withPlan.disEvent h)

/-! ### Resets -/

theorem State.startBlind_kept (n : LineNo) (s : State) : KeptBut [.lines] s (s.startBlind n) :=
  .ite (s.setLine_kept n _) (.refl _ s)

/-- A reset starts every block without a fault or an entry, and the output off (R101, R151). -/
theorem State.startBlocks_faultSound (restart : Bool) (s : State) : (s.startBlocks restart).faultSound := by
  unfold State.startBlocks
  refine State.faultSound.all (fun n u hu => hu.along (u.startBlind_kept n) rfl) (State.faultSound_iff.mpr ?_)
  change false = (FaultTable.empty.any || ([] : List Entry).any Entry.active)
  decide

theorem State.faultSound.announce {kind : Byte} {source : StartSource} (h : s.faultSound) :
    (s.announce kind source).faultSound := (h.along (State.event_kept _ _ _ _ _ _ _) rfl).deriveStoreFaults

theorem State.powerOn_faultSound (s : State) : s.powerOn.faultSound :=
  (State.startBlocks_faultSound false _).announce

theorem State.faultSound.testShut {c : ClosureNo} (h : s.faultSound) : (s.testShut c).faultSound :=
  .ite h.raiseFault h

theorem State.faultSound.reenter {before : State} {n : LineNo} (h : s.faultSound) :
    (before.reenter n s).faultSound := by
  unfold State.reenter
  split
  · exact h.raiseLineCause
  · exact h

theorem State.restart_faultSound (source : StartSource) (s : State) : (s.restart source).faultSound :=
  (((State.startBlocks_faultSound true s).announce.all fun _ _ hu => hu.testShut).all
    fun _ _ hu => hu.reenter).deriveChanged

/-! ### Outcomes -/

/-- Whatever state an outcome goes on to, its FAULT output shows every fault. -/
def FaultShown (o : Out) : Prop := ∀ t, o = .next t → t.faultSound

theorem State.faultSound.withLink {k : Link} (h : s.faultSound) : (s.withLink k).faultSound := h

theorem FaultShown.of_done (h : s.faultSound) : FaultShown (done s) := by
  rintro t ⟨⟩
  exact h.along s.settle_kept rfl

theorem FaultShown.ite {p : Prop} [Decidable p] {o o' : Out} (yes : FaultShown o) (no : FaultShown o') :
    FaultShown (if p then o else o') := by
  split <;> assumption

theorem FaultShown.of_take {e : Inbound} {answer : State → State × Frame} (h : s.faultSound)
    (keeps : ∀ k, (answer (s.withLink k)).1.faultSound) : FaultShown (take e answer s) := by
  unfold take
  split
  · exact .of_done h.withLink
  · next k _ => exact .of_done (keeps k).withLink

/-- A change of a station alone, either of two. -/
theorem FaultShown.of_setStation {p : Prop} [Decidable p] {n : LineNo} {x y : Station} (h : s.faultSound) :
    FaultShown (if p then done (s.setStation n x) else done (s.setStation n y)) :=
  .ite (.of_done (h.along (s.setStation_kept n x) rfl)) (.of_done (h.along (s.setStation_kept n y) rfl))

/-- An entry of the buffer that is taken only to be refused. -/
theorem FaultShown.of_refused {e : Inbound} {f : Frame} (h : s.faultSound) :
    FaultShown (take e (fun u => (u, f)) s) := .of_take h fun _ => h.withLink

/-- A request whose owner keeps the output, whatever the link is once the request is taken. -/
theorem FaultShown.of_request {kind : Byte} {p : Payload} {owner : State → State × Answer} (h : s.faultSound)
    (keeps : ∀ k, (owner (s.withLink k)).1.faultSound) : FaultShown (request kind p owner s) := by
  refine .of_take h fun k => ?_
  dsimp only
  split
  · exact keeps k
  · exact h.withLink

/-! ### Events -/

theorem execGateTimerExpired_faultShown (n : LineNo) (h : s.faultSound) : FaultShown (execGateTimerExpired n s) := by
  have raised (x : Line) : ((s.setLine n x).raiseFault (.line n) .gate).faultSound :=
    (h.along (s.setLine_kept n x) rfl).raiseFault
  exact .ite (.ite (.of_done (raised _).stopLine) (.of_done (raised _))) (.of_done h)

theorem execBlindTimerExpired_faultShown (n : LineNo) (h : s.faultSound) :
    FaultShown (execBlindTimerExpired n s) := by
  have raised (x : Line) : ((s.setLine n x).raiseFault (.line n) .blind).faultSound :=
    (h.along (s.setLine_kept n x) rfl).raiseFault
  exact .ite (.ite (.of_done (raised _).stopLine) (.of_done (raised _))) (.of_done h)

theorem execFstopActive_faultShown (n : LineNo) (active : Bool) (h : s.faultSound) :
    FaultShown (execFstopActive n active s) := by
  have put (x : Line) : (s.setLine n x).faultSound := h.along (s.setLine_kept n x) rfl
  exact .ite (.of_done (put _).testRundown.endWaits) (.of_done (put _))

theorem execPulseTrailingEdge_faultShown (d : DetNo) (h : s.faultSound) :
    FaultShown (execPulseTrailingEdge d s) := by
  have ended (cls : PulseClass) : (s.endPulse d cls).faultSound := h.setDet
  refine .ite ?_ (.of_done h)
  dsimp only
  split
  · exact .ite (.of_done (ended _).qualified) (.of_done (ended _))
  · exact .ite (.of_done (ended _).qualified) (.of_done (ended _))
  all_goals exact .of_done (ended _)

theorem execDebounceTimerExpired_faultShown (f : InputNo) (h : s.faultSound) :
    FaultShown (execDebounceTimerExpired f s) := by
  refine .ite ?_ (.of_done h)
  split
  · exact .of_done h.inputOn
  · exact .of_done h.inputOff
  all_goals exact .of_done h

theorem execClosureLimitChange_faultShown (c : ClosureNo) (l : Limit) (active : Bool) (h : s.faultSound) :
    FaultShown (execClosureLimitChange c l active s) := by
  have put (x : Closure) : (s.setClosure c x).faultSound := h.along (s.setClosure_kept c x) rfl
  refine .ite (.of_done (put _)) ?_
  split
  · exact .of_done (put _).closedReached
  · exact .of_done (put _).openReached
  · exact .of_done (put _)

theorem execTravelTimerExpired_faultShown (c : ClosureNo) (h : s.faultSound) :
    FaultShown (execTravelTimerExpired c s) := by
  refine .ite ?_ (.of_done h)
  split
  · exact .of_done h.moveClosure
  · exact .of_done h.moveClosure
  all_goals exact .of_done h

theorem execServiceChange_faultShown (active : Bool) (h : s.faultSound) :
    FaultShown (execServiceChange active s) := by
  have put : { s with service := active }.faultSound := h
  exact .ite (.of_done put) (.of_done put.discardPrepare)

/-! ### Every command and every step -/

/-- Every command keeps the FAULT output right; the removal of an entry needs the table to hold no other entry of its
target. -/
theorem exec_faultShown (c : Instr) (h : s.faultSound) (single : (s.dis.entries.map (·.target)).Nodup) :
    FaultShown (exec c s) := by
  cases c with
  | powerOnReset => exact .of_done s.powerOn_faultSound
  | resetInput => exact .of_done (s.restart_faultSound _)
  | serviceChange active => exact execServiceChange_faultShown active h
  | inboundFrameComplete => exact .of_done h.withLink
  | hostHold => exact .of_done h.withLink
  | hostGo => exact .of_done h.withLink
  | interByteGapTimeout => exact .ite (.of_done h.withLink) (.of_done h)
  | frameError => exact .of_refused h
  | unknownKind => exact .ite (.of_done h.withLink) (.of_refused h)
  | transmitFrameEnd =>
    exact .ite (.ite (.of_done (s.restart_faultSound _)) (.of_done h.withLink)) (.of_done h)
  | ident => exact .of_request h fun _ => h.withLink
  | status => exact .of_request h fun _ => h.withLink
  | readObject => exact .of_request h fun _ => h.withLink.readObjectReq
  | restart => exact .of_request h fun _ => h.withLink
  | startLine => exact .of_request h fun _ => h.withLink.startReq
  | stopLine => exact .of_request h fun _ => h.withLink.stopReq
  | resetLine => exact .of_request h fun _ => h.withLink.resetLineReq
  | resetStation => exact .of_request h fun _ => h.withLink.resetStationReq
  | floodStation => exact .of_request h fun _ => h.withLink.floodReq
  | resetZone => exact .of_request h fun _ => h.withLink.resetZoneReq
  | readCauses => exact .of_request h fun _ => h.withLink.readCausesReq
  | setShift => exact .of_request h fun _ => h.withLink.setShiftReq
  | releaseClosure => exact .of_request h fun _ => h.withLink.releaseReq
  | resetClosure => exact .of_request h fun _ => h.withLink.resetClosureReq
  | silenceSector => exact .of_request h fun _ => h.withLink.silenceReq
  | testSector => exact .of_request h fun _ => h.withLink.testReq
  | disablePrepare => exact .of_request h fun _ => h.withLink.prepareReq
  | disableConfirm => exact .of_request h fun _ => h.withLink.confirmReq
  | enable => exact .of_request h fun _ => h.withLink.enableReq single
  | clearDisableError => exact .of_request h fun _ => h.withLink.clearLatchReq
  | listDisablements => exact .of_request h fun _ => h.withLink
  | readHistory => exact .of_request h fun _ => h.withLink
  | readSetting => exact .of_request h fun _ => h.withLink.readReq
  | writeSetting => exact .of_request h fun _ => h.withLink.writeReq
  | saveSettings => exact .of_request h fun _ => h.withLink.saveReq
  | lockSection => exact .of_request h fun _ => h.withLink.lockReq
  | loadDefaults => exact .of_request h fun _ => h.withLink.defaultsReq
  | sectionWriteEnd => exact .ite (.of_done h.endSection) (.of_done h)
  | sampleStart d => exact .ite (.of_done (h.along (s.startSample_kept d) rfl)) (.of_done h)
  | sampleEnd => exact .ite (.of_done h.applyLevel.takeWaitingMode.judgeBlind) (.of_done h)
  | pulseLeadingEdge => exact .ite (.of_done h) (.of_done h.setDet)
  | pulseTrailingEdge d => exact execPulseTrailingEdge_faultShown d h
  | glareLimitReached => exact .ite (.of_done h.beginGlare.judgeBlind) (.of_done h)
  | glareCleared => exact .ite (.of_done h.endGlare.judgeBlind) (.of_done h)
  | candidateExpired d => exact .ite (.of_done (h.along (s.dropCandidate_kept d 1) rfl)) (.of_done h)
  | velocityPulse n => exact .ite (.of_done (h.along (s.setMeter_kept n _) rfl)) (.of_done h)
  | gateEnd n => exact .ite (.of_done (h.along (s.setMeter_kept n _) rfl).gateAtLine) (.of_done h)
  | windowStart n => exact .ite (.of_done (h.along (s.turnOn_kept n) rfl)) (.of_done h)
  | windowEnd => exact .ite (.of_done h.endWindow) (.of_done h)
  | wconfActive => exact .of_setStation h
  | wconfInactive => exact .of_setStation h
  | confirmTimerExpired => exact .ite (.of_done h.noWater) (.of_done h)
  | startTimerExpired => exact .ite (.of_done h.stopLine) (.of_done h)
  | abortDwellExpired => exact .ite (.of_done h.stopLine) (.of_done h)
  | gateTimerExpired n => exact execGateTimerExpired_faultShown n h
  | rundownTimerExpired => exact .ite (.of_done h.raiseFault.stopDone) (.of_done h)
  | blindTimerExpired n => exact execBlindTimerExpired_faultShown n h
  | countingWindowExpired => exact .ite (.of_done h.restartCount) (.of_done h)
  | fstopActive n active => exact execFstopActive_faultShown n active h
  | gopenActive n => exact .of_done (h.along (s.setLine_kept n _) rfl)
  | fireInputEdge f => exact .of_done (h.along (s.setInput_kept f _) rfl)
  | debounceTimerExpired f => exact execDebounceTimerExpired_faultShown f h
  | sparkHoldExpired => exact .ite (.of_done h.removeCause) (.of_done h)
  | closureLimitChange c l active => exact execClosureLimitChange_faultShown c l active h
  | travelTimerExpired c => exact execTravelTimerExpired_faultShown c h
  | waitTimerExpired => exact .ite (.of_done h.raiseFault.endWait) (.of_done h)
  | phaseEnd => exact .ite (.of_done h.nextPhase) (.of_done h)
  | testEnd n => exact .ite (.of_done (h.along (s.stopSector_kept n _) rfl)) (.of_done h)
  | prepareExpired => exact .ite (.of_done h.discardPrepare) (.of_done h)
  | entryExpired => exact .ite (.of_done (h.removeEntry single)) (.of_done h)
  | characterReceived => exact .of_done h.withLink

/-- What the part does of itself while no command waits (log entry 1). -/
theorem idle_faultShown (h : s.faultSound) (single : (s.dis.entries.map (·.target)).Nodup) :
    FaultShown (idle s) := by
  unfold idle
  split
  · rintro t ⟨⟩
    exact h
  · unfold State.countFree
    split
    · exact exec_faultShown _ h.withFreeCount single
    · exact exec_faultShown _ h single

theorem step_faultShown (h : s.faultSound) (single : (s.dis.entries.map (·.target)).Nodup) : FaultShown (step s) := by
  unfold step
  split
  · exact idle_faultShown h single
  · next c rest _ => exact exec_faultShown (s := { s with pending := rest }) c h single

/-- Settles O52: every operation that moves a fault set or an ACTIVE entry derives the output anew, and a reset starts
without either. -/
theorem faultOutputShowsEveryFault : Obligations.FaultOutputShowsEveryFault := by
  refine ⟨fun s t run table shown => ?step, fun s t run => ?reset⟩
  case step =>
    obtain ⟨-, single, -, -⟩ := table
    exact step_faultShown shown single t run
  case reset =>
    obtain powerOn | input := run
    · exact FaultShown.of_done s.powerOn_faultSound t powerOn
    · exact FaultShown.of_done (s.restart_faultSound _) t input

end Sys2Proof.Machine
end

