-- ==== Sys2Proof/Proofs/ReadHistory.lean ====
section
/-! READ-HISTORY (R168): how far a held record lies from the next sequence number, which records are selected from a
held, an overwritten and an unwritten number, the reply a selection makes, and from these the statement about the
command. -/

namespace Sys2Proof.Machine

theorem clamp_eq_max_min {lo hi : Nat} (h : lo ≤ hi) (v : Nat) : clamp lo hi v = max lo (min v hi) := by
  unfold clamp
  split
  · omega
  · split <;> omega

/-- A number of one byte is sent as it is. -/
theorem byteOf_of_le {n : Nat} (h : n ≤ 255) : byteOf n = BitVec.ofNat 8 n := by
  rw [byteOf, Nat.min_eq_left h]

/-! ### The selection -/

section
variable {h : History} {first : BitVec 32} {count : Nat}

/-- In an unbroken run the oldest number lies as far back as there are records; in an empty ring it is the next one. -/
theorem History.oldest_of_sound (sound : h.sound) : h.oldest = h.next - BitVec.ofNat 32 h.records.length := by
  obtain ⟨-, run⟩ := sound
  unfold History.oldest
  split
  next e => simp [e]
  next r rest e => simpa [e] using run 0 (by simp [e])

/-- How far back a held record lies is how many records stand from it on: the ring is too short for a wrap. -/
theorem History.next_sub_seq (sound : h.sound) {i : Nat} (hi : i < h.records.length) :
    (h.next - (h.records[i]).seq).toNat = h.records.length - i := by
  obtain ⟨capacity, run⟩ := sound
  rw [run i hi, sub_sub_cancel, BitVec.toNat_ofNat, Nat.mod_eq_of_lt (by omega)]

theorem History.select_of_held (sound : h.sound) {i : Nat} (hi : i < h.records.length)
    (asked : (h.records[i]).seq = first) :
    h.select first count = ((h.records.drop i).take (clamp 1 6 count), false) := by
  have capacity := sound.1
  have back : (h.next - first).toNat = h.records.length - i := asked ▸ History.next_sub_seq sound hi
  have start : h.records.length - (h.records.length - i) = i := by omega
  simp only [History.select, back, start]
  rw [if_neg (by omega), if_neg (by omega)]

theorem History.select_of_overwritten (lost : h.records.length < (h.next - first).toNat)
    (past : (h.next - first).toNat ≤ 2 ^ 31) :
    h.select first count = (h.records.take (clamp 1 6 count), true) := by
  simp only [History.select]
  rw [if_neg (by omega), if_pos lost]

theorem History.select_of_unwritten (ahead : first = h.next ∨ 2 ^ 31 < (h.next - first).toNat) :
    h.select first count = ([], false) := by
  have unreached : (h.next - first).toNat = 0 ∨ 2 ^ 31 < (h.next - first).toNat := ahead.imp_left (by simp [·])
  simp only [History.select]
  rw [if_pos unreached]

end

/-! ### The operands -/

theorem byteAt_append_left {p q : Payload} {i : Nat} (h : i < p.length) : byteAt (p ++ q) i = byteAt p i := by
  rw [byteAt, List.getD_append _ _ _ _ h, byteAt]

theorem byteAt_append_length (p : Payload) (b : Byte) : byteAt (p ++ [b]) p.length = b.toNat := by
  simp [byteAt]

theorem word32At_append_left {p q : Payload} {i : Nat} (h : i + 3 < p.length) :
    word32At (p ++ q) i = word32At p i := by
  simp only [word32At, word16At]
  rw [byteAt_append_left (by omega), byteAt_append_left (by omega), byteAt_append_left (by omega),
    byteAt_append_left (by omega)]

/-! ### The command -/

/-- READ-HISTORY taken: the reply carries the oldest and the next number, the overwritten flag and the selected records
(R168, R184); nothing changes but the link. -/
theorem exec_readHistory_selected {s : State} {k : Link} {p : Payload} {count : Byte} {l : List Record} {lost : Bool}
    {flag : Byte} (sound : s.history.sound) (len : p.length = 4)
    (claimed : s.link.claim (.request 0x24 (p ++ [count])) = some k) (few : l.length ≤ 6)
    (selected : s.history.select (BitVec.ofNat 32 (word32At p 0)) count.toNat = (l, lost))
    (flagged : flagByte lost = flag) :
    exec (.readHistory (p ++ [count])) s =
      .next ((s.withLink k).answered ⟨0xA4, enc32 (s.history.next - BitVec.ofNat 32 s.history.records.length) ++
        enc32 s.history.next ++ [flag, BitVec.ofNat 8 l.length] ++ l.flatMap Record.enc⟩) := by
  have first : word32At (p ++ [count]) 0 = word32At p 0 := word32At_append_left (by omega)
  have size : byteAt (p ++ [count]) 4 = count.toNat := len ▸ byteAt_append_length p count
  have kind : (0x24 : Byte) + 0x80 = 0xA4 := rfl
  have history : (s.withLink k).history = s.history := rfl
  have taken : exec (.readHistory (p ++ [count])) s = _ := request_claimed claimed (by rw [List.length_append, len]; rfl)
  rw [taken]
  simp only [State.readHistoryReq, first, size, history, selected, flagged, History.oldest_of_sound sound,
    byteOf_of_le (few.trans (by decide)), Answer.frame, kind]

/-- Settles O13: the three selections, each put into the reply of the command. -/
theorem historyIsReadFromTheNumberAsked : Obligations.HistoryIsReadFromTheNumberAsked := by
  intro s k p count sound len claimed
  have clamped : clamp 1 6 count.toNat = max 1 (min count.toNat 6) := clamp_eq_max_min (by decide) _
  have few (l : List Record) : (l.take (max 1 (min count.toNat 6))).length ≤ 6 := by
    rw [List.length_take]; omega
  refine ⟨fun i hi asked => ?held, fun lost past => ?overwritten, fun ahead => ?unwritten⟩
  case held =>
    exact exec_readHistory_selected sound len claimed (few _) (clamped ▸ History.select_of_held sound hi asked) rfl
  case overwritten =>
    exact exec_readHistory_selected sound len claimed (few _) (clamped ▸ History.select_of_overwritten lost past) rfl
  case unwritten =>
    exact exec_readHistory_selected sound len claimed (Nat.zero_le 6) (History.select_of_unwritten ahead) rfl

end Sys2Proof.Machine
end

