-- ==== Sys2Proof/Proofs/Noted.lean ====
section
/-! What records and reports do to the history and the link: the history stays one unbroken run, and of the link only the
report queues and the dropped flag change, within their capacities (R161, R167). -/

namespace Sys2Proof.Machine

set_option Elab.async false -- one declaration after another: the check bounds the threads waiting on one another

/-! ### The history -/

/-- A record that joins an unbroken run continues it (R167). -/
theorem History.sound.add {h : History} (sound : h.sound) (at_ : Instant) (k : RecordKind) (a b : Byte) (d : Detail) :
    (h.add at_ k a b d).sound := by
  refine ⟨h.add_length_le at_ k a b d, fun i hi => ?_⟩
  obtain ⟨short, run⟩ := sound
  have size : (h.add at_ k a b d).records.length = h.records.length + 1 - (h.records.length + 1 - 512) := by
    simp [History.add, Config.historyCapacity]
  have lost : h.records.length + 1 - 512 + i < h.records.length + 1 := by omega
  have there : (h.add at_ k a b d).records[i] =
      (h.records ++ [(⟨h.next, at_, k, a, b, d⟩ : Record)])[h.records.length + 1 - 512 + i]'(by simpa using lost) := by
    simp only [History.add, Config.historyCapacity, List.getElem_drop]
  rw [there, History.add_next, size]
  by_cases old : h.records.length + 1 - 512 + i < h.records.length
  · rw [List.getElem_append_left old, run _ old]
    have count : h.records.length + 1 - (h.records.length + 1 - 512) - i =
        h.records.length - (h.records.length + 1 - 512 + i) + 1 := by omega
    rw [count]
    have split (n : Nat) : (BitVec.ofNat 32 (n + 1) : BitVec 32) = BitVec.ofNat 32 n + 1 := by
      simp [BitVec.ofNat_add]
    rw [split]
    abel
  · have last : h.records.length + 1 - 512 + i = h.records.length := by omega
    have count : h.records.length + 1 - (h.records.length + 1 - 512) - i = 1 := by omega
    rw [List.getElem_append_right (by omega), count]
    simp

/-! ### The link -/

/-- Of the link only the report queues, within their capacities, and the dropped flag have changed. -/
structure Link.Reported (k k' : Link) : Prop where
  same : k' = { k with alarm := k'.alarm, notice := k'.notice, dropped := k'.dropped }
  alarm : k.alarm.length ≤ 16 → k'.alarm.length ≤ 16
  notice : k.notice.length ≤ 32 → k'.notice.length ≤ 32

theorem Link.Reported.refl (k : Link) : k.Reported k := ⟨rfl, id, id⟩

theorem Link.Reported.trans {k k' k'' : Link} (h : k.Reported k') (h' : k'.Reported k'') : k.Reported k'' := by
  refine ⟨?_, h'.alarm ∘ h.alarm, h'.notice ∘ h.notice⟩
  have first := h.same
  have second := h'.same
  rw [first] at second
  exact second

theorem Link.report_reported (k : Link) (q : Queue) (f : Frame) : k.Reported (k.report q f) := by
  unfold Link.report
  cases q with
  | alarm =>
    dsimp only
    split
    · next room => exact ⟨rfl, fun _ => by simpa [Config.alarmCapacity] using room, id⟩
    · exact ⟨rfl, id, id⟩
  | notice =>
    dsimp only
    split
    · next room => exact ⟨rfl, id, fun _ => by simpa [Config.noticeCapacity] using room⟩
    · exact ⟨rfl, id, id⟩

/-! ### Both -/

/-- The history and the link are as before, or records and reports have joined them. -/
structure Noted (s t : State) : Prop where
  history : s.history.sound → t.history.sound
  link : s.link.Reported t.link

variable {s t u : State}

theorem Noted.of_same (history : t.history = s.history) (link : t.link = s.link) : Noted s t :=
  ⟨fun h => history ▸ h, link ▸ .refl _⟩

@[simp] theorem Noted.refl (s : State) : Noted s s := .of_same rfl rfl

theorem Noted.trans (h : Noted s t) (h' : Noted t u) : Noted s u := ⟨h'.history ∘ h.history, h.link.trans h'.link⟩

theorem Noted.ite {p : Prop} [Decidable p] (yes : Noted s t) (no : Noted s u) : Noted s (if p then t else u) := by
  split <;> assumption

theorem Noted.each {α : Type} {f : α → State → State} (step : ∀ a s, Noted s (f a s)) (as : List α) :
    ∀ s, Noted s (forEach as f s) := by
  induction as with
  | nil => exact fun s => .refl s
  | cons a as ih => exact fun s => (step a s).trans (ih (f a s))

theorem Noted.all {k : Nat} {f : Fin k → State → State} (step : ∀ a s, Noted s (f a s)) (s : State) :
    Noted s (forAll f s) := Noted.each step _ s

theorem KeptBut.noted {l : List Block} (h : KeptBut l s t) (history : .history ∉ l := by decide)
    (link : .link ∉ l := by decide) : Noted s t := .of_same (h .history history) (h .link link)

variable (s)

@[simp] theorem State.record_noted (k : RecordKind) (a b : Byte) (d : Detail) : Noted s (s.record k a b d) where
  history h := by
    unfold State.record
    exact h.add _ _ _ _ _
  link := by
    rw [State.record_link]
    exact .refl _

@[simp] theorem State.report_noted (q : Queue) (f : Frame) : Noted s (s.report q f) :=
  ⟨id, s.link.report_reported q f⟩

@[simp] theorem State.event_noted (q : Queue) (k : RecordKind) (r a b : Byte) (d : Detail) :
    Noted s (s.event q k r a b d) := (s.record_noted k a b d).trans (State.report_noted _ _ _)

@[simp] theorem State.objEvent_noted (q : Queue) (k : RecordKind) (r : Byte) (o : Obj) (d : Detail) :
    Noted s (s.objEvent q k r o d) := s.event_noted _ _ _ _ _ _

@[simp] theorem State.disEvent_noted (a : DisAction) (t : Option Target) (e : Byte) (m : Nat) (r : Byte) :
    Noted s (s.disEvent a t e m r) := by
  unfold State.disEvent
  split
  · exact s.event_noted _ _ _ _ _ _
  · exact s.objEvent_noted _ _ _ _ _

@[simp] theorem State.causeEvent_noted (r : Cause) (a b : Option Level) : Noted s (s.causeEvent r a b) :=
  s.objEvent_noted _ _ _ _ _

@[simp] theorem State.noteSector_noted (n : SectorNo) (x : Sector) : Noted s (s.noteSector n x) := by
  unfold State.noteSector
  dsimp only
  split
  · exact .refl s
  · exact s.objEvent_noted _ _ _ _ _

end Sys2Proof.Machine
end

