-- ==== Sys2Proof/Proofs/Changes.lean ====
section
/-! Every command is a sequence of a few kinds of change, each with the condition under which the model makes it. `Change`
names the kinds, `Path` is a sequence of changes of some kinds, and one lemma per operation says of which kinds its
sequence is made. What every command keeps is then proved change by change (`Path.keeps`), and a command with no change of
a kind leaves alone what only that kind touches (`Path.kept`). -/

namespace Sys2Proof.Machine

set_option Elab.async false -- one declaration after another: the check bounds the threads waiting on one another

/-! ### The conditions of a change -/

/-- A line after a change of its state (R56): what `State.moveLine` puts. -/
def Line.entering (x : Line) (st : LineState) (cause : StopCause) (f : Line → Line) (now : Instant) : Line :=
  { f x with
    state := st
    stopCause := cause
    entered := now
    fan := fanFor st
    feed := feedFor st
    gate := gateFor st x.gate }

/-- The changes of a line's state (R58): from which states, with which stop cause, and what they do to the timers. The
way out of STOPPED is no part of it (R79). -/
inductive Line.Enters (x : Line) : LineState → StopCause → (Line → Line) → Prop
  | starting (w : Option Instant) (t : Instant) (off : x.state = .off) :
      x.Enters .starting .none (fun y => { y with counter := 0, countWindow := w, startTimer := some t })
  | run (from_ : x.state = .starting) : x.Enters .run .none (fun y => { y with startTimer := none })
  | stopping (cause : StopCause) (t : Instant) (moving : x.state = .starting ∨ x.state = .run ∨ x.state = .abort)
      (caused : cause ≠ .none ∨ (x.state = .abort ∧ cause = x.stopCause)) :
      x.Enters .stopping cause (fun y => { y with startTimer := none, dwellTimer := none, rundownTimer := some t })
  | abort (cause : StopCause) (dwell gate : Instant) (moving : x.state = .starting ∨ x.state = .run)
      (caused : cause ≠ .none ∧ cause ≠ .orderly) :
      x.Enters .abort cause (fun y =>
        { y with startTimer := none, dwellTimer := some dwell, gateTimer := if y.gopen then none else some gate })
  | off (from_ : x.state = .stopping) :
      x.Enters .off .none (fun y => { y with rundownTimer := none, gateTimer := none })
  | stopped (from_ : x.state = .stopping) : x.Enters .stopped x.stopCause (fun y => { y with rundownTimer := none })

/-- What a change of a closure's state does to its timers (R107, R109, R113), and the direction that goes with it: `y` is
the closure `x` with the timers set, `st` the state entered. -/
structure Closure.TimersFor (x : Closure) (st : ClosureState) (dir : Direction) (y : Closure) : Prop where
  same : y = { x with travelTimer := y.travelTimer, waitTimer := y.waitTimer }
  direction : st = .stuck ↔ dir ≠ .none
  travels : y.travelTimer ≠ none → st = .releasing ∨ st = .ready
  releasing : st = .releasing → y.travelTimer ≠ none
  waiting : st = .waiting → y.waitTimer ≠ none
  settled : st ≠ .waiting → y.waitTimer = none ∨ (x.state ≠ .waiting ∧ y.waitTimer = x.waitTimer)

/-- What a source may raise (R80 to R85): its level and hold, and for a fire input that it is debounced active and not
disabled (R87). -/
def State.mayRaise (s : State) (src : Source) (l : Level) (hold : Option Instant) : Prop :=
  match src with
  | .detector _ => l = .spark ∧ hold ≠ none
  | .fireInput f => (l = .alert ∨ l = .fire) ∧ hold = none ∧ (s.input f).phase = .on ∧ s.disabled (.fireInput f) = false
  | .station _ => l = .alert ∧ hold = none
  | .line _ => (l = .alert ∨ l = .fire) ∧ hold = none

/-- The record of a rise (R81). -/
def Cause.risen (r : Cause) (src : Source) (l : Level) (hold : Option Instant) (now : Instant) : Cause :=
  { r with level := l, latched := r.latched || latchedFor src l, changed := now, silenced := 0, hold := hold }

/-- The cause list after a raise (R81): a record more, a rise, or a refresh. -/
def State.raisedCauses (s : State) (src : Source) (z : ZoneNo) (l : Level) (hold : Option Instant) : List Cause :=
  match s.causeOf src with
  | none => s.causes ++ [⟨src, z, l, latchedFor src l, s.uptime, s.uptime, 0, hold⟩]
  | some r =>
    if r.level.rank < l.rank then
      s.causes.map fun x => if x.source = src then r.risen src l hold s.uptime else x
    else s.causes.map fun x => if x.source = src then { x with changed := s.uptime, hold := hold } else x

/-- The cause list with the causes that count for a sector marked silenced there (R130). -/
def State.markedCauses (s : State) (n : SectorNo) : List Cause :=
  s.causes.map fun r => if s.countsFor n r then { r with silenced := addSector r.silenced n } else r

/-- A sector taken up by a test (R132). -/
def State.testSector (n : SectorNo) (p : PatternNo) (ms : Nat) (s : State) : State :=
  let x := s.sector n
  ((s.setSector n { x with state := .test, testEnd := some (s.after ms), pattern := some p, playing := .none }).startCycle
    n).noteSector n x

/-! ### The kinds of change -/

inductive ChangeKind where
  | log | output | channel | channelPin | channelFault | meter | station | stationPin | water
  | lineAside | blindness | lineMove | lineFault | lineLift | linePin
  | closureMove | closureFault | closureLift | closurePin
  | cause | reentry | zone | sector | hush | input | inputPin | shift | plan | table | service
  | flags | live | stored | storeResult | clock | powerOn | restart
  deriving DecidableEq, Repr

/-- One change of a kind. -/
inductive Change : ChangeKind → State → State → Prop
  | log {s t} (kept : KeptBut [.history, .link, .freeValues] s t) : Change .log s t
  | output {s} (b : Bool) : Change .output s { s with faultOutput := b }
  | channel {s} (d : DetNo) (x : Detector) (lit : x.lit = (s.det d).lit) : Change .channel s (s.setDet d x)
  | channelPin {s} (d : DetNo) (x : Detector) : Change .channelPin s (s.setDet d x)
  | channelFault {s} (d : DetNo) (f : FaultCode) (r : Bool) : Change .channelFault s (s.putFault (.detector d) f r)
  | meter {s} (n : LineNo) (x : Meter) : Change .meter s (s.setMeter n x)
  | turnOn {s} (n : LineNo) (due : s.windowDue n = true) : Change .station s (s.turnOn n)
  | offerWindow {s} (n : LineNo) (w : Window) : Change .station s (s.offerWindow n w)
  | endWindow {s} (n : LineNo) : Change .station s (s.endWindow n)
  | wconfOn {s} (n : LineNo) (opening : (s.station n).valve = .opening) : Change .stationPin s
      (s.setStation n { s.station n with
        wconf := true, valve := .opened, waterConfirmed := true, waterSeen := true, confirmTimer := none })
  | wconfOff {s} (n : LineNo) (opened : (s.station n).valve = .opened) : Change .stationPin s
      (s.setStation n { s.station n with
        wconf := false, valve := .opening, waterConfirmed := false, confirmTimer := s.confirmStart n })
  | wconf {s} (n : LineNo) (b : Bool) (other : (s.station n).valve ≠ if b then .opening else .opened) :
      Change .stationPin s (s.setStation n { s.station n with wconf := b })
  | waterMissed {s} (n : LineNo) : Change .water s
      ((s.setStation n { s.station n with confirmTimer := none }).raiseFault (.station n) .noWater)
  | waterReset {s} (n : LineNo) : Change .water s (s.clearFault (.station n) .noWater)
  | count {s} (n : LineNo) (c : Nat) (w : Option Instant) (below : c = 0 ∨ c < (s.lineCfg n).sparkThreshold) :
      Change .lineAside s (s.setLine n { s.line n with counter := c, countWindow := w })
  | gateTimerOut {s} (n : LineNo) : Change .lineAside s (s.setLine n { s.line n with gateTimer := none })
  | judge {s} (n : LineNo) : Change .blindness s (s.judgeLine n)
  | blindOut {s} (n : LineNo) (out : s.expired (s.line n).blindTimer = true) : Change .blindness s
      ((s.setLine n { s.line n with blindTimer := none }).raiseFault (.line n) .blind)
  | moveLine {s} {n : LineNo} {st : LineState} {cause : StopCause} {f : Line → Line}
      (enters : (s.line n).Enters st cause f)
      (ready : st = .starting → s.shift = .day ∧ s.damperNotHeld n = none := by simp) :
      Change .lineMove s (s.moveLine n st cause f)
  | replaceCause {s} (n : LineNo) (cause : StopCause) (stopping : (s.line n).state = .stopping)
      (protective : cause ≠ .none ∧ cause ≠ .orderly) :
      Change .lineMove s (s.setLine n { s.line n with stopCause := cause })
  | lineFault {s} (n : LineNo) (f : FaultCode) (r : Bool) (other : f ≠ .blind) :
      Change .lineFault s (s.putFault (.line n) f r)
  | liftOff {s} (n : LineNo) (off : (s.line n).state = .off) :
      Change .lineLift s (s.setLine n { s.line n with gate := false, gateTimer := none })
  | liftStopped {s} (n : LineNo) (stopped : (s.line n).state = .stopped) :
      Change .lineLift s (s.moveLine n .off .none (fun x => { x with gateTimer := none }))
  | fstopOff {s} (n : LineNo) : Change .linePin s (s.setLine n { s.line n with fstop := false })
  | fstopOn {s} (n : LineNo) : Change .linePin s
      (((s.setLine n { s.line n with fstop := true }).testRundown n).endWaits n)
  | gopen {s} (n : LineNo) (b : Bool) (t : Option Instant) (timer : t = (s.line n).gateTimer ∨ t = none) :
      Change .linePin s (s.setLine n { s.line n with gopen := b, gateTimer := t })
  | release {s} (c : ClosureNo) (o : ReleaseOrigin) : Change .closureMove s (s.releaseClosure c o)
  | shutDamper {s} (c : ClosureNo) (held : (s.closure c).state = .held) (damper : (s.closureCfg c).kind = .damper) :
      Change .closureMove s ((s.shutClosure c).demandIfRunning c)
  | moveClosure {s} {c : ClosureNo} {st : ClosureState} {dir : Direction} (o : ReleaseOrigin) {f : Closure → Closure}
      (open_ : (s.closure c).state ≠ .shut) (timers : (s.closure c).TimersFor st dir (f (s.closure c)))
      (still : st ≠ .waiting) (passage : (s.closure c).state = .held → (s.closureCfg c).kind = .passage) :
      Change .closureMove s (s.moveClosure c st dir o f)
  | closureFault {s} (c : ClosureNo) (f : FaultCode) (r : Bool) (other : f ≠ .stuck) :
      Change .closureFault s (s.putFault (.closure c) f r)
  | reopen {s} (c : ClosureNo) (locked : (s.closure c).state = .shut ∨ (s.closure c).state = .stuck)
      (clear : s.firstTrigger c = none) :
      Change .closureLift s (s.reopen c)
  | limit {s} (c : ClosureNo) (l : Limit) (b : Bool) :
      Change .closurePin s (s.setClosure c ((s.closure c).setLimit l b))
  | raise {s} (src : Source) (z : ZoneNo) (l : Level) (hold : Option Instant) (may : s.mayRaise src l hold) :
      Change .cause s { s with causes := s.raisedCauses src z l hold }
  | drop {s} (src : Source) : Change .cause s { s with causes := s.causes.filter fun x => x.source ≠ src }
  | mark {s} (n : SectorNo) : Change .cause s { s with causes := s.markedCauses n }
  | reentry {s} (n : LineNo) (z : ZoneNo) (l : Level) :
      Change .reentry s { s with causes := s.raisedCauses (.line n) z l none }
  | zone {s} (z : ZoneNo) : Change .zone s (s.setZone z ⟨levelOfZone s.causes z, some s.uptime⟩)
  | derive {s} (n : SectorNo) : Change .sector s (s.deriveSector n)
  | highest {s} (n : SectorNo) : Change .sector s (s.refreshHighest n)
  | silence {s} (n : SectorNo) (sounding : (s.sector n).state = .sounding) :
      Change .hush s (s.stopSector n .silenced)
  | testOver {s} (n : SectorNo) (test : (s.sector n).state = .test) :
      Change .sector s (s.stopSector n (s.restState n))
  | test {s} (n : SectorNo) (p : PatternNo) (ms : Nat) (quiet : (s.sector n).state = .quiet) :
      Change .sector s (s.testSector n p ms)
  | phase {s} (n : SectorNo) : Change .sector s (s.nextPhase n)
  | switch {s} (n : SectorNo) (level : Demand) (playing : (s.sector n).state = .sounding ∧
      (s.sector n).playing = level ∧ (s.sector n).cycle.isNone) : Change .sector s (s.switchSector n level)
  | cycle {s} (n : SectorNo) (p : PatternNo) (idle : (s.sector n).pattern = some p ∧ (s.sector n).cycle.isNone) :
      Change .sector s (s.startCycle n)
  | siren {s} (n : SectorNo) : Change .sector s (s.refreshSiren n)
  | input {s} (f : InputNo) (x : FireInput) (raw : x.raw = (s.input f).raw) : Change .input s (s.setInput f x)
  | inputPin {s} (f : InputNo) (b : Bool) :
      Change .inputPin s (s.setInput f ((s.input f).edge b (s.debounceEnd f)))
  | shift {s} (m : Shift) (still : m = .watch → s.lineBusy = none) : Change .shift s { s with shift := m }
  | prepare {s} (t : Target) (limit : Nat) (service : s.service = true) (latch : s.dis.latch = false)
      (free : s.hasEntry t = false) (room : s.dis.entries.length < 32) (short : limit ≤ 1440) :
      Change .plan s { s with dis := { s.dis with prepare := some ⟨t, limit, s.uptime, s.after 10000⟩ } }
  | latch {s} (b : Bool) : Change .plan s { s with dis := { s.dis with prepare := none, latch := b } }
  | unlatch {s} (latch : s.dis.latch = true) : Change .plan s { s with dis := { s.dis with latch := false } }
  | discard {s} : Change .plan s { s with dis := { s.dis with prepare := none } }
  | create {s} (p : Prepare) (prepared : s.dis.prepare = some p) : Change .table s
      { s with dis := { s.dis with prepare := none, entries := s.dis.entries ++ [s.newEntry p] } }
  | remove {s} (t : Target) : Change .table s
      { s with dis := { s.dis with entries := s.dis.entries.filter fun x => x.target ≠ t } }
  | serviceOn {s} : Change .service s { s with service := true }
  | serviceOff {s} : Change .service s { s with service := false, dis := { s.dis with prepare := none } }
  | flags {s} (k : StoreSection) (x : SectionFlags) (defaulted : x.defaulted = (s.flagsOf k).defaulted)
      (failed : x.writeFailed = (s.flagsOf k).writeFailed) : Change .flags s (s.setFlags k x)
  | write {s} (name : SettingName) (v : Nat) (accepted : s.refuses name (s.store.live.write name v) = false) :
      Change .live s (s.setLive (s.store.live.write name v))
  | defaults {s} (k : StoreSection) (accepted : s.defaultsRefused k = none) :
      Change .live s (s.setLive (s.store.live.copySection k factorySettings))
  | beginSection {s} (op : StoreOp) (k : StoreSection) (rest written failed : List StoreSection) :
      Change .stored s (s.beginSection op k rest written failed)
  | writeOver {s} : Change .stored s { s with store := { s.store with write := none } }
  | result {s} (k : StoreSection) (good : Bool) : Change .storeResult s (s.takeResult k good)
  | clock {s} : Change .clock s { s with uptime := 0, tenth := 0, history := ⟨[], 1⟩ }
  | powerOn {s} : Change .powerOn s ((s.startBlocks false).announce 1 .none)
  | restart {s} (source : StartSource) : Change .restart s ((s.startBlocks true).announce 2 source)

/-- The pieces of the state a kind of change touches. -/
def ChangeKind.blocks : ChangeKind → List Block
  | .log => [.history, .link, .freeValues]
  | .output => [.faults]
  | .channel | .channelPin => [.detectors]
  | .channelFault | .lineFault | .closureFault => faultBlocks
  | .meter => [.meters]
  | .station => [.stations, .disablements, .faults, .history, .link]
  | .stationPin => [.stations]
  | .water => .stations :: faultBlocks
  | .lineAside => [.lines]
  | .blindness => [.lines, .faults, .history, .link]
  | .lineMove | .lineLift | .linePin | .closureMove => lineBlocks
  | .closureLift => closureBlocks
  | .closurePin => [.closures]
  | .cause | .reentry => [.causes]
  | .zone => [.zones]
  | .sector | .hush => sectorBlocks
  | .input | .inputPin => [.inputs]
  | .shift => [.shift]
  | .plan | .table => [.disablements]
  | .service => [.service, .disablements]
  | .flags | .live | .stored => [.store]
  | .storeResult => .store :: faultBlocks
  | .clock => [.clock, .history]
  | .powerOn | .restart => [.detectors, .meters, .stations, .lines, .causes, .zones, .inputs, .faults, .shift, .closures,
      .sectors, .disablements, .link, .store, .history]

/-! ### Each kind within its blocks -/

theorem State.deriveStoreFaults_kept (s : State) : KeptBut faultBlocks s s.deriveStoreFaults := by
  have first : KeptBut faultBlocks s (if s.store.flags.toList.any (·.writeFailed) then s.raiseFault .store .saveFailed
      else s.clearFault .store .saveFailed) := .ite (s.raiseFault_kept _ _) (s.clearFault_kept _ _)
  exact .ite (first.trans (State.raiseFault_kept _ _ _)) (first.trans (State.clearFault_kept _ _ _))

theorem State.announce_kept (s : State) (kind : Byte) (source : StartSource) :
    KeptBut faultBlocks s (s.announce kind source) :=
  ((s.event_kept _ _ _ _ _ _).mono (by decide)).trans (State.deriveStoreFaults_kept _)

theorem State.startBlocks_kept (s : State) (restart : Bool) :
    KeptBut ChangeKind.restart.blocks s (s.startBlocks restart) := by
  unfold State.startBlocks
  refine KeptBut.andThen ?_ (forAll_kept (l := [.lines]) (fun n t => t.startBlind_kept n) _) (by decide)
  intro b hb
  cases b <;> simp_all [Block.same, ChangeKind.blocks]

theorem State.start_kept (s : State) (restart : Bool) (kind : Byte) (source : StartSource) :
    KeptBut ChangeKind.restart.blocks s ((s.startBlocks restart).announce kind source) :=
  (s.startBlocks_kept restart).andThen (State.announce_kept _ _ _) (by decide)

theorem State.reopen_kept (s : State) (c : ClosureNo) : KeptBut closureBlocks s (s.reopen c) :=
  (((forEach_kept (fun f t => t.clearFault_kept (.closure c) f) closureFaults s).mono (by decide)).andThen
    (State.setClosure_kept _ c _) (by decide)).trans (State.makeReady_kept _ c)

theorem State.nextPhase_kept (s : State) (n : SectorNo) : KeptBut sectorBlocks s (s.nextPhase n) := by
  unfold State.nextPhase
  split
  · exact .refl _ s
  · split
    · exact s.endCycle_kept n
    · exact (s.putSector_kept n _).andThen (State.refreshSiren_kept _ n) (by decide)

theorem State.testSector_kept (s : State) (n : SectorNo) (p : PatternNo) (ms : Nat) :
    KeptBut sectorBlocks s (s.testSector n p ms) :=
  ((s.putSector_kept n _).andThen (State.startCycle_kept _ n) (by decide)).andThen (State.noteSector_kept _ n _)
    (by decide)

theorem State.takeResult_kept (s : State) (k : StoreSection) (good : Bool) :
    KeptBut ChangeKind.storeResult.blocks s (s.takeResult k good) :=
  (((s.setMark_kept k _).mono (by decide)).andThen (State.setFlags_kept _ k _) (by decide)).andThen
    (State.deriveStoreFaults_kept _) (by decide)

/-- A change leaves alone every piece of the state its kind does not touch. -/
theorem Change.kept {k : ChangeKind} {s t : State} (h : Change k s t) : KeptBut k.blocks s t := by
  cases h with
  | log kept => exact kept
  | channel d => exact s.setDet_kept d _
  | channelPin d => exact s.setDet_kept d _
  | channelFault => exact s.putFault_kept _ _ _
  | meter n => exact s.setMeter_kept n _
  | turnOn n => exact (s.turnOn_kept n).mono (by decide)
  | offerWindow n => exact (s.offerWindow_kept n _).mono (by decide)
  | endWindow n => exact s.endWindow_kept n
  | wconfOn n => exact s.setStation_kept n _
  | wconfOff n => exact s.setStation_kept n _
  | wconf n => exact s.setStation_kept n _
  | waterMissed n =>
    exact ((s.setStation_kept n _).mono (by decide)).andThen (State.raiseFault_kept _ _ _) (by decide)
  | waterReset => exact (s.clearFault_kept _ _).mono (by decide)
  | count n => exact s.setLine_kept n _
  | gateTimerOut n => exact s.setLine_kept n _
  | judge n => exact s.judgeLine_kept n
  | blindOut n =>
    exact ((s.setLine_kept n _).mono (by decide)).andThen (State.raiseFault_kept _ _ _) (by decide)
  | moveLine => exact s.moveLine_kept _ _ _ _
  | replaceCause n => exact (s.setLine_kept n _).mono (by decide)
  | lineFault => exact s.putFault_kept _ _ _
  | liftOff n => exact (s.setLine_kept n _).mono (by decide)
  | liftStopped => exact s.moveLine_kept _ _ _ _
  | fstopOff n => exact (s.setLine_kept n _).mono (by decide)
  | fstopOn n =>
    exact (((s.setLine_kept n _).mono (by decide)).trans (State.testRundown_kept _ n)).andThen
      (State.endWaits_kept _ n) (by decide)
  | gopen n => exact (s.setLine_kept n _).mono (by decide)
  | release c => exact s.releaseClosure_kept c _
  | shutDamper c =>
    exact ((s.shutClosure_kept c).mono (by decide)).trans (State.demandIfRunning_kept _ c)
  | moveClosure => exact (s.moveClosure_kept _ _ _ _ _).mono (by decide)
  | closureFault => exact s.putFault_kept _ _ _
  | reopen c => exact s.reopen_kept c
  | limit c => exact s.setClosure_kept c _
  | zone z => exact s.setZone_kept z _
  | derive n => exact s.deriveSector_kept n
  | highest n => exact (s.refreshHighest_kept n).mono (by decide)
  | silence n => exact s.stopSector_kept n _
  | testOver n => exact s.stopSector_kept n _
  | test n => exact s.testSector_kept n _ _
  | phase n => exact s.nextPhase_kept n
  | switch n => exact s.switchSector_kept n _
  | cycle n => exact (s.startCycle_kept n).mono (by decide)
  | siren n => exact (s.refreshSiren_kept n).mono (by decide)
  | input f => exact s.setInput_kept f _
  | inputPin f => exact s.setInput_kept f _
  | flags k => exact s.setFlags_kept k _
  | result k => exact s.takeResult_kept k _
  | powerOn => exact s.start_kept false _ _
  | restart => exact s.start_kept true _ _
  | _ => intro b hb; cases b <;> simp_all [Block.same, ChangeKind.blocks, State.setLive, State.beginSection]

/-! ### Sequences of changes -/

/-- A sequence of changes of some kinds, whatever they do to the history and the link. -/
def Steps (l : List ChangeKind) : State → State → Prop := Relation.ReflTransGen fun s t => ∃ k ∈ l, Change k s t

section
variable {l l' : List ChangeKind} {s t u : State}

theorem Steps.trans (h : Steps l s t) (h' : Steps l t u) : Steps l s u := Relation.ReflTransGen.trans h h'

theorem Steps.mono (h : Steps l' s t) (sub : ∀ k ∈ l', k ∈ l) : Steps l s t :=
  Relation.ReflTransGen.mono (r := fun s t => ∃ k ∈ l', Change k s t)
    (fun _ _ ⟨k, mem, c⟩ => ⟨k, sub k mem, c⟩) s t h

theorem Change.steps {k : ChangeKind} (c : Change k s t) (mem : k ∈ l) : Steps l s t :=
  Relation.ReflTransGen.single ⟨k, mem, c⟩

/-- What every change of the kinds keeps, the sequence keeps. -/
theorem Steps.keeps {P : State → Prop} (h : Steps l s t) (keeps : ∀ k ∈ l, ∀ u v, Change k u v → P u → P v) (start : P s) :
    P t := by
  induction h with
  | refl => exact start
  | tail _ last ih =>
    obtain ⟨k, mem, c⟩ := last
    exact keeps k mem _ _ c ih

/-- A sequence leaves alone every piece of the state that none of its kinds touches. -/
theorem Steps.kept (h : Steps l s t) (b : Block) (free : ∀ k ∈ l, b ∉ k.blocks) : b.same s t := by
  refine h.keeps (P := fun u => b.same s u) (fun k mem u v c same => ?_) (KeptBut.refl [] s b (by simp))
  have last := c.kept b (free k mem)
  cases b <;> simp_all [Block.same]

end

/-! ### Paths -/

/-- A sequence of changes of some kinds, where a change of nothing but the history and the link only writes records and
reports. -/
def Path (l : List ChangeKind) : State → State → Prop :=
  Relation.ReflTransGen fun s t => ∃ k ∈ l, Change k s t ∧ (k = .log → Noted s t)

section
variable {l l' : List ChangeKind} {s t u : State}

theorem Path.refl (l : List ChangeKind) (s : State) : Path l s s := Relation.ReflTransGen.refl

theorem Path.trans (h : Path l s t) (h' : Path l t u) : Path l s u := Relation.ReflTransGen.trans h h'

theorem Path.mono (h : Path l' s t) (sub : ∀ k ∈ l', k ∈ l) : Path l s t :=
  Relation.ReflTransGen.mono (r := fun s t => ∃ k ∈ l', Change k s t ∧ (k = .log → Noted s t))
    (fun _ _ ⟨k, mem, c⟩ => ⟨k, sub k mem, c⟩) s t h

/-- Two sequences in turn, the second of kinds the first allows. -/
theorem Path.andThen (h : Path l s t) (h' : Path l' t u) (sub : ∀ k ∈ l', k ∈ l) : Path l s u := h.trans (h'.mono sub)

/-- One more change. -/
theorem Path.change {k : ChangeKind} (h : Path l s t) (c : Change k t u) (mem : k ∈ l) (other : k ≠ .log := by decide) :
    Path l s u :=
  Relation.ReflTransGen.tail h ⟨k, mem, c, fun same => absurd same other⟩

theorem Change.path {k : ChangeKind} (c : Change k s t) (mem : k ∈ l) (other : k ≠ .log := by decide) : Path l s t :=
  (Path.refl l s).change c mem other

/-- Records and reports alone. -/
theorem KeptBut.logged {l : List Block} (h : KeptBut l s t) (noted : Noted s t := by simp)
    (sub : ∀ b ∈ l, b ∈ [Block.history, .link, .freeValues] := by decide) : Path [.log] s t :=
  Relation.ReflTransGen.single ⟨.log, by decide, .log (h.mono sub), fun _ => noted⟩

theorem Path.ite {p : Prop} [Decidable p] (yes : Path l s t) (no : Path l s u) : Path l s (if p then t else u) := by
  split <;> assumption

theorem Path.iteAnswer {p : Prop} [Decidable p] {a b : State × Answer} (yes : Path l s a.1) (no : Path l s b.1) :
    Path l s (if p then a else b).1 := by
  split <;> assumption

theorem Path.each {α : Type} {f : α → State → State} (step : ∀ a s, Path l s (f a s)) (as : List α) :
    ∀ s, Path l s (forEach as f s) := by
  induction as with
  | nil => exact fun s => .refl l s
  | cons a as ih => exact fun s => (step a s).trans (ih (f a s))

theorem Path.all {n : Nat} {f : Fin n → State → State} (step : ∀ a s, Path l s (f a s)) (s : State) :
    Path l s (forAll f s) := Path.each step _ s

theorem Path.steps (h : Path l s t) : Steps l s t :=
  Relation.ReflTransGen.mono (fun _ _ ⟨k, mem, c, _⟩ => ⟨k, mem, c⟩) s t h

theorem Path.keeps {P : State → Prop} (h : Path l s t) (keeps : ∀ k ∈ l, ∀ u v, Change k u v → P u → P v) (start : P s) :
    P t := h.steps.keeps keeps start

theorem Path.kept (h : Path l s t) (b : Block) (free : ∀ k ∈ l, b ∉ k.blocks) : b.same s t := h.steps.kept b free

end

end Sys2Proof.Machine
end

