-- ==== Sys2Proof/Proofs/Paths.lean ====
section
/-! The sequence of changes each operation makes: one lemma per operation, in the order of the model's files, up to the
operations of the commands. -/

namespace Sys2Proof.Machine

set_option Elab.async false -- one declaration after another: the check bounds the threads waiting on one another

variable (s : State)

/-! ### The kinds of the chains -/

/-- A line's move: its own state and START-FAIL. -/
abbrev lineKinds : List ChangeKind := [.log, .lineMove, .lineFault]

/-- A zone's level handed to lines and closures. -/
abbrev plantKinds : List ChangeKind := [.log, .lineMove, .lineFault, .closureMove]

/-- A zone's level derived and handed on. -/
abbrev zoneKinds : List ChangeKind := [.log, .lineMove, .lineFault, .closureMove, .zone, .sector]

/-- A cause change, with all it is handed to. -/
abbrev alarmKinds : List ChangeKind := [.log, .lineMove, .lineFault, .closureMove, .zone, .sector, .cause]

/-- The supervision of a channel. -/
abbrev channelKinds : List ChangeKind := [.log, .channel, .channelFault]

/-- A delivery. -/
abbrev deliveryKinds : List ChangeKind :=
  [.log, .lineMove, .lineFault, .closureMove, .zone, .sector, .cause, .lineAside, .station, .channel]

/-- A setting handed to its owner. -/
abbrev settingKinds : List ChangeKind :=
  [.log, .lineMove, .lineFault, .closureMove, .sector, .lineAside, .channel, .channelFault, .blindness]

/-- A restart, from the start of the blocks on. -/
abbrev restartKinds : List ChangeKind :=
  [.log, .lineMove, .lineFault, .closureMove, .zone, .sector, .reentry, .closureFault, .restart]

/-! ### Records, reports and faults -/

theorem State.raiseFault_line_path (n : LineNo) (f : FaultCode) (other : f ≠ .blind) :
    Path [.lineFault] s (s.raiseFault (.line n) f) :=
  .ite (.refl _ s) ((Change.lineFault n f true other).path (by decide))

theorem State.clearFault_line_path (n : LineNo) (f : FaultCode) (other : f ≠ .blind) :
    Path [.lineFault] s (s.clearFault (.line n) f) :=
  .ite ((Change.lineFault n f false other).path (by decide)) (.refl _ s)

theorem State.raiseFault_closure_path (c : ClosureNo) (f : FaultCode) (other : f ≠ .stuck) :
    Path [.closureFault] s (s.raiseFault (.closure c) f) :=
  .ite (.refl _ s) ((Change.closureFault c f true other).path (by decide))

theorem State.clearFault_closure_path (c : ClosureNo) (f : FaultCode) (other : f ≠ .stuck) :
    Path [.closureFault] s (s.clearFault (.closure c) f) :=
  .ite ((Change.closureFault c f false other).path (by decide)) (.refl _ s)

theorem State.raiseFault_detector_path (d : DetNo) (f : FaultCode) :
    Path [.channelFault] s (s.raiseFault (.detector d) f) :=
  .ite (.refl _ s) ((Change.channelFault d f true).path (by decide))

theorem State.clearFault_detector_path (d : DetNo) (f : FaultCode) :
    Path [.channelFault] s (s.clearFault (.detector d) f) :=
  .ite ((Change.channelFault d f false).path (by decide)) (.refl _ s)

theorem State.withFreeCount_path (k : Nat) : Path [.log] s { s with freeCount := k } :=
  KeptBut.logged (l := [.freeValues]) (by intro b hb; cases b <;> simp_all [Block.same]) (.of_same rfl rfl)

theorem State.deriveFault_path : Path [.output] s s.deriveFault := (Change.output s.faultDue).path (by decide)

/-! ### Lines -/

theorem State.stopDone_path (n : LineNo) (stopping : (s.line n).state = .stopping) :
    Path lineKinds s (s.stopDone n) := by
  have moved : Path lineKinds s (s.moveLine n .stopped (s.line n).stopCause (fun x => { x with rundownTimer := none })) :=
    (Change.moveLine (.stopped stopping)).path (by decide)
  exact .ite (moved.andThen (State.raiseFault_line_path _ n _ (by decide)) (by decide)) moved

theorem State.testRundown_path (n : LineNo) : Path lineKinds s (s.testRundown n) := by
  unfold State.testRundown
  split
  · next ended =>
    exact .ite ((Change.moveLine (.off ended.1)).path (by decide)) (s.stopDone_path n ended.1)
  · exact .refl _ s

theorem State.stopLine_path (n : LineNo) (cause : StopCause)
    (moving : (s.line n).state = .starting ∨ (s.line n).state = .run ∨ (s.line n).state = .abort)
    (caused : cause ≠ .none ∨ ((s.line n).state = .abort ∧ cause = (s.line n).stopCause)) :
    Path lineKinds s (s.stopLine n cause) := by
  unfold State.stopLine
  exact ((Change.moveLine (.stopping cause _ moving caused)).path (by decide)).trans (State.testRundown_path _ n)

theorem State.abortLine_path (n : LineNo) (cause : StopCause)
    (moving : (s.line n).state = .starting ∨ (s.line n).state = .run) (caused : cause ≠ .none ∧ cause ≠ .orderly) :
    Path lineKinds s (s.abortLine n cause) := by
  unfold State.abortLine
  exact (Change.moveLine (.abort cause _ _ moving caused)).path (by decide)

@[simp] theorem State.moveLine_line_self_state (n : LineNo) (st : LineState) (cause : StopCause) (f : Line → Line) :
    ((s.moveLine n st cause f).line n).state = st := by
  have lines (t : State) : (t.endWaits n).line n = t.line n := by
    have same : (t.endWaits n).lines = t.lines := t.endWaits_kept n .lines (by decide)
    simp only [State.line, same]
  unfold State.moveLine
  dsimp only
  split <;> simp [lines]

theorem State.runLine_path (n : LineNo) (starting : (s.line n).state = .starting) :
    Path lineKinds s (s.runLine n) := by
  have moved : Path lineKinds s (s.moveLine n .run .none (fun x => { x with startTimer := none })) :=
    (Change.moveLine (.run starting)).path (by decide)
  exact .ite (moved.trans (State.stopLine_path _ n _ (by simp) (by simp))) moved

theorem State.protectLine_path (n : LineNo) (cause : StopCause) (protective : cause ≠ .none ∧ cause ≠ .orderly) :
    Path lineKinds s (s.protectLine n cause) := by
  unfold State.protectLine
  dsimp only
  split
  case h_1 h | h_2 h | h_3 h => exact s.stopLine_path n cause (by simp [h]) (.inl protective.1)
  case h_4 h => exact .ite ((Change.replaceCause n cause h protective).path (by decide)) (.refl _ s)
  case h_5 | h_6 => exact .refl _ s

theorem State.judgeBlind_path : Path [.blindness] s s.judgeBlind :=
  Path.all (fun n t => (Change.judge (s := t) n).path (by decide)) s

/-! ### Closures and zones -/

theorem State.triggerClosure_path (z : ZoneNo) (c : ClosureNo) : Path plantKinds s (s.triggerClosure z c) :=
  .ite ((Change.release c _).path (by decide)) (.refl _ s)

theorem State.testZones_path (c : ClosureNo) : Path plantKinds s (s.testZones c) := by
  unfold State.testZones
  split
  · exact .refl _ s
  · exact .ite (.refl _ s) ((Change.release c _).path (by decide))

theorem State.handLines_path (z : ZoneNo) : Path lineKinds s (s.handLines z) :=
  Path.all (fun n t => .ite (t.protectLine_path n _ (by decide)) (.refl _ t)) s

theorem State.tripEarly_path (z : ZoneNo) (n : LineNo) : Path lineKinds s (s.tripEarly z n) := by
  have free := (s.withFreeCount_path (s.freeCount + 1)).mono (l := lineKinds) (by decide)
  exact .ite (.ite (free.trans (State.protectLine_path _ n _ (by decide))) free) (.refl _ s)

theorem State.handOn_path (z : ZoneNo) : Path plantKinds s (s.handOn z) :=
  (((Path.all (fun n t => t.tripEarly_path z n) s).mono (by decide)).trans
    (Path.all (fun c t => t.triggerClosure_path z c) _)).andThen (State.handLines_path _ z) (by decide)

theorem State.showSectors_path (z : ZoneNo) : Path [.sector] s (s.showSectors z) :=
  Path.all (fun n t => .ite ((Change.highest n).path (by decide)) (.refl _ t)) s

theorem State.handSectors_path (z : ZoneNo) : Path [.sector] s (s.handSectors z) :=
  Path.all (fun n t => .ite ((Change.derive n).path (by decide)) (.refl _ t)) s

theorem State.deriveZone_path (z : ZoneNo) : Path zoneKinds s (s.deriveZone z) := by
  have level : Path zoneKinds s (s.setZone z ⟨levelOfZone s.causes z, some s.uptime⟩) :=
    (Change.zone z).path (by decide)
  exact .ite (.refl _ s) (((level.andThen (State.objEvent_kept _ _ _ _ _ _).logged (by decide)).andThen
    (State.handOn_path _ z) (by decide)).andThen (State.showSectors_path _ z) (by decide))

theorem State.causeChanged_path (z : ZoneNo) : Path zoneKinds s (s.causeChanged z) :=
  (s.deriveZone_path z).andThen (State.handSectors_path _ z) (by decide)

theorem State.deriveChanged_path (before : List Cause) : Path zoneKinds s (s.deriveChanged before) :=
  Path.all (fun z t => .ite (.refl _ t) (t.deriveZone_path z)) s

/-! ### Causes -/

/-- A raise is one change of the cause list; the rest of it follows. -/
theorem State.raiseThen_path {l : List ChangeKind} {after : ZoneNo → State → State}
    (follows : ∀ t y, Path l t (after y t)) (logs : .log ∈ l) (src : Source) (z : ZoneNo) (level : Level)
    (hold : Option Instant) (put : Path l s { s with causes := s.raisedCauses src z level hold }) :
    Path l s (s.raiseThen after src z level hold) := by
  have logged (t : State) (r : Cause) (a b : Option Level) : Path l t (t.causeEvent r a b) :=
    (t.causeEvent_kept r a b).logged.mono (by simpa using logs)
  unfold State.raiseThen
  split
  · next none =>
    simp only [State.raisedCauses, none] at put
    exact (put.trans (logged _ _ _ _)).trans (follows _ _)
  · next r some =>
    simp only [State.raisedCauses, some] at put
    split
    · next rises =>
      simp only [rises, if_true] at put
      exact (put.trans (logged _ _ _ _)).trans (follows _ _)
    · next refreshed =>
      simp only [refreshed, if_false] at put
      exact put

theorem State.raiseCause_path (src : Source) (z : ZoneNo) (l : Level) (hold : Option Instant)
    (may : s.mayRaise src l hold) : Path alarmKinds s (s.raiseCause src z l hold) :=
  s.raiseThen_path (fun t y => (t.causeChanged_path y).mono (by decide)) (by decide) src z l hold
    ((Change.raise src z l hold may).path (by decide))

theorem State.putCause_path (src : Source) (z : ZoneNo) (l : Level) (hold : Option Instant)
    (may : s.mayRaise src l hold) : Path [.log, .cause, .sector] s (s.putCause src z l hold) :=
  s.raiseThen_path (fun t y => (t.handSectors_path y).mono (by decide)) (by decide) src z l hold
    ((Change.raise src z l hold may).path (by decide))

theorem State.dropCause_path (src : Source) : Path [.log, .cause] s (s.dropCause src) := by
  unfold State.dropCause
  split
  · exact .refl _ s
  · exact ((Change.drop src).path (by decide)).andThen (State.causeEvent_kept _ _ _ _).logged (by decide)

theorem State.removeCause_path (src : Source) : Path alarmKinds s (s.removeCause src) := by
  unfold State.removeCause
  split
  · exact .refl _ s
  · exact ((s.dropCause_path src).mono (by decide)).andThen (State.causeChanged_path _ _) (by decide)

theorem State.removeUnlatched_path (src : Source) : Path alarmKinds s (s.removeUnlatched src) := by
  unfold State.removeUnlatched
  split
  · exact .refl _ s
  · exact .ite (.refl _ s) (s.removeCause_path src)

/-! ### Stations and the spark counter -/

theorem State.noWater_path (n : LineNo) : Path (.water :: alarmKinds) s (s.noWater n) := by
  have missed : Path (.water :: alarmKinds) s
      ((s.setStation n { s.station n with confirmTimer := none }).raiseFault (.station n) .noWater) :=
    (Change.waterMissed n).path (by decide)
  have aborted (t : State) : Path (.water :: alarmKinds) t
      (if (t.line n).state = .starting ∨ (t.line n).state = .run then t.abortLine n .noWater else t) := by
    split
    · next moving => exact (t.abortLine_path n _ moving (by decide)).mono (by decide)
    · exact .refl _ t
  unfold State.noWater
  dsimp only
  split
  · exact missed.trans (aborted _)
  · exact (missed.trans (aborted _)).andThen (State.raiseCause_path _ _ _ _ _ ⟨rfl, rfl⟩) (by decide)

theorem State.raiseLineCause_path (n : LineNo) (l : Level) (alarm : l = .alert ∨ l = .fire) :
    Path [.log, .cause, .sector] s (s.raiseLineCause n l) := by
  unfold State.raiseLineCause
  split
  · exact .refl _ s
  · exact s.putCause_path _ _ _ _ ⟨alarm, rfl⟩

theorem State.restartCount_path (n : LineNo) : Path [.lineAside] s (s.restartCount n) :=
  (Change.count n 0 _ (.inl rfl)).path (by decide)

/-- An escalation's kinds. -/
abbrev countKinds : List ChangeKind := [.log, .lineMove, .lineFault, .cause, .sector, .lineAside]

theorem Change.replaceCause_of_line {s : State} {n : LineNo} {x : Line} {cause : StopCause} (named : s.line n = x)
    (stopping : x.state = .stopping) (protective : cause ≠ .none ∧ cause ≠ .orderly) :
    Change .lineMove s (s.setLine n { x with stopCause := cause }) := by
  subst named
  exact .replaceCause n cause stopping protective

theorem State.escalate_path (n : LineNo) (k : Nat) (d : DetNo) : Path countKinds s (s.escalate n k d) := by
  have noted (a b : Byte) (e : Detail) : Path countKinds s ((s.restartCount n).record .escalation a b e) :=
    ((s.restartCount_path n).mono (by decide)).andThen (State.record_kept _ _ _ _ _).logged (by decide)
  have raised {t : State} (h : Path countKinds s t) (l : Level) (alarm : l = .alert ∨ l = .fire) :
      Path countKinds s (t.raiseLineCause n l) := h.andThen (t.raiseLineCause_path n l alarm) (by decide)
  unfold State.escalate
  dsimp only
  split
  case h_1 h | h_2 h =>
    exact raised ((noted _ _ _).andThen (State.abortLine_path _ n _ (by simp [h]) (by decide)) (by decide)) _ (.inl rfl)
  case h_3 h =>
    exact raised ((noted _ _ _).andThen (State.stopLine_path _ n _ (by simp [h]) (.inl (by decide))) (by decide)) _ (.inr rfl)
  case h_4 h =>
    refine raised ?_ _ (.inr rfl)
    split
    · exact (noted _ _ _).change (Change.replaceCause_of_line (by simp) h (by decide)) (by decide)
    · exact noted _ _ _
  case h_5 | h_6 => exact raised (noted _ _ _) _ (.inr rfl)

theorem State.countSpark_path (n : LineNo) (w : Nat) (d : DetNo) : Path countKinds s (s.countSpark n w d) := by
  unfold State.countSpark
  dsimp only
  split
  · exact s.escalate_path n _ d
  · next below => exact (Change.count n _ _ (.inr (by omega))).path (by decide)

theorem State.gateAtLine_path (n : LineNo) : Path lineKinds s (s.gateAtLine n) := by
  unfold State.gateAtLine
  split
  · next h => exact .ite (s.runLine_path n h) (.refl _ s)
  · next h =>
    exact .ite (((s.raiseFault_line_path n .lowFlow (by decide)).mono (by decide)).trans
      (State.stopLine_path _ n _ (by simp [h]) (.inl (by decide)))) (.refl _ s)
  · exact s.testRundown_path n
  all_goals exact .refl _ s

/-! ### Detector channels -/

theorem State.dropCandidate_path (d : DetNo) (r : Byte) : Path [.log, .channel] s (s.dropCandidate d r) := by
  unfold State.dropCandidate
  split
  · exact .refl _ s
  · exact ((Change.channel d { s.det d with candidate := none } rfl).path (by decide)).andThen
      (State.record_kept _ _ _ _ _).logged (by decide)

theorem State.raiseDet_path (d : DetNo) (f : FaultCode) : Path channelKinds s (s.raiseDet d f) :=
  .ite (.refl _ s) (((s.raiseFault_detector_path d f).mono (by decide)).andThen (State.dropCandidate_path _ d _)
    (by decide))

theorem State.applyLevel_path (d : DetNo) (l : Fin 16) : Path channelKinds s (s.applyLevel d l) := by
  have put (o r : Nat) : Path channelKinds s
      (s.setDet d { s.det d with busy := false, lastLevel := some l, openRun := o, shortRun := r }) :=
    (Change.channel d _ (by rfl)).path (by decide)
  have raised {t : State} (h : Path channelKinds s t) (f g : FaultCode) :
      Path channelKinds s ((t.raiseDet d f).clearFault (.detector d) g) :=
    (h.trans (t.raiseDet_path d f)).andThen (State.clearFault_detector_path _ d g) (by decide)
  have clear {t : State} (h : Path channelKinds s t) (f : FaultCode) :
      Path channelKinds s (t.clearFault (.detector d) f) :=
    h.andThen (t.clearFault_detector_path d f) (by decide)
  unfold State.applyLevel
  dsimp only
  exact .ite (raised (put _ _) _ _) (.ite (raised (put _ _) _ _) (.ite (clear (clear (put _ _) _) _)
    (.ite (clear (put _ _) _) (put _ _))))

theorem State.turnOff_path (d : DetNo) : Path channelKinds s (s.turnOff d) := by
  unfold State.turnOff
  exact (((Change.channel d _ (by rfl)).path (by decide)).andThen (State.clearFault_detector_path _ d _)
    (by decide)).andThen (State.clearFault_detector_path _ d _) (by decide)

theorem State.startSample_path (d : DetNo) : Path [.channel] s (s.startSample d) := by
  unfold State.startSample
  exact (Change.channel d _ (by rfl)).path (by decide)

theorem State.takeMode_path (d : DetNo) (m : Supervision) : Path channelKinds s (s.takeMode d m) := by
  have put (m : Supervision) : Path channelKinds s (s.setDet d { s.det d with mode := m, nextMode := none }) :=
    (Change.channel d _ (by rfl)).path (by decide)
  unfold State.takeMode
  dsimp only
  split
  · exact (Change.channel d _ (by rfl)).path (by decide)
  · split
    · exact s.turnOff_path d
    · exact .ite ((put m).andThen (State.startSample_path _ d) (by decide)) (put m)

theorem State.deriveMode_path (d : DetNo) : Path channelKinds s (s.deriveMode d) := by
  unfold State.deriveMode
  exact .ite ((Change.channel d _ (by rfl)).path (by decide)) (s.takeMode_path d _)

theorem State.takeWaitingMode_path (d : DetNo) : Path channelKinds s (s.takeWaitingMode d) := by
  unfold State.takeWaitingMode
  split
  · exact .refl _ s
  · exact s.turnOff_path d
  · exact (Change.channel d _ (by rfl)).path (by decide)

theorem State.beginGlare_path (d : DetNo) : Path channelKinds s (s.beginGlare d) := by
  unfold State.beginGlare
  exact ((Change.channel d _ (by rfl)).path (by decide)).trans (State.raiseDet_path _ d _)

theorem State.endGlare_path (d : DetNo) : Path channelKinds s (s.endGlare d) := by
  unfold State.endGlare
  exact ((Change.channel d _ (by rfl)).path (by decide)).andThen (State.clearFault_detector_path _ d _) (by decide)

theorem State.offerSpark_path (d : DetNo) : Path [.station] s (s.offerSpark d) := by
  unfold State.offerSpark
  split
  · exact (Change.offerWindow _ _).path (by decide)
  · exact .refl _ s

theorem State.countAt_path (d : DetNo) (w : Nat) : Path countKinds s (s.countAt d w) := by
  unfold State.countAt
  split
  · exact .refl _ s
  · exact s.countSpark_path _ w d

theorem State.sparkCause_path (d : DetNo) : Path [.log, .cause, .sector] s (s.sparkCause d) := by
  unfold State.sparkCause
  split
  · exact .refl _ s
  · exact s.putCause_path _ _ _ _ ⟨rfl, by simp⟩

theorem State.deliver_path (d : DetNo) (e : Bool) (w : Nat) (c : Bool) : Path deliveryKinds s (s.deliver d e w c) := by
  unfold State.deliver
  exact (((((((s.offerSpark_path d).mono (by decide)).change
    (Change.channel d _ (by rfl)) (by decide)).andThen (State.record_kept _ _ _ _ _).logged (by decide)).andThen
    (State.report_kept _ _ _).logged (by decide)).andThen (State.countAt_path _ d w) (by decide)).andThen
    (State.sparkCause_path _ d) (by decide)).andThen (State.deriveChanged_path _ _) (by decide)

theorem State.watchPulse_path (d : DetNo) (e : Bool) (w : Nat) : Path deliveryKinds s (s.watchPulse d e w) := by
  have put (t : State) (x : Detector) (lit : x.lit = (t.det d).lit) : Path deliveryKinds t (t.setDet d x) :=
    (Change.channel d x lit).path (by decide)
  unfold State.watchPulse
  dsimp only
  split
  · exact put _ _ rfl
  · exact .ite ((put _ _ (by rfl)).trans (State.deliver_path _ _ _ _ _))
      (((s.dropCandidate_path d 1).mono (by decide)).trans (put _ _ rfl))

theorem State.qualified_path (d : DetNo) (e : Bool) : Path deliveryKinds s (s.qualified d e) := by
  unfold State.qualified
  dsimp only
  split
  · exact s.deliver_path _ _ _ _
  · exact s.watchPulse_path _ _ _

/-! ### Fire inputs, zones and shift modes -/

/-- A debounced change of a fire input, with its record (R87, R88). -/
theorem State.debounced_path (f : InputNo) (p : Debounce) : Path (.input :: alarmKinds) s
    ((s.setInput f { s.input f with phase := p, timer := none }).inputRecord f p) :=
  ((Change.input f _ (by rfl)).path (by decide)).andThen (State.record_kept _ _ _ _ _).logged (by decide)

/-- What follows the record of a debounced activation: the raise of the input's cause (R87). -/
theorem State.inputOn_rest (f : InputNo) : Path alarmKinds
    ((s.setInput f { s.input f with phase := .on, timer := none }).inputRecord f .on) (s.inputOn f) := by
  unfold State.inputOn
  dsimp only
  split
  · exact .refl _ _
  · next able =>
    split
    · exact .refl _ _
    · next z _ =>
      have alarm (l : AlarmLevel) : l.level = .alert ∨ l.level = .fire := by cases l <;> simp [AlarmLevel.level]
      exact State.raiseCause_path _ _ _ _ _ ⟨alarm _, rfl, by simp [State.inputRecord], by simpa using able⟩

theorem State.inputOn_path (f : InputNo) : Path (.input :: alarmKinds) s (s.inputOn f) :=
  (s.debounced_path f .on).andThen (s.inputOn_rest f) (by decide)

theorem State.inputOff_path (f : InputNo) : Path (.input :: alarmKinds) s (s.inputOff f) :=
  (s.debounced_path f .idle).andThen (State.removeUnlatched_path _ _) (by decide)

theorem State.resetZoneReq_path (num : Nat) : Path alarmKinds s (s.resetZoneReq num).1 := by
  unfold State.resetZoneReq
  split
  · exact .refl _ s
  · next z _ =>
    have handed (r : Cause) (t : State) : Path alarmKinds t (t.dropHanded z r.source) :=
      ((t.dropCause_path r.source).mono (by decide)).andThen (State.handSectors_path _ z) (by decide)
    exact (Path.each handed (s.causes.filter (s.resettable z)) s).andThen (State.deriveZone_path _ z) (by decide)

/-- A change of shift mode, with the channels and the lines' blindness. -/
abbrev shiftKinds : List ChangeKind := [.shift, .log, .channel, .channelFault, .blindness, .meter]

theorem State.putShift_path (m : Shift) (still : m = .watch → s.lineBusy = none) :
    Path shiftKinds s (s.putShift m) :=
  ((Change.shift m still).path (by decide)).andThen (State.event_kept _ _ _ _ _ _ _).logged (by decide)

theorem State.shiftTaken_path (m : Shift) (still : m = .watch → s.lineBusy = none) :
    Path shiftKinds s (forAll State.deriveMode (s.putShift m)).judgeBlind :=
  ((s.putShift_path m still).trans (Path.all (fun d t => (t.deriveMode_path d).mono (by decide)) _)).andThen
    (State.judgeBlind_path _) (by decide)

theorem State.toWatch_rest : Path [.meter] (forAll State.deriveMode (s.putShift .watch)).judgeBlind s.toWatch :=
  Path.all (fun n t => (Change.meter (s := t) n _).path (by decide)) _

theorem State.toWatch_path (still : s.lineBusy = none) : Path shiftKinds s s.toWatch :=
  (s.shiftTaken_path .watch fun _ => still).andThen s.toWatch_rest (by decide)

theorem State.toDay_rest : Path [.log, .channel, .meter] (forAll State.deriveMode (s.putShift .day)).judgeBlind s.toDay :=
  (Path.all (fun d t => (t.dropCandidate_path d 4).mono (by decide)) _).trans
    (Path.all (fun n t => (Change.meter (s := t) n _).path (by decide)) _)

theorem State.toDay_path : Path shiftKinds s s.toDay :=
  (s.shiftTaken_path .day (by simp)).andThen s.toDay_rest (by decide)

theorem State.setShiftReq_path (mode : Nat) : Path shiftKinds s (s.setShiftReq mode).1 := by
  unfold State.setShiftReq
  split
  case h_2 => exact s.toDay_path
  case h_4 =>
    split
    · exact .refl _ s
    · next still => exact s.toWatch_path still
  all_goals exact .refl _ s

/-! ### Closures -/

/-- A closure back at READY or HELD, or SHUT, with no wait. -/
theorem Closure.TimersFor.stopped {x : Closure} {st : ClosureState} (no : st ≠ .stuck ∧ st ≠ .waiting ∧ st ≠ .releasing) :
    x.TimersFor st .none { x with travelTimer := none, waitTimer := none } :=
  ⟨rfl, by simp [no.1], by simp, by simp [no.2.2], by simp [no.2.1], by simp⟩

/-- A closure let go: its travel timer runs. -/
theorem Closure.TimersFor.travel {x : Closure} {t : Instant} :
    x.TimersFor .releasing .none { x with travelTimer := some t, waitTimer := none } :=
  ⟨rfl, by simp, by simp, by simp, by simp, by simp⟩

/-- A closure at READY, its travel timer running or not. -/
theorem Closure.TimersFor.ready {x : Closure} {t : Option Instant} :
    x.TimersFor .ready .none { x with travelTimer := t, waitTimer := none } :=
  ⟨rfl, by simp, by simp, by simp, by simp, by simp⟩

/-- A closure STUCK after its travel timer has run out. -/
theorem Closure.TimersFor.stuck {x : Closure} {dir : Direction} (stuck : dir ≠ .none) (moving : x.state ≠ .waiting) :
    x.TimersFor .stuck dir { x with travelTimer := none } :=
  ⟨rfl, by simp [stuck], by simp, by simp, by simp, by simp [moving]⟩

/-- A damper waiting on its fan. -/
theorem Closure.TimersFor.wait {x : Closure} {t : Instant} :
    x.TimersFor .waiting .none { x with travelTimer := none, waitTimer := some t } :=
  ⟨rfl, by simp, by simp, by simp, by simp, by simp⟩

section
variable {c : ClosureNo}

theorem State.holdOpen_path (open_ : (s.closure c).state ≠ .shut) (left : (s.closure c).state ≠ .held) :
    Path [.closureMove] s (s.holdOpen c) :=
  (Change.moveClosure _ open_ (.stopped (by decide)) (by decide) (fun held => absurd held left)).path (by decide)

theorem State.shutClosure_path (open_ : (s.closure c).state ≠ .shut) (left : (s.closure c).state ≠ .held) :
    Path [.closureMove] s (s.shutClosure c) :=
  (Change.moveClosure _ open_ (.stopped (by decide)) (by decide) (fun held => absurd held left)).path (by decide)

@[simp] theorem State.endActivity_closure (t : Target) (e : ClosureNo) :
    (s.endActivity t).closure e = s.closure e := by
  have same : (s.endActivity t).closures = s.closures := s.endActivity_kept t .closures (by decide)
  simp only [State.closure, same]

/-- The closure a move leaves: as it was where it is in that state already, else with the state, direction, output,
instant and timers of the move. -/
theorem State.moveClosure_closure_self (st : ClosureState) (dir : Direction) (o : ReleaseOrigin)
    (f : Closure → Closure) : (s.moveClosure c st dir o f).closure c =
      if (s.closure c).state = st then s.closure c
      else { f (s.closure c) with state := st, direction := dir, hold := holdFor st dir, entered := s.uptime } := by
  unfold State.moveClosure
  dsimp only
  split
  · rfl
  · split_ifs <;> simp

theorem State.moveClosure_closure_state (st : ClosureState) (dir : Direction) (o : ReleaseOrigin)
    (f : Closure → Closure) : ((s.moveClosure c st dir o f).closure c).state = st := by
  rw [State.moveClosure_closure_self]
  split <;> simp_all

theorem State.makeReady_path (held : (s.closure c).state = .held) (passage : (s.closureCfg c).kind = .passage) :
    Path [.closureMove] s (s.makeReady c) := by
  have moved (t : Option Instant) : Path [.closureMove] s
      (s.moveClosure c .ready .none .none (fun x => { x with travelTimer := t, waitTimer := none })) :=
    (Change.moveClosure _ (by simp [held]) .ready (by decide) (fun _ => passage)).path (by decide)
  exact .ite ((moved _).trans (State.holdOpen_path _ (by simp [State.moveClosure_closure_state])
    (by simp [State.moveClosure_closure_state]))) (moved _)

theorem State.endWait_path : Path [.closureMove] s (s.endWait c) := by
  unfold State.endWait
  split
  · next waiting =>
    have travel : Path [.closureMove] s (s.startTravel c .none) := by
      unfold State.startTravel
      exact (Change.moveClosure _ (by simp [waiting]) .travel (by decide) (by simp [waiting])).path (by decide)
    have left : ((s.startTravel c .none).closure c).state = .releasing := by
      simp [State.startTravel, State.moveClosure_closure_state]
    exact .ite (travel.trans (State.shutClosure_path _ (by simp [left]) (by simp [left]))) travel
  · exact .refl _ s

theorem State.closedReached_path (c : ClosureNo) : Path [.closureMove, .closureFault] s (s.closedReached c) := by
  unfold State.closedReached
  split
  · next held =>
    split
    · next passage => exact (s.makeReady_path held passage).mono (by decide)
    · next damper => exact (Change.shutDamper c held damper).path (by decide)
  · next h => exact (s.shutClosure_path (by simp [h]) (by simp [h])).mono (by decide)
  · next h => exact (s.shutClosure_path (by simp [h]) (by simp [h])).mono (by decide)
  · exact (s.clearFault_closure_path c _ (by decide)).mono (by decide)
  · next h => exact .ite ((s.shutClosure_path (by simp [h]) (by simp [h])).mono (by decide)) (.refl _ s)
  · exact .refl _ s

theorem State.openReached_path (c : ClosureNo) : Path [.closureMove, .closureFault] s (s.openReached c) := by
  unfold State.openReached
  split
  · next h => exact (s.holdOpen_path (by simp [h]) (by simp [h])).mono (by decide)
  · exact (s.raiseFault_closure_path c _ (by decide)).mono (by decide)
  · next h => exact .ite ((s.holdOpen_path (by simp [h]) (by simp [h])).mono (by decide)) (.refl _ s)
  all_goals exact .refl _ s

theorem State.releaseReq_path (num : Nat) : Path [.closureMove] s (s.releaseReq num).1 := by
  unfold State.releaseReq
  split
  · exact .refl _ s
  · exact .iteAnswer (.refl _ s) ((Change.release _ _).path (by decide))

theorem State.resetClosureReq_path (num : Nat) : Path [.closureLift] s (s.resetClosureReq num).1 := by
  unfold State.resetClosureReq
  split
  · exact .refl _ s
  · dsimp only
    split
    · exact .refl _ s
    · next locked =>
      split
      · exact .refl _ s
      · next clear => exact (Change.reopen _ (not_not.mp locked) clear).path (by decide)

end

/-! ### Requests to lines and stations -/

theorem State.startReq_path (num : Nat) : Path [.lineMove] s (s.startReq num).1 := by
  unfold State.startReq
  split
  · exact .refl _ s
  · dsimp only
    split
    · exact .refl _ s
    · next off =>
      split
      · exact .refl _ s
      · next day =>
        split
        case h_4 held _ =>
          exact (Change.moveLine (.starting _ _ (not_not.mp off)) fun _ => ⟨not_not.mp day, held⟩).path (by decide)
        all_goals exact .refl _ s

theorem State.stopReq_path (num : Nat) : Path lineKinds s (s.stopReq num).1 := by
  unfold State.stopReq
  split
  · exact .refl _ s
  · split
    case h_2 h | h_3 h => exact s.stopLine_path _ _ (by simp [h]) (.inl (by decide))
    all_goals exact .refl _ s

/-- RESET-LINE's kinds. -/
abbrev clearKinds : List ChangeKind :=
  [.log, .lineMove, .lineFault, .closureMove, .zone, .sector, .cause, .lineAside, .lineLift]

theorem State.clearLine_path (n : LineNo) (locked : (s.line n).state = .stopped ∨ (s.line n).state = .off) :
    Path clearKinds s (s.clearLine n) := by
  have lifted : Path clearKinds s (if (s.line n).state = .off then
      s.setLine n { s.line n with gate := false, gateTimer := none }
      else s.moveLine n .off .none (fun x => { x with gateTimer := none })) := by
    split
    · next off => exact (Change.liftOff n off).path (by decide)
    · next on => exact (Change.liftStopped n (locked.resolve_right on)).path (by decide)
  have cleared (t : State) : Path clearKinds t
      (forEach resetLineFaults (fun f t => t.clearFault (.line n) f) t) := by
    have one (f : FaultCode) (other : f ≠ .blind) (u : State) : Path clearKinds u (u.clearFault (.line n) f) :=
      (u.clearFault_line_path n f other).mono (by decide)
    exact (((one .lowFlow (by decide) _).trans (one .gate (by decide) _)).trans (one .rundown (by decide) _)).trans
      (one .startFail (by decide) _)
  exact ((lifted.andThen (State.removeCause_path _ _) (by decide)).trans (cleared _)).andThen
    (State.restartCount_path _ n) (by decide)

theorem State.resetLineReq_path (num : Nat) : Path clearKinds s (s.resetLineReq num).1 := by
  unfold State.resetLineReq
  split
  · exact .refl _ s
  · dsimp only
    split
    · exact .refl _ s
    · next locked =>
      refine .iteAnswer (.refl _ s) ?_
      split
      · exact .refl _ s
      · exact s.clearLine_path _ (by rw [not_not] at locked; exact locked.imp_right And.left)

theorem State.resetStationReq_path (num : Nat) : Path (.water :: alarmKinds) s (s.resetStationReq num).1 := by
  unfold State.resetStationReq
  split
  · exact .refl _ s
  · exact .iteAnswer (.refl _ s) (((Change.waterReset _).path (by decide)).andThen (State.removeCause_path _ _)
      (by decide))

theorem State.floodReq_path (num seconds : Nat) : Path [.station, .log] s (s.floodReq num seconds).1 := by
  unfold State.floodReq
  split
  · exact .refl _ s
  · exact .iteAnswer (.refl _ s) (((Change.offerWindow _ _).path (by decide)).andThen
      (State.record_kept _ _ _ _ _).logged (by decide))

/-! ### Requests to sectors, and requests that change nothing -/

theorem State.silenceReq_path (num : Nat) : Path [.cause, .hush] s (s.silenceReq num).1 := by
  unfold State.silenceReq
  split
  · exact .refl _ s
  · next n _ =>
    dsimp only
    split
    · exact .refl _ s
    · next sounding =>
      exact .iteAnswer (.refl _ s) (((Change.mark n).path (by decide)).change
        (Change.silence n (not_not.mp sounding : (s.sector n).state = .sounding)) (by decide))

theorem State.testReq_path (num pattern seconds : Nat) : Path [.sector] s (s.testReq num pattern seconds).1 := by
  unfold State.testReq
  split
  · next n p _ _ =>
    refine .iteAnswer (.refl _ s) ?_
    dsimp only
    split
    · exact .refl _ s
    · next quiet => exact (Change.test n p _ (by simpa using quiet)).path (by decide)
  · exact .refl _ s

theorem State.readObjectReq_state (kind num : Nat) : (s.readObjectReq kind num).1 = s := by
  unfold State.readObjectReq
  split <;> rfl

theorem State.readCausesReq_state (zone first count : Nat) : (s.readCausesReq zone first count).1 = s := by
  unfold State.readCausesReq
  split <;> rfl

theorem State.readReq_state (sec index field : Nat) : (s.readReq sec index field).1 = s := by
  unfold State.readReq
  split <;> rfl

/-! ### The disablement table -/

theorem State.discardPrepare_path (r : Byte) : Path [.plan, .log] s (s.discardPrepare r) := by
  unfold State.discardPrepare
  split
  · exact .refl _ s
  · exact (Change.discard.path (by decide)).andThen (State.disEvent_kept _ _ _ _ _ _).logged (by decide)

theorem State.sequenceError_path (t : Target) (detail : Nat) : Path [.plan, .log] s (s.sequenceError t detail).1 := by
  have latched : Path [.plan, .log] s { s with dis := { s.dis with prepare := none, latch := true } } :=
    (Change.latch true).path (by decide)
  exact latched.andThen (State.disEvent_kept _ .sequenceError (some t) _ _ _).logged (by decide)

theorem State.prepareReq_path (kind num limit : Nat) : Path [.plan, .log] s (s.prepareReq kind num limit).1 := by
  unfold State.prepareReq
  split
  · exact .refl _ s
  · next t _ =>
    dsimp only
    split
    · exact .refl _ s
    · next service =>
      split
      · exact .refl _ s
      · next latch =>
        refine .iteAnswer (s.sequenceError_path t 2) ?_
        split
        · exact .refl _ s
        · next free =>
          split
          · exact .refl _ s
          · next room =>
            dsimp only
            exact (Change.path (l := [.plan, .log]) (Change.prepare t (min limit 1440) (by simpa using service)
              (by simpa using latch) (by simpa using free) (by simpa [Config.tableCapacity] using room) (by omega))
              (by decide)).andThen (State.disEvent_kept _ _ _ _ _ _).logged (by decide)

theorem State.clearLatchReq_path : Path [.plan, .log] s s.clearLatchReq.1 := by
  unfold State.clearLatchReq
  refine .iteAnswer (.refl _ s) ?_
  split
  · next latch =>
    have unlatched : Path [.plan, .log] s { s with dis := { s.dis with latch := false } } :=
      (Change.unlatch latch).path (by decide)
    exact unlatched.andThen (State.disEvent_kept _ .latchCleared none _ _ _).logged (by decide)
  · exact .refl _ s

/-- The effects of an entry, created or removed, at its target. -/
abbrev effectKinds : List ChangeKind :=
  [.log, .lineMove, .lineFault, .closureMove, .zone, .sector, .cause, .channel, .blindness, .input]

/-- An entry created or removed, with its effects. -/
abbrev entryKinds : List ChangeKind :=
  [.log, .lineMove, .lineFault, .closureMove, .zone, .sector, .cause, .channel, .blindness, .input, .plan, .table, .output]

theorem State.entryActive_path (t : Target) : Path effectKinds s (s.entryActive t) := by
  cases t with
  | detector d =>
    exact (((s.dropCandidate_path d 3).mono (by decide)).andThen (State.removeCause_path _ _) (by decide)).andThen
      (State.judgeBlind_path _) (by decide)
  | fireInput f => exact (s.removeUnlatched_path _).mono (by decide)
  | sector n => exact (Change.siren n).path (by decide)
  | station | closure => exact .refl _ s

theorem State.entryRemoved_path (t : Target) : Path effectKinds s (s.entryRemoved t) := by
  cases t with
  | detector d => exact s.judgeBlind_path.mono (by decide)
  | fireInput f =>
    refine (Change.input f _ ?_).path (by decide)
    unfold FireInput.anew
    split <;> simp_all
  | sector n => exact (Change.siren n).path (by decide)
  | closure c => exact (s.testZones_path c).mono (by decide)
  | station => exact .refl _ s

theorem State.removeEntry_path (t : Target) (r : Byte) : Path entryKinds s (s.removeEntry t r) := by
  unfold State.removeEntry
  split
  · exact .refl _ s
  · have removed (e : Byte) (m : Nat) : Path entryKinds s
        ({ s with dis := { s.dis with entries := s.dis.entries.filter fun x => x.target ≠ t } }.disEvent .removed
          (some t) e m r) :=
      ((Change.remove t).path (by decide)).andThen (State.disEvent_kept _ _ _ _ _ _).logged (by decide)
    exact .ite (((removed _ _).andThen (State.deriveFault_path _) (by decide)).andThen (State.entryRemoved_path _ t) (by decide))
      (removed _ _)

theorem State.createEntry_path (p : Prepare) (prepared : s.dis.prepare = some p) :
    Path entryKinds s (s.createEntry p).1 := by
  have created (e : Byte) (m : Nat) : Path entryKinds s
      ({ s with dis := { s.dis with prepare := none, entries := s.dis.entries ++ [s.newEntry p] } }.disEvent .created
        (some p.target) e m 0) :=
    ((Change.create p prepared).path (by decide)).andThen (State.disEvent_kept _ _ _ _ _ _).logged (by decide)
  exact .ite (((created _ _).andThen (State.deriveFault_path _) (by decide)).andThen (State.entryActive_path _ _) (by decide))
    (created _ _)

theorem State.confirmReq_path (kind num : Nat) : Path entryKinds s (s.confirmReq kind num).1 := by
  unfold State.confirmReq
  split
  · exact .refl _ s
  · refine .iteAnswer (.refl _ s) (.iteAnswer (.refl _ s) ?_)
    split
    · exact (s.sequenceError_path _ _).mono (by decide)
    · next p prepared => exact .iteAnswer (s.createEntry_path p prepared) ((s.sequenceError_path _ _).mono (by decide))

theorem State.enableReq_path (kind num : Nat) : Path entryKinds s (s.enableReq kind num).1 := by
  unfold State.enableReq
  split
  · exact .refl _ s
  · exact s.removeEntry_path _ _

/-! ### The settings store -/

/-- A setting of an owner other than a detector, handed to it. -/
theorem State.handSetting_path_of_not_detector {name : SettingName} (other : ∀ d f, name ≠ .detector d f) :
    Path [.log, .lineMove, .lineFault, .closureMove, .sector, .lineAside] s (s.handSetting name) := by
  cases name with
  | detector d f => exact absurd rfl (other d f)
  | line n f => exact .ite ((s.restartCount_path n).mono (by decide)) (.refl _ s)
  | closure c f => exact .ite ((s.testZones_path c).mono (by decide)) (.refl _ s)
  | sector n f =>
    have pattern (l : Demand) : Path [.log, .lineMove, .lineFault, .closureMove, .sector, .lineAside] s
        (s.sectorPatternWritten n l) := by
      unfold State.sectorPatternWritten
      dsimp only
      split
      · next playing => exact (Change.switch n l playing).path (by decide)
      · exact .refl _ s
    unfold State.handSetting
    dsimp only
    split
    · exact ((Change.highest n).path (by decide)).change (Change.derive n) (by decide)
    · exact pattern _
    · exact pattern _
    · exact .refl _ s
  | pattern p f =>
    refine Path.all (fun n t => ?_) s
    split
    · next idle => exact (Change.cycle n p idle).path (by decide)
    · exact .refl _ t
  | input | general => exact .refl _ s

theorem State.handSetting_path (name : SettingName) : Path settingKinds s (s.handSetting name) := by
  by_cases detector : ∃ d f, name = .detector d f
  · obtain ⟨d, f, rfl⟩ := detector
    have judged (t : State) : Path settingKinds t t.judgeBlind := t.judgeBlind_path.mono (by decide)
    unfold State.handSetting
    dsimp only
    split
    · exact judged s
    · exact .ite (((s.beginGlare_path d).mono (by decide)).trans (judged _)) (.refl _ s)
    · exact .ite (((s.endGlare_path d).mono (by decide)).trans (judged _)) (.refl _ s)
    · exact ((s.deriveMode_path d).mono (by decide)).trans (judged _)
    · exact .refl _ s
  · exact (s.handSetting_path_of_not_detector fun d f same => detector ⟨d, f, same⟩).mono (by decide)

/-- WRITE-SETTING's kinds, and with the store operation those of LOAD-DEFAULTS. -/
abbrev writeKinds : List ChangeKind := .live :: .flags :: settingKinds

theorem State.writeReq_path (sec index field v : Nat) : Path writeKinds s (s.writeReq sec index field v).1 := by
  unfold State.writeReq
  split
  · exact .refl _ s
  · next name _ =>
    refine .iteAnswer (.refl _ s) (.iteAnswer (.refl _ s) ?_)
    split
    · exact .refl _ s
    · next accepted =>
      exact (((((Change.write name v (by simpa using accepted)).path (by decide)).change
        (Change.flags _ _ (by rfl) (by rfl)) (by decide)).andThen (State.record_kept _ _ _ _ _).logged (by decide)).andThen
        (State.handSetting_path _ name) (by decide))

theorem State.opStart_path (op : StoreOp) : Path [.log] s (s.opStart op) := (s.record_kept _ _ _ _).logged

theorem State.saveReq_path : Path [.log, .stored] s s.saveReq.1 :=
  .iteAnswer (.refl _ s) (((s.opStart_path .save).mono (by decide)).change (Change.beginSection _ _ _ _ _) (by decide))

theorem State.lockReq_path (sec : Nat) : Path [.log, .flags, .stored] s (s.lockReq sec).1 := by
  unfold State.lockReq
  split
  · exact .refl _ s
  · exact .iteAnswer (.refl _ s) (.iteAnswer (.refl _ s) ((((Change.flags _ _ (by rfl) (by rfl)).path (by decide)).andThen
      (State.opStart_path _ .lock) (by decide)).change (Change.beginSection _ _ _ _ _) (by decide)))

theorem State.restoreSection_path (k : StoreSection) (accepted : s.defaultsRefused k = none) :
    Path writeKinds s (s.restoreSection k) :=
  (((Change.defaults k accepted).path (by decide)).change (Change.flags k _ (by rfl) (by rfl)) (by decide)).trans
    (Path.each (fun _ t => Path.each (fun name u => (u.handSetting_path name).mono (by decide)) _ t) _ _)

theorem State.defaultsReq_path (sec : Nat) : Path (.stored :: writeKinds) s (s.defaultsReq sec).1 := by
  unfold State.defaultsReq
  split
  · exact .refl _ s
  · refine .iteAnswer (.refl _ s) (.iteAnswer (.refl _ s) ?_)
    split
    · exact .refl _ s
    · next accepted =>
      exact (((s.restoreSection_path _ accepted).mono (by decide)).andThen (State.opStart_path _ .defaults)
        (by decide)).change (Change.beginSection _ _ _ _ _) (by decide)

theorem State.endSection_path (good : Bool) : Path [.storeResult, .stored, .log] s (s.endSection good) := by
  unfold State.endSection
  split
  · exact .refl _ s
  · dsimp only
    split
    · exact (((Change.result _ good).path (by decide)).change Change.writeOver (by decide)).andThen
        (State.objEvent_kept _ _ _ _ _ _).logged (by decide)
    · exact ((Change.result _ good).path (by decide)).change (Change.beginSection _ _ _ _ _) (by decide)

/-! ### Resets -/

theorem State.powerOn_path : Path [.clock, .powerOn] s s.powerOn :=
  (Change.clock.path (by decide)).change Change.powerOn (by decide)

/-- What follows the start of the blocks in a restart. -/
abbrev startedKinds : List ChangeKind :=
  [.log, .lineMove, .lineFault, .closureMove, .zone, .sector, .reentry, .closureFault]

theorem State.reenter_path (before : State) (n : LineNo) : Path startedKinds s (before.reenter n s) := by
  unfold State.reenter
  split
  · unfold State.raiseLineCause
    split
    · exact .refl _ s
    · exact s.raiseThen_path (fun t y => (t.handSectors_path y).mono (by decide)) (by decide) _ _ _ _
        ((Change.reentry n _ _).path (by decide))
  · exact .refl _ s

theorem State.restart_rest (source : StartSource) :
    Path startedKinds ((s.startBlocks true).announce 2 source) (s.restart source) :=
  ((Path.all (fun c t => .ite ((t.raiseFault_closure_path c _ (by decide)).mono (by decide)) (.refl _ t)) _).trans
    (Path.all (fun n t => t.reenter_path s n) _)).andThen (State.deriveChanged_path _ _) (by decide)

theorem State.restart_path (source : StartSource) : Path restartKinds s (s.restart source) :=
  ((Change.restart source).path (by decide)).andThen (s.restart_rest source) (by decide)

end Sys2Proof.Machine
end

