-- ==== Sys2Proof/Proofs/PlantMoves.lean ====
section
/-! What the moves of lines and closures come to: `PlantMove` is one write of a line or a closure with its condition, and
every change of the kinds `lineMove`, `lineFault` and `closureMove` is a sequence of them (`Change.moves`). An invariant
that speaks of no line and closure together is kept by these writes alone. -/

namespace Sys2Proof.Machine

set_option Elab.async false -- one declaration after another: the check bounds the threads waiting on one another

/-- One write of a line or a closure. -/
inductive PlantMove : State → State → Prop
  | log {s t} (kept : KeptBut [.history, .link, .freeValues] s t) (noted : Noted s t := by simp) : PlantMove s t
  | enter {s} {n : LineNo} {st : LineState} {cause : StopCause} {f : Line → Line}
      (enters : (s.line n).Enters st cause f) (day : st = .starting → s.shift = .day := by simp) :
      PlantMove s (s.setLine n ((s.line n).entering st cause f s.uptime))
  | replaceCause {s} (n : LineNo) (cause : StopCause) (stopping : (s.line n).state = .stopping)
      (protective : cause ≠ .none ∧ cause ≠ .orderly) : PlantMove s (s.setLine n { s.line n with stopCause := cause })
  | lineFault {s} (n : LineNo) (f : FaultCode) (r : Bool) (other : f ≠ .blind) : PlantMove s (s.putFault (.line n) f r)
  | origin {s} (c : ClosureNo) (o : ReleaseOrigin) : PlantMove s (s.setClosure c { s.closure c with origin := o })
  | moveClosure {s} {c : ClosureNo} {st : ClosureState} {dir : Direction} (o : ReleaseOrigin) {f : Closure → Closure}
      (open_ : (s.closure c).state ≠ .shut) (timers : (s.closure c).TimersFor st dir (f (s.closure c))) :
      PlantMove s (s.moveClosure c st dir o f)

/-- A sequence of writes of lines and closures. -/
def PlantMoves : State → State → Prop := Relation.ReflTransGen PlantMove

section
variable {s t u : State}

theorem PlantMoves.refl (s : State) : PlantMoves s s := Relation.ReflTransGen.refl

theorem PlantMoves.trans (h : PlantMoves s t) (h' : PlantMoves t u) : PlantMoves s u := Relation.ReflTransGen.trans h h'

theorem PlantMove.moves (h : PlantMove s t) : PlantMoves s t := Relation.ReflTransGen.single h

theorem PlantMoves.ite {p : Prop} [Decidable p] (yes : PlantMoves s t) (no : PlantMoves s u) :
    PlantMoves s (if p then t else u) := by
  split <;> assumption

theorem PlantMoves.all {k : Nat} {f : Fin k → State → State} (step : ∀ i s, PlantMoves s (f i s)) (s : State) :
    PlantMoves s (forAll f s) := by
  have each (l : List (Fin k)) : ∀ s, PlantMoves s (forEach l f s) := by
    induction l with
    | nil => exact fun s => .refl s
    | cons a l ih => exact fun s => (step a s).trans (ih (f a s))
  exact each _ s

/-- What every write keeps, the sequence keeps. -/
theorem PlantMoves.keeps {P : State → Prop} (h : PlantMoves s t) (keeps : ∀ u v, PlantMove u v → P u → P v) (start : P s) :
    P t := by
  induction h with
  | refl => exact start
  | tail _ last ih => exact keeps _ _ last ih

end

variable (s : State)

/-! ### Closures -/

theorem State.raiseFault_line_moves (n : LineNo) (f : FaultCode) (other : f ≠ .blind) :
    PlantMoves s (s.raiseFault (.line n) f) :=
  .ite (.refl s) (PlantMove.lineFault n f true other).moves

section
variable {c : ClosureNo}

theorem State.shutClosure_moves (open_ : (s.closure c).state ≠ .shut) : PlantMoves s (s.shutClosure c) :=
  (PlantMove.moveClosure _ open_ (.stopped (by decide))).moves

theorem State.startTravel_moves (o : ReleaseOrigin) (open_ : (s.closure c).state ≠ .shut) :
    PlantMoves s (s.startTravel c o) := by
  unfold State.startTravel
  exact (PlantMove.moveClosure _ open_ .travel).moves

theorem State.letGo_moves (o : ReleaseOrigin) (open_ : (s.closure c).state ≠ .shut) : PlantMoves s (s.letGo c o) :=
  .ite (PlantMove.moveClosure _ open_ (.stopped (by decide))).moves (s.startTravel_moves o open_)

theorem State.endWait_moves : PlantMoves s (s.endWait c) := by
  unfold State.endWait
  split
  · next waiting =>
    have travel := s.startTravel_moves (c := c) .none (by simp [waiting])
    exact .ite (travel.trans (State.shutClosure_moves _
      (by simp [State.startTravel, State.moveClosure_closure_state]))) travel
  · exact .refl s

theorem State.endWaits_moves (n : LineNo) : PlantMoves s (s.endWaits n) :=
  .all (fun _ t => .ite t.endWait_moves (.refl t)) s

/-! ### Lines -/

/-- What follows the write of a line in a change of its state: the record, and the ends of its dampers' waits. -/
theorem State.moveLine_rest (n : LineNo) (st : LineState) (cause : StopCause) (f : Line → Line) :
    PlantMoves (s.setLine n ((s.line n).entering st cause f s.uptime)) (s.moveLine n st cause f) := by
  have noted (q : Queue) (d : Detail) : PlantMoves (s.setLine n ((s.line n).entering st cause f s.uptime))
      ((s.setLine n ((s.line n).entering st cause f s.uptime)).objEvent q .lineState 0x44 (.line n) d) :=
    (PlantMove.log ((State.objEvent_kept _ _ _ _ _ _).mono (by decide))).moves
  exact .ite ((noted _ _).trans (State.endWaits_moves _ n)) (noted _ _)

theorem State.moveLine_moves {n : LineNo} {st : LineState} {cause : StopCause} {f : Line → Line}
    (enters : (s.line n).Enters st cause f) (day : st = .starting → s.shift = .day := by simp) :
    PlantMoves s (s.moveLine n st cause f) :=
  (PlantMove.enter enters day).moves.trans (s.moveLine_rest n st cause f)

theorem State.testRundown_moves (n : LineNo) : PlantMoves s (s.testRundown n) := by
  unfold State.testRundown
  split
  · next ended =>
    have stopped := s.moveLine_moves (.stopped ended.1)
    exact .ite (s.moveLine_moves (.off ended.1))
      (.ite (stopped.trans (State.raiseFault_line_moves _ n _ (by decide))) stopped)
  · exact .refl s

theorem State.stopLine_moves (n : LineNo) (cause : StopCause)
    (moving : (s.line n).state = .starting ∨ (s.line n).state = .run ∨ (s.line n).state = .abort)
    (caused : cause ≠ .none) : PlantMoves s (s.stopLine n cause) :=
  (s.moveLine_moves (.stopping cause _ moving (.inl caused))).trans (State.testRundown_moves _ n)

theorem State.protectLine_moves (n : LineNo) (cause : StopCause) (protective : cause ≠ .none ∧ cause ≠ .orderly) :
    PlantMoves s (s.protectLine n cause) := by
  unfold State.protectLine
  dsimp only
  split
  case h_1 h | h_2 h | h_3 h => exact s.stopLine_moves n cause (by simp [h]) protective.1
  case h_4 h => exact .ite (PlantMove.replaceCause n cause h protective).moves (.refl s)
  case h_5 | h_6 => exact .refl s

theorem State.demandStop_moves : PlantMoves s (s.demandStop c) := by
  unfold State.demandStop
  split
  · exact .refl s
  · exact s.protectLine_moves _ _ (by decide)

theorem State.demandIfRunning_moves : PlantMoves s (s.demandIfRunning c) := by
  unfold State.demandIfRunning
  split
  · exact .refl s
  · exact .ite (s.protectLine_moves _ _ (by decide)) (.refl s)

theorem State.releaseClosure_moves (o : ReleaseOrigin) : PlantMoves s (s.releaseClosure c o) := by
  unfold State.releaseClosure
  dsimp only
  split
  · next acts =>
    have open_ : (s.closure c).state ≠ .shut := by
      intro shut
      simp [Closure.releasable, shut] at acts
    have named : PlantMoves s (s.setClosure c { s.closure c with origin := o }) := (PlantMove.origin c o).moves
    have free : ((s.setClosure c { s.closure c with origin := o }).closure c).state ≠ .shut := by simpa using open_
    have gone := named.trans (State.letGo_moves _ o free)
    split
    · exact gone
    · refine .ite ?_ (.ite (gone.trans (State.demandIfRunning_moves _)) gone)
      exact (named.trans (PlantMove.moveClosure o free .wait).moves).trans (State.demandStop_moves _)
  · exact .refl s

end

/-! ### Changes -/

variable {s} {t : State}

/-- The changes of the plant's kinds are sequences of writes of lines and closures. -/
theorem Change.moves {k : ChangeKind} (h : Change k s t) (plant : k ∈ [.lineMove, .lineFault, .closureMove]) :
    PlantMoves s t := by
  cases h with
  | moveLine enters ready => exact s.moveLine_moves enters fun starting => (ready starting).1
  | replaceCause n cause stopping protective => exact (PlantMove.replaceCause n cause stopping protective).moves
  | lineFault n f r other => exact (PlantMove.lineFault n f r other).moves
  | release c o => exact s.releaseClosure_moves o
  | shutDamper c held =>
    exact (s.shutClosure_moves (by simp [held])).trans (State.demandIfRunning_moves _)
  | moveClosure o open_ timers => exact (PlantMove.moveClosure o open_ timers).moves
  | _ => simp at plant

/-- FSTOP becoming active, after the input itself (R73, R109). -/
theorem State.fstopOn_moves (n : LineNo) :
    PlantMoves (s.setLine n { s.line n with fstop := true })
      (((s.setLine n { s.line n with fstop := true }).testRundown n).endWaits n) :=
  (State.testRundown_moves _ n).trans (State.endWaits_moves _ n)

end Sys2Proof.Machine
end

