-- ==== Sys2Proof/Proofs/Notes.lean ====
section
/-! Every change but the resets and those of the link itself only writes records and reports (`Path.noted`). -/

namespace Sys2Proof.Machine

set_option Elab.async false -- one declaration after another: the check bounds the threads waiting on one another

variable (s : State)

/-! ### Faults and disablements -/

@[simp] theorem State.putFault_noted (o : Obj) (f : FaultCode) (r : Bool) : Noted s (s.putFault o f r) := by
  unfold State.putFault
  refine Noted.trans ?_ (State.deriveFault_kept _).noted
  refine Noted.trans ?_ (State.objEvent_noted _ _ _ _ _ _)
  exact .of_same rfl rfl

@[simp] theorem State.raiseFault_noted (o : Obj) (f : FaultCode) : Noted s (s.raiseFault o f) :=
  .ite (.refl s) (s.putFault_noted o f true)

@[simp] theorem State.clearFault_noted (o : Obj) (f : FaultCode) : Noted s (s.clearFault o f) :=
  .ite (s.putFault_noted o f false) (.refl s)

@[simp] theorem State.endActivity_noted (t : Target) : Noted s (s.endActivity t) := by
  unfold State.endActivity
  split
  · exact .refl s
  · split
    · exact .refl s
    · refine Noted.trans ?_ (State.deriveFault_kept _).noted
      refine Noted.trans ?_ (State.disEvent_noted _ _ _ _ _ _)
      exact .of_same rfl rfl

/-! ### Sectors -/

section
variable (n : SectorNo)

/-- A sector put, started or stopped, and recorded (R133). -/
theorem noteSector_noted_of {t : State} (x : Sector) (h : Noted s t) : Noted s (t.noteSector n x) :=
  h.trans (t.noteSector_noted n x)

theorem State.setSector_noted (x : Sector) : Noted s (s.setSector n x) := (s.setSector_kept n x).noted

theorem State.riseSector_noted (d : Demand) : Noted s (s.riseSector n d) :=
  noteSector_noted_of s n _ ((s.setSector_noted n _).trans (State.startCycle_kept _ n).noted)

theorem State.stopSector_noted (st : SectorState) : Noted s (s.stopSector n st) :=
  noteSector_noted_of s n _ ((s.setSector_noted n _).trans (State.refreshSiren_kept _ n).noted)

theorem State.switchSector_noted (d : Demand) : Noted s (s.switchSector n d) :=
  noteSector_noted_of s n _ ((s.setSector_noted n _).trans (State.startCycle_kept _ n).noted)

theorem State.deriveSector_noted : Noted s (s.deriveSector n) := by
  unfold State.deriveSector
  dsimp only
  split
  · split
    · exact s.setSector_noted n _
    · exact s.riseSector_noted n _
  · split
    · exact s.stopSector_noted n _
    · split
      · exact s.riseSector_noted n _
      · split
        · exact s.setSector_noted n _
        · split
          · exact s.setSector_noted n _
          · exact (s.setSector_noted n _).trans (State.switchSector_noted _ n _)
  all_goals
    split
    · exact noteSector_noted_of s n _ (s.setSector_noted n _)
    · exact s.riseSector_noted n _

theorem State.endCycle_noted : Noted s (s.endCycle n) := by
  unfold State.endCycle
  dsimp only
  split
  · exact .ite (s.switchSector_noted n _) (s.switchSector_noted n _)
  · exact (s.startCycle_kept n).noted

theorem State.nextPhase_noted : Noted s (s.nextPhase n) := by
  unfold State.nextPhase
  split
  · exact .refl s
  · split
    · exact s.endCycle_noted n
    · exact (s.setSector_noted n _).trans (State.refreshSiren_kept _ n).noted

theorem State.testSector_noted (p : PatternNo) (ms : Nat) : Noted s (s.testSector n p ms) :=
  noteSector_noted_of s n _ ((s.setSector_noted n _).trans (State.startCycle_kept _ n).noted)

end

/-! ### Lines and closures -/

theorem State.moveClosure_noted (c : ClosureNo) (st : ClosureState) (dir : Direction) (o : ReleaseOrigin)
    (f : Closure → Closure) : Noted s (s.moveClosure c st dir o f) := by
  have put (x : Closure) (q : Queue) (e : Detail) :
      Noted s ((s.setClosure c x).objEvent q .closure 0x46 (.closure c) e) :=
    (s.setClosure_kept c x).noted.trans (State.objEvent_noted _ _ _ _ _ _)
  have fault (t : State) (h : Noted s t) (p q : Prop) [Decidable p] [Decidable q] :
      Noted s (if p then t.raiseFault (.closure c) .stuck else if q then t.clearFault (.closure c) .stuck else t) :=
    .ite (h.trans (t.raiseFault_noted _ _)) (.ite (h.trans (t.clearFault_noted _ _)) h)
  have last (t : State) (h : Noted s t) (b : Bool) : Noted s (if b then t.endActivity (.closure c) else t) :=
    .ite (h.trans (t.endActivity_noted _)) h
  exact .ite (.refl s) (last _ (fault _ (put _ _ _) _ _) _)

variable {s} {t : State}

theorem PlantMoves.noted (h : PlantMoves s t) : Noted s t := by
  refine h.keeps (P := Noted s) (fun u v move hu => hu.trans ?_) (.refl s)
  cases move with
  | log _ noted => exact noted
  | enter | replaceCause => exact (State.setLine_kept _ _ _).noted
  | lineFault => simp
  | origin => exact (State.setClosure_kept _ _ _).noted
  | moveClosure => exact State.moveClosure_noted _ _ _ _ _ _

theorem State.moveLine_noted (n : LineNo) (st : LineState) (cause : StopCause) (f : Line → Line) :
    Noted s (s.moveLine n st cause f) :=
  (s.setLine_kept n _).noted.trans (s.moveLine_rest n st cause f).noted

theorem State.makeReady_noted (c : ClosureNo) : Noted s (s.makeReady c) :=
  .ite ((State.moveClosure_noted _ _ _ _ _ _).trans (State.moveClosure_noted _ _ _ _ _ _))
    (State.moveClosure_noted _ _ _ _ _ _)

theorem State.reopen_noted (c : ClosureNo) : Noted s (s.reopen c) := by
  have cleared : Noted s (forEach closureFaults (fun f t => t.clearFault (.closure c) f) s) :=
    .each (fun f t => t.clearFault_noted _ f) _ s
  exact (cleared.trans (State.setClosure_kept _ c _).noted).trans (State.makeReady_noted c)

theorem State.endWindow_noted (n : LineNo) : Noted s (s.endWindow n) := by
  unfold State.endWindow
  dsimp only
  split
  · exact .refl s
  · have last {t : State} (h : Noted s t) (b : Bool) : Noted s (if b then t.endActivity (.station n) else t) :=
      .ite (h.trans (t.endActivity_noted _)) h
    refine last ?_ _
    split
    · exact (s.setStation_kept n _).noted.trans (State.record_noted _ _ _ _ _)
    · exact (s.setStation_kept n _).noted

theorem State.judgeLine_noted (n : LineNo) : Noted s (s.judgeLine n) :=
  .ite (.refl s) (.ite (s.setLine_kept n _).noted
    ((s.setLine_kept n _).noted.trans (State.clearFault_noted _ _ _)))

theorem State.deriveStoreFaults_noted : Noted s s.deriveStoreFaults := by
  have first : Noted s (if s.store.flags.toList.any (·.writeFailed) then s.raiseFault .store .saveFailed
      else s.clearFault .store .saveFailed) := .ite (s.raiseFault_noted _ _) (s.clearFault_noted _ _)
  exact .ite (first.trans (State.raiseFault_noted _ _ _)) (first.trans (State.clearFault_noted _ _ _))

theorem State.takeResult_noted (k : StoreSection) (good : Bool) : Noted s (s.takeResult k good) :=
  ((s.setMark_kept k _).noted.trans (State.setFlags_kept _ k _).noted).trans State.deriveStoreFaults_noted

/-! ### Changes -/

/-- Every change but the resets, and but those of the history and link alone, only writes records and reports. -/
theorem Change.noted {k : ChangeKind} (change : Change k s t) (log : k ≠ .log) (clock : k ≠ .clock)
    (running : k ≠ .powerOn ∧ k ≠ .restart) : Noted s t := by
  by_cases untouched : Block.history ∉ k.blocks ∧ Block.link ∉ k.blocks
  · exact change.kept.noted untouched.1 untouched.2
  by_cases plant : k ∈ [.lineMove, .lineFault, .closureMove]
  · exact (change.moves plant).noted
  cases change with
  | channelFault => simp
  | turnOn n => exact (s.turnOn_kept n).noted
  | offerWindow n => exact (s.offerWindow_kept n _).noted
  | endWindow n => exact s.endWindow_noted n
  | waterMissed n => exact (s.setStation_kept n _).noted.trans (State.raiseFault_noted _ _ _)
  | waterReset n => simp
  | judge n => exact s.judgeLine_noted n
  | blindOut n => exact (s.setLine_kept n _).noted.trans (State.raiseFault_noted _ _ _)
  | liftOff n | fstopOff n | gopen n => exact (s.setLine_kept n _).noted
  | liftStopped => exact State.moveLine_noted _ _ _ _
  | fstopOn n => exact (s.setLine_kept n _).noted.trans (s.fstopOn_moves n).noted
  | closureFault => simp
  | reopen c => exact State.reopen_noted c
  | derive n => exact s.deriveSector_noted n
  | highest n => exact (s.refreshHighest_kept n).noted
  | silence n | testOver n => exact s.stopSector_noted n _
  | test n => exact s.testSector_noted n _ _
  | phase n => exact s.nextPhase_noted n
  | switch n => exact s.switchSector_noted n _
  | cycle n => exact (s.startCycle_kept n).noted
  | siren n => exact (s.refreshSiren_kept n).noted
  | result k => exact State.takeResult_noted k _
  | log => simp at log
  | clock => simp at clock
  | powerOn | restart => simp at running
  | _ => simp [ChangeKind.blocks] at untouched plant

/-- A sequence of changes without a reset only writes records and reports. -/
theorem Path.noted {l : List ChangeKind} (h : Path l s t) (clock : .clock ∉ l := by decide) (powerOn : .powerOn ∉ l := by decide)
    (restart : .restart ∉ l := by decide) : Noted s t := by
  induction h with
  | refl => exact .refl s
  | tail _ last ih =>
    obtain ⟨k, mem, change, log⟩ := last
    refine ih.trans ?_
    by_cases is : k = .log
    · exact log is
    · exact change.noted is (by rintro rfl; exact clock mem)
        ⟨by rintro rfl; exact powerOn mem, by rintro rfl; exact restart mem⟩

end Sys2Proof.Machine
end

