-- ==== Sys2Proof/Proofs/LinkMoves.lean ====
section
/-! The operations of the message link: each keeps the receiver within one frame and the queues within their capacities,
and none breaks off a frame being sent (R153, R155, R157, R159, R161). -/

namespace Sys2Proof.Machine

set_option Elab.async false -- one declaration after another: the check bounds the threads waiting on one another

/-- The receiver and the capacities stay sound, and a frame being sent stands. -/
structure Link.Goes (k k' : Link) : Prop where
  receiver : k.receiver.sound → k'.receiver.sound
  capacities : k.capacities → k'.capacities
  sending : ∀ x, k.sending = some x → k'.sending = some x

variable {k k' k'' : Link}

theorem Link.Goes.refl (k : Link) : k.Goes k := ⟨id, id, fun _ => id⟩

theorem Link.Goes.trans (h : k.Goes k') (h' : k'.Goes k'') : k.Goes k'' :=
  ⟨h'.receiver ∘ h.receiver, h'.capacities ∘ h.capacities, fun x => h'.sending x ∘ h.sending x⟩

/-- Nothing of the receiver, the queues and the frame being sent is changed. -/
theorem Link.Goes.of_same (receiver : k'.receiver = k.receiver) (buffer : k'.buffer = k.buffer)
    (hold : k'.partHolding = k.partHolding) (alarm : k'.alarm = k.alarm) (notice : k'.notice = k.notice)
    (sending : k'.sending = k.sending) : k.Goes k' := by
  refine ⟨fun h => receiver ▸ h, fun h => ?_, fun x h => sending ▸ h⟩
  simpa only [Link.capacities, buffer, hold, alarm, notice] using h

theorem Link.Reported.goes (h : k.Reported k') : k.Goes k' := by
  obtain ⟨same, alarm, notice⟩ := h
  rw [same]
  exact ⟨id, fun ⟨buffer, a, n, hold⟩ => ⟨buffer, alarm a, notice n, hold⟩, fun _ => id⟩

theorem Link.offer_goes (k : Link) (e : Inbound) : k.Goes (k.offer e) := by
  obtain ⟨-, same⟩ | ⟨room, other, same⟩ | ⟨three, released, same⟩ := Link.offer_cases k e
  · rw [same]
    exact .refl k
  · rw [same]
    refine ⟨id, fun ⟨buffer, alarm, notice, hold⟩ => ⟨?_, alarm, notice, ?_⟩, fun _ => id⟩
    · simpa using room
    · cases holding : k.partHolding with
      | true =>
        simp only [holding, if_true] at hold
        simpa using by omega
      | false =>
        simp only [holding, Bool.false_eq_true, if_false] at hold
        simp only [holding, and_true] at other
        simpa using by omega
  · rw [same]
    refine ⟨id, fun ⟨buffer, alarm, notice, hold⟩ => ⟨?_, alarm, notice, ?_⟩, fun _ => id⟩
    · simp [three]
    · simp [three]

theorem Link.pop_goes {o : Inbound} {rest : List Inbound} (held : k.buffer = o :: rest) : k.Goes k.pop := by
  rw [Link.pop_cons held]
  split
  · next falls =>
    refine ⟨id, fun ⟨buffer, alarm, notice, hold⟩ => ⟨?_, alarm, notice, ?_⟩, fun _ => id⟩
    · simp [falls.2]
    · simp [falls.2]
  · next stays =>
    refine ⟨id, fun ⟨buffer, alarm, notice, hold⟩ => ⟨?_, alarm, notice, ?_⟩, fun _ => id⟩
    · rw [held, List.length_cons] at buffer
      exact Nat.le_of_succ_le buffer
    · rw [held, List.length_cons] at hold
      cases holding : k.partHolding with
      | true =>
        simp only [holding, if_true] at hold
        simp only [holding, true_and] at stays
        simpa using by omega
      | false =>
        simp only [holding, Bool.false_eq_true, if_false] at hold
        simpa using by omega

theorem Link.claim_goes {e : Inbound} (taken : k.claim e = some k') : k.Goes k' := by
  obtain ⟨-, -, ⟨-, rfl⟩ | ⟨rest, held, rfl⟩⟩ := Link.claim_some taken
  · exact .refl _
  · exact Link.pop_goes held

theorem Link.hunt_goes (k : Link) : k.Goes k.hunt := ⟨fun _ => trivial, id, fun _ => id⟩

theorem Link.hostFlow_goes (k : Link) (f : Flow) : k.Goes (k.hostFlow f) := by
  cases f <;> exact .of_same rfl rfl rfl rfl rfl rfl

theorem Link.complete_goes (k : Link) (body : Payload) (check : BitVec 16) : k.Goes (k.complete body check) := by
  refine k.hunt_goes.trans ?_
  unfold Link.complete Link.accept
  split
  · exact Link.offer_goes _ _
  · exact Link.hostFlow_goes _ _
  · exact Link.offer_goes _ _

/-- A character that leads to a sound phase. -/
theorem Link.Goes.of_phase {r : Receiver} {now : Option Stamp} (sound : k.receiver.sound → r.sound) :
    k.Goes { k with receiver := r, lastChar := now } := ⟨sound, id, fun _ => id⟩

theorem Link.receive_goes (k : Link) (c : Byte) (now : Stamp) (fault : Bool) : k.Goes (k.receive c now fault) := by
  unfold Link.receive
  split
  · split
    · exact .of_phase fun _ => trivial
    · exact .refl k
  · split
    · next fits => exact .of_phase fun _ => ⟨fits.2, fits.1⟩
    · exact k.hunt_goes.trans (Link.offer_goes _ _)
  · next len chars faulty phase =>
    dsimp only
    split
    · next more => exact .of_phase fun h => ⟨(phase ▸ h : (Receiver.body len chars faulty).sound).1, more⟩
    · refine .of_phase fun h => ?_
      obtain ⟨short, fewer⟩ := (phase ▸ h : (Receiver.body len chars faulty).sound)
      have size : (chars ++ [c]).length = chars.length + 1 := by simp
      exact ⟨by omega, by omega⟩
  · next chars faulty phase =>
    exact .of_phase fun h => (phase ▸ h : (Receiver.check chars none faulty).sound)
  · split
    · exact k.hunt_goes.trans (Link.offer_goes _ _)
    · exact k.complete_goes _ _

theorem Link.choose_goes (k : Link) (p : Stamp) : k.Goes (k.choose p) := by
  obtain same | ⟨idle, f, -, same⟩ | ⟨idle, -, -, ⟨f, -, same⟩ | ⟨f, rest, -, held, same⟩ | ⟨f, rest, -, -, held, same⟩⟩ :=
    Link.choose_cases k p
  · rw [same]
    exact .refl k
  all_goals
    rw [same]
    refine ⟨id, fun ⟨buffer, alarm, notice, hold⟩ => ?_, fun x busy => by simp [idle] at busy⟩
  · exact ⟨buffer, alarm, notice, hold⟩
  · exact ⟨buffer, alarm, notice, hold⟩
  · rw [held, List.length_cons] at alarm
    exact ⟨buffer, Nat.le_of_succ_le alarm, notice, hold⟩
  · rw [held, List.length_cons] at notice
    exact ⟨buffer, alarm, Nat.le_of_succ_le notice, hold⟩

/-- After its choice the transmitter is idle only with nothing to serve (R159). -/
theorem Link.choose_busyWhileWaiting (k : Link) (p : Stamp) : (k.choose p).busyWhileWaiting := by
  intro idle
  unfold Link.choose at idle ⊢
  split
  · next busy =>
    rw [if_pos busy] at idle
    simp [idle] at busy
  · next free =>
    rw [if_neg free] at idle
    split
    · next f flow => simp [flow] at idle
    · next flow =>
      simp only [flow] at idle
      split
      · next held => exact ⟨flow, .inl held⟩
      · next open_ =>
        rw [if_neg open_] at idle
        split <;> simp_all

end Sys2Proof.Machine
end

