-- ==== Sys2Proof/Proofs/Runs.lean ====
section
/-! The kinds of change each command makes: `exec_path`, and the cases of a step. -/

namespace Sys2Proof.Machine

set_option Elab.async false -- one declaration after another: the check bounds the threads waiting on one another

variable {s : State}

/-! ### Outcomes -/

/-- No reset is among the kinds. -/
def running (l : List ChangeKind) : Prop := .clock ∉ l ∧ .powerOn ∉ l ∧ .restart ∉ l

/-- What an outcome comes to: a sequence of changes of some kinds, the link and the history kept in order but by a reset,
and the transmitter idle only with nothing to serve. -/
structure Runs (l : List ChangeKind) (s t : State) : Prop where
  steps : Steps l s t
  idle : t.link.busyWhileWaiting
  history : running l → s.history.sound → t.history.sound
  link : running l → s.link.Goes t.link

/-- What holds of whatever state an outcome goes on to. -/
def Leads (l : List ChangeKind) (s : State) (o : Out) : Prop := ∀ t, o = .next t → Runs l s t

/-- A change of the link alone. -/
theorem State.withLink_steps (s : State) (k : Link) {l : List ChangeKind} (logs : .log ∈ l) : Steps l s (s.withLink k) :=
  (Change.log (by intro b hb; cases b <;> simp_all [Block.same, State.withLink])).steps logs

section
variable {l : List ChangeKind} (logs : .log ∈ l := by decide)
include logs

/-- Link operations before and after the changes of an owner. -/
theorem Leads.of_owner {u : State} {k k' : Link} (before : running l → s.link.Goes k) (path : Path l (s.withLink k) u)
    (after : running l → u.link.Goes k') : Leads l s (done (u.withLink k')) := by
  rintro t ⟨⟩
  refine ⟨((s.withLink_steps k logs).trans path.steps).trans ((u.withLink_steps k' logs).trans
    ((Change.log (State.settle_kept _ |>.mono (by decide))).steps logs)), Link.choose_busyWhileWaiting _ _, fun none => ?_,
    fun none => ?_⟩
  · exact (path.noted none.1 none.2.1 none.2.2).history
  · exact (((before none).trans (path.noted none.1 none.2.1 none.2.2).link.goes).trans (after none)).trans
      (Link.choose_goes _ _)

theorem Leads.of_done {u : State} (h : Path l s u) : Leads l s (done u) :=
  .of_owner (k := s.link) (k' := u.link) logs (fun _ => .refl _) h fun _ => .refl _

theorem Leads.of_link (k : Link) (goes : running l → s.link.Goes k) : Leads l s (done (s.withLink k)) :=
  .of_owner (u := s) (k := s.link) logs (fun _ => .refl _) (.refl l s) goes

theorem Leads.of_take {e : Inbound} {answer : State → State × Frame}
    (answers : ∀ k, ∃ u k', (answer (s.withLink k)).1 = u.withLink k' ∧ Path l (s.withLink k) u ∧ u.link.Goes k') :
    Leads l s (take e answer s) := by
  unfold take
  split
  · exact .of_link logs _ fun _ => s.link.offer_goes e
  · next k taken =>
    obtain ⟨u, k', left, path, goes⟩ := answers k
    dsimp only
    rw [show { s with link := k } = s.withLink k from rfl, left]
    exact .of_owner (u := u) (k' := { k' with slot := some _ }) logs (fun _ => Link.claim_goes taken) path
      fun _ => goes.trans (.of_same rfl rfl rfl rfl rfl rfl)

/-- A request refused by the link itself. -/
theorem Leads.of_refused {e : Inbound} {f : Frame} : Leads l s (take e (fun u => (u, f)) s) :=
  .of_take logs fun k => ⟨s.withLink k, k, rfl, .refl l _, .refl _⟩

theorem Leads.of_answered {kind : Byte} {p : Payload} {owner : State → State × Answer}
    (answers : ∀ u : State, ∃ v k', (owner u).1 = v.withLink k' ∧ Path l u v ∧ v.link.Goes k') :
    Leads l s (request kind p owner s) := by
  refine .of_take logs fun k => ?_
  dsimp only
  split
  · exact answers _
  · exact ⟨s.withLink k, k, rfl, .refl l _, .refl _⟩

theorem Leads.of_request {kind : Byte} {p : Payload} {owner : State → State × Answer}
    (decides : ∀ u : State, Path l u (owner u).1) : Leads l s (request kind p owner s) :=
  .of_answered logs fun u => ⟨(owner u).1, _, rfl, decides u, .refl _⟩

/-- A request that leaves all but the link alone. -/
theorem Leads.of_asked {kind : Byte} {p : Payload} {owner : State → State × Answer}
    (asks : ∀ u : State, ∃ k, (owner u).1 = u.withLink k ∧ u.link.Goes k) : Leads l s (request kind p owner s) := by
  refine .of_answered logs fun u => ?_
  obtain ⟨k, eq, goes⟩ := asks u
  exact ⟨u, k, eq, .refl l u, goes⟩

end

theorem Leads.ite {l : List ChangeKind} {p : Prop} [Decidable p] {o o' : Out} (yes : p → Leads l s o)
    (no : Leads l s o') : Leads l s (if p then o else o') := by
  split
  · next h => exact yes h
  · exact no

/-! ### Events -/

variable (s)

theorem execServiceChange_leads (active : Bool) : Leads [.service, .log] s (execServiceChange active s) := by
  unfold execServiceChange
  cases active with
  | true => exact .of_done (h := Change.serviceOn.path (by decide))
  | false =>
    refine .of_done (h := ?_)
    unfold State.discardPrepare
    split
    · next gone =>
      have same : s.dis = { s.dis with prepare := none } := by rw [← show s.dis.prepare = none from gone]
      have off := (Change.serviceOff (s := s)).path (l := [.service, .log]) (by decide)
      rw [← same] at off
      exact off
    · exact ((Change.serviceOff (s := s)).path (by decide)).andThen (State.disEvent_kept _ _ _ _ _ _).logged (by decide)

theorem execPulseTrailingEdge_leads (d : DetNo) :
    Leads (.channelPin :: deliveryKinds) s (execPulseTrailingEdge d s) := by
  have ended (cls : PulseClass) : Path (.channelPin :: deliveryKinds) s (s.endPulse d cls) :=
    (Change.channelPin d _).path (by decide)
  have qualified (cls : PulseClass) (ember : Bool) : Path (.channelPin :: deliveryKinds) s
      ((s.endPulse d cls).qualified d ember) := (ended cls).andThen (State.qualified_path _ d ember) (by decide)
  unfold execPulseTrailingEdge
  refine .ite (fun _ => ?_) (.of_done (h := .refl _ s))
  dsimp only
  split
  · exact .ite (fun _ => .of_done (h := qualified _ _)) (.of_done (h := ended _))
  · exact .ite (fun _ => .of_done (h := qualified _ _)) (.of_done (h := ended _))
  all_goals exact .of_done (h := ended _)

theorem execWconfActive_leads (n : LineNo) : Leads [.stationPin, .log] s (execWconfActive n s) := by
  unfold execWconfActive
  dsimp only
  split
  · next opening => exact .of_done (h := (Change.wconfOn n opening).path (by decide))
  · next other => exact .of_done (h := (Change.wconf n true (by simpa using other)).path (by decide))

theorem execWconfInactive_leads (n : LineNo) : Leads [.stationPin, .log] s (execWconfInactive n s) := by
  unfold execWconfInactive
  dsimp only
  split
  · next opened => exact .of_done (h := (Change.wconfOff n opened).path (by decide))
  · next other => exact .of_done (h := (Change.wconf n false (by simpa using other)).path (by decide))

theorem execStartTimerExpired_leads (n : LineNo) : Leads lineKinds s (execStartTimerExpired n s) :=
  .ite (fun ended => .of_done (h := s.stopLine_path n .startFail (.inl ended.1) (.inl (by decide))))
    (.of_done (h := .refl _ s))

theorem execAbortDwellExpired_leads (n : LineNo) : Leads lineKinds s (execAbortDwellExpired n s) :=
  .ite (fun ended => .of_done (h := s.stopLine_path n _ (.inr (.inr ended.1)) (.inr ⟨ended.1, rfl⟩)))
    (.of_done (h := .refl _ s))

theorem execGateTimerExpired_leads (n : LineNo) :
    Leads (.lineAside :: lineKinds) s (execGateTimerExpired n s) := by
  have raised : Path (.lineAside :: lineKinds) s
      ((s.setLine n { s.line n with gateTimer := none }).raiseFault (.line n) .gate) :=
    ((Change.gateTimerOut n).path (by decide)).andThen (State.raiseFault_line_path _ n _ (by decide)) (by decide)
  refine .ite (fun _ => ?_) (.of_done (h := .refl _ s))
  refine .ite (fun abort => .of_done (h := ?_)) (.of_done (h := raised))
  exact raised.andThen (State.stopLine_path _ n .gate (.inr (.inr (by simpa using abort))) (.inl (by decide))) (by decide)

theorem execRundownTimerExpired_leads (n : LineNo) : Leads lineKinds s (execRundownTimerExpired n s) :=
  .ite (fun ended => .of_done (h := ((s.raiseFault_line_path n .rundown (by decide)).mono (by decide)).trans
    (State.stopDone_path _ n (by simpa using ended.1)))) (.of_done (h := .refl _ s))

theorem execBlindTimerExpired_leads (n : LineNo) :
    Leads (.blindness :: lineKinds) s (execBlindTimerExpired n s) := by
  refine .ite (fun out => ?_) (.of_done (h := .refl _ s))
  have raised : Path (.blindness :: lineKinds) s
      ((s.setLine n { s.line n with blindTimer := none }).raiseFault (.line n) .blind) :=
    (Change.blindOut n out).path (by decide)
  refine .ite (fun run => .of_done (h := ?_)) (.of_done (h := raised))
  exact raised.andThen (State.stopLine_path _ n .blind (.inr (.inl (by simpa using run.1))) (.inl (by decide)))
    (by decide)

theorem execFstopActive_leads (n : LineNo) (active : Bool) : Leads [.linePin, .log] s (execFstopActive n active s) := by
  cases active with
  | true => exact .of_done (h := (Change.fstopOn n).path (by decide))
  | false => exact .of_done (h := (Change.fstopOff n).path (by decide))

theorem execGopenActive_leads (n : LineNo) (active : Bool) : Leads [.linePin, .log] s (execGopenActive n active s) :=
  .of_done (h := (Change.gopen n active _ (by cases active <;> simp)).path (by decide))

theorem execDebounceTimerExpired_leads (f : InputNo) :
    Leads (.input :: alarmKinds) s (execDebounceTimerExpired f s) := by
  refine .ite (fun _ => ?_) (.of_done (h := .refl _ s))
  split
  · exact .of_done (h := s.inputOn_path f)
  · exact .of_done (h := s.inputOff_path f)
  all_goals exact .of_done (h := .refl _ s)

/-- The kinds of a change of position. -/
abbrev limitKinds : List ChangeKind := [.closurePin, .closureMove, .closureFault, .log]

theorem execClosureLimitChange_leads (c : ClosureNo) (lim : Limit) (active : Bool) :
    Leads limitKinds s (execClosureLimitChange c lim active s) := by
  have put : Path limitKinds s (s.setClosure c ((s.closure c).setLimit lim active)) :=
    (Change.limit c lim active).path (by decide)
  refine .ite (fun _ => .of_done (h := put)) ?_
  split
  · exact .of_done (h := put.andThen (State.closedReached_path _ c) (by decide))
  · exact .of_done (h := put.andThen (State.openReached_path _ c) (by decide))
  · exact .of_done (h := put)

theorem execTravelTimerExpired_leads (c : ClosureNo) :
    Leads [.closureMove, .log] s (execTravelTimerExpired c s) := by
  refine .ite (fun _ => ?_) (.of_done (h := .refl _ s))
  split
  case h_1 h | h_2 h =>
    exact .of_done (h := (Change.moveClosure _ (by simp [h]) (.stuck (by decide) (by simp [h])) (by decide)
      (by simp [h])).path (by decide))
  all_goals exact .of_done (h := .refl _ s)

theorem execWaitTimerExpired_leads (c : ClosureNo) :
    Leads [.closureFault, .closureMove, .log] s (execWaitTimerExpired c s) :=
  .ite (fun _ => .of_done (h := ((s.raiseFault_closure_path c _ (by decide)).mono (by decide)).andThen
    (State.endWait_path _) (by decide))) (.of_done (h := .refl _ s))

theorem execTestEnd_leads (n : SectorNo) : Leads [.sector, .log] s (execTestEnd n s) :=
  .ite (fun ended => .of_done (h := (Change.testOver n ended.1).path (by decide))) (.of_done (h := .refl _ s))

/-! ### Every command -/

/-- The kinds of change a command makes. -/
def execKinds : Instr → List ChangeKind
  | .powerOnReset => [.clock, .powerOn, .log]
  | .resetInput | .transmitFrameEnd => restartKinds
  | .serviceChange _ => [.service, .log]
  | .startLine _ => [.lineMove, .log]
  | .stopLine _ | .startTimerExpired _ | .abortDwellExpired _ | .rundownTimerExpired _ => lineKinds
  | .resetLine _ => clearKinds
  | .resetStation _ | .confirmTimerExpired _ => .water :: alarmKinds
  | .floodStation _ | .windowStart _ | .windowEnd _ => [.station, .log]
  | .resetZone _ | .sparkHoldExpired _ => alarmKinds
  | .setShift _ => shiftKinds
  | .releaseClosure _ | .travelTimerExpired _ => [.closureMove, .log]
  | .resetClosure _ => [.closureLift, .log]
  | .silenceSector _ => [.cause, .hush, .log]
  | .testSector _ | .phaseEnd _ | .testEnd _ => [.sector, .log]
  | .disablePrepare _ | .clearDisableError _ | .prepareExpired => [.plan, .log]
  | .disableConfirm _ | .enable _ | .entryExpired _ => entryKinds
  | .writeSetting _ => writeKinds
  | .saveSettings _ => [.log, .stored]
  | .lockSection _ => [.log, .flags, .stored]
  | .loadDefaults _ => .stored :: writeKinds
  | .sectionWriteEnd _ => [.storeResult, .stored, .log]
  | .sampleStart _ | .candidateExpired _ => [.log, .channel]
  | .sampleEnd _ _ | .glareLimitReached _ | .glareCleared _ => .blindness :: channelKinds
  | .pulseLeadingEdge _ => [.channelPin, .log]
  | .pulseTrailingEdge _ => .channelPin :: deliveryKinds
  | .velocityPulse _ => [.meter, .log]
  | .gateEnd _ => .meter :: lineKinds
  | .wconfActive _ | .wconfInactive _ => [.stationPin, .log]
  | .gateTimerExpired _ => .lineAside :: lineKinds
  | .blindTimerExpired _ => .blindness :: lineKinds
  | .countingWindowExpired _ => [.lineAside, .log]
  | .fstopActive _ _ | .gopenActive _ _ => [.linePin, .log]
  | .fireInputEdge _ _ => [.inputPin, .log]
  | .debounceTimerExpired _ => .input :: alarmKinds
  | .closureLimitChange _ _ _ => limitKinds
  | .waitTimerExpired _ => [.closureFault, .closureMove, .log]
  | _ => [.log]

/-- Every command is a sequence of changes of its kinds. -/
theorem exec_leads (c : Instr) : Leads (execKinds c) s (exec c s) := by
  have idle {l : List ChangeKind} (logs : .log ∈ l := by decide) : Leads l s (done s) := .of_done logs (.refl l s)
  cases c <;> dsimp only [execKinds]
  case powerOnReset => exact .of_done (h := s.powerOn_path.mono (by decide))
  case resetInput => exact .of_done (h := s.restart_path _)
  case serviceChange active => exact execServiceChange_leads s active
  case inboundFrameComplete body check => exact .of_link (by decide) _ fun _ => s.link.complete_goes body check
  case hostHold | hostGo => exact .of_link (by decide) _ fun _ => s.link.hunt_goes.trans (Link.hostFlow_goes _ _)
  case characterReceived c =>
    refine .of_link (by decide) _ fun _ => Link.Goes.trans ?_ (Link.receive_goes _ _ _ _)
    split
    · exact s.link.hunt_goes
    · exact .refl _
  case interByteGapTimeout => exact .ite (fun _ => .of_link (s := s) (by decide) _ fun _ => s.link.hunt_goes) idle
  case frameError => exact .of_refused (by decide)
  case unknownKind kind p =>
    exact .ite (fun _ => .of_link (s := s) (by decide) _ fun _ => s.link.offer_goes (.request kind p))
      (.of_refused (by decide))
  case transmitFrameEnd =>
    exact .ite (fun _ => .ite (fun _ => .of_done (h := s.restart_path _)) (.of_link (s := s) (by decide)
      { s.link with sending := none } fun still => absurd (by decide) still.2.2)) idle
  case ident => exact .of_asked (asks := fun u => ⟨u.link, rfl, .refl _⟩)
  case status | restart => exact .of_asked (asks := fun u => ⟨_, rfl, .of_same rfl rfl rfl rfl rfl rfl⟩)
  case readObject => exact .of_asked (asks := fun u => ⟨u.link, u.readObjectReq_state _ _, .refl _⟩)
  case startLine => exact .of_request (decides := fun u => (u.startReq_path _).mono (by decide))
  case stopLine => exact .of_request (decides := fun u => u.stopReq_path _)
  case resetLine => exact .of_request (decides := fun u => u.resetLineReq_path _)
  case resetStation => exact .of_request (decides := fun u => u.resetStationReq_path _)
  case floodStation => exact .of_request (decides := fun u => u.floodReq_path _ _)
  case resetZone => exact .of_request (decides := fun u => u.resetZoneReq_path _)
  case readCauses => exact .of_asked (asks := fun u => ⟨u.link, u.readCausesReq_state _ _ _, .refl _⟩)
  case setShift => exact .of_request (decides := fun u => u.setShiftReq_path _)
  case releaseClosure => exact .of_request (decides := fun u => (u.releaseReq_path _).mono (by decide))
  case resetClosure => exact .of_request (decides := fun u => (u.resetClosureReq_path _).mono (by decide))
  case silenceSector => exact .of_request (decides := fun u => (u.silenceReq_path _).mono (by decide))
  case testSector => exact .of_request (decides := fun u => (u.testReq_path _ _ _).mono (by decide))
  case disablePrepare => exact .of_request (decides := fun u => u.prepareReq_path _ _ _)
  case disableConfirm => exact .of_request (decides := fun u => u.confirmReq_path _ _)
  case enable => exact .of_request (decides := fun u => u.enableReq_path _ _)
  case clearDisableError => exact .of_request (decides := fun u => u.clearLatchReq_path)
  case listDisablements | readHistory => exact .of_asked (asks := fun u => ⟨u.link, rfl, .refl _⟩)
  case readSetting => exact .of_asked (asks := fun u => ⟨u.link, u.readReq_state _ _ _, .refl _⟩)
  case writeSetting => exact .of_request (decides := fun u => u.writeReq_path _ _ _ _)
  case saveSettings => exact .of_request (decides := fun u => u.saveReq_path)
  case lockSection => exact .of_request (decides := fun u => u.lockReq_path _)
  case loadDefaults => exact .of_request (decides := fun u => u.defaultsReq_path _)
  case sectionWriteEnd good => exact .ite (fun _ => .of_done (h := s.endSection_path good)) idle
  case sampleStart d => exact .ite (fun _ => .of_done (h := (s.startSample_path d).mono (by decide))) idle
  case sampleEnd d level =>
    exact .ite (fun _ => .of_done (h := (((s.applyLevel_path d level).trans (State.takeWaitingMode_path _ d)).mono
      (by decide)).andThen (State.judgeBlind_path _) (by decide))) idle
  case pulseLeadingEdge d => exact .ite (fun _ => idle) (.of_done (h := (Change.channelPin d _).path (by decide)))
  case pulseTrailingEdge d => exact execPulseTrailingEdge_leads s d
  case glareLimitReached d =>
    exact .ite (fun _ => .of_done (h := ((s.beginGlare_path d).mono (by decide)).andThen (State.judgeBlind_path _)
      (by decide))) idle
  case glareCleared d =>
    exact .ite (fun _ => .of_done (h := ((s.endGlare_path d).mono (by decide)).andThen (State.judgeBlind_path _)
      (by decide))) idle
  case candidateExpired d => exact .ite (fun _ => .of_done (h := s.dropCandidate_path d _)) idle
  case velocityPulse n => exact .ite (fun _ => .of_done (h := (Change.meter n _).path (by decide))) idle
  case gateEnd n =>
    exact .ite (fun _ => .of_done (h := ((Change.meter n _).path (by decide)).andThen (State.gateAtLine_path _ n)
      (by decide))) idle
  case windowStart n => exact .ite (fun due => .of_done (h := (Change.turnOn n due).path (by decide))) idle
  case windowEnd n => exact .ite (fun _ => .of_done (h := (Change.endWindow n).path (by decide))) idle
  case wconfActive n => exact execWconfActive_leads s n
  case wconfInactive n => exact execWconfInactive_leads s n
  case confirmTimerExpired n => exact .ite (fun _ => .of_done (h := s.noWater_path n)) idle
  case startTimerExpired n => exact execStartTimerExpired_leads s n
  case abortDwellExpired n => exact execAbortDwellExpired_leads s n
  case gateTimerExpired n => exact execGateTimerExpired_leads s n
  case rundownTimerExpired n => exact execRundownTimerExpired_leads s n
  case blindTimerExpired n => exact execBlindTimerExpired_leads s n
  case countingWindowExpired n => exact .ite (fun _ => .of_done (h := (s.restartCount_path n).mono (by decide))) idle
  case fstopActive n active => exact execFstopActive_leads s n active
  case gopenActive n active => exact execGopenActive_leads s n active
  case fireInputEdge f active => exact .of_done (h := (Change.inputPin f active).path (by decide))
  case debounceTimerExpired f => exact execDebounceTimerExpired_leads s f
  case sparkHoldExpired d => exact .ite (fun _ => .of_done (h := s.removeCause_path _)) idle
  case closureLimitChange c lim active => exact execClosureLimitChange_leads s c lim active
  case travelTimerExpired c => exact execTravelTimerExpired_leads s c
  case waitTimerExpired c => exact execWaitTimerExpired_leads s c
  case phaseEnd n => exact .ite (fun _ => .of_done (h := (Change.phase n).path (by decide))) idle
  case testEnd n => exact execTestEnd_leads s n
  case prepareExpired => exact .ite (fun _ => .of_done (h := s.discardPrepare_path _)) idle
  case entryExpired t => exact .ite (fun _ => .of_done (h := s.removeEntry_path t _)) idle

variable {s} {t : State}

theorem exec_path {c : Instr} (run : exec c s = .next t) : Steps (execKinds c) s t := (exec_leads s c t run).steps

/-- A step is a command on the state with another free-value counter and queue, or a tenth of a millisecond passes. -/
theorem step_cases (run : step s = .next t) :
    (∃ c k q, exec c { s with freeCount := k, pending := q } = .next t) ∨ t = s.advance := by
  unfold step at run
  split at run
  · unfold idle at run
    split at run
    · exact .inr (by simpa using run.symm)
    · next c _ =>
      unfold State.countFree at run
      split at run
      · exact .inl ⟨c, _, s.pending, run⟩
      · exact .inl ⟨c, s.freeCount, s.pending, run⟩
  · next c rest _ => exact .inl ⟨c, s.freeCount, rest, run⟩

/-- What holds whatever the free-value counter and the queue, and is kept by every change and by the passing of time, is
kept by every step. -/
theorem step_keeps {P : State → Prop} (run : step s = .next t) (start : P s)
    (free : ∀ u k q, P u → P { u with freeCount := k, pending := q }) (time : ∀ u : State, P u → P u.advance)
    (command : ∀ c u v, exec c u = .next v → P u → P v) : P t := by
  obtain ⟨c, k, q, run⟩ | rfl := step_cases run
  · exact command c _ _ run (free s k q start)
  · exact time s start

end Sys2Proof.Machine
end

