-- ==== Sys2Proof/Proofs/LineKept.lean ====
section
/-! A property of one line, kept by every command (`exec_keeps_line`): the writes of a line it must bear, once each. From
it, that a line's outputs and timers follow its state. -/

namespace Sys2Proof.Machine

set_option Elab.async false -- one declaration after another: the check bounds the threads waiting on one another

variable {s t : State}

theorem State.line_congr (same : t.lines = s.lines) (n : LineNo) : t.line n = s.line n := by
  simp only [State.line, same]

/-- What every object's own operation keeps, the operation over all of them keeps. -/
theorem forAll_keeps {k : Nat} {f : Fin k → State → State} {P : State → Prop} (keeps : ∀ i u, P u → P (f i u))
    (h : P s) : P (forAll f s) := by
  have each (l : List (Fin k)) : ∀ u, P u → P (forEach l f u) := by
    induction l with
    | nil => exact fun u hu => hu
    | cons a l ih => exact fun u hu => ih (f a u) (keeps a u hu)
  exact each _ s h

/-- The writes of a line that changes of some kinds make: a property of a line bears each of them. -/
structure LineKept (l : List ChangeKind) (Q : Line → Prop) : Prop where
  enter : ∀ {x : Line} {st : LineState} {cause : StopCause} {f : Line → Line} (now : Instant),
    x.Enters st cause f → Q x → Q (x.entering st cause f now)
  replace : ∀ {x : Line} {cause : StopCause}, x.state = .stopping → cause ≠ .none ∧ cause ≠ .orderly → Q x →
    Q { x with stopCause := cause }
  count : .lineAside ∈ l → ∀ {x : Line} (c : Nat) (w : Option Instant), Q x → Q { x with counter := c, countWindow := w }
  gateTimer : .lineAside ∈ l ∨ .linePin ∈ l → ∀ {x : Line}, Q x → Q { x with gateTimer := none }
  blind : .blindness ∈ l ∨ .powerOn ∈ l ∨ .restart ∈ l → ∀ {x : Line} (b : Bool) (w : Option Instant), Q x →
    Q { x with blind := b, blindTimer := w }
  pin : .linePin ∈ l → ∀ {x : Line} (fstop gopen : Bool), Q x → Q { x with fstop := fstop, gopen := gopen }
  off : .lineLift ∈ l → ∀ {x : Line}, x.state = .off → Q x → Q { x with gate := false, gateTimer := none }
  stopped : .lineLift ∈ l → ∀ {x : Line} (now : Instant), x.state = .stopped → Q x →
    Q (x.entering .off .none (fun y => { y with gateTimer := none }) now)
  powerOn : .powerOn ∈ l → ∀ {x : Line} (now : Instant) (w : Option Instant), Q x → Q (x.fresh false now w)
  restart : .restart ∈ l → ∀ {x : Line} (now : Instant) (w : Option Instant), Q x →
    Q (x.fresh (x.state == .stopped) now w)

section
variable {l : List ChangeKind} {Q : Line → Prop} {n : LineNo}

theorem keeps_setLine {m : LineNo} {x : Line} (put : Q (s.line m) → Q x) (h : Q (s.line n)) :
    Q ((s.setLine m x).line n) := by
  rw [State.setLine_line]
  split
  · next same => exact put (same ▸ h)
  · exact h

theorem PlantMoves.keeps_line (kept : LineKept l Q) (h : PlantMoves s t) (start : Q (s.line n)) : Q (t.line n) := by
  refine h.keeps (P := fun u => Q (u.line n)) (fun u v move hu => ?_) start
  cases move with
  | log same => rwa [State.line_congr (same .lines (by decide))]
  | enter enters => exact keeps_setLine (kept.enter _ enters) hu
  | replaceCause m cause stopping protective => exact keeps_setLine (kept.replace stopping protective) hu
  | lineFault => simpa using hu
  | origin => simpa using hu
  | moveClosure => rwa [State.line_congr (u.moveClosure_kept _ _ _ _ _ .lines (by decide))]

theorem State.startBlind_keeps_line (kept : LineKept l Q) (starts : .powerOn ∈ l ∨ .restart ∈ l) (m : LineNo)
    (h : Q (s.line n)) : Q ((s.startBlind m).line n) := by
  unfold State.startBlind
  split
  · exact keeps_setLine (kept.blind (.inr starts) true _) h
  · exact h

theorem State.start_keeps_line (kept : LineKept l Q) (starts : .powerOn ∈ l ∨ .restart ∈ l) {restart : Bool} (kind : Byte) (source : StartSource)
    (fresh : ∀ w, Q ((s.line n).fresh (restart && (s.line n).state == .stopped) s.uptime w)) :
    Q (((s.startBlocks restart).announce kind source).line n) := by
  rw [State.line_congr (State.announce_kept _ _ _ .lines (by decide))]
  unfold State.startBlocks
  refine forAll_keeps (P := fun u => Q (u.line n)) (fun m u hu => u.startBlind_keeps_line kept starts m hu) ?_
  simpa [State.line, tabulate] using fresh _

theorem Change.keeps_line (kept : LineKept l Q) {k : ChangeKind} (change : Change k s t) (mem : k ∈ l)
    (h : Q (s.line n)) : Q (t.line n) := by
  by_cases untouched : Block.lines ∉ k.blocks
  · rwa [State.line_congr (change.kept .lines untouched)]
  by_cases plant : k ∈ [.lineMove, .lineFault, .closureMove]
  · exact (change.moves plant).keeps_line kept h
  cases change with
  | count m k w => exact keeps_setLine (kept.count mem k w) h
  | gateTimerOut m => exact keeps_setLine (kept.gateTimer (.inl mem)) h
  | judge m =>
    unfold State.judgeLine
    dsimp only
    split_ifs
    · exact h
    · exact keeps_setLine (kept.blind (.inl mem) true _) h
    · rw [State.line_congr (State.clearFault_kept _ _ _ .lines (by decide))]
      exact keeps_setLine (kept.blind (.inl mem) false _) h
  | blindOut m out =>
    rw [State.line_congr (State.raiseFault_kept _ _ _ .lines (by decide))]
    exact keeps_setLine (kept.blind (.inl mem) (s.line m).blind none) h
  | liftOff m off => exact keeps_setLine (kept.off mem off) h
  | liftStopped m stopped =>
    exact (s.moveLine_rest m _ _ _).keeps_line kept (keeps_setLine (kept.stopped mem _ stopped) h)
  | fstopOff m => exact keeps_setLine (kept.pin mem false (s.line m).gopen) h
  | fstopOn m => exact (s.fstopOn_moves m).keeps_line kept (keeps_setLine (kept.pin mem true (s.line m).gopen) h)
  | gopen m b w timer =>
    have put : Q (s.line m) → Q { s.line m with gopen := b } := kept.pin mem (s.line m).fstop b
    obtain rfl | rfl := timer
    · exact keeps_setLine put h
    · exact keeps_setLine (fun hm => kept.gateTimer (.inr mem) (put hm)) h
  | powerOn => exact s.start_keeps_line kept (.inl mem) _ _ fun w => by simpa using kept.powerOn mem _ w h
  | restart source => exact s.start_keeps_line kept (.inr mem) _ _ fun w => by simpa using kept.restart mem _ w h
  | _ => simp [ChangeKind.blocks, sectorBlocks, faultBlocks, closureBlocks] at untouched plant

/-- A property of one line is kept by a command, where it bears the writes the command's changes make. -/
theorem exec_keeps_line {c : Instr} (kept : LineKept (execKinds c) Q) (run : exec c s = .next t) (h : Q (s.line n)) :
    Q (t.line n) :=
  (exec_path run).keeps (P := fun u => Q (u.line n)) (fun _ mem _ _ change hu => change.keeps_line kept mem hu) h

end

/-- A property of every line that each of its writes bears is kept by every step. -/
theorem step_keeps_lines {Q : Line → Prop} (kept : ∀ l, LineKept l Q) (run : step s = .next t) (h : ∀ n, Q (s.line n)) :
    ∀ n, Q (t.line n) :=
  step_keeps (P := fun u => ∀ n, Q (u.line n)) run h (fun _ _ _ hu => hu) (fun _ hu => hu)
    fun _ _ _ run hu n => exec_keeps_line (kept _) run (hu n)

/-! ### Outputs and timers -/

/-- A line's outputs as its state says (R56). -/
def Line.outputsSound (x : Line) : Prop :=
  (x.fan = true ↔ x.state = .starting ∨ x.state = .run ∨ x.state = .abort) ∧
  (x.feed = true ↔ x.state = .run) ∧
  (x.state = .abort → x.gate = true) ∧
  (x.state = .off ∨ x.state = .starting ∨ x.state = .run → x.gate = false)

/-- The outputs a change of state puts are the ones of the state entered. -/
theorem Line.entering_outputsSound (x : Line) (st : LineState) (cause : StopCause) (f : Line → Line) (now : Instant) :
    (x.entering st cause f now).outputsSound := by
  cases st <;> simp [Line.entering, Line.outputsSound, fanFor, feedFor, gateFor]

theorem Line.fresh_outputsSound (x : Line) (kept : Bool) (now : Instant) (w : Option Instant) :
    (x.fresh kept now w).outputsSound := by
  cases kept <;> simp [Line.fresh, Line.outputsSound]

theorem outputsSound_kept (l : List ChangeKind) : LineKept l Line.outputsSound where
  enter _ _ _ := Line.entering_outputsSound ..
  replace _ _ h := h
  count _ _ _ _ h := h
  gateTimer _ _ h := h
  blind _ _ _ _ h := h
  pin _ _ _ _ h := h
  off _ _ off h := by simp_all [Line.outputsSound]
  stopped _ _ _ _ _ := Line.entering_outputsSound ..
  powerOn _ _ _ _ _ := Line.fresh_outputsSound ..
  restart _ _ _ _ _ := Line.fresh_outputsSound ..

theorem timersSound_kept (l : List ChangeKind) : LineKept l Line.timersSound where
  enter {x _ c _} _ enters h := by
    obtain ⟨start, dwell, rundown, gate, named, orderly⟩ := h
    cases enters with
    | stopping _ t moving caused =>
      have some : c ≠ .none := by obtain caused | ⟨abort, rfl⟩ := caused <;> simp_all
      simp_all [Line.entering, Line.timersSound, gateFor]
    | abort _ _ _ moving caused =>
      have left : ¬(x.state = .stopping ∨ x.state = .stopped) := by rintro (h | h) <;> simp [h] at moving
      simp_all [Line.entering, Line.timersSound, gateFor]
    | _ => simp_all [Line.entering, Line.timersSound, gateFor]
  replace stopping protective h := by
    obtain ⟨start, dwell, rundown, gate, cause, orderly⟩ := h
    simp_all [Line.timersSound]
  count _ _ _ _ h := h
  gateTimer _ _ h := by
    obtain ⟨start, dwell, rundown, gate, cause, orderly⟩ := h
    simp_all [Line.timersSound]
  blind _ _ _ _ h := h
  pin _ _ _ _ h := h
  off _ _ off h := by
    obtain ⟨start, dwell, rundown, gate, cause, orderly⟩ := h
    simp_all [Line.timersSound]
  stopped _ _ _ stopped h := by
    obtain ⟨start, dwell, rundown, gate, cause, orderly⟩ := h
    simp_all [Line.entering, Line.timersSound]
  powerOn _ _ _ _ _ := by simp [Line.fresh, Line.timersSound]
  restart _ {x} _ _ h := by
    obtain ⟨start, dwell, rundown, gate, cause, orderly⟩ := h
    by_cases stopped : x.state = .stopped <;> simp_all [Line.fresh, Line.timersSound]

/-- A STOPPED line with its stop cause stays so until its reset (R79). -/
theorem stopped_kept (cause : StopCause) {l : List ChangeKind} (lift : .lineLift ∉ l) (power : .powerOn ∉ l) :
    LineKept l fun x => x.state = .stopped ∧ x.stopCause = cause where
  enter _ enters h := by
    obtain ⟨stopped, -⟩ := h
    cases enters <;> simp_all
  replace stopping _ h := by simp [h.1] at stopping
  count _ _ _ _ h := h
  gateTimer _ _ h := h
  blind _ _ _ _ h := h
  pin _ _ _ _ h := h
  off lifts := absurd lifts lift
  stopped lifts := absurd lifts lift
  powerOn starts := absurd starts power
  restart _ _ _ _ h := by simp [Line.fresh, h.1, h.2]

end Sys2Proof.Machine
end

