-- ==== Sys2Proof/Proofs/FaultsKept.lean ====
section
/-! Which faults each kind of change may raise or clear (`ChangeKind.mayPut`), and that it leaves every other fault as it
is. -/

namespace Sys2Proof.Machine

set_option Elab.async false -- one declaration after another: the check bounds the threads waiting on one another

variable {s t : State}

/-! ### Fault sets -/

theorem FaultCode.getLsbD_bit (f g : FaultCode) : f.bit.getLsbD (g.num - 1) = decide (g = f) := by
  cases f <;> cases g <;> rfl

@[simp] theorem hasFault_addFault (set : FaultSet) (f g : FaultCode) :
    hasFault (addFault set f) g = (hasFault set g || decide (g = f)) := by
  simp [hasFault, addFault, FaultCode.getLsbD_bit]

@[simp] theorem hasFault_dropFault (set : FaultSet) (f g : FaultCode) :
    hasFault (dropFault set f) g = (hasFault set g && !decide (g = f)) := by
  have small : g.num - 1 < 16 := by cases g <;> decide
  have bit := FaultCode.getLsbD_bit f g
  simp_all [hasFault, dropFault]

theorem State.holds_congr (same : t.faults = s.faults) (o : Obj) (f : FaultCode) : t.holds o f = s.holds o f := by
  simp only [State.holds, same]

/-- What an object holds after a fault is put: of the object itself the fault as put, all else as before. -/
theorem State.putFault_holds {o : Obj} (owner : o.hasFaultSet) (f : FaultCode) (raised : Bool) (p : Obj)
    (g : FaultCode) : (s.putFault o f raised).holds p g = if p = o ∧ g = f then raised else s.holds p g := by
  simp only [State.holds, State.putFault_faults]
  by_cases same : p = o
  · subst same
    rw [FaultTable.get_put_self owner]
    cases raised <;> by_cases code : g = f <;> simp [code]
  · rw [FaultTable.get_put_of_ne same]
    simp [same]

theorem State.raiseFault_holds {o : Obj} (owner : o.hasFaultSet) (f : FaultCode) (p : Obj) (g : FaultCode) :
    (s.raiseFault o f).holds p g = if p = o ∧ g = f then true else s.holds p g := by
  unfold State.raiseFault
  split
  · next held =>
    split
    · next same => rw [same.1, same.2, held]
    · rfl
  · exact State.putFault_holds owner f true p g

theorem State.clearFault_holds {o : Obj} (owner : o.hasFaultSet) (f : FaultCode) (p : Obj) (g : FaultCode) :
    (s.clearFault o f).holds p g = if p = o ∧ g = f then false else s.holds p g := by
  unfold State.clearFault
  split
  · exact State.putFault_holds owner f false p g
  · next free =>
    split
    · next same => rw [same.1, same.2]; simpa using free
    · rfl

@[simp] theorem State.endActivity_faults (g : Target) : (s.endActivity g).faults = s.faults := by
  unfold State.endActivity
  split
  · rfl
  · split
    · rfl
    · simp [State.deriveFault, (State.disEvent_kept _ _ _ _ _ _ .faults (by decide)).1]

/-! ### Views of the fault table -/

section
variable {α : Type} {view : FaultTable → α}

/-- What is seen of the fault table does not move with a fault of an object. -/
def Unmoved (view : FaultTable → α) (o : Obj) (f : FaultCode) : Prop :=
  ∀ (table : FaultTable) (raised : Bool),
    view (table.put o (if raised then addFault (table.get o) f else dropFault (table.get o) f)) = view table

section
variable {o : Obj} {f : FaultCode} (unmoved : Unmoved view o f)
include unmoved

theorem State.putFault_view (raised : Bool) : view (s.putFault o f raised).faults = view s.faults := by
  rw [State.putFault_faults, unmoved]

theorem State.raiseFault_view : view (s.raiseFault o f).faults = view s.faults := by
  unfold State.raiseFault
  split
  · rfl
  · exact State.putFault_view unmoved true

theorem State.clearFault_view : view (s.clearFault o f).faults = view s.faults := by
  unfold State.clearFault
  split
  · exact State.putFault_view unmoved false
  · rfl

end

/-- A change of a closure's state touches no fault but its own STUCK. -/
theorem State.moveClosure_view {c : ClosureNo} (unmoved : Unmoved view (.closure c) .stuck) (st : ClosureState)
    (dir : Direction) (o : ReleaseOrigin) (f : Closure → Closure) :
    view (s.moveClosure c st dir o f).faults = view s.faults := by
  unfold State.moveClosure
  dsimp only
  split_ifs <;> simp [State.raiseFault_view unmoved, State.clearFault_view unmoved]

/-- The faults a plant's move may touch. -/
def plantPuts : Obj → FaultCode → Bool
  | .line _, f => f != .blind
  | .closure _, f => f == .stuck
  | _, _ => false

/-- The faults a kind of change may touch. -/
def ChangeKind.mayPut (k : ChangeKind) (o : Obj) (f : FaultCode) : Bool :=
  match k, o with
  | .lineMove, o | .lineFault, o | .lineLift, o | .linePin, o | .closureMove, o => plantPuts o f
  | .channelFault, .detector _ | .closureLift, .closure _ | .water, .station _ | .storeResult, .store => true
  | .blindness, .line _ => f == .blind
  | .closureFault, .closure _ => f != .stuck
  | .powerOn, _ | .restart, _ => true
  | _, _ => false

theorem PlantMoves.view_kept (h : PlantMoves s t) (unmoved : ∀ o f, plantPuts o f = true → Unmoved view o f) :
    view t.faults = view s.faults := by
  refine h.keeps (P := fun u => view u.faults = view s.faults) (fun u v move hu => ?_) rfl
  rw [← hu]
  cases move with
  | log same => rw [(same .faults (by decide)).1]
  | enter | replaceCause | origin => rfl
  | lineFault n g r other => exact State.putFault_view (unmoved _ _ (by simp [plantPuts, other])) r
  | moveClosure => exact State.moveClosure_view (unmoved _ _ rfl) _ _ _ _

theorem State.reopen_view {c : ClosureNo} (unmoved : ∀ f, Unmoved view (.closure c) f) :
    view (s.reopen c).faults = view s.faults := by
  have moved (u : State) (st : ClosureState) (dir : Direction) (o : ReleaseOrigin) (f : Closure → Closure) :
      view (u.moveClosure c st dir o f).faults = view u.faults := State.moveClosure_view (unmoved _) _ _ _ _
  unfold State.reopen State.makeReady State.holdOpen
  dsimp only
  split_ifs <;> simp [moved, closureFaults, forEach, State.clearFault_view (unmoved _)]

theorem State.deriveStoreFaults_view (unmoved : ∀ f, Unmoved view .store f) :
    view s.deriveStoreFaults.faults = view s.faults := by
  unfold State.deriveStoreFaults
  dsimp only
  split_ifs <;> simp [State.raiseFault_view (unmoved _), State.clearFault_view (unmoved _)]

/-- What a reset leaves of the faults: of all but the store's, none. -/
theorem State.start_view (restart : Bool) (kind : Byte) (source : StartSource) (unmoved : ∀ f, Unmoved view .store f) :
    view ((s.startBlocks restart).announce kind source).faults = view FaultTable.empty := by
  have started : (s.startBlocks restart).faults = FaultTable.empty :=
    (forAll_kept (l := [.lines]) (fun n t => t.startBlind_kept n) _ .faults (by decide)).1
  unfold State.announce
  rw [State.deriveStoreFaults_view unmoved, (State.event_kept _ _ _ _ _ _ _ .faults (by decide)).1, started]

theorem FaultTable.get_empty (o : Obj) : FaultTable.empty.get o = 0 := by
  cases o <;> simp [FaultTable.get, FaultTable.empty]

/-- A change outside the resets leaves what is seen of the faults as it is, where it moves with none its kind may
touch. -/
theorem Change.view_kept {k : ChangeKind} (change : Change k s t) (running : k ≠ .powerOn ∧ k ≠ .restart)
    (unmoved : ∀ o f, k.mayPut o f = true → Unmoved view o f) : view t.faults = view s.faults := by
  by_cases untouched : Block.faults ∉ k.blocks
  · rw [(change.kept .faults untouched).1]
  by_cases plant : k ∈ [.lineMove, .lineFault, .closureMove]
  · refine (change.moves plant).view_kept fun o f may => unmoved o f ?_
    simp only [List.mem_cons, List.not_mem_nil, or_false] at plant
    obtain rfl | rfl | rfl := plant <;> exact may
  cases change with
  | output => rfl
  | channelFault d g r => exact State.putFault_view (unmoved _ _ rfl) r
  | turnOn n => rw [(s.turnOn_kept n .faults (by decide)).1]
  | offerWindow n w => rw [(s.offerWindow_kept n w .faults (by decide)).1]
  | endWindow n =>
    unfold State.endWindow
    dsimp only
    split
    · rfl
    · split <;> split <;> simp
  | waterMissed n => exact State.raiseFault_view (unmoved _ _ rfl)
  | waterReset n => exact State.clearFault_view (unmoved _ _ rfl)
  | judge n =>
    unfold State.judgeLine
    dsimp only
    split_ifs
    · rfl
    · rfl
    · exact State.clearFault_view (unmoved _ _ rfl)
  | blindOut n => exact State.raiseFault_view (unmoved _ _ rfl)
  | liftOff | fstopOff | gopen => rfl
  | liftStopped n => exact (s.moveLine_rest n _ _ _).view_kept unmoved
  | fstopOn n => exact (s.fstopOn_moves n).view_kept unmoved
  | closureFault c g r other => exact State.putFault_view (unmoved _ _ (by simp [ChangeKind.mayPut, other])) r
  | reopen c => exact State.reopen_view fun f => unmoved _ f rfl
  | result k good => exact State.deriveStoreFaults_view fun f => unmoved _ f rfl
  | powerOn | restart => simp at running
  | _ => simp [ChangeKind.blocks, sectorBlocks] at untouched plant

end

/-! ### One fault, and one object's set -/

theorem unmoved_holds {o p : Obj} {f g : FaultCode} (owner : o.hasFaultSet) (other : ¬(p = o ∧ g = f)) :
    Unmoved (fun table => hasFault (table.get p) g) o f := by
  intro table raised
  dsimp only
  by_cases same : p = o
  · subst same
    rw [FaultTable.get_put_self owner]
    cases raised <;> simp_all
  · rw [FaultTable.get_put_of_ne same]

theorem unmoved_get {o p : Obj} {f : FaultCode} (other : p ≠ o) : Unmoved (fun table => table.get p) o f :=
  fun _ _ => FaultTable.get_put_of_ne other

/-- Only owners of a fault set are named by the kinds. -/
theorem ChangeKind.owner_of_mayPut {k : ChangeKind} {o : Obj} {f : FaultCode} (running : k ≠ .powerOn ∧ k ≠ .restart)
    (may : k.mayPut o f = true) : o.hasFaultSet := by
  cases k <;> cases o <;> simp_all [ChangeKind.mayPut, plantPuts, Obj.hasFaultSet]

theorem ChangeKind.running_of_mayPut {k : ChangeKind} {o : Obj} {f : FaultCode} (no : k.mayPut o f = false) :
    k ≠ .powerOn ∧ k ≠ .restart := by
  constructor <;> rintro rfl <;> simp [ChangeKind.mayPut] at no

/-- A change leaves every fault its kind may not touch as it is. -/
theorem Change.holds_kept {k : ChangeKind} (change : Change k s t) {o : Obj} {f : FaultCode}
    (no : k.mayPut o f = false) : t.holds o f = s.holds o f := by
  have running := ChangeKind.running_of_mayPut no
  refine change.view_kept (view := fun table => hasFault (table.get o) f) running fun p g may =>
    unmoved_holds (ChangeKind.owner_of_mayPut running may) ?_
  rintro ⟨rfl, rfl⟩
  simp [no] at may

/-- A change leaves the fault set of every object its kind may not touch as it is. -/
theorem Change.get_kept {k : ChangeKind} (change : Change k s t) {o : Obj} (no : ∀ f, k.mayPut o f = false) :
    t.faults.get o = s.faults.get o := by
  refine change.view_kept (view := fun table => table.get o) (ChangeKind.running_of_mayPut (no .blind))
    fun p g may => unmoved_get ?_
  rintro rfl
  simp [no] at may

theorem PlantMoves.holds_kept (h : PlantMoves s t) {o : Obj} {f : FaultCode} (no : plantPuts o f = false) :
    t.holds o f = s.holds o f := by
  refine h.view_kept (view := fun table => hasFault (table.get o) f) fun p g may => unmoved_holds ?_ ?_
  · cases p <;> simp_all [plantPuts, Obj.hasFaultSet]
  · rintro ⟨rfl, rfl⟩
    simp [no] at may

end Sys2Proof.Machine
end

