-- ==== Sys2Proof/Proofs/ClosureKept.lean ====
section
/-! A property of one closure and its STUCK fault, kept by every command (`exec_keeps_closure`). From it, that HOLD, the
direction, the timers and STUCK follow the closure's state, and that a SHUT closure stays SHUT. -/

namespace Sys2Proof.Machine

set_option Elab.async false -- one declaration after another: the check bounds the threads waiting on one another

variable {s t : State}

theorem State.closure_congr (same : t.closures = s.closures) (c : ClosureNo) : t.closure c = s.closure c := by
  simp only [State.closure, same]

/-- A closure after a change of its state: what `State.moveClosure` puts, `y` being the closure with its timers set. -/
def Closure.entering (y : Closure) (st : ClosureState) (dir : Direction) (now : Instant) : Closure :=
  { y with state := st, direction := dir, hold := holdFor st dir, entered := now }

/-- A property of each closure and of its STUCK fault. -/
def State.closureHas (Q : Closure → Bool → Prop) (c : ClosureNo) (s : State) : Prop :=
  Q (s.closure c) (s.holds (.closure c) .stuck)

/-- The writes of a closure, but for its limit inputs and the ways out of a lockout. -/
structure ClosureKept (Q : Closure → Bool → Prop) : Prop where
  move : ∀ {x y : Closure} {b : Bool} {st : ClosureState} {dir : Direction} (now : Instant), x.state ≠ .shut →
    x.TimersFor st dir y → Q x b → Q (y.entering st dir now) (st == .stuck || (x.state != .stuck && b))
  origin : ∀ {x : Closure} {b : Bool} (o : ReleaseOrigin), Q x b → Q { x with origin := o } b
  restart : ∀ {x : Closure} {b : Bool} (now e : Instant) (kind : ClosureKind), Q x b →
    Q (x.fresh (x.state == .shut) now e kind) false

/-- The writes of a closure by its limit inputs. -/
def ClosurePinned (Q : Closure → Bool → Prop) : Prop :=
  ∀ ⦃x : Closure⦄ ⦃b : Bool⦄ (l : Limit) (v : Bool), Q x b → Q (x.setLimit l v) b

/-- The writes of a closure that take it out of a lockout: RESET-CLOSURE's, and the start at a power-on reset. -/
structure ClosureLifted (Q : Closure → Bool → Prop) : Prop where
  reopen : ∀ {x : Closure} {b : Bool} (now : Instant) (w : Option Instant), x.state = .shut ∨ x.state = .stuck → Q x b →
    Q (Closure.entering { x with travelTimer := w, waitTimer := none } .ready .none now) false
  powerOn : ∀ {x : Closure} {b : Bool} (now e : Instant) (kind : ClosureKind), Q x b → Q (x.fresh false now e kind) false

section
variable {Q : Closure → Bool → Prop} {c : ClosureNo}

theorem closureHas_of_same (closure : t.closure c = s.closure c)
    (stuck : t.holds (.closure c) .stuck = s.holds (.closure c) .stuck) (h : s.closureHas Q c) : t.closureHas Q c := by
  unfold State.closureHas
  rw [closure, stuck]
  exact h

theorem closureHas_setClosure {d : ClosureNo} {x : Closure}
    (put : ∀ b, Q (s.closure d) b → Q x b) (h : s.closureHas Q c) : (s.setClosure d x).closureHas Q c := by
  unfold State.closureHas at h ⊢
  rw [State.setClosure_closure, State.setClosure_holds]
  split
  · next same => subst same; exact put _ h
  · exact h

/-- What a change of a closure's state leaves of the closure and its STUCK fault. -/
theorem State.moveClosure_holds_self {st : ClosureState} {dir : Direction} {o : ReleaseOrigin} {f : Closure → Closure}
    (moves : (s.closure c).state ≠ st) : (s.moveClosure c st dir o f).holds (.closure c) .stuck =
      (st == .stuck || ((s.closure c).state != .stuck && s.holds (.closure c) .stuck)) := by
  have ended (u : State) (x : Target) : (u.endActivity x).holds (.closure c) .stuck = u.holds (.closure c) .stuck :=
    State.holds_congr (by simp) _ _
  have raised (u : State) : (u.raiseFault (.closure c) .stuck).holds (.closure c) .stuck = true := by
    rw [State.raiseFault_holds (o := .closure c) trivial]; simp
  have cleared (u : State) : (u.clearFault (.closure c) .stuck).holds (.closure c) .stuck = false := by
    rw [State.clearFault_holds (o := .closure c) trivial]; simp
  unfold State.moveClosure
  dsimp only
  rw [if_neg moves]
  by_cases stuck : st = .stuck
  · split <;> simp [stuck, ended, raised]
  · by_cases left : (s.closure c).state = .stuck
    · split <;> simp [stuck, left, ended, cleared]
    · have no : (st == .stuck) = false := by simpa using stuck
      have here : ((s.closure c).state != .stuck) = true := by simpa using left
      rw [if_neg stuck, if_neg left]
      split <;> simp [ended, no, here]

theorem State.moveClosure_closure_of_ne {d : ClosureNo} (other : d ≠ c) (st : ClosureState) (dir : Direction)
    (o : ReleaseOrigin) (f : Closure → Closure) : (s.moveClosure d st dir o f).closure c = s.closure c := by
  unfold State.moveClosure
  dsimp only
  split_ifs <;> simp [other]

theorem closureHas_moveClosure (kept : ClosureKept Q) {d : ClosureNo} {st : ClosureState} {dir : Direction}
    {o : ReleaseOrigin} {f : Closure → Closure} (open_ : (s.closure d).state ≠ .shut)
    (timers : (s.closure d).TimersFor st dir (f (s.closure d))) (h : s.closureHas Q c) :
    (s.moveClosure d st dir o f).closureHas Q c := by
  by_cases same : d = c
  · subst same
    by_cases moves : (s.closure d).state = st
    · have still : s.moveClosure d st dir o f = s := by simp [State.moveClosure, moves]
      rwa [still]
    · unfold State.closureHas
      rw [State.moveClosure_closure_self, if_neg moves, State.moveClosure_holds_self moves]
      exact kept.move s.uptime open_ timers h
  · refine closureHas_of_same (State.moveClosure_closure_of_ne same _ _ _ _) ?_ h
    exact State.moveClosure_view (view := fun table => hasFault (table.get (.closure c)) .stuck)
      (unmoved_holds trivial (by rintro ⟨eq, -⟩; cases eq; exact same rfl)) _ _ _ _

theorem PlantMoves.keeps_closure (kept : ClosureKept Q) (h : PlantMoves s t) (start : s.closureHas Q c) :
    t.closureHas Q c := by
  refine h.keeps (P := State.closureHas Q c) (fun u v move hu => ?_) start
  cases move with
  | log same =>
    exact closureHas_of_same (State.closure_congr (same .closures (by decide)) c)
      (State.holds_congr (same .faults (by decide)).1 _ _) hu
  | enter | replaceCause => exact hu
  | lineFault n f r other =>
    exact closureHas_of_same (by simp) (State.putFault_view
      (view := fun table => hasFault (table.get (.closure c)) .stuck) (unmoved_holds (o := .line n) trivial (by simp)) r) hu
  | origin d o => exact closureHas_setClosure (fun _ => kept.origin o) hu
  | moveClosure o open_ timers => exact closureHas_moveClosure kept open_ timers hu

theorem State.reopen_closure_of_ne {d : ClosureNo} (other : d ≠ c) : (s.reopen d).closure c = s.closure c := by
  have cleared (u : State) (f : FaultCode) : (u.clearFault (.closure d) f).closure c = u.closure c :=
    State.closure_congr (u.clearFault_kept _ _ .closures (by decide)) c
  unfold State.reopen State.makeReady State.holdOpen
  dsimp only
  split_ifs <;> simp [State.moveClosure_closure_of_ne other, other, cleared, closureFaults, forEach]

theorem State.reopen_keeps_closure (kept : ClosureKept Q) (lifted : ClosureLifted Q) {d : ClosureNo}
    (locked : (s.closure d).state = .shut ∨ (s.closure d).state = .stuck) (h : s.closureHas Q c) :
    (s.reopen d).closureHas Q c := by
  by_cases same : d = c
  · subst same
    let u := (forEach closureFaults (fun f u => u.clearFault (.closure d) f) s).setClosure d
      { s.closure d with travelTimer := none }
    have cleared (v : State) (f : FaultCode) : (v.clearFault (.closure d) f).closure d = v.closure d :=
      State.closure_congr (v.clearFault_kept _ _ .closures (by decide)) d
    have named : s.reopen d = u.makeReady d := by simp [u, State.reopen, closureFaults, forEach, cleared]
    have free : u.holds (.closure d) .stuck = false := by
      simp [u, closureFaults, forEach, State.clearFault_holds (o := .closure d) trivial]
    have moves : (u.closure d).state ≠ .ready := by
      obtain h | h := locked <;> simp [u, h]
    have ready (w : Option Instant) : (u.moveClosure d .ready .none .none
        (fun x => { x with travelTimer := w, waitTimer := none })).closureHas Q d := by
      unfold State.closureHas
      rw [State.moveClosure_closure_self, if_neg moves, State.moveClosure_holds_self moves, free]
      have put := lifted.reopen (x := s.closure d) u.uptime w locked h
      simpa [u, Closure.entering, show (ClosureState.ready == .stuck) = false from rfl] using put
    rw [named]
    unfold State.makeReady State.holdOpen
    dsimp only
    split
    · exact closureHas_moveClosure kept (by simp [State.moveClosure_closure_state]) (.stopped (by decide)) (ready _)
    · exact ready _
  · refine closureHas_of_same (State.reopen_closure_of_ne same) ?_ h
    exact State.reopen_view (view := fun table => hasFault (table.get (.closure c)) .stuck) fun f =>
      unmoved_holds trivial (by rintro ⟨eq, -⟩; cases eq; exact same rfl)

theorem State.start_closure (restart : Bool) (kind : Byte) (source : StartSource) :
    ∃ e k, ((s.startBlocks restart).announce kind source).closure c =
      (s.closure c).fresh (restart && (s.closure c).state == .shut) s.uptime e k := by
  rw [State.closure_congr (State.announce_kept _ _ _ .closures (by decide))]
  unfold State.startBlocks
  rw [State.closure_congr (forAll_kept (l := [.lines]) (fun n t => t.startBlind_kept n) _ .closures (by decide))]
  exact ⟨_, _, by simp [State.closure, tabulate]; rfl⟩

theorem State.start_keeps_closure {restart : Bool} (kind : Byte) (source : StartSource)
    (fresh : ∀ e kind, Q ((s.closure c).fresh (restart && (s.closure c).state == .shut) s.uptime e kind) false) :
    ((s.startBlocks restart).announce kind source).closureHas Q c := by
  obtain ⟨e, k, put⟩ := s.start_closure (c := c) restart kind source
  have free : ((s.startBlocks restart).announce kind source).holds (.closure c) .stuck = false := by
    have seen := s.start_view (view := fun table => hasFault (table.get (.closure c)) .stuck) restart kind source
      fun f => unmoved_holds trivial (by simp)
    rw [State.holds, seen, FaultTable.get_empty]
    rfl
  unfold State.closureHas
  rw [put, free]
  exact fresh e k

theorem Change.keeps_closure (kept : ClosureKept Q) {k : ChangeKind} (pinned : k = .closurePin → ClosurePinned Q)
    (lifted : k = .closureLift ∨ k = .powerOn → ClosureLifted Q) (change : Change k s t) (h : s.closureHas Q c) :
    t.closureHas Q c := by
  by_cases plant : k ∈ [.lineMove, .lineFault, .closureMove]
  · exact (change.moves plant).keeps_closure kept h
  by_cases untouched : Block.closures ∉ k.blocks
  · refine closureHas_of_same (State.closure_congr (change.kept .closures untouched) c) (change.holds_kept ?_) h
    cases k <;> simp_all [ChangeKind.mayPut, ChangeKind.blocks]
  cases change with
  | liftOff => exact h
  | liftStopped n => exact (s.moveLine_rest n _ _ _).keeps_closure kept h
  | fstopOff => exact h
  | fstopOn n => exact (s.fstopOn_moves n).keeps_closure kept h
  | gopen => exact h
  | reopen d locked => exact s.reopen_keeps_closure kept (lifted (.inl rfl)) locked h
  | limit d l v => exact closureHas_setClosure (fun _ => pinned rfl l v) h
  | powerOn => exact s.start_keeps_closure _ _ fun e kind => by simpa using (lifted (.inr rfl)).powerOn _ e kind h
  | restart source => exact s.start_keeps_closure _ _ fun e kind => by simpa using kept.restart _ e kind h
  | _ => simp [ChangeKind.blocks, sectorBlocks, faultBlocks] at untouched plant

/-- A property of one closure that each of its writes bears is kept by every command; the lifting of a lockout matters
only to RESET-CLOSURE and the power-on reset. -/
theorem exec_keeps_closure (kept : ClosureKept Q) (pinned : ClosurePinned Q) {i : Instr}
    (lifted : (∃ p, i = .resetClosure p) ∨ i = .powerOnReset → ClosureLifted Q) (run : exec i s = .next t)
    (h : s.closureHas Q c) : t.closureHas Q c := by
  refine (exec_path run).keeps (P := State.closureHas Q c) (fun k mem u v change hu => ?_) h
  refine change.keeps_closure kept (fun _ => pinned) (fun lifts => lifted ?_) hu
  obtain rfl | rfl := lifts <;> cases i <;> simp [execKinds] at mem ⊢

end

/-- A property of every closure that each of its writes bears is kept by every step. -/
theorem step_keeps_closures {Q : Closure → Bool → Prop} (kept : ClosureKept Q) (pinned : ClosurePinned Q)
    (lifted : ClosureLifted Q) (run : step s = .next t) (h : ∀ c, s.closureHas Q c) : ∀ c, t.closureHas Q c :=
  step_keeps (P := fun u => ∀ c, u.closureHas Q c) run h (fun _ _ _ hu => hu) (fun _ hu => hu)
    fun _ _ _ run hu c => exec_keeps_closure kept pinned (fun _ => lifted) run (hu c)

/-! ### Outputs, timers and the lockout -/

/-- A closure's HOLD and direction as its state says (R102). -/
def Closure.outputsSound (x : Closure) (_ : Bool) : Prop :=
  (x.hold = true ↔
    x.state = .held ∨ x.state = .ready ∨ x.state = .waiting ∨ (x.state = .stuck ∧ x.direction = .opening)) ∧
  (x.state = .stuck ↔ x.direction ≠ .none)

/-- The outputs a change of state puts are the ones of the state entered. -/
theorem Closure.entering_outputsSound {y : Closure} {st : ClosureState} {dir : Direction} (now : Instant) {b : Bool}
    (directed : st = .stuck ↔ dir ≠ .none) : (y.entering st dir now).outputsSound b := by
  cases st <;> cases dir <;> simp_all [Closure.entering, Closure.outputsSound, holdFor]

theorem Closure.fresh_outputsSound (x : Closure) (locked : Bool) (now e : Instant) (kind : ClosureKind) {b : Bool} :
    (x.fresh locked now e kind).outputsSound b := by
  cases locked
  · by_cases opened : x.position = .opened <;> simp [Closure.fresh, Closure.outputsSound, opened]
  · simp [Closure.fresh, Closure.outputsSound]

theorem closureOutputs_kept : ClosureKept Closure.outputsSound where
  move now _ timers _ := Closure.entering_outputsSound now timers.direction
  origin _ h := h
  restart _ _ _ _ := Closure.fresh_outputsSound ..

theorem closureOutputs_pinned : ClosurePinned Closure.outputsSound := fun _ _ l _ h => by cases l <;> exact h

theorem closureOutputs_lifted : ClosureLifted Closure.outputsSound where
  reopen now _ _ _ := Closure.entering_outputsSound now (by simp)
  powerOn _ _ _ _ := Closure.fresh_outputsSound ..

/-- A closure's timers and STUCK as its state says (R107, R109, R111, R113). -/
def Closure.timersSound (x : Closure) (stuck : Bool) : Prop :=
  (x.waitTimer ≠ none ↔ x.state = .waiting) ∧
  (x.travelTimer ≠ none → x.state = .releasing ∨ x.state = .ready) ∧
  (x.state = .releasing → x.travelTimer ≠ none) ∧
  (stuck = true ↔ x.state = .stuck)

theorem Closure.fresh_timersSound (x : Closure) (locked : Bool) (now e : Instant) (kind : ClosureKind) :
    (x.fresh locked now e kind).timersSound false := by
  cases locked
  · by_cases opened : x.position = .opened <;> simp [Closure.fresh, Closure.timersSound, opened]
  · simp [Closure.fresh, Closure.timersSound]

theorem closureTimers_kept : ClosureKept Closure.timersSound where
  move {x y b st dir} now open_ timers h := by
    obtain ⟨wait, -, -, stuck⟩ := h
    obtain ⟨-, -, travels, releasing, waiting, settled⟩ := timers
    have waits : y.waitTimer ≠ none ↔ st = .waiting := by
      refine ⟨fun on => by_contra fun no => ?_, waiting⟩
      obtain off | ⟨left, same⟩ := settled no
      · exact on off
      · exact left (wait.mp (same ▸ on))
    refine ⟨waits, travels, releasing, ?_⟩
    simp only [Closure.entering, Bool.or_eq_true, beq_iff_eq, Bool.and_eq_true, bne_iff_ne]
    tauto
  origin _ h := h
  restart _ _ _ _ := Closure.fresh_timersSound ..

theorem closureTimers_pinned : ClosurePinned Closure.timersSound := fun _ _ l _ h => by cases l <;> exact h

theorem closureTimers_lifted : ClosureLifted Closure.timersSound where
  reopen now _ _ _ := by simp [Closure.entering, Closure.timersSound]
  powerOn _ _ _ _ := Closure.fresh_timersSound ..

/-- A SHUT closure stays SHUT (R114). -/
theorem shut_kept : ClosureKept fun x _ => x.state = .shut where
  move _ open_ _ h := absurd h open_
  origin _ h := h
  restart _ _ _ h := by simp [Closure.fresh, h]

theorem shut_pinned : ClosurePinned fun x _ => x.state = .shut := fun _ _ l _ h => by cases l <;> exact h

end Sys2Proof.Machine
end

