-- ==== Sys2Proof/Proofs/Lockouts.lean ====
section
/-! The lockouts (R114, R73, R79): a SHUT closure and a STOPPED line stay so until their reset. -/

namespace Sys2Proof.Machine

set_option Elab.async false -- one declaration after another: the check bounds the threads waiting on one another

variable {s t : State}

theorem State.triggers_iff {c : ClosureNo} {z : ZoneNo} : s.triggers c z = true ↔
    zoneIn (s.closureCfg c).zones z = true ∧ (s.closureCfg c).trigger.level.rank ≤ (s.zone z).level.rank := by
  simp [State.triggers]

/-- RESET-CLOSURE refuses a closure with a zone at its trigger level, so that it stays SHUT (R116). -/
theorem Change.keeps_triggered {c : ClosureNo} {z : ZoneNo} {k : ChangeKind} (change : Change k s t)
    (mem : k ∈ [.closureLift, .log]) (h : (s.closure c).state = .shut ∧ s.triggers c z = true) :
    (t.closure c).state = .shut ∧ t.triggers c z = true := by
  obtain ⟨shut, triggered⟩ := h
  have free : ∀ k ∈ [ChangeKind.closureLift, .log], Block.zones ∉ k.blocks ∧ Block.store ∉ k.blocks := by decide
  have zones : t.zones = s.zones := change.kept .zones (free k mem).1
  have store : t.store = s.store := change.kept .store (free k mem).2
  refine ⟨?_, ?_⟩
  case refine_2 =>
    rw [State.triggers_iff] at triggered ⊢
    simpa only [State.closureCfg, State.zone, zones, store] using triggered
  cases change with
  | log same => rwa [State.closure_congr (same .closures (by decide))]
  | reopen d locked clear =>
    have other : d ≠ c := by
      rintro rfl
      simp [firstOf_none.mp clear z] at triggered
    rwa [State.reopen_closure_of_ne other]
  | _ => simp at mem

/-- Settles O56: of all changes only RESET-CLOSURE's and RESET-LINE's take an object out of its lockout, and the first is
refused while a zone triggers the closure. -/
theorem lockoutsHoldUntilReset : Obligations.LockoutsHoldUntilReset := by
  intro i s t run running
  refine ⟨fun c shut => ⟨fun noReset => ?stays, fun z triggered => ?triggered, fun sound after => ?hold⟩,
    fun n stopped noReset => ?line⟩
  case stays =>
    refine exec_keeps_closure shut_kept shut_pinned (fun lifts => ?_) run (c := c) shut
    obtain ⟨p, rfl⟩ | rfl := lifts
    · exact absurd rfl (noReset p)
    · exact absurd rfl running
  case triggered =>
    by_cases reset : ∃ p, i = .resetClosure p
    · obtain ⟨p, rfl⟩ := reset
      exact ((exec_path run).keeps (P := fun u => (u.closure c).state = .shut ∧ u.triggers c z = true)
        (fun k mem u v change hu => change.keeps_triggered mem hu) ⟨shut, triggered⟩).1
    · refine exec_keeps_closure shut_kept shut_pinned (fun lifts => ?_) run (c := c) shut
      obtain lifts | rfl := lifts
      · exact absurd lifts reset
      · exact absurd rfl running
  case hold =>
    have outputs : t.closureHas Closure.outputsSound c :=
      exec_keeps_closure closureOutputs_kept closureOutputs_pinned (fun _ => closureOutputs_lifted) run sound
    obtain ⟨hold, -⟩ := outputs
    simpa [after] using hold
  case line =>
    refine exec_keeps_line (stopped_kept (s.line n).stopCause (fun lifts => ?_) fun starts => ?_) run (n := n) ⟨stopped, rfl⟩
    · cases i <;> simp [execKinds] at lifts
      exact noReset _ rfl
    · cases i <;> simp [execKinds] at starts
      exact running rfl

end Sys2Proof.Machine
end

