-- ==== Sys2Proof/Proofs/CommandFrames.lean ====
section
/-! What no command but those named for it changes: the clock and the queue, the shift mode, the pins and the settings. -/

namespace Sys2Proof.Machine

set_option Elab.async false -- one declaration after another: the check bounds the threads waiting on one another

variable {s t : State}

/-! ### The queue and the clock -/

/-- The outcome is a next state. -/
def GoesOn (o : Out) : Prop := ∃ t, o = .next t

theorem GoesOn.of_done (s : State) : GoesOn (done s) := ⟨_, rfl⟩

theorem GoesOn.ite {p : Prop} [Decidable p] {o o' : Out} (yes : GoesOn o) (no : GoesOn o') :
    GoesOn (if p then o else o') := by
  split <;> assumption

/-- An event that acts under a condition, and else does nothing. -/
theorem GoesOn.event {p : Prop} [Decidable p] (s t : State) : GoesOn (if p then done s else done t) :=
  .ite (.of_done s) (.of_done t)

/-- A debounced event goes by the phase of the input, the end of a travel by the state of the closure. -/
theorem exec_goesOn (c : Instr) (s : State) : GoesOn (exec c s) := by
  cases c with
  | powerOnReset | resetInput | inboundFrameComplete | hostHold | hostGo | characterReceived | gopenActive
  | fireInputEdge => exact .of_done _
  | frameError => exact take_next .error (fun u => (u, refusedFrame 0 .frameError 0)) s
  | unknownKind kind p => exact .ite (.of_done _) (take_next _ _ s)
  | ident p | status p | readObject p | restart p | startLine p | stopLine p | resetLine p | resetStation p
  | floodStation p | resetZone p | readCauses p | setShift p | releaseClosure p | resetClosure p | silenceSector p
  | testSector p | disablePrepare p | disableConfirm p | enable p | clearDisableError p | listDisablements p
  | readHistory p | readSetting p | writeSetting p | saveSettings p | lockSection p | loadDefaults p =>
    exact request_next _ p _ s
  | pulseTrailingEdge d =>
    refine .ite ?_ (.of_done s)
    split
    case h_1 | h_2 => exact .event _ _
    case h_3 | h_4 => exact .of_done _
  | debounceTimerExpired f =>
    refine .ite ?_ (.of_done s)
    split <;> exact .of_done _
  | travelTimerExpired c =>
    refine .ite ?_ (.of_done s)
    split <;> exact .of_done _
  | closureLimitChange c l active =>
    refine .ite (.of_done _) ?_
    split <;> exact .of_done _
  | gateTimerExpired | blindTimerExpired | transmitFrameEnd => exact .ite (.event _ _) (.of_done s)
  | _ => exact .event _ _

/-- Settles O3: every command is a sequence of changes, none of them of the queue and only the power-on reset's of the
clock. -/
theorem everyCommandGoesOn : Obligations.EveryCommandGoesOn := by
  intro c s
  obtain ⟨t, run⟩ := exec_goesOn c s
  refine ⟨t, run, ?queue, fun running => ?clock⟩
  case queue => exact (exec_path run).kept .queue fun k _ => by cases k <;> decide
  case clock =>
    refine (exec_path run).kept .clock fun k mem => ?_
    have still : k ≠ .clock := by
      rintro rfl
      cases c <;> simp [execKinds] at mem running
    cases k <;> simp_all [ChangeKind.blocks, faultBlocks, lineBlocks, closureBlocks, sectorBlocks]

end Sys2Proof.Machine
end

