-- ==== Sys2Proof/Proofs/SectorMoves.lean ====
section
/-! What each operation of a sector leaves of it: one equation each, the cases of a derivation named (`State.Derived`).
From them, what a sector plays and its output. -/

namespace Sys2Proof.Machine

set_option Elab.async false -- one declaration after another: the check bounds the threads waiting on one another

variable (s : State) (n : SectorNo)

/-! ### The sector after each operation -/

/-- The cycle that starts now with a pattern (R125). -/
def State.cycleFor (p : Option PatternNo) : Option Cycle :=
  cycleOf s (match p with
    | none => []
    | some p => (s.patternCfg p).phases)

/-- What the output of a sector must be (R126). -/
def State.sirenFor (x : Sector) : Bool :=
  (x.state == .sounding || x.state == .test) &&
    (match x.cycle with
     | none => false
     | some c => c.phase.on) && !s.disabled (.sector n)

/-- A sector with its output as it must be. -/
def State.sirened (x : Sector) : Sector := { x with siren := s.sirenFor n x }

/-- A sector with a cycle of its pattern started. -/
def State.struck (x : Sector) : Sector := s.sirened n { x with cycle := s.cycleFor x.pattern }

/-- A sector risen to a demand (R128). -/
def State.risenSector (d : Demand) : Sector :=
  let x := s.sector n
  s.struck n
    { x with
      state := .sounding
      demand := d
      playing := d
      pendingLevel := .none
      pattern := (s.sectorCfg n).patternFor d
      soundingSince := if x.state = .sounding then x.soundingSince else some s.uptime
      testEnd := none }

/-- A sector that has stopped playing (R129, R130, R133). -/
def Sector.stopped (x : Sector) (st : SectorState) : Sector :=
  { x with
    state := st
    demand := .none
    playing := .none
    pendingLevel := .none
    pattern := none
    cycle := none
    soundingSince := none
    testEnd := none }

/-- A sector switched to a level (R129). -/
def State.switchedSector (x : Sector) (d : Demand) : Sector :=
  s.struck n { x with playing := d, pendingLevel := .none, pattern := (s.sectorCfg n).patternFor d }

@[simp] theorem State.noteSector_sector (x : Sector) (m : SectorNo) : (s.noteSector n x).sector m = s.sector m := by
  have same : (s.noteSector n x).sectors = s.sectors := s.noteSector_kept n x .sectors (by decide)
  simp only [State.sector, same]

@[simp] theorem State.setSector_sirened (m : SectorNo) (y x : Sector) :
    (s.setSector m y).sirened n x = s.sirened n x := rfl

@[simp] theorem State.setSector_struck (m : SectorNo) (y x : Sector) : (s.setSector m y).struck n x = s.struck n x := by
  have same (l : List Phase) : cycleOf (s.setSector m y) l = cycleOf s l := by cases l <;> rfl
  simp only [State.struck, State.cycleFor, State.setSector_sirened, same]
  rfl

@[simp] theorem State.refreshSiren_sector_self : (s.refreshSiren n).sector n = s.sirened n (s.sector n) := by
  unfold State.refreshSiren
  rw [State.setSector_sector_self]
  rfl

@[simp] theorem State.startCycle_sector_self : (s.startCycle n).sector n = s.struck n (s.sector n) := by
  unfold State.startCycle
  rw [State.refreshSiren_sector_self, State.setSector_sector_self, State.setSector_sirened]
  rfl

@[simp] theorem State.riseSector_sector_self (d : Demand) : (s.riseSector n d).sector n = s.risenSector n d := by
  simp [State.riseSector, State.risenSector]

@[simp] theorem State.stopSector_sector_self (st : SectorState) :
    (s.stopSector n st).sector n = s.sirened n ((s.sector n).stopped st) := by
  simp [State.stopSector, Sector.stopped]

@[simp] theorem State.switchSector_sector_self (d : Demand) :
    (s.switchSector n d).sector n = s.switchedSector n (s.sector n) d := by
  simp [State.switchSector, State.switchedSector]

@[simp] theorem State.testSector_sector_self (p : PatternNo) (ms : Nat) : (s.testSector n p ms).sector n =
    s.struck n { s.sector n with
      state := .test, testEnd := some (s.after ms), pattern := some p, playing := .none } := by
  simp [State.testSector]

section
variable {n} {m : SectorNo} (other : m ≠ n)
include other

theorem State.refreshSiren_sector_of_ne : (s.refreshSiren n).sector m = s.sector m := by
  simp [State.refreshSiren, other.symm]

theorem State.startCycle_sector_of_ne : (s.startCycle n).sector m = s.sector m := by
  simp [State.startCycle, State.refreshSiren_sector_of_ne _ other, other.symm]

theorem State.riseSector_sector_of_ne (d : Demand) : (s.riseSector n d).sector m = s.sector m := by
  simp [State.riseSector, State.startCycle_sector_of_ne _ other, other.symm]

theorem State.stopSector_sector_of_ne (st : SectorState) : (s.stopSector n st).sector m = s.sector m := by
  simp [State.stopSector, State.refreshSiren_sector_of_ne _ other, other.symm]

theorem State.switchSector_sector_of_ne (d : Demand) : (s.switchSector n d).sector m = s.sector m := by
  simp [State.switchSector, State.startCycle_sector_of_ne _ other, other.symm]

theorem State.testSector_sector_of_ne (p : PatternNo) (ms : Nat) : (s.testSector n p ms).sector m = s.sector m := by
  simp [State.testSector, State.startCycle_sector_of_ne _ other, other.symm]

theorem State.deriveSector_sector_of_ne : (s.deriveSector n).sector m = s.sector m := by
  unfold State.deriveSector
  dsimp only
  split
  · split
    · simp [other.symm]
    · exact s.riseSector_sector_of_ne other _
  · split_ifs
    · exact s.stopSector_sector_of_ne other _
    · exact s.riseSector_sector_of_ne other _
    · simp [other.symm]
    · simp [other.symm]
    · rw [State.switchSector_sector_of_ne _ other]; simp [other.symm]
  all_goals
    split
    · simp [other.symm]
    · exact s.riseSector_sector_of_ne other _

theorem State.nextPhase_sector_of_ne : (s.nextPhase n).sector m = s.sector m := by
  unfold State.nextPhase
  split
  · rfl
  · split
    · unfold State.endCycle
      dsimp only
      split_ifs
      · exact s.switchSector_sector_of_ne other _
      · exact s.switchSector_sector_of_ne other _
      · exact s.startCycle_sector_of_ne other
    · rw [State.refreshSiren_sector_of_ne _ other]; simp [other.symm]

end

/-! ### A derivation -/

/-- The cases of a sector deriving its demand and state anew (R123, R124, R128, R129). -/
inductive State.Derived : Sector → Prop
  | testOn (test : (s.sector n).state = .test) (calm : s.demandOf n = .none) :
      Derived { s.sector n with demand := .none }
  | rises (demand : s.demandOf n ≠ .none)
      (above : (s.sector n).state = .sounding → (s.sector n).playing.rank < (s.demandOf n).rank) :
      Derived (s.risenSector n (s.demandOf n))
  | stops (sounding : (s.sector n).state = .sounding) (calm : s.demandOf n = .none) :
      Derived (s.sirened n ((s.sector n).stopped (s.restState n)))
  | stays (sounding : (s.sector n).state = .sounding) (demand : s.demandOf n ≠ .none)
      (same : s.demandOf n = (s.sector n).playing) :
      Derived { s.sector n with demand := s.demandOf n, pendingLevel := .none }
  | waits (sounding : (s.sector n).state = .sounding) (demand : s.demandOf n ≠ .none)
      (below : (s.demandOf n).rank ≤ (s.sector n).playing.rank) (other : s.demandOf n ≠ (s.sector n).playing)
      (cycle : (s.sector n).cycle.isSome) :
      Derived { s.sector n with demand := s.demandOf n, pendingLevel := s.demandOf n }
  | switches (sounding : (s.sector n).state = .sounding) (demand : s.demandOf n ≠ .none) :
      Derived (s.switchedSector n { s.sector n with demand := s.demandOf n } (s.demandOf n))
  | rests (calmState : (s.sector n).state = .quiet ∨ (s.sector n).state = .silenced) (calm : s.demandOf n = .none) :
      Derived { s.sector n with state := s.restState n, demand := .none }

theorem State.deriveSector_derived : s.Derived n ((s.deriveSector n).sector n) := by
  unfold State.deriveSector
  dsimp only
  split
  case h_1 test =>
    split
    · next calm => simpa using .testOn test calm
    · next demand => simpa using .rises demand (by simp [test])
  case h_2 sounding =>
    split
    · next calm => simpa using .stops sounding calm
    · next demand =>
      split
      · next above => simpa using .rises demand fun _ => above
      · next low =>
        split
        · next same => simpa using .stays sounding demand same
        · next other =>
          split
          · next cycle => simpa using .waits sounding demand (by omega) other cycle
          · have switched := State.Derived.switches sounding demand
            simpa [State.switchedSector] using switched
  case h_3 quiet =>
    split
    · next calm => simpa using .rests (.inl quiet) calm
    · next demand => simpa using .rises demand (by simp [quiet])
  case h_4 silenced =>
    split
    · next calm => simpa using .rests (.inr silenced) calm
    · next demand => simpa using .rises demand (by simp [silenced])

/-! ### Every change of a sector -/

/-- What a change of the kinds `sector` and `hush` can leave of the sector it moves. -/
inductive State.SectorMoved (k : ChangeKind) : Sector → Prop
  | derived {x : Sector} (derived : s.Derived n x) : SectorMoved k x
  | highest : SectorMoved k { s.sector n with highest := s.highestOf (s.sectorCfg n).zones }
  | silenced (hush : k = .hush) (sounding : (s.sector n).state = .sounding) :
      SectorMoved k (s.sirened n ((s.sector n).stopped .silenced))
  | testOver (test : (s.sector n).state = .test) : SectorMoved k (s.sirened n ((s.sector n).stopped (s.restState n)))
  | test (p : PatternNo) (ms : Nat) (quiet : (s.sector n).state = .quiet) : SectorMoved k (s.struck n { s.sector n with
      state := .test, testEnd := some (s.after ms), pattern := some p, playing := .none })
  | still : SectorMoved k (s.sector n)
  | phase (c : Cycle) (playing : (s.sector n).cycle ≠ none) :
      SectorMoved k (s.sirened n { s.sector n with cycle := some c })
  | switched (d : Demand) (sounding : (s.sector n).state = .sounding)
      (next : ((s.sector n).pendingLevel = .none ∧ d = (s.sector n).playing) ∨
        ((s.sector n).pendingLevel ≠ .none ∧ d = (s.sector n).pendingLevel)) :
      SectorMoved k (s.switchedSector n (s.sector n) d)
  | rewritten (sounding : (s.sector n).state = .sounding) (idle : (s.sector n).cycle = none) :
      SectorMoved k (s.switchedSector n (s.sector n) (s.sector n).playing)
  | again (playing : (s.sector n).cycle ≠ none ∨ (s.sector n).pattern ≠ none)
      (unheard : (s.sector n).cycle = none ∨ (s.sector n).state ≠ .sounding) :
      SectorMoved k (s.struck n (s.sector n))
  | siren : SectorMoved k (s.sirened n (s.sector n))

theorem State.nextPhase_moved {k : ChangeKind} : s.SectorMoved n k ((s.nextPhase n).sector n) := by
  unfold State.nextPhase
  split
  · exact .still
  · next c playing =>
    split
    · unfold State.endCycle
      dsimp only
      split_ifs with sounding calm
      · simpa using .switched _ sounding (.inl ⟨calm, rfl⟩)
      · simpa using .switched _ sounding (.inr ⟨calm, rfl⟩)
      · simpa using .again (.inl (by simp [playing])) (.inr sounding)
    · next p rest more => simpa using .phase { c with phase := p, rest := rest, phaseStop := s.after p.ms } (by simp [playing])

variable {s n} {t : State}

/-- A change of the kinds `sector` and `hush` moves one sector, as `State.SectorMoved` says. -/
theorem Change.sectorMoved {k : ChangeKind} (change : Change k s t) (moves : k = .sector ∨ k = .hush) :
    ∃ n, (∀ m, m ≠ n → t.sector m = s.sector m) ∧ s.SectorMoved n k (t.sector n) := by
  cases change with
  | derive n => exact ⟨n, fun _ other => s.deriveSector_sector_of_ne other, .derived (s.deriveSector_derived n)⟩
  | highest n =>
    refine ⟨n, fun _ other => by simp [State.refreshHighest, other.symm], ?_⟩
    simpa [State.refreshHighest] using State.SectorMoved.highest (s := s) (n := n)
  | silence n sounding =>
    exact ⟨n, fun _ other => s.stopSector_sector_of_ne other _, by simpa using .silenced rfl sounding⟩
  | testOver n test => exact ⟨n, fun _ other => s.stopSector_sector_of_ne other _, by simpa using .testOver test⟩
  | test n p ms quiet => exact ⟨n, fun _ other => s.testSector_sector_of_ne other _ _, by simpa using .test p ms quiet⟩
  | phase n => exact ⟨n, fun _ other => s.nextPhase_sector_of_ne other, s.nextPhase_moved n⟩
  | switch n level playing =>
    obtain ⟨sounding, rfl, idle⟩ := playing
    exact ⟨n, fun _ other => s.switchSector_sector_of_ne other _,
      by simpa using .rewritten sounding (by simpa using idle)⟩
  | cycle n p idle =>
    exact ⟨n, fun _ other => s.startCycle_sector_of_ne other,
      by simpa using .again (.inr (by simp [idle.1])) (.inl (by simpa using idle.2))⟩
  | siren n => exact ⟨n, fun _ other => s.refreshSiren_sector_of_ne other, by simpa using .siren⟩
  | _ => simp at moves

/-! ### What a sector plays -/

theorem State.restState_cases : s.restState n = .quiet ∨ s.restState n = .silenced := by
  unfold State.restState
  split
  · exact .inr rfl
  · exact .inl rfl

/-- What a sector plays does not depend on its output, nor on whether a cycle runs where nothing pends and it is neither
QUIET nor SILENCED. -/
theorem Sector.playingSound.withCycle {x : Sector} (h : x.playingSound) (calm : x.pendingLevel = .none)
    (plays : x.state = .sounding ∨ x.state = .test) (c : Option Cycle) (b : Bool) :
    { x with cycle := c, siren := b }.playingSound := by
  obtain ⟨sounding, other, quiet, test, pending⟩ := h
  refine ⟨sounding, other, fun still => ?_, test, fun some => absurd calm some⟩
  simp_all

theorem Sector.stopped_playingSound {x : Sector} {st : SectorState} (rest : st = .quiet ∨ st = .silenced) (b : Bool) :
    { x.stopped st with siren := b }.playingSound := by
  obtain rfl | rfl := rest <;> simp [Sector.stopped, Sector.playingSound]

/-- A sector that sounds a level at its demand, with nothing pending. -/
theorem Sector.playingSound_of_sounding {x : Sector} (sounding : x.state = .sounding) (level : x.playing ≠ .none)
    (demand : x.demand.rank ≤ x.playing.rank) (calm : x.pendingLevel = .none)
    (same : x.demand ≠ x.playing → x.demand = .none) (since : x.soundingSince ≠ none) (noTest : x.testEnd = none) :
    x.playingSound := by
  refine ⟨fun _ => ⟨level, demand, ?_, since, noTest⟩, fun no => absurd sounding no, ?_, ?_, ?_⟩
  · simp only [calm]
    split
    · rfl
    · next differs => exact (same differs).symm
  · simp [sounding]
  · simp [sounding]
  · exact fun some => absurd calm some

theorem State.Derived.playingSound {x : Sector} (derived : s.Derived n x) (h : (s.sector n).playingSound) :
    x.playingSound := by
  obtain ⟨sounding, other, quiet, test, pending⟩ := h
  cases derived with
  | testOn on calm => simp_all [Sector.playingSound]
  | rises demand =>
    refine Sector.playingSound_of_sounding rfl demand (le_refl _) rfl (fun differs => absurd rfl differs) ?_ rfl
    simp only [State.risenSector, State.struck, State.sirened]
    split
    · next on => exact (sounding on).2.2.2.1
    · simp
  | stops => exact Sector.stopped_playingSound State.restState_cases _
  | stays on demand same => simp_all [Sector.playingSound]
  | waits on demand below differs cycle => simp_all [Sector.playingSound, Option.isSome_iff_ne_none]
  | switches on demand =>
    obtain ⟨-, -, -, since, noTest⟩ := sounding on
    exact Sector.playingSound_of_sounding on demand (le_refl _) rfl (fun differs => absurd rfl differs) since noTest
  | rests calmState calm =>
    have still : (s.sector n).state ≠ .sounding := by obtain h | h := calmState <;> simp [h]
    obtain rest | rest := s.restState_cases (n := n) <;> simp_all [Sector.playingSound]

theorem State.SectorMoved.playingSound {k : ChangeKind} {x : Sector} (moved : s.SectorMoved n k x) (h : (s.sector n).playingSound) :
    x.playingSound := by
  obtain ⟨sounding, other, quiet, test, pending⟩ := id h
  cases moved with
  | derived derived => exact derived.playingSound h
  | highest => exact h
  | silenced => exact Sector.stopped_playingSound (.inr rfl) _
  | testOver => exact Sector.stopped_playingSound State.restState_cases _
  | test p ms on =>
    simp_all [Sector.playingSound, State.struck, State.sirened]
  | still => exact h
  | phase c playing =>
    refine ⟨sounding, other, fun still => absurd (quiet still).2.1 playing, test, fun _ => by simp [State.sirened]⟩
  | switched d on next =>
    obtain ⟨level, demand, pend, since, noTest⟩ := sounding on
    obtain ⟨calm, rfl⟩ | ⟨waits, rfl⟩ := next
    · refine Sector.playingSound_of_sounding on level demand rfl (fun differs => ?_) since noTest
      have differs : (s.sector n).demand ≠ (s.sector n).playing := differs
      rw [calm, if_neg differs] at pend
      exact pend.symm
    · have same : (s.sector n).pendingLevel = (s.sector n).demand := by
        split at pend
        · exact absurd pend waits
        · exact pend
      exact Sector.playingSound_of_sounding on waits (le_of_eq (congrArg Demand.rank same.symm)) rfl (fun differs => absurd same.symm differs)
        since noTest
  | rewritten on idle =>
    obtain ⟨level, demand, pend, since, noTest⟩ := sounding on
    refine Sector.playingSound_of_sounding on level demand rfl (fun differs => ?_) since noTest
    have calm : (s.sector n).pendingLevel = .none := by_contra fun waits => pending waits idle
    have differs : (s.sector n).demand ≠ (s.sector n).playing := differs
    rw [calm, if_neg differs] at pend
    exact pend.symm
  | again playing unheard =>
    have calm : (s.sector n).pendingLevel = .none := by
      obtain idle | no := unheard
      · exact by_contra fun waits => pending waits idle
      · exact (other no).2.1
    refine h.withCycle calm ?_ _ _
    cases state : (s.sector n).state <;> simp_all
  | siren => exact h

/-! ### The output of a sector -/

theorem State.sectorOutput_iff : s.sectorOutput n ↔ (s.sector n).siren = s.sirenFor n (s.sector n) := by
  rw [Bool.eq_iff_iff]
  unfold State.sectorOutput State.sirenFor
  cases cycle : (s.sector n).cycle <;> simp [and_assoc]

/-- An output as a derivation leaves it, of the state or of nothing else the output depends on. -/
theorem State.Derived.sirened {x : Sector} (derived : s.Derived n x) (h : (s.sector n).siren = s.sirenFor n (s.sector n)) :
    x.siren = s.sirenFor n x := by
  cases derived with
  | rises | stops | switches => rfl
  | testOn | stays | waits => exact h
  | rests calmState calm =>
    have off : (s.sector n).siren = false := by
      rw [h]
      obtain quiet | quiet := calmState <;> simp [State.sirenFor, quiet]
    obtain rest | rest := s.restState_cases (n := n) <;> simp [State.sirenFor, off, rest]

theorem State.SectorMoved.sirened {k : ChangeKind} {x : Sector} (moved : s.SectorMoved n k x)
    (h : (s.sector n).siren = s.sirenFor n (s.sector n)) : x.siren = s.sirenFor n x := by
  cases moved with
  | derived derived => exact derived.sirened h
  | highest | still => exact h
  | _ => rfl

end Sys2Proof.Machine
end

