-- ==== Sys2Proof/Proofs/WindowLists.lean ====
section
/-! The lengths of a station's window list (R35, R37, R38): an insertion never empties it and never takes it past four. -/

namespace Sys2Proof.Machine

set_option Elab.async false -- one declaration after another: the check bounds the threads waiting on one another

variable (now : Instant)

theorem nearest_mem {w v : Window} {l : List Window} (h : nearest now w l = some v) : v ∈ l := by
  induction l generalizing v with
  | nil => cases h
  | cons u rest ih =>
    unfold nearest at h
    split at h
    · simp_all
    · next t found =>
      split at h
      · cases h; exact List.mem_cons_of_mem _ (ih found)
      · cases h; exact List.mem_cons_self

theorem nearest_eq_none {w : Window} {l : List Window} (h : nearest now w l = none) : l = [] := by
  cases l with
  | nil => rfl
  | cons u rest =>
    unfold nearest at h
    split at h
    · cases h
    · split at h <;> cases h

@[simp] theorem length_place (w : Window) (l : List Window) : (place now w l).length = l.length + 1 := by
  induction l with
  | nil => rfl
  | cons v rest ih =>
    unfold place
    split <;> simp [ih]

theorem place_ne_nil (w : Window) (l : List Window) : place now w l ≠ [] := by
  intro h
  simpa [h] using length_place now w l

theorem absorb_ne_nil (k : Nat) (w : Window) (l : List Window) : absorb now k w l ≠ [] := by
  induction k generalizing w l with
  | zero => exact place_ne_nil now w l
  | succ k ih =>
    unfold absorb
    split
    · exact place_ne_nil now w l
    · split
      · exact ih _ _
      · exact place_ne_nil now w l

/-- A window inserted among others makes at most one record more. -/
theorem length_absorb_le (k : Nat) (w : Window) (l : List Window) : (absorb now k w l).length ≤ l.length + 1 := by
  induction k generalizing w l with
  | zero => simp [absorb]
  | succ k ih =>
    unfold absorb
    split
    · simp
    · split
      · refine (ih _ _).trans ?_
        simpa using List.length_erase_le
      · simp

/-- A window joined to a listed one makes no record more. -/
theorem length_absorb_erase_le {v : Window} (k : Nat) (w : Window) {l : List Window} (listed : v ∈ l) :
    (absorb now k w (l.erase v)).length ≤ l.length := by
  have shorter := List.length_erase_of_mem listed
  have some := List.length_pos_of_mem listed
  have grown := length_absorb_le now k w (l.erase v)
  omega

theorem insertWindow_ne_nil (w : Window) (l : List Window) : (insertWindow now w l).1 ≠ [] := by
  unfold insertWindow
  split
  · exact place_ne_nil now w l
  · split
    · exact absorb_ne_nil now _ _ _
    · exact absorb_ne_nil now _ _ _

theorem length_insertWindow_le {w : Window} {l : List Window} (room : l.length ≤ 4) :
    (insertWindow now w l).1.length ≤ 4 := by
  unfold insertWindow
  split
  · next none => simp [nearest_eq_none now none]
  · next v found =>
    have listed := nearest_mem now found
    split
    · exact (length_absorb_erase_le now _ _ listed).trans room
    · next roomy =>
      by_cases near : gap now w v ≤ 50
      · obtain ⟨k, size⟩ : ∃ k, l.length = k + 1 := ⟨l.length - 1, by have := List.length_pos_of_mem listed; omega⟩
        rw [size]
        simp only [absorb, found, near, if_true]
        exact (length_absorb_erase_le now _ _ listed).trans room
      · have more : l.length < 4 := by
          simp only [Config.windowCapacity] at roomy
          omega
        exact (length_absorb_le now _ _ _).trans (by omega)

end Sys2Proof.Machine
end

