-- ==== Sys2Proof/Proofs/StationKept.lean ====
section
/-! A station's valve follows its windows, its output and its water input, kept by every step. -/

namespace Sys2Proof.Machine

set_option Elab.async false -- one declaration after another: the check bounds the threads waiting on one another

variable {s t : State} {n : LineNo}

/-- What `State.valveSound` says of the station and of its NO-WATER. -/
def Station.sound (x : Station) (noWater : Bool) : Prop :=
  (x.valveOn = true ↔ x.valve = .opening ∨ x.valve = .opened) ∧
  (x.valve = .closed ↔ x.windows = []) ∧
  (x.valve = .opening → x.wconf = false) ∧ (x.valve = .opened → x.wconf = true) ∧
  (x.confirmTimer ≠ none → x.valve = .opening ∧ noWater = false) ∧
  x.windows.length ≤ 4

theorem State.valveSound_iff : s.valveSound n ↔ (s.station n).sound (s.holds (.station n) .noWater) := Iff.rfl

theorem State.station_congr (same : t.stations = s.stations) (n : LineNo) : t.station n = s.station n := by
  simp only [State.station, same]

theorem valveSound_of_same (station : t.station n = s.station n)
    (held : t.holds (.station n) .noWater = s.holds (.station n) .noWater) (h : s.valveSound n) : t.valveSound n := by
  rw [State.valveSound_iff] at h ⊢
  rwa [station, held]

theorem valveSound_setStation {m : LineNo} {x : Station} (put : x.sound (s.holds (.station m) .noWater))
    (h : ∀ n, s.valveSound n) (n : LineNo) : (s.setStation m x).valveSound n := by
  rw [State.valveSound_iff, State.setStation_station, State.setStation_holds]
  split
  · next same => exact same ▸ put
  · exact h n

/-- The timer of the confirmation starts only without NO-WATER (R43). -/
theorem State.confirmStart_some {m : LineNo} (h : s.confirmStart m ≠ none) : s.holds (.station m) .noWater = false := by
  unfold State.confirmStart at h
  by_contra held
  simp [Bool.not_eq_false _ ▸ held] at h

theorem turnOn_valveSound {m : LineNo} (listed : (s.station m).windows ≠ []) (room : (s.station m).windows.length ≤ 4)
    (others : ∀ n, n ≠ m → s.valveSound n) (n : LineNo) : (s.turnOn m).valveSound n := by
  rw [State.valveSound_iff]
  unfold State.turnOn
  rw [State.setStation_station, State.setStation_holds]
  split
  · next same =>
    subst same
    cases wet : (s.station m).wconf
    · refine ⟨by simp, by simpa using listed, by simp, by simp, fun some => ⟨by simp, ?_⟩, room⟩
      exact State.confirmStart_some (by simpa using some)
    · exact ⟨by simp, by simpa using listed, by simp, by simp, by simp, room⟩
  · next other => exact others n fun same => other same.symm

theorem windowDue_ne_nil {m : LineNo} (due : s.windowDue m = true) : (s.station m).windows ≠ [] := by
  intro none
  simp [State.windowDue, none] at due

/-- A station whose list has just gained a window, CLOSED or not, is put right (R42). -/
theorem afterInsert_valveSound {m : LineNo} (listed : (s.station m).windows ≠ [])
    (on : (s.station m).valveOn = true ↔ (s.station m).valve = .opening ∨ (s.station m).valve = .opened)
    (opening : (s.station m).valve = .opening → (s.station m).wconf = false)
    (opened : (s.station m).valve = .opened → (s.station m).wconf = true)
    (timer : (s.station m).confirmTimer ≠ none →
      (s.station m).valve = .opening ∧ s.holds (.station m) .noWater = false)
    (room : (s.station m).windows.length ≤ 4) (others : ∀ n, n ≠ m → s.valveSound n) (n : LineNo) :
    (s.afterInsert m).valveSound n := by
  unfold State.afterInsert
  split
  · exact turnOn_valveSound listed room others n
  · by_cases same : m = n
    · subst same
      split
      · next shut =>
        have off : (s.station m).valveOn = false := by
          cases lit : (s.station m).valveOn <;> simp_all
        have idle : (s.station m).confirmTimer = none := by_contra fun running => by simp [shut] at timer; exact running timer
        rw [State.valveSound_iff, State.setStation_station_self]
        exact ⟨by simp [off], by simpa using listed, by simp, by simp, by simp [idle], room⟩
      · next open_ => exact ⟨on, by simp [open_, listed], opening, opened, timer, room⟩
    · split
      · exact valveSound_of_same (by simp [same]) (by simp) (others n fun eq => same eq.symm)
      · exact others n fun eq => same eq.symm

theorem offerWindow_valveSound {m : LineNo} {w : Window} (h : ∀ n, s.valveSound n) (n : LineNo) :
    (s.offerWindow m w).valveSound n := by
  obtain ⟨on, closed, opening, opened, timer, room⟩ := State.valveSound_iff.mp (h m)
  unfold State.offerWindow
  dsimp only
  split
  · refine valveSound_setStation ?_ h n
    exact ⟨on, closed, opening, opened, timer, room⟩
  · have others (x : Station) (n : LineNo) (other : n ≠ m) : (s.setStation m x).valveSound n :=
      valveSound_of_same (by simp [other.symm]) (by simp) (h n)
    refine afterInsert_valveSound ?_ ?_ ?_ ?_ ?_ ?_ (others _) n
    all_goals simp only [State.setStation_station_self, State.setStation_holds]
    · exact insertWindow_ne_nil s.uptime w _
    · exact on
    · exact opening
    · exact opened
    · exact timer
    · exact length_insertWindow_le s.uptime room

theorem endWindow_valveSound {m : LineNo} (h : ∀ n, s.valveSound n) (n : LineNo) : (s.endWindow m).valveSound n := by
  obtain ⟨on, closed, opening, opened, timer, room⟩ := State.valveSound_iff.mp (h m)
  unfold State.endWindow
  dsimp only
  split
  · exact h n
  · next w rest list =>
    have ended (v : ValveState) (fits : (v = .closed ∧ rest = []) ∨ (v = .armed ∧ rest ≠ [])) (n : LineNo) :
        (s.setStation m { s.station m with
          windows := rest, valveOn := false, valve := v, outputOn := none, confirmTimer := none }).valveSound n := by
      refine valveSound_setStation ?_ h n
      simp only [list, List.length_cons] at room
      obtain ⟨rfl, rfl⟩ | ⟨rfl, some⟩ := fits
      · simp [Station.sound]
      · exact ⟨by simp, by simpa using some, by simp, by simp, by simp, by simpa using (by omega : rest.length ≤ 4)⟩
    have recorded (u : State) (hu : ∀ n, u.valveSound n) (k : RecordKind) (a b : Byte) (d : Detail) (n : LineNo) :
        (u.record k a b d).valveSound n := valveSound_of_same (by simp) (by simp) (hu n)
    have passed (u : State) (hu : u.valveSound n) (x : Target) : (u.endActivity x).valveSound n :=
      valveSound_of_same (State.station_congr (u.endActivity_kept x .stations (by decide)) n)
        (State.holds_congr (by simp) _ _) hu
    split
    · next empty =>
      have closed := ended .closed (.inl ⟨rfl, by simpa using empty⟩)
      split
      · exact passed _ (recorded _ closed _ _ _ _ n) _
      · exact passed _ (closed n) _
    · next some =>
      have armed := ended .armed (.inr ⟨rfl, by simpa using some⟩)
      split
      · exact recorded _ armed _ _ _ _ n
      · exact armed n

theorem start_valveSound (restart : Bool) (kind : Byte) (source : StartSource) (n : LineNo) :
    ((s.startBlocks restart).announce kind source).valveSound n := by
  have started : (s.startBlocks restart).stations =
      tabulate fun n => { resetStation with wconf := (s.station n).wconf } :=
    forAll_kept (l := [.lines]) (fun n t => t.startBlind_kept n) _ .stations (by decide)
  rw [State.valveSound_iff, State.station_congr (State.announce_kept _ _ _ .stations (by decide))]
  simp [State.station, started, tabulate, resetStation, Station.sound]

theorem Change.valveSound {k : ChangeKind} (change : Change k s t) (h : ∀ n, s.valveSound n) (n : LineNo) :
    t.valveSound n := by
  by_cases untouched : Block.stations ∉ k.blocks
  · refine valveSound_of_same (State.station_congr (change.kept .stations untouched) n) (change.holds_kept ?_) (h n)
    cases k <;> simp_all [ChangeKind.mayPut, ChangeKind.blocks, plantPuts]
  cases change with
  | turnOn m due =>
    obtain ⟨-, -, -, -, -, room⟩ := State.valveSound_iff.mp (h m)
    exact turnOn_valveSound (windowDue_ne_nil due) room (fun n _ => h n) n
  | offerWindow m w => exact offerWindow_valveSound h n
  | endWindow m => exact endWindow_valveSound h n
  | wconfOn m opening =>
    obtain ⟨on, closed, -, -, -, room⟩ := State.valveSound_iff.mp (h m)
    refine valveSound_setStation ?_ h n
    simp_all [Station.sound]
  | wconfOff m opened =>
    obtain ⟨on, closed, -, -, -, room⟩ := State.valveSound_iff.mp (h m)
    refine valveSound_setStation ?_ h n
    exact ⟨by simp_all, by simp_all, by simp, by simp, fun some => ⟨rfl, State.confirmStart_some some⟩, room⟩
  | wconf m b other =>
    obtain ⟨on, closed, opening, opened, timer, room⟩ := State.valveSound_iff.mp (h m)
    refine valveSound_setStation ?_ h n
    cases b
    · exact ⟨on, closed, by simp, fun open_ => absurd open_ other, timer, room⟩
    · exact ⟨on, closed, fun open_ => absurd open_ other, by simp, timer, room⟩
  | waterMissed m =>
    obtain ⟨on, closed, opening, opened, -, room⟩ := State.valveSound_iff.mp (h m)
    have stopped := valveSound_setStation (m := m) (x := { s.station m with confirmTimer := none })
      ⟨on, closed, opening, opened, by simp, room⟩ h
    have same : ((s.setStation m { s.station m with confirmTimer := none }).raiseFault (.station m) .noWater).station n =
        (s.setStation m { s.station m with confirmTimer := none }).station n := by simp
    rw [State.valveSound_iff, same]
    by_cases here : m = n
    · subst here
      rw [State.setStation_station_self]
      exact ⟨on, closed, opening, opened, by simp, room⟩
    · rw [State.raiseFault_holds (o := .station m) trivial, if_neg (by rintro ⟨eq, -⟩; cases eq; exact here rfl)]
      exact stopped n
  | waterReset m =>
    obtain ⟨on, closed, opening, opened, timer, room⟩ := State.valveSound_iff.mp (h n)
    rw [State.valveSound_iff, State.clearFault_holds (o := .station m) trivial]
    have same : (s.clearFault (.station m) .noWater).station n = s.station n := by simp
    rw [same]
    refine ⟨on, closed, opening, opened, fun some => ⟨(timer some).1, ?_⟩, room⟩
    split
    · rfl
    · exact (timer some).2
  | powerOn => exact start_valveSound _ _ _ n
  | restart => exact start_valveSound _ _ _ n
  | _ => simp [ChangeKind.blocks, sectorBlocks, faultBlocks, closureBlocks, lineBlocks] at untouched

theorem step_valveSound (run : step s = .next t) (h : ∀ n, s.valveSound n) : ∀ n, t.valveSound n :=
  step_keeps (P := fun u => ∀ n, u.valveSound n) run h (fun _ _ _ hu => hu) (fun _ hu => hu)
    fun _ _ _ run hu => (exec_path run).keeps (P := fun u => ∀ n, u.valveSound n)
      (fun _ _ _ _ change hu n => change.valveSound hu n) hu

end Sys2Proof.Machine
end

