-- ==== Sys2Proof/Proofs/TableKept.lean ====
section
/-! The disablements: which changes leave an entry as it is, and what a created or removed entry leaves of the others. -/

namespace Sys2Proof.Machine

set_option Elab.async false -- one declaration after another: the check bounds the threads waiting on one another

variable {s t : State}

/-- A target whose owner can have work in hand, so that an entry for it may stand PENDING (R143). -/
def mayWork : Target → Bool
  | .station _ | .closure _ => true
  | .detector _ | .fireInput _ | .sector _ => false

theorem State.entryOf_congr (same : t.dis.entries = s.dis.entries) (x : Target) : t.entryOf x = s.entryOf x := by
  simp only [State.entryOf, same]

theorem State.disabled_congr {x : Target} (same : t.entryOf x = s.entryOf x) : t.disabled x = s.disabled x := by
  simp only [State.disabled, same]

/-- The first entry of a target among changed entries that keep their targets and are its own as they were. -/
theorem find?_map_entry {l : List Entry} {f : Entry → Entry} {x : Target} (targets : ∀ e, (f e).target = e.target)
    (own : ∀ e ∈ l, e.target = x → f e = e) :
    (l.map f).find? (fun e => e.target = x) = l.find? (fun e => e.target = x) := by
  induction l with
  | nil => rfl
  | cons e rest ih =>
    have rest := ih fun e mem => own e (List.mem_cons_of_mem _ mem)
    by_cases same : e.target = x
    · simp [same, own e List.mem_cons_self same]
    · simpa [targets, same] using rest

theorem State.endActivity_entryOf {x y : Target} (other : y ≠ x) : (s.endActivity x).entryOf y = s.entryOf y := by
  unfold State.endActivity
  split
  · rfl
  · next e found =>
    have target : e.target = x := by simpa using List.find?_some found
    split
    · rfl
    · have kept (u : State) (code : Byte) :
          (u.disEvent .activated (some x) code e.limit 0).deriveFault.entryOf y = u.entryOf y := by
        have same : (u.disEvent .activated (some x) code e.limit 0).dis = u.dis :=
          u.disEvent_kept _ _ _ _ _ .disablements (by decide)
        simp only [State.entryOf, State.deriveFault, same]
      rw [kept]
      refine find?_map_entry (fun d => ?_) fun d _ named => ?_
      · split
        · next same => simp [Entry.activate, target, same]
        · rfl
      · simp [named, other]

theorem State.moveClosure_entryOf {c : ClosureNo} {y : Target} (other : y ≠ .closure c) (st : ClosureState)
    (dir : Direction) (o : ReleaseOrigin) (f : Closure → Closure) :
    (s.moveClosure c st dir o f).entryOf y = s.entryOf y := by
  unfold State.moveClosure
  dsimp only
  split_ifs <;> simp [State.endActivity_entryOf other]

theorem PlantMoves.entryOf_kept (h : PlantMoves s t) {x : Target} (idle : mayWork x = false) :
    t.entryOf x = s.entryOf x := by
  refine h.keeps (P := fun u => u.entryOf x = s.entryOf x) (fun u v move hu => ?_) rfl
  rw [← hu]
  cases move with
  | log same => exact State.entryOf_congr (by rw [(same .disablements (by decide) : v.dis = u.dis)]) x
  | enter | replaceCause | origin => rfl
  | lineFault => simp
  | moveClosure => exact State.moveClosure_entryOf (by rintro rfl; simp [mayWork] at idle) _ _ _ _

theorem State.reopen_entryOf {c : ClosureNo} {x : Target} (other : x ≠ .closure c) :
    (s.reopen c).entryOf x = s.entryOf x := by
  have cleared (u : State) (f : FaultCode) : (u.clearFault (.closure c) f).entryOf x = u.entryOf x := by simp
  unfold State.reopen State.makeReady State.holdOpen
  dsimp only
  split_ifs <;> simp [State.moveClosure_entryOf other, closureFaults, forEach]

/-- The entry of a target that never has work in hand is changed by the changes of the table and the resets alone. -/
theorem Change.entryOf_kept {k : ChangeKind} (change : Change k s t) (table : k ≠ .table)
    (running : k ≠ .powerOn ∧ k ≠ .restart) {x : Target} (idle : mayWork x = false) : t.entryOf x = s.entryOf x := by
  by_cases untouched : Block.disablements ∉ k.blocks
  · exact State.entryOf_congr (by rw [(change.kept .disablements untouched : t.dis = s.dis)]) x
  by_cases plant : k ∈ [.lineMove, .lineFault, .closureMove]
  · exact (change.moves plant).entryOf_kept idle
  cases change with
  | turnOn n => rfl
  | offerWindow n w =>
    exact State.entryOf_congr (by rw [(s.offerWindow_kept n w .disablements (by decide) : _ = s.dis)]) x
  | endWindow n =>
    have other : x ≠ .station n := by rintro rfl; simp [mayWork] at idle
    unfold State.endWindow
    dsimp only
    split
    · rfl
    · split <;> split <;> simp [State.endActivity_entryOf other]
  | liftOff | fstopOff | gopen | prepare | latch | unlatch | discard => rfl
  | liftStopped n => exact (s.moveLine_rest n _ _ _).entryOf_kept idle
  | fstopOn n => exact (s.fstopOn_moves n).entryOf_kept idle
  | reopen c => exact State.reopen_entryOf (by rintro rfl; simp [mayWork] at idle)
  | serviceOn | serviceOff => rfl
  | powerOn | restart => simp at running
  | _ => simp [ChangeKind.blocks, sectorBlocks, faultBlocks] at untouched plant table

theorem Change.disabled_kept {k : ChangeKind} (change : Change k s t) (table : k ≠ .table)
    (running : k ≠ .powerOn ∧ k ≠ .restart) {x : Target} (idle : mayWork x = false) : t.disabled x = s.disabled x :=
  State.disabled_congr (change.entryOf_kept table running idle)

/-! ### Created and removed entries -/

theorem State.disabled_eq (x : Target) : s.disabled x = ((s.entryOf x).map Entry.active).getD false := by
  unfold State.disabled
  cases s.entryOf x <;> rfl

/-- The entry of a target after an entry is added: its own as before, or the one added. -/
theorem State.entryOf_append {d : Disablements} (e : Entry) (x : Target)
    (entries : d.entries = s.dis.entries ++ [e]) :
    { s with dis := d }.entryOf x = (s.entryOf x).or (if e.target = x then some e else none) := by
  simp only [State.entryOf, entries, List.find?_append]
  by_cases same : e.target = x <;> simp [same]

/-- The entry of a target after those of a target are taken out. -/
theorem State.entryOf_filter {d : Disablements} (y x : Target)
    (entries : d.entries = s.dis.entries.filter fun e => e.target ≠ y) :
    { s with dis := d }.entryOf x = if x = y then none else s.entryOf x := by
  simp only [State.entryOf, entries, List.find?_filter]
  by_cases same : x = y
  · simp [same]
  · rw [if_neg same]
    congr 1
    funext e
    by_cases named : e.target = x <;> simp [named, same]

/-- Whether a target is disabled after an entry is added: as before, but for the entry's own target where that had
none. -/
theorem State.disabled_append {d : Disablements} (e : Entry) (x : Target)
    (entries : d.entries = s.dis.entries ++ [e]) (unchanged : e.target = x → s.entryOf x = none → e.active = false) :
    { s with dis := d }.disabled x = s.disabled x := by
  simp only [State.disabled_eq, State.entryOf_append e x entries]
  by_cases same : e.target = x
  · cases found : s.entryOf x with
    | none => simp [same, unchanged same found]
    | some => simp
  · simp [same]

/-- Whether a target is disabled after the entries of a target are taken out: as before, but for that target where it was
disabled. -/
theorem State.disabled_filter {d : Disablements} (y x : Target)
    (entries : d.entries = s.dis.entries.filter fun e => e.target ≠ y) (unchanged : x = y → s.disabled x = false) :
    { s with dis := d }.disabled x = s.disabled x := by
  rw [State.disabled_eq, State.entryOf_filter y x entries]
  split
  · next same => rw [unchanged same]; rfl
  · rw [State.disabled_eq]

/-! ### Outcomes -/

/-- Whatever state an outcome goes on to has the property. -/
def Shows (P : State → Prop) (o : Out) : Prop := ∀ t, o = .next t → P t

section
variable {P : State → Prop} (log : ∀ {u v : State}, Change .log u v → P u → P v)
include log

theorem logged_keeps {l : List Block} {u v : State} (kept : KeptBut l u v) (h : P u)
    (sub : ∀ b ∈ l, b ∈ [Block.history, .link, .freeValues] := by decide) : P v :=
  log (.log (kept.mono sub)) h

theorem withLink_keeps {u : State} (k : Link) (h : P u) : P (u.withLink k) :=
  log (.log (by intro b hb; cases b <;> simp_all [Block.same, State.withLink])) h

theorem Shows.of_done {u : State} (h : P u) : Shows P (done u) := by
  rintro t ⟨⟩
  exact logged_keeps log u.settle_kept h

theorem Shows.of_request {kind : Byte} {p : Payload} {owner : State → State × Answer}
    (decides : ∀ u : State, P u → P (owner u).1) (h : P s) : Shows P (request kind p owner s) := by
  unfold request take
  split
  · exact .of_done log (withLink_keeps log _ h)
  · next k _ =>
    have claimed := withLink_keeps log k h
    refine .of_done log (withLink_keeps log _ ?_)
    dsimp only
    split
    · exact decides _ claimed
    · exact claimed

end

/-! ### An entry created or removed -/

/-- What a property bears of the table: it depends on the disablement of targets that never have work in hand, `But x`
being the property but for what depends on `x`'s own, and the effects of an entry put it right. -/
structure TableKept (P : State → Prop) (But : Target → State → Prop) : Prop where
  plain : ∀ {k : ChangeKind} {x : Target} {u v : State}, k ∈ [.log, .output] → Change k u v → But x u → But x v
  same : ∀ {u : State} {d : Disablements},
    (∀ y, mayWork y = false → { u with dis := d }.disabled y = u.disabled y) → P u → P { u with dis := d }
  but : ∀ {x : Target} {u : State} {d : Disablements},
    (∀ y, y ≠ x → mayWork y = false → { u with dis := d }.disabled y = u.disabled y) → P u → But x { u with dis := d }
  active : ∀ {x : Target} {u : State}, But x u → P (u.entryActive x)
  removed : ∀ {x : Target} {u v : State}, u.disabled x = true → P u → v.causes = u.causes →
    v.detectors = u.detectors → But x v →
    P (v.entryRemoved x)

section
variable {P : State → Prop} {But : Target → State → Prop} (kept : TableKept P But)
include kept

theorem TableKept.logged {x : Target} {u v : State} (same : KeptBut [.history, .link] u v) (h : But x u) : But x v :=
  kept.plain (by decide) (.log (same.mono (by decide))) h

theorem TableKept.createEntry (log : ∀ {u v : State}, Change .log u v → P u → P v) {p : Prepare} (h : P s) :
    P (s.createEntry p).1 := by
  unfold State.createEntry
  dsimp only
  split
  · refine kept.active (kept.plain (by decide) (.output _) (kept.logged (State.disEvent_kept _ _ _ _ _ _) ?_))
    refine kept.but (fun y other _ => State.disabled_append (s.newEntry p) y rfl fun same => ?_) h
    have target : (s.newEntry p).target = p.target := by
      unfold State.newEntry
      dsimp only
      split <;> rfl
    exact absurd (target ▸ same) (fun eq => other eq.symm)
  · next pending =>
    refine logged_keeps log (State.disEvent_kept _ _ _ _ _ _) (kept.same (fun y _ => ?_) h)
    exact State.disabled_append (s.newEntry p) y rfl fun _ _ => by simpa using pending

theorem TableKept.removeEntry (log : ∀ {u v : State}, Change .log u v → P u → P v) {x : Target} {r : Byte} (h : P s) :
    P (s.removeEntry x r) := by
  unfold State.removeEntry
  split
  · exact h
  · next e found =>
    dsimp only
    split
    · next active =>
      have disabled : s.disabled x = true := by simp [State.disabled, found, active]
      refine kept.removed disabled h (State.disEvent_kept _ _ _ _ _ _ .causes (by decide))
        (State.disEvent_kept _ _ _ _ _ _ .detectors (by decide)) (kept.plain (by decide) (.output _)
        (kept.logged (State.disEvent_kept _ _ _ _ _ _) ?_))
      exact kept.but (fun y other _ => State.disabled_filter x y rfl fun same => absurd same other) h
    · next pending =>
      refine logged_keeps log (State.disEvent_kept _ _ _ _ _ _) (kept.same (fun y _ => ?_) h)
      refine State.disabled_filter x y rfl fun same => ?_
      rw [same, State.disabled_eq, found]
      simpa using pending

/-- A property that the table's entries touch only at their own target is kept by the commands that create or remove an
entry. -/
theorem TableKept.exec {c : Instr} (table : .table ∈ execKinds c)
    (change : ∀ {k : ChangeKind} {u v : State}, k ∈ [.log, .plan] → Change k u v → P u → P v)
    (run : exec c s = .next t) (h : P s) : P t := by
  have log {u v : State} : Change .log u v → P u → P v := change (by decide)
  cases c with
  | disableConfirm p =>
    refine Shows.of_request log (owner := State.confirmReq (byteAt p 0) (byteAt p 1)) (fun u hu => ?_) h t run
    have broken (x : Target) (k : Nat) : P (u.sequenceError x k).1 :=
      (u.sequenceError_path x k).keeps (P := P) (fun _ mem _ _ => change (by simpa [or_comm] using mem)) hu
    unfold State.confirmReq
    split
    · exact hu
    · split
      · exact hu
      · split
        · exact hu
        · split
          · exact broken _ _
          · split
            · exact kept.createEntry log hu
            · exact broken _ _
  | enable p =>
    refine Shows.of_request log (owner := State.enableReq (byteAt p 0) (byteAt p 1)) (fun u hu => ?_) h t run
    unfold State.enableReq
    split
    · exact hu
    · exact kept.removeEntry log hu
  | entryExpired x =>
    have shown : Shows P (execEntryExpired x s) := by
      unfold execEntryExpired
      split
      · exact .of_done log (kept.removeEntry log h)
      · exact .of_done log h
    exact shown t run
  | _ => simp [execKinds] at table

/-- Kept by every other change too, it is kept by every command. -/
theorem exec_keeps_table {c : Instr} (change : ∀ {k : ChangeKind} {u v : State}, k ≠ .table → Change k u v → P u → P v)
    (run : exec c s = .next t) (h : P s) : P t := by
  by_cases table : .table ∈ execKinds c
  · exact kept.exec table (fun mem => change (by rintro rfl; simp at mem)) run h
  · exact (exec_path run).keeps (P := P) (fun k mem _ _ c => change (by rintro rfl; exact table mem) c) h

end

end Sys2Proof.Machine
end

