-- ==== Sys2Proof/Proofs/Outputs.lean ====
section
/-! The siren of a sector follows its state, its phase and its disablement; with the lines, closures and stations, the
statement about the outputs. -/

namespace Sys2Proof.Machine

set_option Elab.async false -- one declaration after another: the check bounds the threads waiting on one another

variable {s t : State}

/-! ### Sirens -/

theorem State.sector_congr (same : t.sectors = s.sectors) (n : SectorNo) : t.sector n = s.sector n := by
  simp only [State.sector, same]

theorem sectorOutput_of_same {n : SectorNo} (sector : t.sector n = s.sector n)
    (disabled : t.disabled (.sector n) = s.disabled (.sector n)) (h : s.sectorOutput n) : t.sectorOutput n := by
  rw [State.sectorOutput_iff] at h ⊢
  rw [sector, h]
  simp only [State.sirenFor, disabled]

/-- A change of a sector derives the output wherever it moves what the output depends on. -/
theorem State.SectorMoved.sectorOutput {n : SectorNo} {k : ChangeKind} (moved : s.SectorMoved n k (t.sector n))
    (disabled : t.disabled (.sector n) = s.disabled (.sector n)) (h : s.sectorOutput n) : t.sectorOutput n := by
  rw [State.sectorOutput_iff] at h ⊢
  rw [moved.sirened h]
  simp only [State.sirenFor, disabled]

theorem State.start_sectors (restart : Bool) (kind : Byte) (source : StartSource) (n : SectorNo) :
    ((s.startBlocks restart).announce kind source).sector n = resetSector := by
  have started : (s.startBlocks restart).sectors = Vector.replicate 6 resetSector :=
    forAll_kept (l := [.lines]) (fun n t => t.startBlind_kept n) _ .sectors (by decide)
  rw [State.sector_congr (State.announce_kept _ _ _ .sectors (by decide))]
  simp [State.sector, started]

theorem start_sectorOutput (restart : Bool) (kind : Byte) (source : StartSource) (n : SectorNo) :
    ((s.startBlocks restart).announce kind source).sectorOutput n := by
  rw [State.sectorOutput_iff, State.start_sectors]
  simp [resetSector, State.sirenFor]

/-- Every change but one of the table keeps the outputs of the sectors named. -/
theorem Change.sectorOutput {k : ChangeKind} (table : k ≠ .table) (change : Change k s t) {named : SectorNo → Prop}
    (h : ∀ n, named n → s.sectorOutput n) (n : SectorNo) (mine : named n) : t.sectorOutput n := by
  by_cases reset : k = .powerOn ∨ k = .restart
  · cases change with
    | powerOn | restart => exact start_sectorOutput _ _ _ n
    | _ => simp at reset
  have disabled : t.disabled (.sector n) = s.disabled (.sector n) :=
    change.disabled_kept table (by simpa [not_or] using reset) rfl
  by_cases sector : k = .sector ∨ k = .hush
  · obtain ⟨m, others, moved⟩ := change.sectorMoved sector
    by_cases same : n = m
    · subst same
      exact moved.sectorOutput disabled (h n mine)
    · exact sectorOutput_of_same (others n same) disabled (h n mine)
  · refine sectorOutput_of_same (State.sector_congr (change.kept .sectors ?_) n) disabled (h n mine)
    cases k <;> simp_all [ChangeKind.blocks, faultBlocks, lineBlocks, closureBlocks]

theorem Path.sectorOutput {l : List ChangeKind} (path : Path l s t) (table : .table ∉ l) {named : SectorNo → Prop}
    (h : ∀ n, named n → s.sectorOutput n) : ∀ n, named n → t.sectorOutput n :=
  path.keeps (P := fun u => ∀ n, named n → u.sectorOutput n)
    (fun k mem _ _ change hu => change.sectorOutput (by rintro rfl; exact table mem) hu) h

/-- The outputs of the sectors, but for a target's own. -/
def sirensBut (x : Target) (u : State) : Prop := ∀ n, x ≠ .sector n → u.sectorOutput n

/-- An entry created or removed reaches its own sector alone, which derives its output anew (R149). -/
theorem sirens_tableKept : TableKept (fun u => ∀ n, u.sectorOutput n) sirensBut where
  plain mem change h n hn := by
    refine change.sectorOutput ?_ h n hn
    rintro rfl
    simp at mem
  same {u _} same h n := sectorOutput_of_same (s := u) rfl (same _ rfl) (h n)
  but {_ u _} same h n other := sectorOutput_of_same (s := u) rfl (same _ other.symm rfl) (h n)
  active {x u} h n := by
    cases x with
    | sector m =>
      by_cases same : n = m
      · subst same
        rw [State.sectorOutput_iff]
        simp [State.entryActive]
        rfl
      · exact sectorOutput_of_same (u.refreshSiren_sector_of_ne same) rfl (h n (by simpa using Ne.symm same))
    | _ =>
      exact (u.entryActive_path _).sectorOutput (by decide) (named := fun _ => True) (fun n _ => h n (by simp)) n trivial
  removed {x _ u} _ _ _ _ h n := by
    cases x with
    | sector m =>
      by_cases same : n = m
      · subst same
        rw [State.sectorOutput_iff]
        simp [State.entryRemoved]
        rfl
      · exact sectorOutput_of_same (u.refreshSiren_sector_of_ne same) rfl (h n (by simpa using Ne.symm same))
    | _ =>
      exact (u.entryRemoved_path _).sectorOutput (by decide) (named := fun _ => True) (fun n _ => h n (by simp)) n trivial

theorem step_sectorOutput (run : step s = .next t) (h : ∀ n, s.sectorOutput n) : ∀ n, t.sectorOutput n :=
  step_keeps (P := fun u => ∀ n, u.sectorOutput n) run h (fun _ _ _ hu => hu) (fun _ hu => hu)
    fun _ _ _ run hu => exec_keeps_table sirens_tableKept
      (fun table change hu n => change.sectorOutput table (named := fun _ => True) (fun n _ => hu n) n trivial) run hu

/-- Settles O51: every write of a line, a closure, a sector or a station puts its outputs as the state it leaves says, and
a sector's disablement reaches its output at once. -/
theorem outputsFollowTheStates : Obligations.OutputsFollowTheStates := by
  intro s t run
  refine ⟨fun lines => ?_, fun closures => ?_, step_sectorOutput run, step_valveSound run⟩
  · exact step_keeps_lines outputsSound_kept run lines
  · exact step_keeps_closures closureOutputs_kept closureOutputs_pinned closureOutputs_lifted run closures

end Sys2Proof.Machine
end

