-- ==== Sys2Proof/Proofs/Values.lean ====
section
/-! The values of the settings (section 11.5): a write brings the value of the setting it names into its range and leaves
every other setting. -/

namespace Sys2Proof.Machine

set_option Elab.async false -- one declaration after another: the check bounds the threads waiting on one another

/-! ### Values brought into a range -/

theorem clamp_eq {lo hi : Nat} (ordered : lo ≤ hi) (v : Nat) : clamp lo hi v = max lo (min v hi) := by
  unfold clamp
  split_ifs <;> omega

/-- An object number within its range stands as itself. -/
theorem numberOrZero_numbered {k v : Nat} (le : v ≤ k) : numberOrZero (numbered k v) = v := by
  unfold numbered
  split
  · next named =>
    simp only [numberOrZero, number]
    omega
  · next none =>
    simp only [numberOrZero]
    omega

theorem numberOrZero_numbered_min (k v : Nat) : numberOrZero (numbered k (min v k)) = min v k :=
  numberOrZero_numbered (Nat.min_le_right v k)

theorem supervisionOf_code (v : Nat) : (supervisionOf v).code.toNat = max 0 (min v 2) := by
  unfold supervisionOf
  split_ifs <;> simp only [Supervision.code] <;> simp <;> omega

theorem inputTypeOf_code (v : Nat) : (inputTypeOf v).code.toNat = max 0 (min v 3) := by
  unfold inputTypeOf
  split_ifs <;> simp only [InputType.code] <;> simp <;> omega

theorem alarmLevelOf_num (v : Nat) : (alarmLevelOf v).num = max 2 (min v 3) := by
  unfold alarmLevelOf
  split_ifs <;> simp only [AlarmLevel.num] <;> omega

theorem kindOf_code (v : Nat) : ((if v = 0 then ClosureKind.passage else .damper).code).toNat = max 0 (min v 1) := by
  split_ifs <;> simp only [ClosureKind.code] <;> simp <;> omega

theorem flagNum_ne_zero (v : Nat) : flagNum (v != 0) = max 0 (min v 1) := by
  unfold flagNum
  by_cases zero : v = 0 <;> simp [zero]
  omega

/-! ### The fields a write leaves -/

theorem DetSettings.value_write_of_ne (x : DetSettings) {f g : Nat} (v : Nat) (other : g ≠ f) :
    (x.write f v).value g = x.value g := by
  unfold DetSettings.write
  split <;> (unfold DetSettings.value; split <;> simp_all)

theorem LineSettings.value_write_of_ne (x : LineSettings) {f g : Nat} (v : Nat) (other : g ≠ f) :
    (x.write f v).value g = x.value g := by
  unfold LineSettings.write
  split <;> (unfold LineSettings.value; split <;> simp_all)

theorem InputSettings.value_write_of_ne (x : InputSettings) {f g : Nat} (v : Nat) (other : g ≠ f) :
    (x.write f v).value g = x.value g := by
  unfold InputSettings.write
  split <;> (unfold InputSettings.value; split <;> simp_all)

theorem ClosureSettings.value_write_of_ne (x : ClosureSettings) {f g : Nat} (v : Nat) (other : g ≠ f) :
    (x.write f v).value g = x.value g := by
  unfold ClosureSettings.write
  split <;> (unfold ClosureSettings.value; split <;> simp_all)

theorem SectorSettings.value_write_of_ne (x : SectorSettings) {f g : Nat} (v : Nat) (other : g ≠ f) :
    (x.write f v).value g = x.value g := by
  unfold SectorSettings.write
  split <;> (unfold SectorSettings.value; split <;> simp_all)

theorem Pattern.value_write_of_ne (x : Pattern) {f g : Nat} (v : Nat) (other : g ≠ f) :
    (x.write f v).value g = x.value g := by
  unfold Pattern.write
  split <;> (unfold Pattern.value; split <;> simp_all)

theorem GeneralSettings.value_write_of_ne (x : GeneralSettings) {f g : Nat} (v : Nat) (other : g ≠ f) :
    (x.write f v).value g = x.value g := by
  unfold GeneralSettings.write
  split <;> (unfold GeneralSettings.value; split <;> simp_all)

/-- A value of one object's settings after another object's, or the same object's other field, was put. -/
theorem value_set_of_ne {α : Type} {k : Nat} {table : Vector α k} {i j : Fin k} {value : α → Nat} {x : α}
    (own : j = i → value x = value table[i.val]) : value ((table.set i.val x i.isLt)[j.val]) = value table[j.val] := by
  rw [Vector.getElem_set]
  split
  · next same =>
    have eq : j = i := Fin.ext same.symm
    subst eq
    exact own rfl
  · rfl

/-- A write leaves the value of every other setting. -/
theorem Settings.value_write_of_ne (t : Settings) {name other : SettingName} (w : Nat) (ne : other ≠ name) :
    (t.write name w).value other = t.value other := by
  cases name with
  | detector d f =>
    cases other with
    | detector j g => exact value_set_of_ne (value := (DetSettings.value · g)) fun same =>
        DetSettings.value_write_of_ne _ w fun eq => ne (by rw [same, eq])
    | _ => rfl
  | line n f =>
    cases other with
    | line j g => exact value_set_of_ne (value := (LineSettings.value · g)) fun same =>
        LineSettings.value_write_of_ne _ w fun eq => ne (by rw [same, eq])
    | _ => rfl
  | input i f =>
    cases other with
    | input j g => exact value_set_of_ne (value := (InputSettings.value · g)) fun same =>
        InputSettings.value_write_of_ne _ w fun eq => ne (by rw [same, eq])
    | _ => rfl
  | closure c f =>
    cases other with
    | closure j g => exact value_set_of_ne (value := (ClosureSettings.value · g)) fun same =>
        ClosureSettings.value_write_of_ne _ w fun eq => ne (by rw [same, eq])
    | _ => rfl
  | sector n f =>
    cases other with
    | sector j g => exact value_set_of_ne (value := (SectorSettings.value · g)) fun same =>
        SectorSettings.value_write_of_ne _ w fun eq => ne (by rw [same, eq])
    | _ => rfl
  | pattern p f =>
    cases other with
    | pattern j g => exact value_set_of_ne (value := (Pattern.value · g)) fun same =>
        Pattern.value_write_of_ne _ w fun eq => ne (by rw [same, eq])
    | _ => rfl
  | general f =>
    cases other with
    | general g => exact GeneralSettings.value_write_of_ne _ w (by simpa using ne)
    | _ => rfl

/-! ### The field a write names -/

theorem DetSettings.value_write_self (x : DetSettings) (d : DetNo) (f v : Nat) (plain : f ≠ 4 ∧ f ≠ 5) :
    (x.write f v).value f = max (SettingName.detector d f).range.1 (min v (SettingName.detector d f).range.2) := by
  unfold DetSettings.write
  split <;> simp_all [DetSettings.value, SettingName.range, numberOrZero_numbered_min, supervisionOf_code, clamp_eq]

theorem LineSettings.value_write_self (x : LineSettings) (n : LineNo) (f v : Nat) (plain : f ≠ 2) :
    (x.write f v).value f = max (SettingName.line n f).range.1 (min v (SettingName.line n f).range.2) := by
  unfold LineSettings.write
  split <;> simp_all [LineSettings.value, SettingName.range, numberOrZero_numbered_min, flagNum_ne_zero, clamp_eq]

theorem InputSettings.value_write_self (x : InputSettings) (i : InputNo) (f v : Nat) :
    (x.write f v).value f = max (SettingName.input i f).range.1 (min v (SettingName.input i f).range.2) := by
  unfold InputSettings.write
  split <;> simp_all [InputSettings.value, SettingName.range, numberOrZero_numbered_min, alarmLevelOf_num,
    inputTypeOf_code, clamp_eq]

theorem ClosureSettings.value_write_self (x : ClosureSettings) (c : ClosureNo) (f v : Nat) (plain : f ≠ 2) :
    (x.write f v).value f = max (SettingName.closure c f).range.1 (min v (SettingName.closure c f).range.2) := by
  unfold ClosureSettings.write
  split <;> simp_all [ClosureSettings.value, SettingName.range, numberOrZero_numbered_min, alarmLevelOf_num,
    kindOf_code, clamp_eq]

theorem SectorSettings.value_write_self (x : SectorSettings) (n : SectorNo) (f v : Nat) (plain : f ≠ 1) :
    (x.write f v).value f = max (SettingName.sector n f).range.1 (min v (SettingName.sector n f).range.2) := by
  unfold SectorSettings.write
  split <;> simp_all [SectorSettings.value, SettingName.range, numberOrZero_numbered_min, clamp_eq]

theorem Pattern.value_write_self (x : Pattern) (p : PatternNo) (f v : Nat) :
    (x.write f v).value f = max (SettingName.pattern p f).range.1 (min v (SettingName.pattern p f).range.2) := by
  unfold Pattern.write
  split <;> simp_all [Pattern.value, SettingName.range, clamp_eq]

theorem GeneralSettings.value_write_self (x : GeneralSettings) (f v : Nat) :
    (x.write f v).value f = max (SettingName.general f).range.1 (min v (SettingName.general f).range.2) := by
  unfold GeneralSettings.write
  split <;> simp_all [GeneralSettings.value, SettingName.range, clamp_eq]

/-- A write brings the value into the range of its setting; w_min and w_max give each other a bound, and a zone set takes
the low bits (R183). -/
theorem Settings.value_write_self (t : Settings) {name : SettingName} (v : Nat) (plain : name.isZoneSet = false)
    (other : ∀ d, name ≠ .detector d 4 ∧ name ≠ .detector d 5) :
    (t.write name v).value name = max name.range.1 (min v name.range.2) := by
  cases name with
  | detector d f =>
    have ne : f ≠ 4 ∧ f ≠ 5 := by simpa using other d
    simpa [Settings.write, Settings.value] using DetSettings.value_write_self _ d f v ne
  | line n f =>
    simpa [Settings.write, Settings.value] using
      LineSettings.value_write_self _ n f v (by simpa [SettingName.isZoneSet] using plain)
  | input i f => simpa [Settings.write, Settings.value] using InputSettings.value_write_self _ i f v
  | closure c f =>
    simpa [Settings.write, Settings.value] using
      ClosureSettings.value_write_self _ c f v (by simpa [SettingName.isZoneSet] using plain)
  | sector n f =>
    simpa [Settings.write, Settings.value] using
      SectorSettings.value_write_self _ n f v (by simpa [SettingName.isZoneSet] using plain)
  | pattern p f => simpa [Settings.write, Settings.value] using Pattern.value_write_self _ p f v
  | general f => exact GeneralSettings.value_write_self _ f v

/-- A zone set takes the low bits of the value (R183). -/
theorem Settings.value_write_zoneSet (t : Settings) {name : SettingName} (v : Nat) (zones : name.isZoneSet = true) :
    (t.write name v).value name = v % 65536 ∧ name.range = (0, 65535) := by
  cases name with
  | line n f =>
    obtain rfl : f = 2 := by simpa [SettingName.isZoneSet] using zones
    simp [Settings.write, Settings.value, LineSettings.write, LineSettings.value, SettingName.range]
  | closure c f =>
    obtain rfl : f = 2 := by simpa [SettingName.isZoneSet] using zones
    simp [Settings.write, Settings.value, ClosureSettings.write, ClosureSettings.value, SettingName.range]
  | sector n f =>
    obtain rfl : f = 1 := by simpa [SettingName.isZoneSet] using zones
    simp [Settings.write, Settings.value, SectorSettings.write, SectorSettings.value, SettingName.range]
  | _ => simp [SettingName.isZoneSet] at zones

end Sys2Proof.Machine
end

