-- ==== Sys2Proof/Proofs/Store.lean ====
section
/-! Both copies of the settings stay within their ranges, and the store faults go with the sections' flags. -/

namespace Sys2Proof.Machine

set_option Elab.async false -- one declaration after another: the check bounds the threads waiting on one another

variable {s t : State}

/-! ### A property of both copies of the settings -/

theorem State.announce_store (s : State) (kind : Byte) (source : StartSource) :
    (s.announce kind source).store = s.store := s.announce_kept kind source .store (by decide)

theorem State.startBlocks_store (s : State) (restart : Bool) : (s.startBlocks restart).store = s.store.load :=
  forAll_kept (l := [.lines]) (fun n t => t.startBlind_kept n) _ .store (by decide)

theorem State.start_store (s : State) (restart : Bool) (kind : Byte) (source : StartSource) :
    ((s.startBlocks restart).announce kind source).store = s.store.load := by
  rw [State.announce_store, State.startBlocks_store]

/-- A property of a copy of the settings that a write and the copy of a section bear, and that the factory values have. -/
structure SettingsKept (R : Settings → Prop) : Prop where
  write : ∀ {t : Settings} (name : SettingName) (v : Nat), R t → R (t.write name v)
  copy : ∀ {t u : Settings} (k : StoreSection), R t → R u → R (t.copySection k u)
  factory : R factorySettings

section
variable {R : Settings → Prop} (kept : SettingsKept R)
include kept

theorem SettingsKept.loadSection (k : StoreSection) {x : Store} (h : R x.live ∧ R x.stored) :
    R (x.loadSection k).live ∧ R (x.loadSection k).stored := by
  refine ⟨?_, h.2⟩
  unfold Store.loadSection
  dsimp only
  split
  · exact kept.copy k h.1 h.2
  · exact kept.copy k h.1 kept.factory

theorem SettingsKept.load {x : Store} (h : R x.live ∧ R x.stored) : R x.load.live ∧ R x.load.stored := by
  have each (l : List StoreSection) (y : Store) (hy : R y.live ∧ R y.stored) :
      R (l.foldl (fun y k => y.loadSection k) y).live ∧ R (l.foldl (fun y k => y.loadSection k) y).stored := by
    induction l generalizing y with
    | nil => exact hy
    | cons k l ih => exact ih _ (kept.loadSection k hy)
  exact each _ _ h

theorem Change.keeps_settings {k : ChangeKind} (change : Change k s t) (h : R s.store.live ∧ R s.store.stored) :
    R t.store.live ∧ R t.store.stored := by
  by_cases untouched : Block.store ∉ k.blocks
  · rwa [(change.kept .store untouched : t.store = s.store)]
  cases change with
  | flags => exact h
  | write name v => exact ⟨kept.write name v h.1, h.2⟩
  | defaults k => exact ⟨kept.copy k h.1 kept.factory, h.2⟩
  | beginSection _ k => exact ⟨h.1, kept.copy k h.2 h.1⟩
  | writeOver => exact h
  | result k good =>
    have derived (u : State) : u.deriveStoreFaults.store = u.store := u.deriveStoreFaults_kept .store (by decide)
    unfold State.takeResult
    rw [derived]
    exact h
  | powerOn | restart =>
    rw [State.start_store]
    exact kept.load h
  | _ => simp [ChangeKind.blocks, sectorBlocks, faultBlocks, lineBlocks, closureBlocks] at untouched

theorem step_keeps_settings (run : step s = .next t) (h : R s.store.live ∧ R s.store.stored) :
    R t.store.live ∧ R t.store.stored :=
  step_keeps (P := fun u => R u.store.live ∧ R u.store.stored) run h (fun _ _ _ hu => hu) (fun _ hu => hu)
    fun _ _ _ run hu => (exec_path run).keeps (P := fun u => R u.store.live ∧ R u.store.stored)
      (fun _ _ _ _ change hv => change.keeps_settings kept hv) hu

end

/-! ### Ranges -/

/-- The section of a setting. -/
def SettingName.section_ : SettingName → StoreSection
  | .detector _ _ => .detectors
  | .line _ _ => .lines
  | .input _ _ => .inputs
  | .closure _ _ => .closures
  | .sector _ _ => .sectors
  | .pattern _ _ => .patterns
  | .general _ => .general

theorem Settings.value_copySection (t u : Settings) (k : StoreSection) (name : SettingName) :
    (t.copySection k u).value name = if name.section_ = k then u.value name else t.value name := by
  cases k <;> cases name <;> rfl

theorem Settings.widths_copySection (t u : Settings) (k : StoreSection) (d : DetNo) :
    (t.copySection k u).detectors[d.val] = if k = .detectors then u.detectors[d.val] else t.detectors[d.val] := by
  cases k <;> rfl

theorem Settings.write_detectors_of_not_width (t : Settings) {name : SettingName} (v : Nat) (d : DetNo)
    (other : name ≠ .detector d 4 ∧ name ≠ .detector d 5) :
    ((t.write name v).detectors[d.val]).wMin = (t.detectors[d.val]).wMin ∧
      ((t.write name v).detectors[d.val]).wMax = (t.detectors[d.val]).wMax :=
  ⟨t.value_write_of_ne (name := name) (other := .detector d 4) v (Ne.symm other.1),
    t.value_write_of_ne (name := name) (other := .detector d 5) v (Ne.symm other.2)⟩

/-- w_min and w_max give each other a bound (R18). -/
theorem Settings.write_width (t : Settings) (d : DetNo) (v : Nat) :
    ((t.write (.detector d 4) v).value (.detector d 4) = clamp 1 (min 50 (t.detectors[d.val]).wMax) v ∧
      (t.write (.detector d 4) v).detectors[d.val].wMax = (t.detectors[d.val]).wMax) ∧
    ((t.write (.detector d 5) v).value (.detector d 5) = clamp (t.detectors[d.val]).wMin 2000 v ∧
      (t.write (.detector d 5) v).detectors[d.val].wMin = (t.detectors[d.val]).wMin) := by
  simp [Settings.write, Settings.value, DetSettings.write, DetSettings.value]

theorem Settings.inRange.write {t : Settings} (h : t.inRange) (name : SettingName) (v : Nat) :
    (t.write name v).inRange := by
  obtain ⟨ranges, widths⟩ := h
  have width (d : DetNo) : 1 ≤ (t.detectors[d.val]).wMin ∧ (t.detectors[d.val]).wMin ≤ 50 ∧
      (t.detectors[d.val]).wMax ≤ 2000 := ⟨(ranges (.detector d 4)).1, (ranges (.detector d 4)).2, (ranges (.detector d 5)).2⟩
  have named : name.range.1 ≤ (t.write name v).value name ∧ (t.write name v).value name ≤ name.range.2 := by
    by_cases zones : name.isZoneSet = true
    · obtain ⟨value, range⟩ := t.value_write_zoneSet v zones
      simp only [value, range]
      omega
    · by_cases other : ∀ d, name ≠ .detector d 4 ∧ name ≠ .detector d 5
      · rw [t.value_write_self v (by simpa using zones) other]
        have ordered : name.range.1 ≤ name.range.2 := (ranges name).1.trans (ranges name).2
        omega
      · simp only [not_forall, not_and_or, not_not] at other
        obtain ⟨d, rfl | rfl⟩ := other
        · rw [(t.write_width d v).1.1, clamp_eq (by have := width d; have := widths d; omega)]
          simp only [SettingName.range]
          omega
        · rw [(t.write_width d v).2.1, clamp_eq (by have := width d; have := widths d; omega)]
          have := width d
          simp only [SettingName.range]
          omega
  refine ⟨fun other => ?_, fun d => ?_⟩
  · by_cases same : other = name
    · rwa [same]
    · rw [t.value_write_of_ne v same]
      exact ranges other
  · have bounds := width d
    have le := widths d
    by_cases low : name = .detector d 4
    · subst low
      obtain ⟨⟨value, kept⟩, -⟩ := t.write_width d v
      rw [kept]
      rw [clamp_eq (by omega)] at value
      have eq : (t.write (.detector d 4) v).detectors[d.val].wMin = _ := value
      omega
    · by_cases high : name = .detector d 5
      · subst high
        obtain ⟨-, value, kept⟩ := t.write_width d v
        rw [kept]
        rw [clamp_eq (by omega)] at value
        have eq : (t.write (.detector d 5) v).detectors[d.val].wMax = _ := value
        omega
      · obtain ⟨min, max⟩ := t.write_detectors_of_not_width v d ⟨low, high⟩
        rw [min, max]
        exact le

theorem inRange_kept : SettingsKept Settings.inRange where
  factory := Tests.factory_inRange
  write name v h := h.write name v
  copy k h h' := by
    refine ⟨fun name => ?_, fun d => ?_⟩
    · rw [Settings.value_copySection]
      split
      · exact h'.1 name
      · exact h.1 name
    · rw [Settings.widths_copySection]
      split
      · exact h'.2 d
      · exact h.2 d

/-! ### Store faults -/

theorem StoreSection.exists_idx : ∀ i : Fin 7, ∃ k : StoreSection, k.idx = i
  | 0 => ⟨.detectors, rfl⟩
  | 1 => ⟨.lines, rfl⟩
  | 2 => ⟨.inputs, rfl⟩
  | 3 => ⟨.closures, rfl⟩
  | 4 => ⟨.sectors, rfl⟩
  | 5 => ⟨.patterns, rfl⟩
  | 6 => ⟨.general, rfl⟩

theorem State.flagsOf_congr (same : t.store = s.store) (k : StoreSection) : t.flagsOf k = s.flagsOf k := by
  simp only [State.flagsOf, same]

/-- What stands in the flags of some section stands in the flags' table. -/
theorem State.any_flags {p : SectionFlags → Bool} : s.store.flags.toList.any p = true ↔ ∃ k, p (s.flagsOf k) = true := by
  simp only [List.any_eq_true, Vector.mem_toList_iff, Vector.mem_iff_getElem]
  constructor
  · rintro ⟨_, ⟨i, inside, rfl⟩, holds⟩
    obtain ⟨k, idx⟩ := StoreSection.exists_idx ⟨i, inside⟩
    exact ⟨k, by simpa [State.flagsOf, idx] using holds⟩
  · rintro ⟨k, holds⟩
    exact ⟨_, ⟨k.idx.val, k.idx.isLt, rfl⟩, holds⟩

/-- The derivation of the store faults makes them what the flags say (R170). -/
theorem State.deriveStoreFaults_sound : s.deriveStoreFaults.storeFaultsSound := by
  have flags (k : StoreSection) : s.deriveStoreFaults.flagsOf k = s.flagsOf k :=
    State.flagsOf_congr (s.deriveStoreFaults_kept .store (by decide)) k
  have raised (u : State) (f g : FaultCode) : (u.raiseFault .store f).holds .store g = if g = f then true else
      u.holds .store g := by simpa using State.raiseFault_holds (o := .store) (s := u) trivial f .store g
  have cleared (u : State) (f g : FaultCode) : (u.clearFault .store f).holds .store g = if g = f then false else
      u.holds .store g := by simpa using State.clearFault_holds (o := .store) (s := u) trivial f .store g
  have derived : s.deriveStoreFaults.holds .store .saveFailed = s.store.flags.toList.any (·.writeFailed) ∧
      s.deriveStoreFaults.holds .store .defaulted = s.store.flags.toList.any (·.defaulted) := by
    unfold State.deriveStoreFaults
    dsimp only
    split_ifs <;> simp_all [raised, cleared]
  unfold State.storeFaultsSound
  rw [derived.1, derived.2, State.any_flags, State.any_flags]
  simp only [flags, and_self]

theorem Change.storeFaultsSound {k : ChangeKind} (change : Change k s t) (h : s.storeFaultsSound) :
    t.storeFaultsSound := by
  have of_same (flags : ∀ k, (t.flagsOf k).writeFailed = (s.flagsOf k).writeFailed ∧
      (t.flagsOf k).defaulted = (s.flagsOf k).defaulted) (no : ∀ f, k.mayPut .store f = false) : t.storeFaultsSound := by
    unfold State.storeFaultsSound
    simp only [change.holds_kept (no _), fun k => (flags k).1, fun k => (flags k).2]
    exact h
  by_cases store : Block.store ∉ k.blocks
  · refine of_same (fun i => ?_) fun f => ?_
    · rw [State.flagsOf_congr (change.kept .store store) i]
      exact ⟨rfl, rfl⟩
    · cases k <;> simp_all [ChangeKind.mayPut, plantPuts, ChangeKind.blocks]
  cases change with
  | flags k x defaulted failed =>
    refine of_same (fun i => ?_) fun f => rfl
    simp only [State.flagsOf, State.setFlags, Vector.getElem_set]
    split
    · next same =>
      have eq : i = k := by revert same; cases i <;> cases k <;> decide
      subst eq
      exact ⟨failed, defaulted⟩
    · exact ⟨rfl, rfl⟩
  | write | defaults | beginSection | writeOver => exact of_same (fun _ => ⟨rfl, rfl⟩) fun _ => rfl
  | result k good => exact State.deriveStoreFaults_sound
  | powerOn | restart => exact State.deriveStoreFaults_sound
  | _ => simp [ChangeKind.blocks, sectorBlocks, faultBlocks, lineBlocks, closureBlocks] at store

/-- Settles O59: a write brings its value into the range, a section is copied whole from a copy in range, and every change
of a section's flags derives the store faults anew. -/
theorem settingsAndStoreFaultsStaySound : Obligations.SettingsAndStoreFaultsStaySound := by
  intro s t run
  refine ⟨fun live stored => step_keeps_settings inRange_kept run ⟨live, stored⟩, fun sound => ?_⟩
  exact step_keeps (P := State.storeFaultsSound) run sound (fun _ _ _ hu => hu) (fun _ hu => hu)
    fun _ _ _ run hu => (exec_path run).keeps (fun _ _ _ _ change hv => change.storeFaultsSound hv) hu

end Sys2Proof.Machine
end

