-- ==== Sys2Proof/Proofs/Written.lean ====
section
/-! A property of one object that WRITE-SETTING and LOAD-DEFAULTS keep: what the write of the live table leaves of it, and
how its owner, handed the value, puts the rest right. -/

namespace Sys2Proof.Machine

set_option Elab.async false -- one declaration after another: the check bounds the threads waiting on one another

variable {s t : State}

/-! ### The settings of a section -/

/-- The settings of a section, in the order LOAD-DEFAULTS hands them to their owners. -/
def StoreSection.names (k : StoreSection) : List SettingName := k.indices.flatMap (settingsOf k)

theorem forEach_flatMap {α β : Type} (l : List α) (g : α → List β) (f : β → State → State) (s : State) :
    forEach l (fun a u => forEach (g a) f u) s = forEach (l.flatMap g) f s := by
  induction l generalizing s with
  | nil => rfl
  | cons a l ih => simpa [forEach, List.foldl_append] using ih _

theorem State.restoreSection_eq (s : State) (k : StoreSection) :
    s.restoreSection k = forEach k.names State.handSetting ((s.setLive (s.store.live.copySection k factorySettings)).setFlags
      k { s.flagsOf k with lock := false, modified :=
        (s.flagsOf k).modified || s.store.live.copySection k factorySettings != s.store.live }) :=
  forEach_flatMap _ _ _ _

theorem StoreSection.mem_names {k : StoreSection} {index field : Nat} {name : SettingName} (mem : index ∈ k.indices)
    (inside : field < k.fields) (named : settingAt k index (field + 1) = some name) : name ∈ k.names :=
  List.mem_flatMap.mpr ⟨index, mem, List.mem_filterMap.mpr ⟨field, List.mem_range.mpr inside, named⟩⟩

theorem detector_mem_names (d : DetNo) {f : Nat} (inside : f < 9) : .detector d (f + 1) ∈ StoreSection.detectors.names :=
  StoreSection.mem_names (index := number d) (by simp [StoreSection.indices, number]) inside
    (by simp [settingAt, numbered_number])

theorem line_mem_names (n : LineNo) {f : Nat} (inside : f < 16) : .line n (f + 1) ∈ StoreSection.lines.names :=
  StoreSection.mem_names (index := number n) (by simp [StoreSection.indices, number]) inside
    (by simp [settingAt, numbered_number])

theorem closure_mem_names (c : ClosureNo) {f : Nat} (inside : f < 6) : .closure c (f + 1) ∈ StoreSection.closures.names :=
  StoreSection.mem_names (index := number c) (by simp [StoreSection.indices, number]) inside
    (by simp [settingAt, numbered_number])

theorem sector_mem_names (n : SectorNo) {f : Nat} (inside : f < 4) : .sector n (f + 1) ∈ StoreSection.sectors.names :=
  StoreSection.mem_names (index := number n) (by simp [StoreSection.indices, number]) inside
    (by simp [settingAt, numbered_number])

/-- LOAD-DEFAULTS is accepted only where no owner refuses (R175). -/
theorem State.refuses_of_defaultsRefused {k : StoreSection} (accepted : s.defaultsRefused k = none) {name : SettingName}
    (mem : name ∈ k.names) : s.refuses name factorySettings = false := by
  obtain ⟨i, index, named⟩ := List.mem_flatMap.mp mem
  have none := List.find?_eq_none.mp accepted i index
  simpa using fun refused => none (List.any_eq_true.mpr ⟨name, named, refused⟩)

/-! ### A property of one object -/

/-- What a property of one object bears of a written setting: it depends on the settings that touch the object, `But i`
being what the write itself leaves of it, and the owner, handed the value, makes it true again. -/
structure WrittenKept {ι : Type} (Q But : ι → State → Prop) (touches : SettingName → ι → Prop) : Prop where
  plain : ∀ {k : ChangeKind} {i : ι} {u v : State}, k ∈ [.stored, .flags, .log] → Change k u v → Q i u → Q i v
  but : ∀ {k : ChangeKind} {i : ι} {u v : State}, k ∈ [.flags, .log] → Change k u v → But i u → But i v
  write : ∀ {i : ι} {u : State} (name : SettingName) (v : Nat), u.refuses name (u.store.live.write name v) = false →
    Q i u → But i (u.setLive (u.store.live.write name v)) ∧
      (¬touches name i → Q i (u.setLive (u.store.live.write name v)))
  copy : ∀ {i : ι} {u : State} (k : StoreSection), u.defaultsRefused k = none → Q i u →
    But i (u.setLive (u.store.live.copySection k factorySettings)) ∧
      ((∀ name ∈ k.names, ¬touches name i) → Q i (u.setLive (u.store.live.copySection k factorySettings)))
  handOther : ∀ {i : ι} {u : State} (name : SettingName), Q i u → Q i (u.handSetting name)
  handBut : ∀ {i : ι} {u : State} (name : SettingName), But i u → But i (u.handSetting name)
  hand : ∀ {i : ι} {u : State} {name : SettingName}, touches name i → But i u → Q i (u.handSetting name)

section
variable {ι : Type} {Q But : ι → State → Prop} {touches : SettingName → ι → Prop} (kept : WrittenKept Q But touches)
include kept

theorem WrittenKept.path {l : List ChangeKind} {i : ι} (h : Path l s t) (start : Q i s)
    (sub : ∀ k ∈ l, k ∈ [ChangeKind.stored, .flags, .log] := by decide) : Q i t :=
  h.keeps (P := Q i) (fun k mem _ _ change => kept.plain (sub k mem) change) start

theorem WrittenKept.butPath {l : List ChangeKind} {i : ι} (h : Path l s t) (start : But i s)
    (sub : ∀ k ∈ l, k ∈ [ChangeKind.flags, .log] := by decide) : But i t :=
  h.keeps (P := But i) (fun k mem _ _ change => kept.but (sub k mem) change) start

/-- The owners handed several settings, one of which touches the object, make the property true. -/
theorem WrittenKept.handEach {i : ι} (names : List SettingName) (but : But i s)
    (whole : (∀ name ∈ names, ¬touches name i) → Q i s) : Q i (forEach names State.handSetting s) := by
  induction names generalizing s with
  | nil => exact whole (by simp)
  | cons name names ih =>
    refine ih (kept.handBut name but) fun rest => ?_
    by_cases mine : touches name i
    · exact kept.hand mine but
    · exact kept.handOther name (whole (by simpa [mine] using rest))

theorem WrittenKept.acceptWrite {i : ι} (k : StoreSection) (name : SettingName) (index field v : Nat)
    (accepted : s.refuses name (s.store.live.write name v) = false) (h : Q i s) :
    Q i (s.acceptWrite k name index field v).1 := by
  obtain ⟨but, whole⟩ := kept.write name v accepted h
  have noted : Path [.flags, .log] (s.setLive (s.store.live.write name v))
      (((s.setLive (s.store.live.write name v)).setFlags k { s.flagsOf k with modified := true }).settingRecord k index
        field (s.store.live.value name) ((s.store.live.write name v).value name)) :=
    (Path.andThen (l := [.flags, .log]) (Change.path (.flags k { s.flagsOf k with modified := true } rfl rfl) (by decide))
      (State.record_kept _ _ _ _ _).logged (by decide))
  exact kept.handEach [name] (kept.butPath noted but) fun untouched => kept.path noted (whole (by simpa using untouched))

theorem WrittenKept.restoreSection {i : ι} (k : StoreSection) (accepted : s.defaultsRefused k = none) (h : Q i s) :
    Q i (s.restoreSection k) := by
  obtain ⟨but, whole⟩ := kept.copy k accepted h
  rw [State.restoreSection_eq]
  have flags := (Change.flags (s := s.setLive (s.store.live.copySection k factorySettings)) k { s.flagsOf k with
    lock := false, modified := (s.flagsOf k).modified || (s.store.live.copySection k factorySettings) != s.store.live }
    rfl rfl).path (l := [.flags]) (by decide)
  exact kept.handEach k.names (kept.butPath flags but) fun untouched => kept.path flags (whole untouched)

omit kept in
/-- The live settings are written by WRITE-SETTING and LOAD-DEFAULTS, and loaded at the resets. -/
theorem writes_of_live {c : Instr} (mem : .live ∈ execKinds c) :
    (∃ p, c = .writeSetting p) ∨ ∃ p, c = .loadDefaults p := by
  cases c <;> simp_all [execKinds]

/-- WRITE-SETTING and LOAD-DEFAULTS keep the property. -/
theorem WrittenKept.exec {c : Instr} (writes : (∃ p, c = .writeSetting p) ∨ ∃ p, c = .loadDefaults p)
    (run : exec c s = .next t) {i : ι} (h : Q i s) : Q i t := by
  have log {u v : State} : Change .log u v → Q i u → Q i v := kept.plain (by decide)
  obtain ⟨p, rfl⟩ | ⟨p, rfl⟩ := writes
  · refine Shows.of_request log (owner := State.writeReq (byteAt p 0) (byteAt p 1) (byteAt p 2) (word32At p 3))
      (fun u hu => ?_) h t run
    unfold State.writeReq
    split
    · exact hu
    · split
      · exact hu
      · split
        · exact hu
        · split
          · exact hu
          · next accepted => exact kept.acceptWrite _ _ _ _ _ (by simpa using accepted) hu
  · refine Shows.of_request log (owner := State.defaultsReq (byteAt p 0)) (fun u hu => ?_) h t run
    unfold State.defaultsReq
    split
    · exact hu
    · split
      · exact hu
      · split
        · exact hu
        · split
          · exact hu
          · next accepted =>
            exact kept.path ((((State.opStart_path _ .defaults).mono (by decide)).change (Change.beginSection _ _ _ _ _)
              (by decide)) : Path [.log, .stored] _ _) (kept.restoreSection _ accepted hu)

end

end Sys2Proof.Machine
end

