-- ==== Sys2Proof/Proofs/Counters.lean ====
section
/-! Each line's spark counter stays below its threshold: a count stops there, and a written threshold or window restarts
the count (R63, R64). -/

namespace Sys2Proof.Machine

set_option Elab.async false -- one declaration after another: the check bounds the threads waiting on one another

variable {s t : State}

/-! ### Settings that no change but a write or a reset moves -/

theorem Change.live_kept {k : ChangeKind} (change : Change k s t) (live : k ≠ .live)
    (running : k ≠ .powerOn ∧ k ≠ .restart) : t.store.live = s.store.live := by
  by_cases untouched : Block.store ∉ k.blocks
  · rw [(change.kept .store untouched : t.store = s.store)]
  cases change with
  | flags | beginSection | writeOver => rfl
  | result k good =>
    unfold State.takeResult
    rw [(State.deriveStoreFaults_kept _ .store (by decide) : (State.deriveStoreFaults _).store = _)]
    rfl
  | powerOn | restart => simp at running
  | _ => simp [ChangeKind.blocks, sectorBlocks, faultBlocks, lineBlocks, closureBlocks] at untouched live

theorem State.lineCfg_congr (same : t.store.live = s.store.live) (n : LineNo) : t.lineCfg n = s.lineCfg n := by
  simp only [State.lineCfg, same]

theorem State.lineCfg_copy_of_ne (s : State) {k : StoreSection} (u : Settings) (n : LineNo) (other : k ≠ .lines) :
    (s.setLive (s.store.live.copySection k u)).lineCfg n = s.lineCfg n := by
  cases k with
  | lines => exact absurd rfl other
  | _ => rfl

/-! ### Thresholds -/

theorem thresholds_kept : SettingsKept Settings.thresholds where
  factory := by unfold Settings.thresholds; decide
  copy {t u} k h h' n := by
    have eq : (t.copySection k u).lines[n.val] = if k = .lines then u.lines[n.val] else t.lines[n.val] := by
      cases k <;> rfl
    rw [eq]
    split
    · exact h' n
    · exact h n
  write {t} name v h n := by
    by_cases same : name = .line n 5
    · subst same
      have value := t.value_write_self (name := .line n 5) v rfl (by simp)
      have eq : ((t.write (.line n 5) v).lines[n.val]).sparkThreshold = _ := value
      rw [eq]
      simp only [SettingName.range]
      omega
    · have eq : ((t.write name v).lines[n.val]).sparkThreshold = (t.lines[n.val]).sparkThreshold :=
        t.value_write_of_ne (other := .line n 5) v (Ne.symm same)
      rw [eq]
      exact h n

/-! ### Counters -/

theorem counter_kept {b : Nat} (pos : 0 < b) {l : List ChangeKind} (aside : .lineAside ∉ l) :
    LineKept l fun x => x.counter < b where
  enter _ enters h := by cases enters <;> simp_all [Line.entering]
  replace _ _ h := h
  count counts := absurd counts aside
  gateTimer _ _ h := h
  blind _ _ _ _ h := h
  pin _ _ _ _ h := h
  off _ _ _ h := h
  stopped _ _ _ _ h := h
  powerOn _ _ _ _ _ := pos
  restart _ _ _ _ _ := pos

/-- What `State.countersSound` says of one line. -/
def countSound (n : LineNo) (u : State) : Prop :=
  (u.store.live.thresholds ∧ u.store.stored.thresholds) ∧ (u.line n).counter < (u.lineCfg n).sparkThreshold

theorem countersSound_iff : s.countersSound ↔ ∀ n, countSound n s :=
  ⟨fun ⟨live, stored, counters⟩ n => ⟨⟨live, stored⟩, counters n⟩,
    fun h => ⟨(h 0).1.1, (h 0).1.2, fun n => (h n).2⟩⟩

theorem Change.countSound {k : ChangeKind} {n : LineNo} (change : Change k s t) (live : k ≠ .live)
    (h : countSound n s) : countSound n t := by
  obtain ⟨thresholds, counter⟩ := h
  have after := change.keeps_settings thresholds_kept thresholds
  refine ⟨after, ?_⟩
  have pos {u : State} (sound : u.store.live.thresholds) : 0 < (u.lineCfg n).sparkThreshold := (sound n).1
  by_cases start : k = .powerOn ∨ k = .restart
  · have zero (restart : Bool) (kind : Byte) (source : StartSource) :
        (((s.startBlocks restart).announce kind source).line n).counter < 1 :=
      s.start_keeps_line (counter_kept Nat.one_pos (l := [.powerOn]) (by decide)) (.inl (by decide)) kind source
        fun _ => Nat.one_pos
    have le := pos after.1
    cases change with
    | powerOn => exact (zero false 1 .none).trans_le le
    | restart source => exact (zero true 2 source).trans_le le
    | _ => simp at start
  · rw [State.lineCfg_congr (change.live_kept live (not_or.mp start)) n]
    by_cases aside : k = .lineAside
    · cases change with
      | count m c w below =>
        rw [State.setLine_line]
        split
        · next same =>
          subst same
          obtain rfl | below := below
          · exact pos thresholds.1
          · exact below
        · exact counter
      | gateTimerOut m => exact keeps_setLine (Q := fun x => x.counter < _) (fun h => h) counter
      | _ => simp at aside
    · exact change.keeps_line (l := [k]) (counter_kept (pos thresholds.1) (by simpa using Ne.symm aside)) (by simp) counter

theorem countSound_written : WrittenKept countSound
    (fun _ u => u.store.live.thresholds ∧ u.store.stored.thresholds) (fun name n => name = .line n 5) where
  plain mem change h := change.countSound (by rintro rfl; simp at mem) h
  handOther {_ u} name h := (u.handSetting_path name).keeps
    (fun _ mem _ _ change hv => change.countSound (by rintro rfl; simp at mem) hv) h
  handBut {i u} name h := (u.handSetting_path name).keeps
    (P := fun v => v.store.live.thresholds ∧ v.store.stored.thresholds)
    (fun _ _ _ _ change hv => change.keeps_settings thresholds_kept hv) h
  but _ change h := change.keeps_settings thresholds_kept h
  write {n u} name v _ h := by
    obtain ⟨⟨live, stored⟩, counter⟩ := h
    refine ⟨⟨thresholds_kept.write name v live, stored⟩, fun other =>
      ⟨⟨thresholds_kept.write name v live, stored⟩, ?_⟩⟩
    have same : ((u.setLive (u.store.live.write name v)).lineCfg n).sparkThreshold = (u.lineCfg n).sparkThreshold :=
      u.store.live.value_write_of_ne (other := .line n 5) v (Ne.symm other)
    rw [same]
    exact counter
  copy {n u} k _ h := by
    obtain ⟨⟨live, stored⟩, counter⟩ := h
    have kept := thresholds_kept.copy k live thresholds_kept.factory
    refine ⟨⟨kept, stored⟩, fun other => ⟨⟨kept, stored⟩, ?_⟩⟩
    rw [State.lineCfg_copy_of_ne]
    · exact counter
    · rintro rfl
      exact other _ (line_mem_names n (f := 4) (by decide)) rfl
  hand {n u _} touches h := by
    subst touches
    refine ⟨h, ?_⟩
    simp only [State.handSetting, State.restartCount, true_or, if_true, State.setLine_line_self]
    exact (h.1 n).1

theorem step_countersSound (run : step s = .next t) (h : s.countersSound) : t.countersSound := by
  rw [countersSound_iff] at h ⊢
  refine step_keeps (P := fun u => ∀ n, Machine.countSound n u) run h (fun _ _ _ hu => hu) (fun _ hu => hu)
    fun c u v run hu n => ?_
  by_cases writes : (∃ p, c = .writeSetting p) ∨ ∃ p, c = .loadDefaults p
  · exact countSound_written.exec writes run (hu n)
  · refine (exec_path run).keeps (P := Machine.countSound n) (fun k mem _ _ change hv => change.countSound ?_ hv) (hu n)
    rintro rfl
    exact writes (writes_of_live mem)

end Sys2Proof.Machine
end

