-- ==== Sys2Proof/Proofs/Blind.lean ====
section
/-! A line is blind exactly without a usable detector (R71): what decides it changes by a detector's fault, disablement or
line, after each of which blindness is judged anew. -/

namespace Sys2Proof.Machine

set_option Elab.async false -- one declaration after another: the check bounds the threads waiting on one another

variable {s t : State}

/-! ### Loops over all objects -/

/-- What an object's own operation makes true, and the others neither spoil before nor after, holds after the operation
over all of them. -/
theorem forAll_once {k : Nat} {f : Fin k → State → State} {Before After : State → Prop} {i : Fin k}
    (own : ∀ u, Before u → After (f i u)) (before : ∀ j u, j ≠ i → Before u → Before (f j u))
    (after : ∀ j u, j ≠ i → After u → After (f j u)) (h : Before s) : After (forAll f s) := by
  have kept (l : List (Fin k)) (free : i ∉ l) : ∀ u, After u → After (forEach l f u) := by
    induction l with
    | nil => exact fun u hu => hu
    | cons j l ih =>
      intro u hu
      simp only [List.mem_cons, not_or] at free
      exact ih free.2 _ (after j u (Ne.symm free.1) hu)
  have made (l : List (Fin k)) (once : l.Nodup) (mem : i ∈ l) : ∀ u, Before u → After (forEach l f u) := by
    induction l with
    | nil => cases mem
    | cons j l ih =>
      intro u hu
      obtain ⟨fresh, rest⟩ := List.nodup_cons.mp once
      by_cases here : j = i
      · subst here
        exact kept l fresh _ (own u hu)
      · exact ih rest (by simpa [Ne.symm here] using mem) _ (before j u here hu)
  exact made _ (List.nodup_finRange k) (List.mem_finRange i) s h

/-! ### What decides blindness -/

theorem State.isBlind_congr {n : LineNo} (cfg : ∀ d, t.assigned n d = s.assigned n d) (usable : ∀ d, t.usable d = s.usable d) :
    t.isBlind n = s.isBlind n := by
  simp only [State.isBlind, cfg, usable]

/-- The kinds of change that can make a detector usable or not, or assign it to another line. -/
def blinding : List ChangeKind := [.channelFault, .table, .live, .powerOn, .restart]

theorem Change.usable_kept {k : ChangeKind} (change : Change k s t) (other : k ∉ blinding) (d : DetNo) :
    t.usable d = s.usable d := by
  have faults : t.faults.get (.detector d) = s.faults.get (.detector d) :=
    change.get_kept fun f => by cases k <;> simp_all [blinding, ChangeKind.mayPut, plantPuts]
  have disabled : t.disabled (.detector d) = s.disabled (.detector d) :=
    change.disabled_kept (by rintro rfl; simp [blinding] at other)
      ⟨by rintro rfl; simp [blinding] at other, by rintro rfl; simp [blinding] at other⟩ rfl
  simp only [State.usable, faults, disabled]

theorem Change.isBlind_kept {k : ChangeKind} (change : Change k s t) (other : k ∉ blinding) (n : LineNo) :
    t.isBlind n = s.isBlind n := by
  have live : t.store.live = s.store.live :=
    change.live_kept (by rintro rfl; simp [blinding] at other)
      ⟨by rintro rfl; simp [blinding] at other, by rintro rfl; simp [blinding] at other⟩
  refine State.isBlind_congr (fun d => ?_) fun d => change.usable_kept other d
  simp only [State.assigned, State.detCfg, live]

/-! ### Blindness judged -/

theorem State.judgeLine_line_of_ne {n m : LineNo} (other : n ≠ m) : (s.judgeLine m).line n = s.line n := by
  unfold State.judgeLine
  dsimp only
  split_ifs <;> simp [State.setLine_line, Ne.symm other]

theorem State.judgeLine_blind (n : LineNo) : ((s.judgeLine n).line n).blind = s.isBlind n := by
  unfold State.judgeLine
  dsimp only
  split_ifs with same is
  · exact same.symm
  · simp [is]
  · simp [is]

/-- After blindness is judged, each line is blind exactly without a usable detector. -/
theorem State.judgeBlind_blind (n : LineNo) : (s.judgeBlind.line n).blind = s.judgeBlind.isBlind n := by
  refine forAll_once (Before := fun _ => True) (After := fun u => (u.line n).blind = u.isBlind n) (i := n)
    (fun u _ => ?_) (fun _ _ _ h => h) (fun m u other hu => ?_) trivial
  · rw [u.judgeLine_blind n, (Change.judge n).isBlind_kept (by decide)]
  · rw [u.judgeLine_line_of_ne (Ne.symm other), (Change.judge m).isBlind_kept (by decide)]
    exact hu

/-! ### What stands only while a line is blind -/

/-- BLIND and the blind timer go with blindness: what `State.blindSound` says but for blindness itself. -/
def State.blindAside (n : LineNo) (s : State) : Prop :=
  (s.holds (.line n) .blind = true → (s.line n).blind = true) ∧
    ((s.line n).blindTimer ≠ none → (s.line n).blind = true)

theorem blindSound_iff {n : LineNo} : s.blindSound n ↔ (s.line n).blind = s.isBlind n ∧ s.blindAside n := Iff.rfl

/-- The writes of a line outside blindness leave it and its timer. -/
theorem blindness_kept (b : Bool) (w : Option Instant) {l : List ChangeKind}
    (other : .blindness ∉ l ∧ .powerOn ∉ l ∧ .restart ∉ l) : LineKept l fun x => x.blind = b ∧ x.blindTimer = w where
  enter _ enters h := by cases enters <;> exact h
  replace _ _ h := h
  count _ _ _ _ h := h
  gateTimer _ _ h := h
  blind judges := by simp_all
  pin _ _ _ _ h := h
  off _ _ _ h := h
  stopped _ _ _ _ h := h
  powerOn starts := absurd starts other.2.1
  restart starts := absurd starts other.2.2

theorem Change.blindness_kept {k : ChangeKind} (change : Change k s t)
    (other : k ≠ .blindness ∧ k ≠ .powerOn ∧ k ≠ .restart) (n : LineNo) :
    (t.line n).blind = (s.line n).blind ∧ (t.line n).blindTimer = (s.line n).blindTimer :=
  change.keeps_line (l := [k]) (Machine.blindness_kept _ _ (by simpa [eq_comm] using other)) (by simp) ⟨rfl, rfl⟩

theorem State.judgeLine_blindAside {n : LineNo} (m : LineNo) (h : s.blindAside n) : (s.judgeLine m).blindAside n := by
  by_cases same : n = m
  · subst same
    obtain ⟨held, timer⟩ := h
    unfold State.judgeLine
    dsimp only
    split_ifs with eq is
    · exact ⟨held, timer⟩
    · exact ⟨fun _ => by simp, fun _ => by simp⟩
    · simp [State.blindAside, State.clearFault_holds (o := .line n) trivial]
  · have faults : (s.judgeLine m).holds (.line n) .blind = s.holds (.line n) .blind := by
      unfold State.judgeLine
      dsimp only
      split_ifs <;> simp [State.clearFault_holds (o := .line m) trivial, same]
    rw [State.blindAside, faults, State.judgeLine_line_of_ne same]
    exact h

theorem State.startBlind_line_of_ne {n m : LineNo} (other : m ≠ n) : (s.startBlind m).line n = s.line n := by
  unfold State.startBlind
  split
  · simp [State.setLine_line, other]
  · rfl

theorem KeptBut.isBlind (same : KeptBut [.lines] s t) (n : LineNo) : t.isBlind n = s.isBlind n := by
  have store : t.store = s.store := same .store (by decide)
  have faults : t.faults = s.faults := (same .faults (by decide)).1
  have dis : t.dis = s.dis := same .disablements (by decide)
  refine State.isBlind_congr (fun d => ?_) fun d => ?_
  · simp only [State.assigned, State.detCfg, store]
  · simp only [State.usable, State.disabled, State.entryOf, faults, dis]

/-- A line at the start of the blocks, before blindness is judged. -/
def State.lineStart (s : State) (restart : Bool) (n : LineNo) (window : Option Instant) : Line :=
  (s.line n).fresh (restart && (s.line n).state == .stopped) s.uptime window

theorem getElem_tabulate {α : Type} {k : Nat} (f : Fin k → α) (i : Fin k) : (tabulate f)[i.val] = f i := by
  simp [tabulate]

/-- The start of every block but for blindness. -/
theorem State.startBlocks_eq (restart : Bool) (n : LineNo) : ∃ u, s.startBlocks restart = forAll State.startBlind u ∧
    u.line n = s.lineStart restart n (u.freshWindow n) ∧ u.uptime = s.uptime := by
  exact ⟨_, rfl, getElem_tabulate _ n, rfl⟩

theorem State.freshWindow_congr (store : t.store = s.store) (time : t.uptime = s.uptime) (n : LineNo) :
    t.freshWindow n = s.freshWindow n := by
  unfold State.freshWindow State.lineCfg State.after
  rw [store, time]

/-- A line with blindness judged at the start (R71): `window` is its counting window's end, `limit` its blind timer's. -/
def State.lineJudged (s : State) (restart : Bool) (n : LineNo) (blind : Bool) (window : Option Instant)
    (limit : Instant) : Line :=
  if blind then { s.lineStart restart n window with blind := true, blindTimer := some limit }
  else s.lineStart restart n window

theorem State.startBlind_line (n : LineNo) : (s.startBlind n).line n = if s.isBlind n then
    { s.line n with blind := true, blindTimer := some (s.after ((s.lineCfg n).blindLimit * 1000)) } else s.line n := by
  unfold State.startBlind
  split <;> simp

/-- A line after the start: blind, with its timer, exactly without a usable detector (R71, R78, R79). -/
theorem State.startBlocks_line (restart : Bool) (n : LineNo) :
    (s.startBlocks restart).line n = s.lineJudged restart n ((s.startBlocks restart).isBlind n)
      ((s.startBlocks restart).freshWindow n) (s.after (((s.startBlocks restart).lineCfg n).blindLimit * 1000)) := by
  obtain ⟨u, start, line, clock⟩ := s.startBlocks_eq restart n
  rw [start]
  have judged (v : State) (m : LineNo) : KeptBut [.lines] v (v.startBlind m) := v.startBlind_kept m
  have kept : KeptBut [.lines] u (forAll State.startBlind u) := forAll_kept (fun m v => judged v m) u
  have store : (forAll State.startBlind u).store = u.store := kept .store (by decide)
  have cfg : (forAll State.startBlind u).lineCfg n = u.lineCfg n := by simp only [State.lineCfg, store]
  rw [kept.isBlind n, State.freshWindow_congr store (kept .clock (by decide)).1, cfg]
  refine (forAll_once (i := n) (Before := fun v => KeptBut [.lines] u v ∧ v.line n = u.line n)
    (After := fun v => v.line n = s.lineJudged restart n (u.isBlind n) (u.freshWindow n)
      (s.after ((u.lineCfg n).blindLimit * 1000)))
    (fun v hv => ?_) (fun m v other hv => ?_) (fun m v other hv => ?_) ⟨KeptBut.refl _ u, rfl⟩)
  · have cfgV : v.lineCfg n = u.lineCfg n := by
      have storeV : v.store = u.store := hv.1 .store (by decide)
      simp only [State.lineCfg, storeV]
    have timeV : v.uptime = s.uptime := (hv.1 .clock (by decide)).1.trans clock
    rw [State.startBlind_line, hv.1.isBlind n, hv.2, line, cfgV]
    simp only [State.after, timeV, State.lineJudged]
  · exact ⟨hv.1.trans (judged v m), by rw [State.startBlind_line_of_ne other, hv.2]⟩
  · rw [State.startBlind_line_of_ne other, hv]

theorem State.announce_line (kind : Byte) (source : StartSource) (n : LineNo) :
    (s.announce kind source).line n = s.line n :=
  State.line_congr (s.announce_kept kind source .lines (by decide)) n

theorem State.isBlind_announce (kind : Byte) (source : StartSource) (n : LineNo) :
    (s.announce kind source).isBlind n = s.isBlind n := by
  have store : (s.announce kind source).store = s.store := s.announce_store kind source
  have dis : (s.announce kind source).dis = s.dis := s.announce_kept kind source .disablements (by decide)
  refine State.isBlind_congr (fun d => ?_) fun d => ?_
  · simp only [State.assigned, State.detCfg, store]
  · have faults : (s.announce kind source).faults.get (.detector d) = s.faults.get (.detector d) := by
      unfold State.announce
      rw [State.deriveStoreFaults_view (view := fun table => table.get (.detector d)) fun f => unmoved_get (by simp)]
      rw [(State.event_kept _ _ _ _ _ _ _ .faults (by decide)).1]
    simp only [State.usable, State.disabled, State.entryOf, faults, dis]

theorem start_blindSound (restart : Bool) (kind : Byte) (source : StartSource) (n : LineNo) :
    ((s.startBlocks restart).announce kind source).blindSound n := by
  have free : ((s.startBlocks restart).announce kind source).holds (.line n) .blind = false := by
    have none := State.start_view (s := s) (view := fun table => hasFault (table.get (.line n)) .blind) restart kind
      source fun f => unmoved_holds (o := .store) trivial (by simp)
    rw [FaultTable.get_empty] at none
    exact none.trans (by decide)
  unfold State.blindSound
  rw [free, State.announce_line, State.isBlind_announce, State.startBlocks_line]
  cases (s.startBlocks restart).isBlind n <;> simp [State.lineJudged, State.lineStart, Line.fresh]

/-- The blind timer runs out only while the line is blind, and so BLIND is raised only then. -/
theorem blindOut_blindAside {n : LineNo} (m : LineNo) (out : s.expired (s.line m).blindTimer = true) (h : s.blindAside n) :
    ((s.setLine m { s.line m with blindTimer := none }).raiseFault (.line m) .blind).blindAside n := by
  obtain ⟨held, timer⟩ := h
  unfold State.blindAside
  rw [State.raiseFault_holds (o := .line m) trivial]
  by_cases same : n = m
  · subst same
    have blind : (s.line n).blind = true := timer (by rintro none; simp [none, State.expired] at out)
    simp [blind]
  · simp [State.setLine_line, Ne.symm same]
    exact ⟨by simpa [same] using held, timer⟩

theorem Change.blindAside {k : ChangeKind} {n : LineNo} (change : Change k s t) (h : s.blindAside n) :
    t.blindAside n := by
  by_cases reset : k = .powerOn ∨ k = .restart
  · cases change with
    | powerOn | restart => exact (start_blindSound _ _ _ n).2
    | _ => simp at reset
  by_cases judged : k = .blindness
  · cases change with
    | judge m => exact State.judgeLine_blindAside m h
    | blindOut m out => exact blindOut_blindAside m out h
    | _ => simp at judged
  · obtain ⟨blind, timer⟩ := change.blindness_kept ⟨judged, not_or.mp reset⟩ n
    rw [State.blindAside, blind, timer, change.holds_kept (by cases k <;> simp_all [ChangeKind.mayPut, plantPuts])]
    exact h

/-! ### Blindness kept -/

theorem State.judgeBlind_sound {n : LineNo} (h : s.blindAside n) : s.judgeBlind.blindSound n :=
  ⟨s.judgeBlind_blind n,
    s.judgeBlind_path.keeps (P := State.blindAside n) (fun _ _ _ _ change hu => change.blindAside hu) h⟩

theorem Path.blindAside {l : List ChangeKind} {n : LineNo} (path : Path l s t) (h : s.blindAside n) : t.blindAside n :=
  path.keeps (P := State.blindAside n) (fun _ _ _ _ change hu => change.blindAside hu) h

theorem Change.blindSound {k : ChangeKind} {n : LineNo} (change : Change k s t)
    (other : k ≠ .channelFault ∧ k ≠ .table ∧ k ≠ .live) (h : s.blindSound n) : t.blindSound n := by
  by_cases reset : k = .powerOn ∨ k = .restart
  · cases change with
    | powerOn | restart => exact start_blindSound _ _ _ n
    | _ => simp at reset
  have blinds : k ∉ blinding := by simp_all [blinding]
  refine ⟨?_, change.blindAside h.2⟩
  rw [change.isBlind_kept blinds]
  by_cases judged : k = .blindness
  · cases change with
    | judge m =>
      by_cases same : n = m
      · subst same
        exact s.judgeLine_blind n
      · rw [State.judgeLine_line_of_ne same]
        exact h.1
    | blindOut m out =>
      rw [State.raiseFault_line, State.setLine_line]
      split
      · next same =>
        subst same
        exact h.1
      · exact h.1
    | _ => simp at judged
  · rw [(change.blindness_kept ⟨judged, not_or.mp reset⟩ n).1]
    exact h.1

theorem Steps.blindSound {l : List ChangeKind} {n : LineNo} (path : Steps l s t)
    (other : .channelFault ∉ l ∧ .table ∉ l ∧ .live ∉ l) (h : s.blindSound n) : t.blindSound n := by
  refine path.keeps (P := fun u => u.blindSound n) (fun k mem u v change hu => change.blindSound ⟨?_, ?_, ?_⟩ hu) h
  all_goals
    rintro rfl
    simp_all

/-- After a setting is handed to a detector, blindness stands, or nothing has changed. -/
theorem State.handSetting_detector_blind {n : LineNo} (d : DetNo) (f : Nat) (h : s.blindAside n) :
    (s.handSetting (.detector d f)).blindSound n ∨ s.handSetting (.detector d f) = s ∧ f ≠ 1 := by
  unfold State.handSetting
  dsimp only
  split
  · exact .inl (State.judgeBlind_sound h)
  · split
    · exact .inl (State.judgeBlind_sound ((s.beginGlare_path d).blindAside h))
    · exact .inr ⟨rfl, by decide⟩
  · split
    · exact .inl (State.judgeBlind_sound ((s.endGlare_path d).blindAside h))
    · exact .inr ⟨rfl, by decide⟩
  · exact .inl (State.judgeBlind_sound ((s.deriveMode_path d).blindAside h))
  · next other _ _ _ => exact .inr ⟨rfl, other⟩

theorem State.isBlind_live (s : State) (live : Settings) (n : LineNo)
    (lines : ∀ d : DetNo, (live.detectors[d.val]).line = (s.detCfg d).line) : (s.setLive live).isBlind n = s.isBlind n := by
  refine State.isBlind_congr (fun d => ?_) fun d => rfl
  simp only [State.assigned, State.detCfg, State.setLive] at lines ⊢
  rw [lines]

theorem Settings.write_line_of_ne (u : Settings) {name : SettingName} (v : Nat) (d : DetNo)
    (other : name ≠ .detector d 1) : ((u.write name v).detectors[d.val]).line = (u.detectors[d.val]).line := by
  cases name with
  | detector e f =>
    simp only [Settings.write, Vector.getElem_set]
    split
    · next same =>
      have eq : e = d := Fin.ext same
      subst eq
      have field : f ≠ 1 := by rintro rfl; exact other rfl
      unfold DetSettings.write
      split <;> simp_all
    · rfl
  | _ => rfl

theorem blindSound_written : WrittenKept (fun n u => u.blindSound n) (fun n u => u.blindAside n)
    (fun name _ => ∃ d, name = .detector d 1) where
  plain mem change h := by
    have other : ∀ k ∈ [ChangeKind.stored, .flags, .log], k ≠ .channelFault ∧ k ≠ .table ∧ k ≠ .live := by decide
    exact change.blindSound (other _ mem) h
  but _ change h := change.blindAside h
  handOther {n u} name h := by
    by_cases detector : ∃ d f, name = .detector d f
    · obtain ⟨d, f, rfl⟩ := detector
      obtain sound | ⟨same, -⟩ := u.handSetting_detector_blind d f h.2
      · exact sound
      · rwa [same]
    · exact (u.handSetting_path_of_not_detector fun d f same => detector ⟨d, f, same⟩).steps.blindSound (by decide) h
  handBut {_ u} name h := (u.handSetting_path name).blindAside h
  hand {n u name} touches h := by
    obtain ⟨d, rfl⟩ := touches
    exact (u.handSetting_detector_blind d 1 h).resolve_right fun same => same.2 rfl
  write {n u} name v accepted h := by
    refine ⟨h.2, fun other => ⟨?_, h.2⟩⟩
    rw [u.isBlind_live _ n fun d => u.store.live.write_line_of_ne v d fun same => other ⟨d, same⟩]
    exact h.1
  copy {n u} k accepted h := by
    refine ⟨h.2, fun other => ⟨?_, h.2⟩⟩
    rw [u.isBlind_live _ n fun d => ?_]
    · exact h.1
    · cases k with
      | detectors => exact absurd ⟨0, rfl⟩ (other _ (detector_mem_names 0 (f := 0) (by decide)))
      | _ => rfl

/-- The blindness of every line, but for what depends on a target's own disablement. -/
def blindBut (x : Target) (u : State) : Prop :=
  ∀ n, u.blindAside n ∧ ((∀ d, x ≠ .detector d) → u.blindSound n)

theorem blindSound_tableKept : TableKept (fun u => ∀ n, u.blindSound n) blindBut where
  plain mem change h n := by
    have other : ∀ k ∈ [ChangeKind.log, .output], k ≠ .channelFault ∧ k ≠ .table ∧ k ≠ .live := by decide
    exact ⟨change.blindAside (h n).1, fun mine => change.blindSound (other _ mem) ((h n).2 mine)⟩
  same {u d} same h n := by
    have blind : { u with dis := d }.isBlind n = u.isBlind n := State.isBlind_congr (fun _ => rfl) fun e => by
      simp only [State.usable, same (.detector e) rfl]
    exact ⟨(h n).1.trans blind.symm, (h n).2⟩
  but {x u d} same h n := by
    refine ⟨(h n).2, fun mine => ⟨?_, (h n).2⟩⟩
    have blind : { u with dis := d }.isBlind n = u.isBlind n := State.isBlind_congr (fun _ => rfl) fun e => by
      simp only [State.usable, same (.detector e) (mine e).symm rfl]
    exact (h n).1.trans blind.symm
  active {x u} h n := by
    cases x with
    | detector d =>
      exact State.judgeBlind_sound ((((u.dropCandidate_path d 3).mono (by decide)).andThen (State.removeCause_path _ _)
        (by decide) : Path (.channel :: alarmKinds) u _).blindAside (h n).1)
    | _ => exact (u.entryActive_path _).steps.blindSound (by decide) ((h n).2 (by simp))
  removed {x _ u} _ _ _ _ h n := by
    cases x with
    | detector d => exact State.judgeBlind_sound (h n).1
    | _ => exact (u.entryRemoved_path _).steps.blindSound (by decide) ((h n).2 (by simp))

theorem blindSound_shift {n : LineNo} {mode : Nat} (h : s.blindSound n) : (s.setShiftReq mode).1.blindSound n := by
  have judged (m : Shift) (still : m = .watch → s.lineBusy = none) :
      (forAll State.deriveMode (s.putShift m)).judgeBlind.blindSound n :=
    State.judgeBlind_sound (((s.putShift_path m still).trans
      (Path.all (fun d t => (t.deriveMode_path d).mono (by decide)) _)).blindAside h.2)
  unfold State.setShiftReq
  split
  case h_2 => exact s.toDay_rest.steps.blindSound (by decide) (judged _ (by simp))
  case h_4 =>
    split
    · exact h
    · next still => exact s.toWatch_rest.steps.blindSound (by decide) (judged _ fun _ => still)
  all_goals exact h

theorem exec_blindSound {c : Instr} (run : exec c s = .next t) (h : ∀ n, s.blindSound n) (n : LineNo) :
    t.blindSound n := by
  by_cases writes : (∃ p, c = .writeSetting p) ∨ ∃ p, c = .loadDefaults p
  · exact blindSound_written.exec writes run (h n)
  by_cases table : .table ∈ execKinds c
  · have other : ∀ k ∈ [ChangeKind.log, .plan], k ≠ .channelFault ∧ k ≠ .table ∧ k ≠ .live := by decide
    exact blindSound_tableKept.exec table (fun mem change hu m => change.blindSound (other _ mem) (hu m)) run h n
  have log {u v : State} (change : Change .log u v) : u.blindSound n → v.blindSound n := change.blindSound (by decide)
  have shown {u : State} (hu : u.blindSound n) : Shows (fun v => v.blindSound n) (done u) := .of_done log hu
  by_cases fault : .channelFault ∈ execKinds c
  · cases c with
    | sampleEnd d level =>
      have ends : Shows (fun v => v.blindSound n) (execSampleEnd d level s) := by
        unfold execSampleEnd
        split
        · exact shown (State.judgeBlind_sound
            (((s.applyLevel_path d level).trans (State.takeWaitingMode_path _ d)).blindAside (h n).2))
        · exact shown (h n)
      exact ends t run
    | glareLimitReached d =>
      have ends : Shows (fun v => v.blindSound n) (execGlareLimitReached d s) := by
        unfold execGlareLimitReached
        split
        · exact shown (State.judgeBlind_sound ((s.beginGlare_path d).blindAside (h n).2))
        · exact shown (h n)
      exact ends t run
    | glareCleared d =>
      have ends : Shows (fun v => v.blindSound n) (execGlareCleared d s) := by
        unfold execGlareCleared
        split
        · exact shown (State.judgeBlind_sound ((s.endGlare_path d).blindAside (h n).2))
        · exact shown (h n)
      exact ends t run
    | setShift p =>
      exact Shows.of_request log (owner := State.setShiftReq (byteAt p 0)) (fun u hu => blindSound_shift hu) (h n) t run
    | writeSetting p => exact absurd (.inl ⟨p, rfl⟩) writes
    | loadDefaults p => exact absurd (.inr ⟨p, rfl⟩) writes
    | _ => simp [execKinds] at fault
  · exact (exec_path run).blindSound ⟨fault, table, fun live => writes (writes_of_live live)⟩ (h n)

theorem step_blindSound (run : step s = .next t) (h : ∀ n, s.blindSound n) : ∀ n, t.blindSound n :=
  step_keeps (P := fun u => ∀ n, u.blindSound n) run h (fun _ _ _ hu => hu) (fun _ hu => hu)
    fun _ _ _ run hu n => exec_blindSound run hu n

end Sys2Proof.Machine
end

