-- ==== Sys2Proof/Proofs/Dampers.lean ====
section
/-! Dampers and their lines: what a change of a line's state leaves of the closures, what a stop demand leaves of the line,
and from these that a damper waits only on a running fan (R107, R109) and that no line runs with a damper not HELD
(R69). -/

namespace Sys2Proof.Machine

set_option Elab.async false -- one declaration after another: the check bounds the threads waiting on one another

variable {s t : State}

/-! ### What the moves of lines leave of closures -/

theorem State.endWait_closure_of_ne {c d : ClosureNo} (other : d ≠ c) : (s.endWait d).closure c = s.closure c := by
  unfold State.endWait State.startTravel State.shutClosure
  dsimp only
  split_ifs <;> simp [State.moveClosure_closure_of_ne other]

theorem State.endWait_closure_state {c : ClosureNo} : ((s.endWait c).closure c).state ≠ .waiting := by
  unfold State.endWait State.startTravel State.shutClosure
  dsimp only
  split_ifs <;> simp [State.moveClosure_closure_state, *]

theorem State.endWait_of_not_waiting {c : ClosureNo} (still : (s.closure c).state ≠ .waiting) : s.endWait c = s := by
  simp [State.endWait, still]

theorem State.closureCfg_congr (same : t.store.live = s.store.live) (c : ClosureNo) : t.closureCfg c = s.closureCfg c := by
  simp only [State.closureCfg, same]

theorem State.damperOf_congr (same : t.store.live = s.store.live) (n : LineNo) (c : ClosureNo) :
    t.damperOf n c = s.damperOf n c := by
  simp only [State.damperOf, State.closureCfg_congr same]

theorem State.damperOf_iff {n : LineNo} {c : ClosureNo} :
    s.damperOf n c = true ↔ (s.closureCfg c).kind = .damper ∧ (s.closureCfg c).line = some n := by
  simp [State.damperOf]

/-- A closure that does not wait stays as it is when waits end, and a closure still waiting was waiting before. -/
structure WaitsEnd (c : ClosureNo) (s t : State) : Prop where
  still : (s.closure c).state ≠ .waiting → t.closure c = s.closure c
  waits : (t.closure c).state = .waiting → (s.closure c).state = .waiting

theorem WaitsEnd.refl (c : ClosureNo) (s : State) : WaitsEnd c s s := ⟨fun _ => rfl, id⟩

theorem WaitsEnd.trans {c : ClosureNo} {u : State} (h : WaitsEnd c s t) (h' : WaitsEnd c t u) : WaitsEnd c s u :=
  ⟨fun no => (h'.still (fun yes => no (h.waits yes))).trans (h.still no), fun yes => h.waits (h'.waits yes)⟩

theorem WaitsEnd.of_same {c : ClosureNo} (same : t.closures = s.closures) : WaitsEnd c s t :=
  have eq := State.closure_congr same c
  ⟨fun _ => eq, fun yes => eq ▸ yes⟩

theorem State.endWaits_waitsEnd (n : LineNo) (c : ClosureNo) : WaitsEnd c s (s.endWaits n) := by
  refine forAll_keeps (P := WaitsEnd c s) (fun d u hu => hu.trans ?_) (WaitsEnd.refl c s)
  split
  · by_cases same : d = c
    · subst same
      exact ⟨fun no => by rw [State.endWait_of_not_waiting no], fun yes => absurd yes State.endWait_closure_state⟩
    · have eq := u.endWait_closure_of_ne same
      exact ⟨fun _ => eq, fun yes => eq ▸ yes⟩
  · exact .refl c u

/-- After the waits on a line's fan end, none of its dampers waits. -/
theorem State.endWaits_ended {n : LineNo} {c : ClosureNo} (damper : s.damperOf n c = true) :
    ((s.endWaits n).closure c).state ≠ .waiting := by
  refine forAll_once (i := c) (Before := fun u => u.store = s.store) (After := fun u => (u.closure c).state ≠ .waiting)
    (fun u same => ?_) (fun d u other same => ?_) (fun d u other hu => ?_) rfl
  · rw [if_pos (by rwa [State.damperOf_congr (congrArg Store.live same)])]
    exact State.endWait_closure_state
  · split
    · exact (u.endWait_kept d .store (by decide)).trans same
    · exact same
  · split
    · rwa [u.endWait_closure_of_ne other]
    · exact hu

/-! ### What a change of a line's state leaves -/

theorem State.endWaits_line (n m : LineNo) : (s.endWaits n).line m = s.line m :=
  State.line_congr (s.endWaits_kept n .lines (by decide)) m

theorem State.moveLine_line_self (n : LineNo) (st : LineState) (cause : StopCause) (f : Line → Line) :
    (s.moveLine n st cause f).line n = (s.line n).entering st cause f s.uptime := by
  unfold State.moveLine
  dsimp only
  split <;> simp [State.endWaits_line, Line.entering]

theorem State.moveLine_line_of_ne {n m : LineNo} (other : m ≠ n) (st : LineState) (cause : StopCause) (f : Line → Line) :
    (s.moveLine n st cause f).line m = s.line m := by
  unfold State.moveLine
  dsimp only
  split <;> simp [State.endWaits_line, State.setLine_line, Ne.symm other]

theorem State.moveLine_waitsEnd (n : LineNo) (st : LineState) (cause : StopCause) (f : Line → Line) (c : ClosureNo) :
    WaitsEnd c s (s.moveLine n st cause f) := by
  unfold State.moveLine
  dsimp only
  split
  · exact (WaitsEnd.of_same (by simp)).trans (State.endWaits_waitsEnd n c)
  · exact .of_same (by simp)

theorem State.moveLine_ended {n : LineNo} {st : LineState} (rest : st = .off ∨ st = .stopped) (cause : StopCause)
    (f : Line → Line) {c : ClosureNo} (damper : s.damperOf n c = true) :
    ((s.moveLine n st cause f).closure c).state ≠ .waiting := by
  unfold State.moveLine
  dsimp only
  rw [if_pos rest]
  exact State.endWaits_ended ((State.damperOf_congr (by simp) n c).trans damper)

/-! ### A damper waits only on a running fan -/

/-- Whether the fan of a line is running (R107). -/
def Line.running (x : Line) : Bool :=
  (x.state == .starting || x.state == .run || x.state == .abort || x.state == .stopping) && !x.fstop

theorem State.fanRunning_iff {c : ClosureNo} :
    s.fanRunning c = true ↔ ∃ n, (s.closureCfg c).line = some n ∧ (s.line n).running = true := by
  unfold State.fanRunning
  cases (s.closureCfg c).line <;> simp [Line.running]

theorem waitSound_iff {c : ClosureNo} : s.waitSound c ↔
    ((s.closure c).state = .waiting → ∃ n, s.damperOf n c = true ∧ (s.line n).running = true) := by
  unfold State.waitSound
  rw [State.fanRunning_iff]
  simp only [State.damperOf_iff, and_assoc, exists_and_left]

/-- The fans still run that ran, and no more dampers wait. -/
theorem waitSound_of {c : ClosureNo} (live : t.store.live = s.store.live)
    (waits : (t.closure c).state = .waiting → (s.closure c).state = .waiting)
    (runs : ∀ n, s.damperOf n c = true → (t.closure c).state = .waiting → (s.line n).running = true →
      (t.line n).running = true) (h : s.waitSound c) : t.waitSound c := by
  rw [waitSound_iff] at h ⊢
  intro waiting
  obtain ⟨n, damper, running⟩ := h (waits waiting)
  exact ⟨n, by rwa [State.damperOf_congr live], runs n damper waiting running⟩

theorem waitSound_setLine {c : ClosureNo} {n : LineNo} {x : Line}
    (runs : (s.line n).running = true → x.running = true) (h : s.waitSound c) : (s.setLine n x).waitSound c := by
  refine waitSound_of (s := s) rfl id (fun m _ _ running => ?_) h
  rw [State.setLine_line]
  split
  · next same =>
    subst same
    exact runs running
  · exact running

/-- A change of a line's state that leaves FSTOP: the fan still runs, or the waits on it end. -/
theorem waitSound_moveLine {c : ClosureNo} {n : LineNo} {st : LineState} {cause : StopCause} {f : Line → Line}
    (fstop : (f (s.line n)).fstop = (s.line n).fstop) (h : s.waitSound c) : (s.moveLine n st cause f).waitSound c := by
  refine waitSound_of (congrArg Store.live (s.moveLine_kept n st cause f .store (by decide)))
    (s.moveLine_waitsEnd n st cause f c).waits (fun m damper waiting running => ?_) h
  by_cases same : m = n
  · subst same
    rw [State.moveLine_line_self]
    by_cases rest : st = .off ∨ st = .stopped
    · exact absurd waiting (State.moveLine_ended rest cause f damper)
    · cases st <;> simp_all [Line.running, Line.entering]
  · rwa [State.moveLine_line_of_ne same]

theorem Line.Enters.fstop {x : Line} {st : LineState} {cause : StopCause} {f : Line → Line} (h : x.Enters st cause f) :
    (f x).fstop = x.fstop := by
  cases h <;> rfl

theorem waitSound_of_same {c : ClosureNo} (live : t.store.live = s.store.live) (closures : t.closures = s.closures)
    (lines : t.lines = s.lines) (h : s.waitSound c) : t.waitSound c := by
  have closure := State.closure_congr closures c
  refine waitSound_of live (fun yes => closure ▸ yes) (fun n _ _ running => ?_) h
  rwa [State.line_congr lines]

/-- The changes of lines keep the waits in order. -/
theorem Change.waitSound_line {k : ChangeKind} (change : Change k s t) (line : k ∈ lineKinds) {c : ClosureNo}
    (h : s.waitSound c) : t.waitSound c := by
  cases change with
  | log kept =>
    exact waitSound_of_same (congrArg Store.live (kept .store (by decide))) (kept .closures (by decide))
      (kept .lines (by decide)) h
  | moveLine enters => exact waitSound_moveLine enters.fstop h
  | replaceCause n => exact waitSound_setLine id h
  | lineFault n f r => exact waitSound_of_same (by simp) (by simp) (by simp) h
  | _ => simp at line

theorem Path.waitSound_line (path : Path lineKinds s t) {c : ClosureNo} (h : s.waitSound c) : t.waitSound c :=
  path.keeps (P := fun u => u.waitSound c) (fun _ mem _ _ change hu => change.waitSound_line mem hu) h

/-! ### Releases -/

theorem State.fanRunning_congr {c : ClosureNo} (live : t.store.live = s.store.live) (lines : t.lines = s.lines) :
    t.fanRunning c = s.fanRunning c := by
  have line (n : LineNo) : t.line n = s.line n := State.line_congr lines n
  simp only [State.fanRunning, State.closureCfg_congr live, line]

/-- A closure changed alone, without a wait of its own or onto a running fan. -/
theorem waitSound_of_closure {c d : ClosureNo} (live : t.store.live = s.store.live) (lines : t.lines = s.lines)
    (others : d ≠ c → t.closure c = s.closure c)
    (own : d = c → (t.closure d).state = .waiting → (s.closureCfg d).kind = .damper ∧ s.fanRunning d = true)
    (h : s.waitSound c) : t.waitSound c := by
  intro waiting
  rw [State.closureCfg_congr live, State.fanRunning_congr live lines]
  by_cases same : d = c
  · subst same
    exact own rfl waiting
  · exact h (others same ▸ waiting)

theorem waitSound_moveClosure {c d : ClosureNo} {st : ClosureState} {dir : Direction} {o : ReleaseOrigin}
    {f : Closure → Closure} (own : st = .waiting → (s.closureCfg d).kind = .damper ∧ s.fanRunning d = true)
    (h : s.waitSound c) : (s.moveClosure d st dir o f).waitSound c := by
  have kept := s.moveClosure_kept d st dir o f
  refine waitSound_of_closure (d := d) (congrArg Store.live (kept .store (by decide))) (kept .lines (by decide))
    (fun other => State.moveClosure_closure_of_ne other _ _ _ _) (fun _ waiting => own ?_) h
  rw [← State.moveClosure_closure_state (s := s) (c := d) st dir o f]
  exact waiting

theorem waitSound_letGo {c d : ClosureNo} (o : ReleaseOrigin) (h : s.waitSound c) : (s.letGo d o).waitSound c := by
  unfold State.letGo State.startTravel
  split
  · exact waitSound_moveClosure (by simp) h
  · exact waitSound_moveClosure (by simp) h

theorem State.demandStop_path (c : ClosureNo) : Path lineKinds s (s.demandStop c) := by
  unfold State.demandStop
  split
  · exact .refl _ s
  · exact s.protectLine_path _ _ (by decide)

theorem State.demandIfRunning_path (c : ClosureNo) : Path lineKinds s (s.demandIfRunning c) := by
  unfold State.demandIfRunning
  split
  · exact .refl _ s
  · exact .ite (s.protectLine_path _ _ (by decide)) (.refl _ s)

theorem waitSound_release {c d : ClosureNo} (o : ReleaseOrigin) (h : s.waitSound c) :
    (s.releaseClosure d o).waitSound c := by
  have origin : (s.setClosure d { s.closure d with origin := o }).waitSound c := by
    refine waitSound_of_closure (s := s) (d := d) rfl rfl (fun other => by simp [State.setClosure_closure, other])
      (fun same => ?_) h
    subst same
    simpa [State.waitSound] using h
  unfold State.releaseClosure
  dsimp only
  split
  · split
    · exact waitSound_letGo o origin
    · next damper =>
      split
      · next running =>
        exact (State.demandStop_path d).waitSound_line (waitSound_moveClosure (fun _ => ⟨damper, running⟩) origin)
      · split
        · exact (State.demandIfRunning_path d).waitSound_line (waitSound_letGo o origin)
        · exact waitSound_letGo o origin
  · exact h

theorem waitSound_reopen {c d : ClosureNo} (h : s.waitSound c) : (s.reopen d).waitSound c := by
  have kept := s.reopen_kept d
  refine waitSound_of_closure (d := d) (congrArg Store.live (kept .store (by decide))) (kept .lines (by decide))
    (fun other => State.reopen_closure_of_ne other) (fun same waiting => absurd waiting ?_) h
  unfold State.reopen State.makeReady State.holdOpen
  dsimp only
  split_ifs <;> simp [State.moveClosure_closure_state]

/-! ### Settings of closures -/

/-- An owner that takes a new value for a closure's kind or line has it wait for nothing (R118). -/
theorem refuses_waiting {c : ClosureNo} {new : Settings} {f : Nat} (accepted : s.refuses (.closure c f) new = false)
    (h : s.waitSound c) (field : f = 1 ∨ f = 5) : (s.closure c).state ≠ .waiting := by
  intro waiting
  obtain ⟨n, damper, running⟩ := waitSound_iff.mp h waiting
  obtain ⟨-, line⟩ := State.damperOf_iff.mp damper
  have busy : s.lineIdle (s.closureCfg c).line = false := by
    rw [line]
    cases state : (s.line n).state <;> simp_all [State.lineIdle, Line.running]
  obtain rfl | rfl := field <;> simp [State.refuses, busy] at accepted

theorem Settings.write_closure_of_ne (u : Settings) {name : SettingName} (v : Nat) (c : ClosureNo)
    (other : name ≠ .closure c 1 ∧ name ≠ .closure c 5) :
    ((u.write name v).closures[c.val]).kind = (u.closures[c.val]).kind ∧
      ((u.write name v).closures[c.val]).line = (u.closures[c.val]).line := by
  cases name with
  | closure d f =>
    simp only [Settings.write, Vector.getElem_set]
    split
    · next same =>
      have eq : d = c := Fin.ext same
      subst eq
      unfold ClosureSettings.write
      split <;> simp_all
    · exact ⟨rfl, rfl⟩
  | _ => exact ⟨rfl, rfl⟩

/-- The damper settings after a write or a load of the live table: as they were, or the owner has accepted a new kind or
line. -/
theorem Change.closureCfg_live (change : Change .live s t) (c : ClosureNo) :
    ((t.closureCfg c).kind = (s.closureCfg c).kind ∧ (t.closureCfg c).line = (s.closureCfg c).line) ∨
      ∃ f new, (f = 1 ∨ f = 5) ∧ s.refuses (.closure c f) new = false ∧
        (f = 1 → (t.closureCfg c).line = (s.closureCfg c).line ∨ (t.closureCfg c).line = none) ∧
        (f = 5 → (t.closureCfg c).line = (new.closures[c.val]).line) := by
  cases change with
  | write name v accepted =>
    by_cases kind : name = .closure c 1
    · subst kind
      exact .inr ⟨1, _, .inl rfl, accepted, fun _ => .inl (by
        simp [State.closureCfg, State.setLive, Settings.write, ClosureSettings.write]), by simp⟩
    · by_cases line : name = .closure c 5
      · subst line
        exact .inr ⟨5, _, .inr rfl, accepted, by simp, fun _ => rfl⟩
      · exact .inl (s.store.live.write_closure_of_ne v c ⟨kind, line⟩)
  | defaults k accepted =>
    cases k with
    | closures =>
      refine .inr ⟨5, _, .inr rfl, s.refuses_of_defaultsRefused accepted (closure_mem_names c (f := 4) (by decide)),
        by simp, fun _ => rfl⟩
    | _ => exact .inl ⟨rfl, rfl⟩

theorem Change.waitSound_live (change : Change .live s t) {c : ClosureNo} (h : s.waitSound c) : t.waitSound c := by
  have closures : t.closure c = s.closure c := State.closure_congr (change.kept .closures (by decide)) c
  intro waiting
  rw [closures] at waiting
  obtain ⟨kind, line⟩ | ⟨f, new, field, accepted, -⟩ := change.closureCfg_live c
  · obtain ⟨damper, running⟩ := h waiting
    have lines (n : LineNo) : t.line n = s.line n := State.line_congr (change.kept .lines (by decide)) n
    have same : t.fanRunning c = s.fanRunning c := by simp only [State.fanRunning, line, lines]
    exact ⟨kind.trans damper, same.trans running⟩
  · exact absurd waiting (refuses_waiting accepted h field)

/-- FSTOP becoming active ends the waits on the fan it reports stopped (R109). -/
theorem waitSound_fstopOn {n : LineNo} {c : ClosureNo} (h : s.waitSound c) :
    (((s.setLine n { s.line n with fstop := true }).testRundown n).endWaits n).waitSound c := by
  let u := (s.setLine n { s.line n with fstop := true }).testRundown n
  have path : Path lineKinds (s.setLine n { s.line n with fstop := true }) u := State.testRundown_path _ n
  have live : u.store.live = s.store.live := congrArg Store.live (path.kept .store (by decide))
  by_cases damper : s.damperOf n c = true
  · exact fun waiting => absurd waiting (State.endWaits_ended ((State.damperOf_congr live n c).trans damper))
  · have stopped : (s.setLine n { s.line n with fstop := true }).waitSound c := by
      refine waitSound_of (s := s) rfl id (fun m mine _ running => ?_) h
      rw [State.setLine_line, if_neg (by rintro rfl; exact damper mine)]
      exact running
    refine waitSound_of (s := u) (congrArg Store.live (u.endWaits_kept n .store (by decide)))
      (u.endWaits_waitsEnd n c).waits (fun m _ _ running => ?_) (path.waitSound_line stopped)
    rwa [State.endWaits_line]

/-! ### Every change -/

theorem Change.waitSound {k : ChangeKind} (change : Change k s t) {c : ClosureNo} (h : s.waitSound c) : t.waitSound c := by
  by_cases line : k ∈ lineKinds
  · exact change.waitSound_line line h
  have fresh (e : Instant) (kind : ClosureKind) (locked : Bool) :
      ((s.closure c).fresh locked s.uptime e kind).state ≠ .waiting := by
    unfold Closure.fresh
    dsimp only
    split_ifs <;> simp
  by_cases same : k ≠ .live ∧ Block.closures ∉ k.blocks ∧ Block.lines ∉ k.blocks
  · exact waitSound_of_same (change.live_kept same.1 (by constructor <;> rintro rfl <;> simp [ChangeKind.blocks] at same))
      (change.kept .closures same.2.1) (change.kept .lines same.2.2) h
  cases change with
  | count n | gateTimerOut n => exact waitSound_setLine id h
  | judge n =>
    unfold State.judgeLine
    dsimp only
    split_ifs
    · exact h
    · exact waitSound_setLine id h
    · exact waitSound_of_same (by simp) (by simp) (by simp) (waitSound_setLine (n := n)
        (x := { s.line n with blind := false, blindTimer := none }) id h)
  | blindOut n out =>
    exact waitSound_of_same (by simp) (by simp) (by simp)
      (waitSound_setLine (n := n) (x := { s.line n with blindTimer := none }) id h)
  | liftOff n => exact waitSound_setLine id h
  | liftStopped n => exact waitSound_moveLine rfl h
  | fstopOff n => exact waitSound_setLine (fun running => by simp_all [Line.running]) h
  | fstopOn n => exact waitSound_fstopOn h
  | gopen n => exact waitSound_setLine id h
  | release d o => exact waitSound_release o h
  | shutDamper d =>
    exact (State.demandIfRunning_path d).waitSound_line (waitSound_moveClosure (st := .shut) (by simp) h)
  | moveClosure o open_ timers still => exact waitSound_moveClosure (fun waiting => absurd waiting still) h
  | closureFault => exact waitSound_of_same (by simp) (by simp) (by simp) h
  | reopen d => exact waitSound_reopen h
  | limit d l b =>
    refine waitSound_of_closure (s := s) (d := d) rfl rfl (fun other => by simp [State.setClosure_closure, other])
      (fun same => ?_) h
    subst same
    cases l <;> simpa [State.waitSound, Closure.setLimit] using h
  | write name v accepted => exact (Change.write name v accepted).waitSound_live h
  | defaults k accepted => exact (Change.defaults k accepted).waitSound_live h
  | powerOn | restart =>
    intro waiting
    obtain ⟨e, kind, eq⟩ := s.start_closure (c := c) _ _ _
    exact absurd (eq ▸ waiting) (fresh e kind _)
  | _ => simp [ChangeKind.blocks, sectorBlocks, faultBlocks] at same line

/-- Settles O54: each write of a line and of a closure puts the timers of the state it leaves; a written threshold restarts
the count; blindness is judged after every change of what decides it; and a fan stops only with the end of the waits on
it. -/
theorem linesAndClosuresStayInOrder : Obligations.LinesAndClosuresStayInOrder := by
  intro s t run
  refine ⟨step_keeps_lines timersSound_kept run, step_countersSound run, step_blindSound run, fun closures => ?_, fun waits => ?_⟩
  · exact step_keeps_closures closureTimers_kept closureTimers_pinned closureTimers_lifted run closures
  · exact step_keeps (P := fun u => ∀ c, u.waitSound c) run waits (fun _ _ _ hu => hu) (fun _ hu => hu)
      fun _ _ _ run hu c => (exec_path run).keeps (P := fun u => u.waitSound c)
        (fun _ _ _ _ change hv => change.waitSound hv) (hu c)

end Sys2Proof.Machine
end

