-- ==== Sys2Proof/Proofs/Still.lean ====
section
/-! No line runs with a damper of its own not HELD (R69), and none is off rest in WATCH (R98). -/

namespace Sys2Proof.Machine

set_option Elab.async false -- one declaration after another: the check bounds the threads waiting on one another

variable {s t : State}

/-! ### WATCH -/

theorem firstOf_eq_none_iff {k : Nat} {p : Fin k → Bool} : firstOf p = none ↔ ∀ i, p i = false := by
  simp [firstOf]

theorem State.lineBusy_eq_none_iff :
    s.lineBusy = none ↔ ∀ n, (s.line n).state = .off ∨ (s.line n).state = .stopped := by
  simp only [State.lineBusy, firstOf_eq_none_iff, Bool.and_eq_false_iff, bne_eq_false_iff_eq]

/-- While a line is at rest and the mode is not DAY, no change of its state applies to it. -/
theorem Line.Enters.not_still {x : Line} {st : LineState} {cause : StopCause} {f : Line → Line} (h : x.Enters st cause f)
    (still : x.state = .off ∨ x.state = .stopped) : st = .starting := by
  cases h with
  | starting => rfl
  | run moves | off moves | stopped moves | stopping _ _ moves | abort _ _ _ moves =>
    obtain at_ | at_ := still <;> simp [at_] at moves

theorem watchStill_of_same (lines : t.lines = s.lines) (shift : t.shift = s.shift) (h : s.watchStill) :
    t.watchStill := by
  intro watch n
  rw [State.line_congr lines]
  exact h (shift ▸ watch) n

theorem watchStill_setLine {n : LineNo} {x : Line} (state : x.state = (s.line n).state) (h : s.watchStill) :
    (s.setLine n x).watchStill := by
  intro watch m
  rw [State.setLine_line]
  split
  · next same =>
    subst same
    rw [state]
    exact h watch n
  · exact h watch m

theorem PlantMoves.watchStill (h : PlantMoves s t) (start : s.watchStill) : t.watchStill := by
  refine h.keeps (fun u v move hu => ?_) start
  cases move with
  | log same => exact watchStill_of_same (same .lines (by decide)) (same .shift (by decide)) hu
  | @enter n _ _ _ enters day =>
    intro watch
    exact absurd ((day (enters.not_still (hu watch n))).symm.trans watch) (by decide)
  | replaceCause n cause stopping => exact fun watch => by simpa [stopping] using hu watch n
  | lineFault n f r => exact watchStill_of_same (by simp) (by simp) hu
  | origin c o => exact hu
  | moveClosure o =>
    have kept := u.moveClosure_kept
    exact watchStill_of_same (kept _ _ _ _ _ .lines (by decide)) (kept _ _ _ _ _ .shift (by decide)) hu

theorem start_line_rest (restart : Bool) (kind : Byte) (source : StartSource) (n : LineNo) :
    (((s.startBlocks restart).announce kind source).line n).state = .off ∨
      (((s.startBlocks restart).announce kind source).line n).state = .stopped := by
  rw [State.announce_line, State.startBlocks_line]
  cases (s.startBlocks restart).isBlind n <;>
    cases h : (restart && (s.line n).state == .stopped) <;> simp [State.lineJudged, State.lineStart, Line.fresh, h]

theorem Change.watchStill {k : ChangeKind} (change : Change k s t) (h : s.watchStill) : t.watchStill := by
  by_cases same : Block.lines ∉ k.blocks ∧ Block.shift ∉ k.blocks
  · exact watchStill_of_same (change.kept .lines same.1) (change.kept .shift same.2) h
  by_cases plant : k ∈ [.lineMove, .lineFault, .closureMove]
  · exact (change.moves plant).watchStill h
  have put (n : LineNo) (x : Line) (state : x.state = (s.line n).state) : (s.setLine n x).watchStill :=
    watchStill_setLine state h
  cases change with
  | count n | gateTimerOut n | liftOff n | fstopOff n | gopen n => exact put n _ rfl
  | judge n =>
    unfold State.judgeLine
    dsimp only
    split_ifs
    · exact h
    · exact put n _ rfl
    · exact watchStill_of_same (by simp) (by simp) (put n { s.line n with blind := false, blindTimer := none } rfl)
  | blindOut n out => exact watchStill_of_same (by simp) (by simp) (put n { s.line n with blindTimer := none } rfl)
  | liftStopped n =>
    refine (s.moveLine_rest n .off .none _).watchStill fun watch m => ?_
    rw [State.setLine_line]
    split
    · exact .inl rfl
    · exact h watch m
  | fstopOn n => exact (s.fstopOn_moves n).watchStill (put n _ rfl)
  | shift m still => exact fun watch => State.lineBusy_eq_none_iff.mp (still watch)
  | powerOn | restart => exact fun _ n => start_line_rest _ _ _ n
  | _ => simp [ChangeKind.blocks, sectorBlocks, faultBlocks] at same plant

/-! ### Running lines and their dampers -/

/-- Whether a line is STARTING or RUN. -/
def Line.inRun (x : Line) : Prop := x.state = .starting ∨ x.state = .run

/-- No line runs with a damper of its own not HELD, but for the closures exempt. -/
def State.heldBut (exempt : ClosureNo → Prop) (s : State) : Prop :=
  ∀ n, (s.line n).inRun → ∀ c, ¬exempt c → s.damperOf n c = true → (s.closure c).state = .held

theorem dampersHeld_iff : (∀ n, s.dampersHeld n) ↔ s.heldBut fun _ => False :=
  ⟨fun h n runs c _ => h n runs c, fun h n runs c => h n runs c id⟩

section
variable {exempt : ClosureNo → Prop}

/-- No more lines run, and no closure but the exempt has left HELD. -/
theorem heldBut_of (live : t.store.live = s.store.live) (runs : ∀ n, (t.line n).inRun → (s.line n).inRun)
    (held : ∀ c, ¬exempt c → (s.closure c).state = .held → (t.closure c).state = .held) (h : s.heldBut exempt) :
    t.heldBut exempt := by
  intro n run c mine damper
  rw [State.damperOf_congr live] at damper
  exact held c mine (h n (runs n run) c mine damper)

theorem heldBut_of_same (live : t.store.live = s.store.live) (lines : t.lines = s.lines)
    (closures : t.closures = s.closures) (h : s.heldBut exempt) : t.heldBut exempt := by
  refine heldBut_of live (fun n run => ?_) (fun c _ held => ?_) h
  · rwa [← State.line_congr lines]
  · rwa [State.closure_congr closures]

theorem heldBut_setLine {n : LineNo} {x : Line} (state : x.state = (s.line n).state) (h : s.heldBut exempt) :
    (s.setLine n x).heldBut exempt := by
  refine heldBut_of (s := s) rfl (fun m run => ?_) (fun _ _ held => held) h
  rw [State.setLine_line] at run
  split at run
  · next same =>
    subst same
    rwa [Line.inRun, state] at run
  · exact run

theorem WaitsEnd.held {c : ClosureNo} (h : WaitsEnd c s t) (held : (s.closure c).state = .held) :
    (t.closure c).state = .held := by
  rw [h.still (by simp [held])]
  exact held

theorem heldBut_moveLine {n : LineNo} {st : LineState} {cause : StopCause} {f : Line → Line}
    (ready : st = .starting → s.damperNotHeld n = none) (running : st = .run → (s.line n).state = .starting)
    (h : s.heldBut exempt) : (s.moveLine n st cause f).heldBut exempt := by
  intro m run c mine damper
  rw [State.damperOf_congr (congrArg Store.live (s.moveLine_kept n st cause f .store (by decide)))] at damper
  refine (s.moveLine_waitsEnd n st cause f c).held ?_
  by_cases same : m = n
  · subst same
    rw [Line.inRun, State.moveLine_line_self_state] at run
    obtain starts | runs := run
    · exact State.damperNotHeld_eq_none_iff.mp (ready starts) c damper
    · exact h m (.inl (running runs)) c mine damper
  · rw [State.moveLine_line_of_ne same] at run
    exact h m run c mine damper

theorem Change.heldBut_line {k : ChangeKind} (change : Change k s t) (line : k ∈ lineKinds) (h : s.heldBut exempt) :
    t.heldBut exempt := by
  cases change with
  | log kept =>
    exact heldBut_of_same (congrArg Store.live (kept .store (by decide))) (kept .lines (by decide))
      (kept .closures (by decide)) h
  | moveLine enters ready =>
    refine heldBut_moveLine (fun starts => (ready starts).2) (fun runs => ?_) h
    subst runs
    cases enters with
    | run starting => exact starting
  | replaceCause n => exact heldBut_setLine rfl h
  | lineFault n f r => exact heldBut_of_same (by simp) (by simp) (by simp) h
  | _ => simp at line

theorem Path.heldBut_line (path : Path lineKinds s t) (h : s.heldBut exempt) : t.heldBut exempt :=
  path.keeps (P := State.heldBut exempt) (fun _ mem _ _ change hu => change.heldBut_line mem hu) h

end

/-! ### Stop demands -/

theorem State.testRundown_notInRun {n : LineNo} (h : ¬(s.line n).inRun) : ¬((s.testRundown n).line n).inRun := by
  unfold State.testRundown State.stopDone
  dsimp only
  split_ifs <;> simp_all [Line.inRun]

/-- A stop takes the line out of STARTING and RUN. -/
theorem State.stopLine_notInRun (n : LineNo) (cause : StopCause) : ¬((s.stopLine n cause).line n).inRun :=
  State.testRundown_notInRun (by simp [Line.inRun])

theorem State.protectLine_notInRun (n : LineNo) (cause : StopCause) : ¬((s.protectLine n cause).line n).inRun := by
  unfold State.protectLine
  dsimp only
  split
  case h_1 | h_2 | h_3 => exact s.stopLine_notInRun n cause
  case h_4 h => split <;> simp [Line.inRun, h]
  case h_5 h | h_6 h => simp [Line.inRun, h]

theorem State.demandStop_notInRun {n : LineNo} {c : ClosureNo} (damper : s.damperOf n c = true) :
    ¬((s.demandStop c).line n).inRun := by
  obtain ⟨-, line⟩ := State.damperOf_iff.mp damper
  unfold State.demandStop
  rw [line]
  exact s.protectLine_notInRun n _

theorem State.demandIfRunning_notInRun {n : LineNo} {c : ClosureNo} (damper : s.damperOf n c = true) :
    ¬((s.demandIfRunning c).line n).inRun := by
  obtain ⟨-, line⟩ := State.damperOf_iff.mp damper
  unfold State.demandIfRunning
  rw [line]
  dsimp only
  split
  · exact s.protectLine_notInRun n _
  · next still =>
    rintro (starts | runs)
    · exact still (.inl starts)
    · exact still (.inr (.inl runs))

/-! ### Closures changed -/

theorem start_notInRun (restart : Bool) (kind : Byte) (source : StartSource) (n : LineNo) :
    ¬(((s.startBlocks restart).announce kind source).line n).inRun := by
  obtain rest | rest := start_line_rest (s := s) restart kind source n <;> simp [Line.inRun, rest]

/-- The invariant with one closure exempt. -/
abbrev State.heldButOne (c : ClosureNo) (s : State) : Prop := s.heldBut fun d => d = c

/-- The invariant with none exempt. -/
abbrev State.allHeld (s : State) : Prop := s.heldBut fun _ => False

theorem heldButOne_of {c : ClosureNo} (live : t.store.live = s.store.live) (lines : t.lines = s.lines)
    (others : ∀ d, d ≠ c → t.closure d = s.closure d) (h : s.allHeld) : t.heldButOne c := by
  intro n run d other damper
  rw [State.damperOf_congr live] at damper
  rw [State.line_congr lines] at run
  rw [others d other]
  exact h n run d id damper

/-- Where the line of the one closure exempt does not run, none is exempt. -/
theorem allHeld_of_one {c : ClosureNo} (own : ∀ n, s.damperOf n c = true → ¬(s.line n).inRun) (h : s.heldButOne c) :
    s.allHeld := by
  intro n run d _ damper
  by_cases same : d = c
  · subst same
    exact absurd run (own n damper)
  · exact h n run d same damper

theorem State.moveClosure_others (c : ClosureNo) (st : ClosureState) (dir : Direction) (o : ReleaseOrigin)
    (f : Closure → Closure) (h : s.allHeld) : (s.moveClosure c st dir o f).heldButOne c :=
  have kept := s.moveClosure_kept c st dir o f
  heldButOne_of (congrArg Store.live (kept .store (by decide))) (kept .lines (by decide))
    (fun _ other => State.moveClosure_closure_of_ne (Ne.symm other) st dir o f) h

/-- A closure that moves from another state than HELD, or is no damper, concerns no line that runs. -/
theorem allHeld_moveClosure {c : ClosureNo} {st : ClosureState} {dir : Direction} {o : ReleaseOrigin}
    {f : Closure → Closure} (passage : (s.closure c).state = .held → (s.closureCfg c).kind = .passage) (h : s.allHeld) :
    (s.moveClosure c st dir o f).allHeld := by
  have kept := s.moveClosure_kept c st dir o f
  refine allHeld_of_one (fun n damper run => ?_) (s.moveClosure_others c st dir o f h)
  rw [State.damperOf_congr (congrArg Store.live (kept .store (by decide)))] at damper
  rw [State.line_congr (kept .lines (by decide))] at run
  have held := h n run c id damper
  simp [(State.damperOf_iff.mp damper).1] at passage
  exact passage held

theorem allHeld_demandIfRunning {c : ClosureNo} (h : s.heldButOne c) : (s.demandIfRunning c).allHeld := by
  refine allHeld_of_one (fun n damper => ?_) ((State.demandIfRunning_path c).heldBut_line h)
  have store : (s.demandIfRunning c).store = s.store := s.demandIfRunning_kept c .store (by decide)
  exact State.demandIfRunning_notInRun ((State.damperOf_congr (congrArg Store.live store) n c).symm.trans damper)

theorem allHeld_demandStop {c : ClosureNo} (h : s.heldButOne c) : (s.demandStop c).allHeld := by
  refine allHeld_of_one (fun n damper => ?_) ((State.demandStop_path c).heldBut_line h)
  have store : (s.demandStop c).store = s.store := s.demandStop_kept c .store (by decide)
  exact State.demandStop_notInRun ((State.damperOf_congr (congrArg Store.live store) n c).symm.trans damper)

theorem allHeld_release {c : ClosureNo} (o : ReleaseOrigin) (h : s.allHeld) : (s.releaseClosure c o).allHeld := by
  have origin : (s.setClosure c { s.closure c with origin := o }).allHeld := by
    refine heldBut_of (s := s) rfl (fun n run => run) (fun d _ held => ?_) h
    rw [State.setClosure_closure]
    split
    · next same =>
      subst same
      exact held
    · exact held
  have gone (u : State) (hu : u.allHeld) : (u.letGo c o).heldButOne c := by
    unfold State.letGo State.startTravel
    split
    · exact u.moveClosure_others c _ _ _ _ hu
    · exact u.moveClosure_others c _ _ _ _ hu
  have still (u : State) (passage : (u.closure c).state = .held → (u.closureCfg c).kind = .passage) (hu : u.allHeld) :
      (u.letGo c o).allHeld := by
    unfold State.letGo State.startTravel
    split
    · exact allHeld_moveClosure passage hu
    · exact allHeld_moveClosure passage hu
  unfold State.releaseClosure
  dsimp only
  split
  · split
    · next passage => exact still _ (fun _ => passage) origin
    · split
      · exact allHeld_demandStop (State.moveClosure_others c _ _ _ _ origin)
      · split
        · exact allHeld_demandIfRunning (gone _ origin)
        · next away => exact still _ (fun held => absurd (by simpa using held) away) origin
  · exact h

theorem allHeld_reopen {c : ClosureNo} (locked : (s.closure c).state = .shut ∨ (s.closure c).state = .stuck)
    (h : s.allHeld) : (s.reopen c).allHeld := by
  have kept := s.reopen_kept c
  have live : (s.reopen c).store.live = s.store.live := congrArg Store.live (kept .store (by decide))
  have lines : (s.reopen c).lines = s.lines := kept .lines (by decide)
  refine allHeld_of_one (fun n damper run => ?_) (heldButOne_of live lines
    (fun d other => State.reopen_closure_of_ne (Ne.symm other)) h)
  rw [State.damperOf_congr live] at damper
  rw [State.line_congr lines] at run
  have held := h n run c id damper
  simp [held] at locked

/-! ### Settings of dampers -/

/-- A line that runs is not idle, as a write of a damper's settings wants it (R118). -/
theorem State.lineIdle_of_inRun {n : LineNo} (run : (s.line n).inRun) : s.lineIdle (some n) = false := by
  obtain run | run := run <;> simp [State.lineIdle, run]

theorem allHeld_live (change : Change .live s t) (h : s.allHeld) : t.allHeld := by
  intro n run c _ damper
  rw [State.line_congr (change.kept .lines (by decide))] at run
  rw [State.closure_congr (change.kept .closures (by decide))]
  have busy := State.lineIdle_of_inRun run
  obtain ⟨damperKind, line⟩ := State.damperOf_iff.mp damper
  obtain ⟨kind, same⟩ | ⟨f, new, field, accepted, first, fifth⟩ := change.closureCfg_live c
  · exact h n run c id (State.damperOf_iff.mpr ⟨kind ▸ damperKind, same ▸ line⟩)
  · obtain rfl | rfl := field
    · have own : (s.closureCfg c).line = some n := by
        obtain same | none := first rfl
        · exact same ▸ line
        · simp [none] at line
      simp [State.refuses, own, busy] at accepted
    · have own : (new.closures[c.val]).line = some n := (fifth rfl).symm.trans line
      simp [State.refuses, own, busy] at accepted

/-! ### Every change -/

theorem Change.allHeld {k : ChangeKind} (change : Change k s t) (h : s.allHeld) : t.allHeld := by
  by_cases line : k ∈ lineKinds
  · exact change.heldBut_line line h
  by_cases same : k ≠ .live ∧ Block.closures ∉ k.blocks ∧ Block.lines ∉ k.blocks
  · exact heldBut_of_same (change.live_kept same.1 (by constructor <;> rintro rfl <;> simp [ChangeKind.blocks] at same))
      (change.kept .lines same.2.2) (change.kept .closures same.2.1) h
  have put (n : LineNo) (x : Line) (state : x.state = (s.line n).state) : (s.setLine n x).allHeld :=
    heldBut_setLine state h
  cases change with
  | count n | gateTimerOut n | liftOff n | fstopOff n | gopen n => exact put n _ rfl
  | judge n =>
    unfold State.judgeLine
    dsimp only
    split_ifs
    · exact h
    · exact put n _ rfl
    · exact heldBut_of_same (by simp) (by simp) (by simp) (put n { s.line n with blind := false, blindTimer := none } rfl)
  | blindOut n out =>
    exact heldBut_of_same (by simp) (by simp) (by simp) (put n { s.line n with blindTimer := none } rfl)
  | liftStopped n => exact heldBut_moveLine (by simp) (by simp) h
  | fstopOn n =>
    have rundown := (State.testRundown_path (s.setLine n { s.line n with fstop := true }) n).heldBut_line
      (put n { s.line n with fstop := true } rfl)
    refine heldBut_of (congrArg Store.live (State.endWaits_kept _ n .store (by decide))) (fun m run => ?_)
      (fun c _ held => (State.endWaits_waitsEnd n c).held held) rundown
    rwa [State.endWaits_line] at run
  | release c o => exact allHeld_release o h
  | shutDamper c => exact allHeld_demandIfRunning (s.moveClosure_others c _ _ _ _ h)
  | moveClosure o open_ timers still passage => exact allHeld_moveClosure passage h
  | closureFault => exact heldBut_of_same (by simp) (by simp) (by simp) h
  | reopen c locked => exact allHeld_reopen locked h
  | limit c l b =>
    refine heldBut_of (s := s) rfl (fun n run => run) (fun d _ held => ?_) h
    rw [State.setClosure_closure]
    split
    · next same =>
      subst same
      cases l <;> exact held
    · exact held
  | write name v accepted => exact allHeld_live (.write name v accepted) h
  | defaults k accepted => exact allHeld_live (.defaults k accepted) h
  | powerOn | restart =>
    exact fun n run => absurd run (start_notInRun _ _ _ n)
  | _ => simp [ChangeKind.blocks, sectorBlocks, faultBlocks] at same line

/-- Settles O55: a line starts only in DAY with its dampers HELD, and a damper that leaves HELD demands its stop at once;
the mode turns to WATCH only with every line at rest. -/
theorem noLineRunsWithADamperNotHeldOrInWatch : Obligations.NoLineRunsWithADamperNotHeldOrInWatch := by
  refine ⟨fun s t run => ⟨fun held => ?_, fun still => ?_⟩, fun s n cause => ⟨?_, ?_, ?_⟩⟩
  · rw [dampersHeld_iff] at held ⊢
    exact step_keeps (P := State.allHeld) run held (fun _ _ _ hu => hu) (fun _ hu => hu)
      fun _ _ _ run hu => (exec_path run).keeps (P := State.allHeld) (fun _ _ _ _ change hv => change.allHeld hv) hu
  · exact step_keeps (P := State.watchStill) run still (fun _ _ _ hu => hu) (fun _ hu => hu)
      fun _ _ _ run hu => (exec_path run).keeps (P := State.watchStill) (fun _ _ _ _ change hv => change.watchStill hv) hu
  · rintro (moving | moving | moving) <;> simp [State.protectLine, moving]
  · intro stopping orderly
    simp [State.protectLine, stopping, orderly]
  · rintro (rest | rest | ⟨stopping, cause⟩)
    · simp [State.protectLine, rest]
    · simp [State.protectLine, rest]
    · simp [State.protectLine, stopping, cause]

end Sys2Proof.Machine
end

