-- ==== Sys2Proof/Proofs/Disablements.lean ====
section
/-! The disablement table and the prepare stay in order: an entry is created only for a target without one and with room
for it, and stands PENDING only until its owner's work ends. -/

namespace Sys2Proof.Machine

set_option Elab.async false -- one declaration after another: the check bounds the threads waiting on one another

variable {s t : State}

/-! ### The entries -/

/-- What `State.tableSound` says of the entries, `busy` being the targets whose owners have work in hand. -/
structure EntriesSound (l : List Entry) (busy : Target → Bool) : Prop where
  room : l.length ≤ 32
  one : (l.map (·.target)).Nodup
  limits : ∀ e ∈ l, e.limit ≤ 1440 ∧ (e.expiry ≠ none ↔ e.activated ≠ none ∧ e.limit ≠ 0)
  pending : ∀ e ∈ l, e.activated = none → busy e.target = true

theorem tableSound_iff : s.tableSound ↔ EntriesSound s.dis.entries s.inHand :=
  ⟨fun ⟨room, one, limits, pending⟩ => ⟨room, one, limits, pending⟩,
    fun ⟨room, one, limits, pending⟩ => ⟨room, one, limits, pending⟩⟩

section
variable {l : List Entry} {busy busy' : Target → Bool}

theorem EntriesSound.mono (h : EntriesSound l busy) (more : ∀ x, busy x = true → busy' x = true) :
    EntriesSound l busy' :=
  ⟨h.room, h.one, h.limits, fun e mem idle => more _ (h.pending e mem idle)⟩

theorem EntriesSound.filter (h : EntriesSound l busy) (p : Entry → Bool) : EntriesSound (l.filter p) busy where
  room := (List.length_filter_le p l).trans h.room
  one := h.one.sublist (List.filter_sublist.map _)
  limits e mem := h.limits e (List.mem_of_mem_filter mem)
  pending e mem := h.pending e (List.mem_of_mem_filter mem)

theorem EntriesSound.append (h : EntriesSound l busy) {e : Entry} (room : l.length < 32)
    (fresh : ∀ x ∈ l, x.target ≠ e.target)
    (limit : e.limit ≤ 1440 ∧ (e.expiry ≠ none ↔ e.activated ≠ none ∧ e.limit ≠ 0))
    (pending : e.activated = none → busy e.target = true) : EntriesSound (l ++ [e]) busy where
  room := by simpa using room
  one := by
    rw [List.map_append, List.nodup_append]
    refine ⟨h.one, by simp, ?_⟩
    simpa using fun x mem => fresh x mem
  limits x mem := by
    obtain old | rfl : x ∈ l ∨ x = e := by simpa using mem
    · exact h.limits x old
    · exact limit
  pending x mem idle := by
    obtain old | rfl : x ∈ l ∨ x = e := by simpa using mem
    · exact h.pending x old idle
    · exact pending idle

/-- An entry activated in the table. -/
theorem EntriesSound.activate (h : EntriesSound l busy) {e : Entry} (mem : e ∈ l) (now : Instant)
    (rest : ∀ y, y ≠ e.target → busy y = true → busy' y = true) :
    EntriesSound (l.map fun x => if x.target = e.target then e.activate now else x) busy' where
  room := by simpa using h.room
  one := by
    have targets : (l.map fun x => if x.target = e.target then e.activate now else x).map (·.target) =
        l.map (·.target) := by
      rw [List.map_map]
      refine List.map_congr_left fun x _ => ?_
      by_cases same : x.target = e.target <;> simp [Entry.activate, same]
    rw [targets]
    exact h.one
  limits x inside := by
    obtain ⟨y, old, rfl⟩ := List.mem_map.mp inside
    split
    · have limit := (h.limits e mem).1
      by_cases zero : e.limit = 0 <;> simp [Entry.activate, limit, zero]
    · exact h.limits y old
  pending x inside idle := by
    obtain ⟨y, old, rfl⟩ := List.mem_map.mp inside
    split at idle
    · simp [Entry.activate] at idle
    · next other =>
      rw [if_neg other]
      exact rest _ other (h.pending y old idle)

end

/-! ### The table and the prepare together -/

/-- The table and the prepare in order. -/
def State.planSound (s : State) : Prop := s.tableSound ∧ s.prepareSound

/-- The parts of the state the table and the prepare speak of, as they are or with more work in hand. -/
theorem planSound_of (dis : t.dis = s.dis) (service : t.service = s.service)
    (more : ∀ x, s.inHand x = true → t.inHand x = true) (h : s.planSound) : t.planSound := by
  obtain ⟨table, prepare⟩ := h
  refine ⟨tableSound_iff.mpr ?_, ?_⟩
  · rw [dis]
    exact (tableSound_iff.mp table).mono more
  · simp only [State.prepareSound, State.hasEntry, State.entryOf, dis, service] at prepare ⊢
    exact prepare

theorem State.inHand_congr (stations : t.stations = s.stations) (closures : t.closures = s.closures) (x : Target) :
    t.inHand x = s.inHand x := by
  cases x with
  | station n => simp only [State.inHand, State.station_congr stations]
  | closure c => simp only [State.inHand, State.closure_congr closures]
  | _ => rfl

theorem planSound_of_same (dis : t.dis = s.dis) (service : t.service = s.service) (stations : t.stations = s.stations)
    (closures : t.closures = s.closures) (h : s.planSound) : t.planSound := by
  refine planSound_of dis service (fun x busy => ?_) h
  rwa [State.inHand_congr stations closures]

theorem State.hasEntry_iff {x : Target} : s.hasEntry x = true ↔ ∃ e ∈ s.dis.entries, e.target = x := by
  simp [State.hasEntry, State.entryOf, List.find?_isSome]

/-- An entry of the table is the one found for its target. -/
theorem EntriesSound.found {busy : Target → Bool} (h : EntriesSound s.dis.entries busy) {e d : Entry} {x : Target}
    (mem : d ∈ s.dis.entries) (named : d.target = x) (found : s.entryOf x = some e) : d = e := by
  have there := List.mem_of_find?_eq_some found
  have target : e.target = x := by simpa using List.find?_some found
  exact List.inj_on_of_nodup_map h.one mem there (named.trans target.symm)

/-- What the end of an owner's work leaves of the table and the rest (R146). -/
theorem State.endActivity_cases (x : Target) :
    (s.endActivity x = s ∧ ∀ e, s.entryOf x = some e → e.activated ≠ none) ∨
    ∃ e, s.entryOf x = some e ∧ (s.endActivity x).dis = { s.dis with
      entries := s.dis.entries.map fun d => if d.target = x then e.activate s.uptime else d } := by
  unfold State.endActivity
  split
  · next none => exact .inl ⟨rfl, by simp [none]⟩
  · next e found =>
    split
    · next active =>
      refine .inl ⟨rfl, fun d same => ?_⟩
      obtain rfl : e = d := by simpa [found] using same
      simpa [Entry.active, Option.isSome_iff_ne_none] using active
    · refine .inr ⟨e, found, ?_⟩
      have kept (u : State) (a : DisAction) (g : Option Target) (c : Byte) (m : Nat) (r : Byte) :
          (u.disEvent a g c m r).deriveFault.dis = u.dis := u.disEvent_kept a g c m r .disablements (by decide)
      exact kept _ _ _ _ _ _

/-- The end of an owner's work (R146), the other owners having at least the work they had. -/
theorem planSound_endActivity {x : Target} (before : State) (dis : s.dis = before.dis)
    (service : s.service = before.service) (rest : ∀ y, y ≠ x → before.inHand y = true → s.inHand y = true)
    (h : before.planSound) : (s.endActivity x).planSound := by
  obtain ⟨table, prepare⟩ := h
  have entries := tableSound_iff.mp table
  rw [← dis] at entries
  have kept := s.endActivity_kept x
  have hands (y : Target) : (s.endActivity x).inHand y = s.inHand y :=
    State.inHand_congr (kept .stations (by decide)) (kept .closures (by decide)) y
  have service' : (s.endActivity x).service = before.service := (kept .service (by decide)).trans service
  have plan : ∀ p, s.dis.prepare = some p → (s.endActivity x).service = true ∧ s.dis.latch = false ∧
      s.hasEntry p.target = false ∧ p.limit ≤ 1440 ∧ s.dis.entries.length < 32 := by
    intro p outstanding
    have sound := prepare p (dis ▸ outstanding)
    simp only [State.hasEntry, State.entryOf] at sound ⊢
    rw [dis, service']
    exact sound
  obtain ⟨same, active⟩ | ⟨e, found, dis'⟩ := s.endActivity_cases x
  · rw [same] at plan ⊢
    refine ⟨tableSound_iff.mpr ⟨entries.room, entries.one, entries.limits, fun e mem idle => ?_⟩, plan⟩
    refine rest _ (fun named => ?_) (entries.pending e mem idle)
    cases found : s.entryOf x with
    | none => exact absurd ((State.hasEntry_iff (s := s)).mpr ⟨e, mem, named⟩) (by simp [State.hasEntry, found])
    | some d => exact active d found (entries.found mem named found ▸ idle)
  · have target : e.target = x := by simpa using List.find?_some found
    have mem : e ∈ s.dis.entries := List.mem_of_find?_eq_some found
    refine ⟨tableSound_iff.mpr ?_, fun p outstanding => ?_⟩
    · rw [dis']
      dsimp only
      subst target
      exact entries.activate mem s.uptime fun y other busy => by rw [hands]; exact rest y other busy
    · rw [dis'] at outstanding
      obtain ⟨on, clear, free, short, room⟩ := plan p outstanding
      refine ⟨on, by rw [dis']; exact clear, ?_, short, by rw [dis']; simpa using room⟩
      rw [Bool.eq_false_iff, Ne, State.hasEntry_iff] at free ⊢
      rintro ⟨d, there, named⟩
      rw [dis'] at there
      obtain ⟨y, old, rfl⟩ := List.mem_map.mp there
      refine free ⟨y, old, ?_⟩
      split at named
      · next same => simpa [Entry.activate, target, same] using named
      · exact named

/-! ### Closures and stations -/

theorem planSound_setClosure {c : ClosureNo} {x : Closure} (moving : (s.closure c).state.moving = true → x.state.moving = true)
    (h : s.planSound) : (s.setClosure c x).planSound := by
  refine planSound_of (s := s) rfl rfl (fun y busy => ?_) h
  cases y with
  | closure d =>
    simp only [State.inHand, State.setClosure_closure] at busy ⊢
    split
    · next same => exact moving (same ▸ busy)
    · exact busy
  | _ => exact busy

/-- A change of a closure's state is its write, with record, report and fault, and the end of its work (R104, R117). -/
theorem State.moveClosure_cases (c : ClosureNo) (st : ClosureState) (dir : Direction) (o : ReleaseOrigin)
    (f : Closure → Closure) : s.moveClosure c st dir o f = s ∨ ∃ x u, x.state = st ∧ KeptBut faultBlocks (s.setClosure c x) u ∧
      s.moveClosure c st dir o f =
        if (s.closure c).state.moving && !st.moving then u.endActivity (.closure c) else u := by
  unfold State.moveClosure
  dsimp only
  split
  · exact .inl rfl
  · refine .inr ⟨{ f (s.closure c) with state := st, direction := dir, hold := holdFor st dir, entered := s.uptime }, _,
      rfl, ?_, rfl⟩
    have noted (u : State) (q : Queue) (d : Detail) : KeptBut faultBlocks u (u.objEvent q .closure 0x46 (.closure c) d) :=
      (u.objEvent_kept _ _ _ _ _).mono (by decide)
    exact (noted _ _ _).trans (.ite (State.raiseFault_kept _ _ _) (.ite (State.clearFault_kept _ _ _) (.refl _ _)))

theorem planSound_moveClosure {c : ClosureNo} {st : ClosureState} {dir : Direction} {o : ReleaseOrigin}
    {f : Closure → Closure} (h : s.planSound) : (s.moveClosure c st dir o f).planSound := by
  obtain same | ⟨x, u, state, kept, eq⟩ := s.moveClosure_cases c st dir o f
  · rwa [same]
  have hands (y : Target) : u.inHand y = (s.setClosure c x).inHand y :=
    State.inHand_congr (kept .stations (by decide)) (kept .closures (by decide)) y
  have others (y : Target) (other : y ≠ .closure c) : u.inHand y = s.inHand y := by
    rw [hands]
    cases y with
    | closure d =>
      have ne : c ≠ d := by rintro rfl; exact other rfl
      simp only [State.inHand, State.setClosure_closure, if_neg ne]
    | _ => rfl
  have dis : u.dis = s.dis := kept .disablements (by decide)
  have service : u.service = s.service := kept .service (by decide)
  rw [eq]
  split
  · exact planSound_endActivity s dis service (fun y other busy => (others y other).trans busy) h
  · next ends =>
    refine planSound_of dis service (fun y busy => ?_) h
    by_cases same : y = .closure c
    · subst same
      rw [hands]
      have before : (s.closure c).state.moving = true := busy
      simpa [State.inHand, state, before] using ends
    · rwa [others y same]

theorem PlantMoves.planSound (h : PlantMoves s t) (start : s.planSound) : t.planSound := by
  refine h.keeps (P := State.planSound) (fun u v move hu => ?_) start
  cases move with
  | log same =>
    exact planSound_of_same (same .disablements (by decide)) (same .service (by decide)) (same .stations (by decide))
      (same .closures (by decide)) hu
  | enter | replaceCause => exact hu
  | lineFault n f r => exact planSound_of_same (by simp) (by simp) (by simp) (by simp) hu
  | origin c o => exact planSound_setClosure id hu
  | moveClosure => exact planSound_moveClosure hu

theorem planSound_setStation {n : LineNo} {x : Station} (listed : (s.station n).windows ≠ [] → x.windows ≠ [])
    (h : s.planSound) : (s.setStation n x).planSound := by
  refine planSound_of (s := s) rfl rfl (fun y busy => ?_) h
  cases y with
  | station m =>
    simp only [State.inHand, State.setStation_station] at busy ⊢
    split
    · next same =>
      have some : (s.station n).windows ≠ [] := by subst same; simpa using busy
      simpa using listed some
    · exact busy
  | _ => exact busy

theorem planSound_afterInsert {n : LineNo} (h : s.planSound) : (s.afterInsert n).planSound := by
  unfold State.afterInsert
  split
  · exact planSound_setStation id h
  · split
    · exact planSound_setStation id h
    · exact h

theorem planSound_offerWindow {n : LineNo} {w : Window} (h : s.planSound) : (s.offerWindow n w).planSound := by
  unfold State.offerWindow
  dsimp only
  split
  · exact planSound_setStation id h
  · exact planSound_afterInsert (planSound_setStation (fun _ => insertWindow_ne_nil s.uptime w _) h)

/-- The first window of a list gone (R40): the write of the station, its record, and the end of its work (R52). -/
theorem State.endWindow_cases (n : LineNo) : s.endWindow n = s ∨ ∃ w rest x u, (s.station n).windows = w :: rest ∧
    x.windows = rest ∧ KeptBut [.history] (s.setStation n x) u ∧
    s.endWindow n = if rest.isEmpty then u.endActivity (.station n) else u := by
  unfold State.endWindow
  dsimp only
  split
  · exact .inl rfl
  · next w rest list =>
    refine .inr ⟨w, rest, { s.station n with
      windows := rest, valveOn := false, valve := if rest.isEmpty then .closed else .armed, outputOn := none,
      confirmTimer := none }, _, list, rfl, ?_, rfl⟩
    split
    all_goals
      split
      · exact State.record_kept _ _ _ _ _
      · exact .refl _ _

theorem planSound_endWindow {n : LineNo} (h : s.planSound) : (s.endWindow n).planSound := by
  obtain same | ⟨w, rest, x, u, list, windows, kept, eq⟩ := s.endWindow_cases n
  · rwa [same]
  have hands (y : Target) : u.inHand y = (s.setStation n x).inHand y :=
    State.inHand_congr (kept .stations (by decide)) (kept .closures (by decide)) y
  have others (y : Target) (other : y ≠ .station n) : u.inHand y = s.inHand y := by
    rw [hands]
    cases y with
    | station m =>
      have ne : n ≠ m := by rintro rfl; exact other rfl
      simp only [State.inHand, State.setStation_station, if_neg ne]
    | _ => rfl
  have dis : u.dis = s.dis := kept .disablements (by decide)
  have service : u.service = s.service := kept .service (by decide)
  rw [eq]
  split
  · exact planSound_endActivity s dis service (fun y other busy => (others y other).trans busy) h
  · next more =>
    refine planSound_of dis service (fun y busy => ?_) h
    by_cases same : y = .station n
    · subst same
      rw [hands]
      simpa [State.inHand, windows] using more
    · rwa [others y same]

theorem planSound_reopen {c : ClosureNo} (h : s.planSound) : (s.reopen c).planSound := by
  have cleared : KeptBut faultBlocks s (forEach closureFaults (fun f u => u.clearFault (.closure c) f) s) :=
    forEach_kept (fun f u => u.clearFault_kept (.closure c) f) closureFaults s
  have start : (forEach closureFaults (fun f u => u.clearFault (.closure c) f) s).planSound :=
    planSound_of_same (cleared .disablements (by decide)) (cleared .service (by decide)) (cleared .stations (by decide))
      (cleared .closures (by decide)) h
  have ready (u : State) (hu : u.planSound) : (u.makeReady c).planSound := by
    unfold State.makeReady State.holdOpen
    dsimp only
    split
    · exact planSound_moveClosure (planSound_moveClosure hu)
    · exact planSound_moveClosure hu
  refine ready _ (planSound_setClosure ?_ start)
  rw [State.closure_congr (cleared .closures (by decide))]
  exact id

/-! ### The table itself -/

/-- The entry a confirmation creates: ACTIVE at once, with its limit running, unless its owner has work in hand (R143). -/
theorem State.newEntry_sound (p : Prepare) (short : p.limit ≤ 1440) : (s.newEntry p).target = p.target ∧
    ((s.newEntry p).limit ≤ 1440 ∧ ((s.newEntry p).expiry ≠ none ↔ (s.newEntry p).activated ≠ none ∧ (s.newEntry p).limit ≠ 0)) ∧
    ((s.newEntry p).activated = none → s.inHand p.target = true) := by
  unfold State.newEntry
  dsimp only
  split
  · next busy => exact ⟨rfl, ⟨short, by simp⟩, fun _ => busy⟩
  · by_cases zero : p.limit = 0 <;> simp [Entry.activate, short, zero]

theorem planSound_create {p : Prepare} (prepared : s.dis.prepare = some p) (h : s.planSound) :
    { s with dis := { s.dis with prepare := none, entries := s.dis.entries ++ [s.newEntry p] } }.planSound := by
  obtain ⟨table, prepare⟩ := h
  obtain ⟨-, -, free, short, room⟩ := prepare p prepared
  obtain ⟨target, limit, pending⟩ := s.newEntry_sound p short
  refine ⟨tableSound_iff.mpr ?_, fun q outstanding => by simp at outstanding⟩
  refine (tableSound_iff.mp table).append room (fun e mem named => ?_) limit fun idle => ?_
  · rw [Bool.eq_false_iff, Ne, State.hasEntry_iff] at free
    exact free ⟨e, mem, named.trans target⟩
  · rw [target]
    exact pending idle

theorem planSound_remove (x : Target) (h : s.planSound) :
    { s with dis := { s.dis with entries := s.dis.entries.filter fun e => e.target ≠ x } }.planSound := by
  obtain ⟨table, prepare⟩ := h
  refine ⟨tableSound_iff.mpr ((tableSound_iff.mp table).filter _), fun p outstanding => ?_⟩
  obtain ⟨on, clear, free, short, room⟩ := prepare p outstanding
  refine ⟨on, clear, ?_, short, (List.length_filter_le _ _).trans_lt room⟩
  rw [Bool.eq_false_iff, Ne, State.hasEntry_iff] at free ⊢
  exact fun ⟨e, mem, named⟩ => free ⟨e, List.mem_of_mem_filter mem, named⟩

theorem start_dis (restart : Bool) (kind : Byte) (source : StartSource) :
    ((s.startBlocks restart).announce kind source).dis = ⟨[], none, false⟩ :=
  (State.announce_kept _ kind source .disablements (by decide)).trans
    (forAll_kept (l := [.lines]) (fun n t => t.startBlind_kept n) _ .disablements (by decide))

theorem planSound_start (restart : Bool) (kind : Byte) (source : StartSource) :
    ((s.startBlocks restart).announce kind source).planSound := by
  have dis := start_dis (s := s) restart kind source
  refine ⟨tableSound_iff.mpr ?_, fun p outstanding => by simp [dis] at outstanding⟩
  rw [dis]
  exact ⟨by simp, by simp, by simp, by simp⟩

theorem Change.planSound {k : ChangeKind} (change : Change k s t) (h : s.planSound) : t.planSound := by
  by_cases untouched : Block.disablements ∉ k.blocks ∧ Block.service ∉ k.blocks ∧ Block.stations ∉ k.blocks ∧
      Block.closures ∉ k.blocks
  · obtain ⟨dis, service, stations, closures⟩ := untouched
    exact planSound_of_same (change.kept .disablements dis) (change.kept .service service)
      (change.kept .stations stations) (change.kept .closures closures) h
  by_cases plant : k ∈ [.lineMove, .lineFault, .closureMove]
  · exact (change.moves plant).planSound h
  obtain ⟨table, prepare⟩ := h
  cases change with
  | turnOn n => exact planSound_setStation id ⟨table, prepare⟩
  | offerWindow n w => exact planSound_offerWindow ⟨table, prepare⟩
  | endWindow n => exact planSound_endWindow ⟨table, prepare⟩
  | wconfOn | wconfOff | wconf => exact planSound_setStation id ⟨table, prepare⟩
  | waterMissed n =>
    exact planSound_of_same (by simp) (by simp) (by simp) (by simp)
      (planSound_setStation (n := n) (x := { s.station n with confirmTimer := none }) id ⟨table, prepare⟩)
  | waterReset n => exact planSound_of_same (by simp) (by simp) (by simp) (by simp) ⟨table, prepare⟩
  | liftOff | fstopOff | gopen => exact ⟨table, prepare⟩
  | liftStopped n => exact (s.moveLine_rest n _ _ _).planSound ⟨table, prepare⟩
  | fstopOn n => exact (s.fstopOn_moves n).planSound ⟨table, prepare⟩
  | reopen c locked => exact planSound_reopen ⟨table, prepare⟩
  | limit c l b => exact planSound_setClosure (by cases l <;> exact id) ⟨table, prepare⟩
  | prepare x limit service latch free room short =>
    refine ⟨table, fun p outstanding => ?_⟩
    obtain rfl : _ = p := by simpa using outstanding
    exact ⟨service, latch, free, short, room⟩
  | latch b => exact ⟨table, fun p outstanding => by simp at outstanding⟩
  | unlatch latch => exact ⟨table, fun p outstanding => absurd (prepare p outstanding).2.1 (by simp [latch])⟩
  | discard => exact ⟨table, fun p outstanding => by simp at outstanding⟩
  | create p prepared => exact planSound_create prepared ⟨table, prepare⟩
  | remove x => exact planSound_remove x ⟨table, prepare⟩
  | serviceOn => exact ⟨table, fun p outstanding => ⟨rfl, (prepare p outstanding).2⟩⟩
  | serviceOff => exact ⟨table, fun p outstanding => by simp at outstanding⟩
  | powerOn | restart => exact planSound_start _ _ _
  | _ => simp [ChangeKind.blocks, sectorBlocks, faultBlocks, lineBlocks] at untouched plant

/-- Settles O57: an entry is created only for a target without one and with room for it, and every end of an owner's work
activates the entry that waits for it. -/
theorem disablementTableStaysInOrder : Obligations.DisablementTableStaysInOrder := by
  intro s t run table prepare
  exact step_keeps (P := State.planSound) run ⟨table, prepare⟩ (fun _ _ _ hu => hu) (fun _ hu => hu)
    fun _ _ _ run hu => (exec_path run).keeps (P := State.planSound) (fun _ _ _ _ change hv => change.planSound hv) hu

end Sys2Proof.Machine
end

