-- ==== Sys2Proof/Proofs/CauseList.lean ====
section
/-! The cause list after a raise, a removal and a silencing: the record each source holds, and that the list keeps one
sound record per source. -/

namespace Sys2Proof.Machine

set_option Elab.async false -- one declaration after another: the check bounds the threads waiting on one another

variable {s t : State}

/-! ### The record of a source -/

theorem State.causeOf_congr (same : t.causes = s.causes) (src : Source) : t.causeOf src = s.causeOf src := by
  simp only [State.causeOf, same]

theorem find?_source_map {l : List Cause} {f : Cause → Cause} (source : ∀ r, (f r).source = r.source) (src : Source) :
    (l.map f).find? (fun r => r.source = src) = (l.find? fun r => r.source = src).map f := by
  rw [List.find?_map]
  simp only [Function.comp_def, source]

theorem State.causeOf_source {src : Source} {r : Cause} (found : s.causeOf src = some r) : r.source = src := by
  simpa using List.find?_some found

theorem State.causeOf_mem {src : Source} {r : Cause} (found : s.causeOf src = some r) : r ∈ s.causes :=
  List.mem_of_find?_eq_some found

theorem State.causeOf_none {src : Source} (none : s.causeOf src = none) : ∀ r ∈ s.causes, r.source ≠ src := by
  simpa [State.causeOf] using none

/-- The record of a source in a list where only the source's own record is changed, if at all. -/
theorem find?_source_map_of_ne {l : List Cause} {f : Cause → Cause} {src other : Source} (source : ∀ r, (f r).source = r.source)
    (rest : ∀ r, r.source ≠ src → f r = r) (ne : other ≠ src) :
    (l.map f).find? (fun r => r.source = other) = l.find? fun r => r.source = other := by
  rw [find?_source_map source]
  cases found : l.find? fun r => r.source = other with
  | none => rfl
  | some r =>
    have named : r.source = other := by simpa using List.find?_some found
    rw [Option.map_some, rest r (by rw [named]; exact ne)]

theorem Cause.risen_source (r : Cause) (src : Source) (l : Level) (hold : Option Instant) (now : Instant) :
    (r.risen src l hold now).source = r.source := rfl

/-- A raise leaves every other source's record. -/
theorem State.raisedCauses_of_ne {src other : Source} (ne : other ≠ src) (z : ZoneNo) (l : Level)
    (hold : Option Instant) :
    (s.raisedCauses src z l hold).find? (fun r => r.source = other) = s.causeOf other := by
  unfold State.raisedCauses
  split
  · rw [List.find?_append]
    simp [State.causeOf, Ne.symm ne]
  · next r found =>
    have named := State.causeOf_source found
    split
    · refine find?_source_map_of_ne (src := src) (fun x => ?_) (fun x away => if_neg away) ne
      split
      · next same => exact named.trans same.symm
      · rfl
    · refine find?_source_map_of_ne (src := src) (fun x => ?_) (fun x away => if_neg away) ne
      split <;> rfl

/-- The record a source holds after a raise (R81). -/
theorem State.raisedCauses_self (src : Source) (z : ZoneNo) (l : Level) (hold : Option Instant) :
    (s.raisedCauses src z l hold).find? (fun r => r.source = src) = some (match s.causeOf src with
      | none => ⟨src, z, l, latchedFor src l, s.uptime, s.uptime, 0, hold⟩
      | some r => if r.level.rank < l.rank then r.risen src l hold s.uptime
        else { r with changed := s.uptime, hold := hold }) := by
  unfold State.raisedCauses
  cases found : s.causeOf src with
  | none =>
    rw [List.find?_append, show s.causes.find? (fun r => r.source = src) = none from found]
    simp
  | some r =>
    have named := State.causeOf_source found
    have held : s.causes.find? (fun r => r.source = src) = some r := found
    dsimp only
    split
    · next higher =>
      rw [find?_source_map (fun x => by split <;> simp_all [Cause.risen_source]), held]
      simp [named]
    · next lower =>
      rw [find?_source_map (fun x => by split <;> rfl), held]
      simp [named]

theorem find?_source_filter {l : List Cause} (src other : Source) :
    (l.filter fun r => r.source ≠ src).find? (fun r => r.source = other) =
      if other = src then none else l.find? fun r => r.source = other := by
  rw [List.find?_filter]
  split
  · next same => simp [same]
  · next ne =>
    congr 1
    funext r
    by_cases named : r.source = other <;> simp [named, ne]

/-! ### One sound record per source -/

/-- The list holds at most one record per source, each as its source makes it (R80 to R85). -/
def causeListSound (l : List Cause) : Prop := (l.map (·.source)).Nodup ∧ ∀ r ∈ l, r.sound

theorem causesSound_iff : s.causesSound ↔ causeListSound s.causes := Iff.rfl

section
variable {l : List Cause}

theorem causeListSound.filter (h : causeListSound l) (p : Cause → Bool) : causeListSound (l.filter p) :=
  ⟨h.1.sublist (List.filter_sublist.map _), fun r mem => h.2 r (List.mem_of_mem_filter mem)⟩

theorem causeListSound.map (h : causeListSound l) {f : Cause → Cause} (source : ∀ r ∈ l, (f r).source = r.source)
    (sound : ∀ r ∈ l, r.sound → (f r).sound) : causeListSound (l.map f) := by
  constructor
  · have same : (l.map f).map (·.source) = l.map (·.source) := by
      rw [List.map_map]
      exact List.map_congr_left source
    rw [same]
    exact h.1
  · intro x mem
    obtain ⟨r, there, rfl⟩ := List.mem_map.mp mem
    exact sound r there (h.2 r there)

theorem causeListSound.append (h : causeListSound l) {r : Cause} (fresh : ∀ x ∈ l, x.source ≠ r.source) (sound : r.sound) :
    causeListSound (l ++ [r]) := by
  constructor
  · rw [List.map_append, List.nodup_append]
    exact ⟨h.1, by simp, by simpa using fun x mem => fresh x mem⟩
  · intro x mem
    obtain there | rfl : x ∈ l ∨ x = r := by simpa using mem
    · exact h.2 x there
    · exact sound

end

/-- What a source may raise as its cause: level and hold (R80 to R85). -/
def Source.allows (src : Source) (l : Level) (hold : Option Instant) : Prop :=
  match src with
  | .detector _ => l = .spark ∧ hold ≠ none
  | .fireInput _ | .line _ => (l = .alert ∨ l = .fire) ∧ hold = none
  | .station _ => l = .alert ∧ hold = none

theorem State.mayRaise.allows {src : Source} {l : Level} {hold : Option Instant} (may : s.mayRaise src l hold) :
    src.allows l hold := by
  cases src with
  | detector | station | line => exact may
  | fireInput f => exact ⟨may.1, may.2.1⟩

theorem Cause.sound_new {src : Source} {l : Level} {hold : Option Instant} (allowed : src.allows l hold) (z : ZoneNo)
    (raised changed : Instant) (silenced : SectorSet) :
    (⟨src, z, l, latchedFor src l, raised, changed, silenced, hold⟩ : Cause).sound := by
  cases src with
  | detector | station => exact ⟨allowed.1, rfl, allowed.2⟩
  | fireInput => exact ⟨allowed.1, by simp [latchedFor], allowed.2⟩
  | line => exact ⟨allowed.1, rfl, allowed.2⟩

theorem Cause.sound.risen {r : Cause} {l : Level} {hold : Option Instant} (allowed : r.source.allows l hold)
    (higher : r.level.rank < l.rank) (h : r.sound) (now : Instant) : (r.risen r.source l hold now).sound := by
  obtain ⟨src, z, level, latched, raised, changed, silenced, held⟩ := r
  cases src with
  | detector => exact absurd higher (by simp_all [Cause.sound, Source.allows])
  | station => exact absurd higher (by simp_all [Cause.sound, Source.allows])
  | fireInput =>
    obtain ⟨level, latch, -⟩ := h
    obtain ⟨raised, none⟩ := allowed
    refine ⟨raised, ?_, none⟩
    obtain rfl | rfl := level <;> obtain rfl | rfl := raised <;> simp_all [Cause.risen, latchedFor, Level.rank]
  | line =>
    obtain ⟨-, latch, -⟩ := h
    exact ⟨allowed.1, by simpa [Cause.risen] using .inl latch, allowed.2⟩

theorem Cause.sound.refreshed {r : Cause} {l : Level} {hold : Option Instant} (allowed : r.source.allows l hold)
    (h : r.sound) (now : Instant) : ({ r with changed := now, hold := hold } : Cause).sound := by
  obtain ⟨src, z, level, latched, raised, changed, silenced, held⟩ := r
  cases src with
  | detector | station => exact ⟨h.1, h.2.1, allowed.2⟩
  | fireInput | line => exact ⟨h.1, h.2.1, allowed.2⟩

/-- A raise keeps one sound record per source (R81). -/
theorem causesSound_raised {src : Source} {l : Level} {hold : Option Instant} (allowed : src.allows l hold) (z : ZoneNo)
    (h : s.causesSound) : causeListSound (s.raisedCauses src z l hold) := by
  have list := causesSound_iff.mp h
  unfold State.raisedCauses
  split
  · next none =>
    exact list.append (State.causeOf_none none) (Cause.sound_new allowed z _ _ _)
  · next r found =>
    have named := State.causeOf_source found
    have own (x : Cause) (mem : x ∈ s.causes) (same : x.source = src) : x = r :=
      List.inj_on_of_nodup_map list.1 mem (State.causeOf_mem found) (same.trans named.symm)
    split
    · next higher =>
      refine list.map (fun x mem => ?_) fun x mem sound => ?_
      · split
        · next same => exact (Cause.risen_source ..).trans (named.trans same.symm)
        · rfl
      · split
        · subst named
          exact (list.2 r (State.causeOf_mem found)).risen allowed higher _
        · exact sound
    · refine list.map (fun x mem => ?_) fun x mem sound => ?_
      · split <;> rfl
      · split
        · next same =>
          subst same
          exact sound.refreshed allowed _
        · exact sound

theorem causesSound_marked (n : SectorNo) (h : s.causesSound) : causeListSound (s.markedCauses n) := by
  refine (causesSound_iff.mp h).map (fun x mem => ?_) fun x mem sound => ?_
  · split <;> rfl
  · split
    · exact sound
    · exact sound

theorem start_causes (restart : Bool) (kind : Byte) (source : StartSource) :
    ((s.startBlocks restart).announce kind source).causes = [] :=
  (State.announce_kept _ kind source .causes (by decide)).trans
    (forAll_kept (l := [.lines]) (fun n t => t.startBlind_kept n) _ .causes (by decide))

/-- Every change but the re-entry of a line's cause at a restart keeps one sound record per source. -/
theorem Change.causesSound {k : ChangeKind} (change : Change k s t) (other : k ≠ .reentry) (h : s.causesSound) :
    t.causesSound := by
  by_cases untouched : Block.causes ∉ k.blocks
  · rw [causesSound_iff, (change.kept .causes untouched : t.causes = s.causes)]
    exact h
  cases change with
  | raise src z l hold may => exact causesSound_raised may.allows z h
  | drop src => exact (causesSound_iff.mp h).filter _
  | mark n => exact causesSound_marked n h
  | reentry => simp at other
  | powerOn | restart =>
    rw [causesSound_iff, start_causes]
    exact ⟨List.nodup_nil, by simp⟩
  | _ => simp [ChangeKind.blocks, sectorBlocks, faultBlocks, lineBlocks, closureBlocks] at untouched

end Sys2Proof.Machine
end

