-- ==== Sys2Proof/Proofs/LinkSteps.lean ====
section
/-! The message link (chapter 9): the step of a waiting command, the taking of a request, the receiver, the judging of a
frame, and the transmitter's choice. -/

namespace Sys2Proof.Machine

set_option Elab.async false -- one declaration after another: the check bounds the threads waiting on one another

variable {s : State}

/-! ### Steps -/

/-- Settles O1. -/
theorem stepRunsFrontCommand : Obligations.StepRunsFrontCommand := by
  intro c rest s waiting
  simp only [step, waiting]

theorem State.nextDue_mem (due : s.due ≠ []) : ∃ c ∈ s.due, s.nextDue = some c := by
  unfold State.nextDue
  split
  · next none => exact absurd none due
  · next c one => exact ⟨c, by simp [one], rfl⟩
  · have inside : Config.freeChoice s.freeCount % s.due.length < s.due.length :=
      Nat.mod_lt _ (List.length_pos_iff.mpr due)
    exact ⟨_, List.getElem_mem inside, List.getElem?_eq_getElem inside⟩

theorem State.advance_clock : s.advance.uptime.toNat * 10 + s.advance.tenth.val =
    (s.uptime.toNat * 10 + s.tenth.val + 1) % (2 ^ 32 * 10) := by
  have low := s.tenth.isLt
  have high := s.uptime.isLt
  by_cases last : s.tenth = 9
  · have nine : s.tenth.val = 9 := congrArg Fin.val last
    simp only [State.advance, last, if_true, BitVec.toNat_add]
    simp
    omega
  · have less : s.tenth.val < 9 := by
      have ne : s.tenth.val ≠ 9 := fun same => last (Fin.ext same)
      omega
    have next : (s.tenth + 1).val = s.tenth.val + 1 := by
      rw [Fin.val_add_one_of_lt' (by omega)]
    simp only [State.advance, last, if_false, next]
    omega

/-- Settles O2: with nothing due the clock and the widths of lit pulses advance; otherwise one of the commands due is
run. -/
theorem emptyQueueLetsTimeOrADueEventPass : Obligations.EmptyQueueLetsTimeOrADueEventPass := by
  intro s empty
  refine ⟨fun none => ⟨s.advance, ?_, ?_, State.advance_clock, fun d => ?_⟩, fun due => ?_⟩
  · simp only [step, empty, idle, State.nextDue, none]
  · intro b hb
    cases b <;> simp_all [Block.same, State.advance]
  · simp only [State.det, State.advance, getElem_tabulate]
    rfl
  · obtain ⟨c, mem, next⟩ := State.nextDue_mem due
    exact ⟨c, mem, by simp only [step, empty, idle, next]⟩

/-! ### The taking of a request -/

/-- The command of a message is the row of its request, decided by an owner where its length is the kind's, or, where its
kind names no request, the row UNKNOWN_KIND. -/
theorem decodeRequest_cases (kind : Byte) (p : Payload) :
    (∃ owner, ∀ s, exec (decodeRequest kind p) s = request kind p owner s) ∨
      (requestLength kind = none ∧ decodeRequest kind p = .unknownKind kind p) := by
  have named : BitVec.ofNat 8 kind.toNat = kind := by simp
  unfold decodeRequest
  split
  case h_28 =>
    refine .inr ⟨?_, rfl⟩
    unfold requestLength
    split <;> trivial
  all_goals
    next code =>
    rw [code] at named
    subst named
    exact .inl ⟨_, fun _ => rfl⟩

/-- A request that cannot be taken now is offered to the buffer (R155, R156). -/
theorem exec_decodeRequest_offered {kind : Byte} {p : Payload} (waits : s.link.claim (.request kind p) = none) :
    exec (decodeRequest kind p) s = .next (s.withLink (s.link.offer (.request kind p))).settle := by
  obtain ⟨owner, decides⟩ | ⟨none, unknown⟩ := decodeRequest_cases kind p
  · rw [decides, request_offered waits]
  · rw [unknown]
    exact (if_neg (by simp [none])).trans (take_offered waits)

/-- A request of another length than its kind's is refused without asking its owner (R156). -/
theorem exec_decodeRequest_badLength {kind : Byte} {p : Payload} {k : Link} {len : Nat}
    (taken : s.link.claim (.request kind p) = some k) (known : requestLength kind = some len) (wrong : p.length ≠ len) :
    exec (decodeRequest kind p) s = .next ((s.withLink k).answered (refusedFrame kind .badLength len)) := by
  obtain ⟨owner, decides⟩ | ⟨none, -⟩ := decodeRequest_cases kind p
  · rw [decides, request, take_claimed taken]
    simp only [known, Option.getD_some, wrong, if_false]
  · simp [known] at none

/-- A kind that names no request is refused by the link (R156). -/
theorem exec_unknownKind_claimed {kind : Byte} {p : Payload} {k : Link} (none : requestLength kind = none)
    (taken : s.link.claim (.request kind p) = some k) :
    exec (.unknownKind kind p) s = .next ((s.withLink k).answered (unknownAnswer kind)) :=
  (if_neg (by simp [none])).trans (take_claimed taken)

theorem Link.claim_eq_none_of_busy {k : Link} (e : Inbound) (busy : k.slot ≠ none ∨ k.restartPending = true) :
    k.claim e = none := by
  unfold Link.claim Link.mayTake
  rw [if_neg]
  simpa [Option.isNone_iff_eq_none, or_iff_not_imp_left] using busy

section
variable {k : Link} (e : Inbound) (slot : k.slot = none) (restart : k.restartPending = false)
include slot restart

theorem Link.mayTake_of_free : k.mayTake = true := by
  simp [Link.mayTake, slot, restart]

theorem Link.claim_of_empty (empty : k.buffer = []) : k.claim e = some k := by
  simp [Link.claim, Link.mayTake_of_free slot restart, empty]

theorem Link.claim_of_oldest {rest : List Inbound} (oldest : k.buffer = e :: rest) : k.claim e = some k.pop := by
  simp [Link.claim, Link.mayTake_of_free slot restart, oldest]

theorem Link.claim_of_later {o : Inbound} {rest : List Inbound} (held : k.buffer = o :: rest) (other : o ≠ e) :
    k.claim e = none := by
  simp [Link.claim, Link.mayTake_of_free slot restart, held, other]

end

/-- Settles O5: the taking by the slot, the pending restart and the buffer, and the offer to the buffer of what cannot be
taken. -/
theorem requestTakenInTurnOrBuffered : Obligations.RequestTakenInTurnOrBuffered := by
  intro kind p s e k
  refine ⟨Link.claim_eq_none_of_busy e, fun slot restart => ?taken, fun waits three released => ?hold,
    fun waits room other => ?buffered, fun waits full => ?lost⟩
  case taken =>
    refine ⟨Link.claim_of_empty e slot restart, fun o rest => Link.claim_of_later e slot restart,
      fun rest held falls => ?_, fun rest held stays => ?_⟩
    · rw [Link.claim_of_oldest e slot restart held, Link.pop_cons held, if_pos falls]
    · rw [Link.claim_of_oldest e slot restart held, Link.pop_cons held, if_neg stays]
  case hold =>
    rw [exec_decodeRequest_offered waits]
    obtain ⟨full, -⟩ | ⟨-, other, -⟩ | ⟨-, -, offered⟩ := Link.offer_cases k e
    · omega
    · exact absurd ⟨three, released⟩ other
    · rw [← offered]
  case buffered =>
    rw [exec_decodeRequest_offered waits]
    obtain ⟨full, -⟩ | ⟨-, -, offered⟩ | ⟨three, released, -⟩ := Link.offer_cases k e
    · omega
    · rw [← offered]
    · exact absurd ⟨three, released⟩ other
  case lost =>
    rw [exec_decodeRequest_offered waits]
    obtain ⟨-, offered⟩ | ⟨room, -⟩ | ⟨three, -⟩ := Link.offer_cases k e
    · rw [show s.link.offer (.request kind p) = s.link from offered]
      rfl
    · omega
    · omega

/-- Settles O6: the refusals of the link itself. -/
theorem linkRefusesErrorsUnknownKindsAndLengths : Obligations.LinkRefusesErrorsUnknownKindsAndLengths := by
  intro s k kind p
  refine ⟨fun taken => ?error, fun taken => ⟨fun none hold go => ?unknown, fun flow => ?flow,
    fun len known wrong => ?length⟩⟩
  case error => exact take_claimed (answer := fun u => (u, refusedFrame 0 .frameError 0)) taken
  case unknown =>
    rw [exec_unknownKind_claimed none taken, unknownAnswer, flowOf, if_neg hold, if_neg go]
    rfl
  case flow =>
    obtain rfl | rfl := flow
    · exact exec_unknownKind_claimed rfl taken
    · exact exec_unknownKind_claimed rfl taken
  case length => exact exec_decodeRequest_badLength taken known wrong

/-! ### The transmitter's time -/

theorem Frame.tenths_le_iff (f : Frame) (n : Nat) : f.tenths ≤ n ↔ 125 * (f.payload.length + 5) ≤ 144 * n := by
  unfold Frame.tenths Frame.len
  omega

theorem State.sent_iff {x : Sending} (sending : s.link.sending = some x) :
    s.sent = true ↔ 125 * (x.frame.payload.length + 5) ≤ 144 * s.tenthsSince x.begun := by
  simp only [State.sent, sending, decide_eq_true_eq, Frame.tenths_le_iff]

/-- Settles O11. -/
theorem frameEndChoosesNextOrRestarts : Obligations.FrameEndChoosesNextOrRestarts := by
  intro s x sending
  have reply : s.link.restartReply = (s.link.restartPending && x.frame.kind == 0x84) := by
    simp only [Link.restartReply, sending]
  refine ⟨fun early => ?_, fun ended => ⟨fun other => ?_, fun pending answered => ?_⟩⟩
  · have unsent : ¬s.sent = true := by
      rw [State.sent_iff sending]
      omega
    exact if_neg unsent
  · have none : ¬s.link.restartReply = true := by
      rw [reply]
      obtain off | kind := other
      · simp [off]
      · simpa using fun _ => kind
    exact (if_pos ((State.sent_iff sending).mpr ended)).trans (if_neg none)
  · have due : s.link.restartReply = true := by simp [reply, pending, answered]
    exact (if_pos ((State.sent_iff sending).mpr ended)).trans (if_pos due)

/-! ### Events of note -/

theorem Obj.num_le (o : Obj) : o.num ≤ 24 := by
  cases o <;> simp [Obj.num, number] <;> omega

/-- Settles O14. -/
theorem eventsAreRecordedAndReported : Obligations.EventsAreRecordedAndReported := by
  intro s q k rk o d t r f
  have num : byteOf o.num = BitVec.ofNat 8 o.num := byteOf_of_le (o.num_le.trans (by decide))
  have record : r = ⟨s.history.next, s.uptime, k, o.kindCode, byteOf o.num, d⟩ := by rw [num]
  have report : f = ⟨rk, reportPayload s.uptime o.kindCode (byteOf o.num) d⟩ := by rw [num]; rfl
  rw [record, report]
  refine ⟨State.objEvent_kept s q k rk o d, rfl, History.add_records_of_room _ _ _ _ _ _,
    History.add_records_of_full _ _ _ _ _ _, ?_, ?_⟩
  · rintro rfl
    rfl
  · rintro rfl
    rfl

end Sys2Proof.Machine
end

