-- ==== Sys2Proof/Proofs/Receiver.lean ====
section
/-! The receiver (R153 to R155, R158): what one character does in each phase, what becomes of a complete frame, and the
way of a request's characters through the phases. -/

namespace Sys2Proof.Machine

set_option Elab.async false -- one declaration after another: the check bounds the threads waiting on one another

variable {s : State} {k : Link} {c : Byte} {now : Stamp} {fault : Bool}

/-! ### One character -/

/-- The receiver in another phase, with the present character as its last. -/
def Link.inPhase (k : Link) (r : Receiver) (now : Stamp) : Link := { k with receiver := r, lastChar := some now }

@[simp] theorem Link.inPhase_receiver (r : Receiver) : (k.inPhase r now).receiver = r := rfl

@[simp] theorem Link.inPhase_inPhase (r q : Receiver) (before : Stamp) :
    (k.inPhase r before).inPhase q now = k.inPhase q now := rfl

@[simp] theorem Link.inPhase_complete (r : Receiver) (body : Payload) (check : BitVec 16) :
    (k.inPhase r now).complete body check = k.complete body check := rfl

theorem Link.receive_hunt (phase : k.receiver = .hunt) :
    k.receive c now fault = if c = 0xC3 then k.inPhase .length now else k := by
  simp only [Link.receive, Link.inPhase, phase]

theorem Link.receive_length (phase : k.receiver = .length) (fits : 1 ≤ c.toNat ∧ c.toNat ≤ 121) :
    k.receive c now fault = k.inPhase (.body c.toNat [] fault) now := by
  simp only [Link.receive, Link.inPhase, phase, fits, and_self, if_true]

theorem Link.receive_badLength (phase : k.receiver = .length) (bad : ¬(1 ≤ c.toNat ∧ c.toNat ≤ 121)) :
    k.receive c now fault = k.hunt.offer .error := by
  simp only [Link.receive, phase, bad, if_false]

theorem Link.receive_body {len : Nat} {cs : List Byte} {faulty : Bool} (phase : k.receiver = .body len cs faulty) :
    k.receive c now fault = k.inPhase (if cs.length + 1 < len then .body len (cs ++ [c]) (faulty || fault)
      else .check (cs ++ [c]) none (faulty || fault)) now := by
  simp only [Link.receive, Link.inPhase, phase, List.length_append, List.length_cons, List.length_nil, Nat.zero_add]
  split <;> rfl

theorem Link.receive_firstCheck {cs : List Byte} {faulty : Bool} (phase : k.receiver = .check cs none faulty) :
    k.receive c now fault = k.inPhase (.check cs (some c) (faulty || fault)) now := by
  simp only [Link.receive, Link.inPhase, phase]

theorem Link.receive_lastCheck {cs : List Byte} {first : Byte} {faulty : Bool}
    (phase : k.receiver = .check cs (some first) faulty) :
    k.receive c now fault = if (faulty || fault) = true then k.hunt.offer .error else k.complete cs (first ++ c) := by
  simp only [Link.receive, phase]

/-! ### The gap -/

theorem State.gapPassed_of_hunt (phase : s.link.receiver = .hunt) : s.gapPassed = false := by
  simp only [State.gapPassed, State.gapTenths, phase]

theorem State.gapTenths_of_frame (phase : s.link.receiver ≠ .hunt) {p : Stamp} (last : s.link.lastChar = some p) :
    s.gapTenths = some (s.tenthsSince p) := by
  unfold State.gapTenths
  split
  · next hunt => exact absurd hunt phase
  · rw [last]
    rfl

theorem exec_characterReceived (c : Received) (s : State) : exec (.characterReceived c) s =
    .next (s.withLink ((if s.gapPassed then s.link.hunt else s.link).receive c.byte s.stamp c.fault)).settle := rfl

/-- A character in time is taken by the receiver as it stands (R153). -/
theorem exec_characterReceived_inTime (c : Received) (inTime : s.gapPassed = false) : exec (.characterReceived c) s =
    .next (s.withLink (s.link.receive c.byte s.stamp c.fault)).settle := by
  rw [exec_characterReceived, inTime]
  rfl

/-- A late character finds the receiver back in HUNT (R153). -/
theorem exec_characterReceived_late (c : Received) (late : s.gapPassed = true) :
    exec (.characterReceived c) s = exec (.characterReceived c) (s.withLink s.link.hunt) := by
  rw [exec_characterReceived, late, exec_characterReceived_inTime c (State.gapPassed_of_hunt rfl)]
  rfl

/-- Settles O7: the receiver phase by phase. -/
theorem receiverGoesThroughItsPhases : Obligations.ReceiverGoesThroughItsPhases := by
  intro c s k to_
  refine ⟨fun hunt => ?hunt, fun frame p last => ?frame⟩
  case hunt =>
    rw [exec_characterReceived_inTime c (State.gapPassed_of_hunt hunt), Link.receive_hunt hunt]
    split <;> rfl
  case frame =>
    have passed : s.gapPassed = decide (200 < s.tenthsSince p) := by
      simp only [State.gapPassed, State.gapTenths_of_frame frame last]
    refine ⟨fun late => exec_characterReceived_late c (by simpa [passed] using late), fun inTime => ?_⟩
    have taken := exec_characterReceived_inTime (s := s) c (by simpa [passed] using inTime)
    refine ⟨fun phase low high => ?_, fun phase bad => ?_, fun len cs faulty phase => ?_, fun cs faulty phase => ?_,
      fun cs first faulty phase => ⟨fun sound good => ?_, fun bad => ?_⟩⟩
    · rw [taken, Link.receive_length phase ⟨low, high⟩]
      rfl
    · rw [taken, Link.receive_badLength phase (by omega)]
    · rw [taken, Link.receive_body phase]
      rfl
    · rw [taken, Link.receive_firstCheck phase]
      rfl
    · rw [taken, Link.receive_lastCheck phase, if_neg (by simp [sound, good])]
      rfl
    · rw [taken, Link.receive_lastCheck phase, if_pos (by simpa using bad)]

/-! ### A complete frame -/

theorem judge_error {body : Payload} {check : BitVec 16}
    (bad : body = [] ∨ 121 < body.length ∨ frameCheck body ≠ check) : judge body check = .error := by
  cases body with
  | nil => rfl
  | cons kind p =>
    unfold judge
    dsimp only
    split
    · rfl
    · next fits =>
      rw [if_pos]
      simp only [Config.maxPayload] at fits
      simpa [show ¬121 ≤ p.length by omega] using bad

theorem judge_request {kind : Byte} {p : Payload} {check : BitVec 16} (fits : p.length ≤ 120)
    (good : frameCheck (kind :: p) = check) (other : ¬(p = [] ∧ (kind = 0x70 ∨ kind = 0x71))) :
    judge (kind :: p) check = .request kind p := by
  unfold judge
  dsimp only
  rw [if_neg (by simpa [Config.maxPayload] using fits), if_neg (by simpa using good)]
  split
  · next f flow =>
    exfalso
    unfold flowOf at flow
    split_ifs at flow <;> simp_all
  · rfl

theorem judge_flow {kind : Byte} {f : Flow} (named : flowOf kind = some f) :
    judge [kind] (frameCheck [kind]) = .flow f := by
  simp [judge, named, Config.maxPayload]

theorem Link.complete_of_error {body : Payload} {check : BitVec 16} (bad : judge body check = .error) :
    k.complete body check = k.hunt.offer .error := by
  simp only [Link.complete, bad, Link.accept]

theorem Link.complete_of_request {body : Payload} {check : BitVec 16} {kind : Byte} {p : Payload}
    (good : judge body check = .request kind p) : k.complete body check = k.hunt.offer (.request kind p) := by
  simp only [Link.complete, good, Link.accept]

theorem exec_inboundFrameComplete (body : Payload) (check : BitVec 16) (s : State) :
    exec (.inboundFrameComplete body check) s = .next (s.withLink (s.link.complete body check)).settle := rfl

/-- Settles O8: the frame judged, the host's flow frames, and the gap. -/
theorem framesAreJudgedWhenComplete : Obligations.FramesAreJudgedWhenComplete := by
  intro body kind p check s k
  have flow {kind : Byte} (f : Flow) (named : flowOf kind = some f) :
      exec (.inboundFrameComplete [kind] (frameCheck [kind])) s = .next (s.withLink (k.hostFlow f)).settle := by
    rw [exec_inboundFrameComplete, Link.complete, judge_flow named]
    rfl
  refine ⟨fun bad => ?_, fun named fits good other => ?_, flow .hold rfl, flow .go rfl, rfl, rfl, fun hunt => ?_, fun frame q last => ?_⟩
  · rw [exec_inboundFrameComplete, Link.complete_of_error (judge_error bad)]
  · subst named
    rw [exec_inboundFrameComplete, Link.complete_of_request (judge_request fits good other)]
  · have still : s.gapOver = false := by simp only [State.gapOver, State.gapTenths, hunt]
    exact if_neg (by simp [still])
  · have passed : s.gapOver = decide (200 ≤ s.tenthsSince q) := by
      simp only [State.gapOver, State.gapTenths_of_frame frame last]
    show (if s.gapOver = true then done (s.withLink s.link.hunt) else done s) = _
    rw [passed]
    by_cases ended : 200 ≤ s.tenthsSince q
    · simp [ended, k]
    · simp [ended]

/-! ### A request's characters -/

/-- The characters of a body, taken one after another with room for all of them, bring the receiver to its check. -/
theorem Link.receive_bodyCharacters {len : Nat} (rest : List Byte) :
    ∀ {k : Link} {cs : List Byte}, k.receiver = .body len cs false → rest ≠ [] → cs.length + rest.length = len →
      rest.foldl (fun k c => k.receive c now) k =
        k.inPhase (.check (cs ++ rest) none false) now := by
  induction rest with
  | nil => exact fun _ some _ => absurd rfl some
  | cons c rest ih =>
    intro k cs phase _ size
    rw [List.foldl_cons, Link.receive_body phase]
    simp only [List.length_cons] at size
    cases rest with
    | nil =>
      have last : ¬cs.length + 1 < len := by simp at size; omega
      rw [if_neg last]
      rfl
    | cons d rest =>
      have more : cs.length + 1 < len := by simp at size; omega
      rw [ih (cs := cs ++ [c]) (by simp [more]) (by simp) (by simp at size ⊢; omega)]
      simp

theorem checkBytes (v : BitVec 16) : v.extractLsb' 8 8 ++ v.extractLsb' 0 8 = v := by
  ext i hi
  simp only [BitVec.getElem_append, BitVec.getElem_extractLsb']
  split
  · simp [BitVec.getLsbD_eq_getElem hi]
  · have back : 8 + (i - 8) = i := by omega
    rw [back, BitVec.getLsbD_eq_getElem hi]

/-- A frame sent to a receiver in HUNT comes out complete, with its own check value (R152 to R155). -/
theorem Link.receive_characters {kind : Byte} {p : Payload} (fits : p.length ≤ 120) (hunt : k.receiver = .hunt) :
    (Frame.characters ⟨kind, p⟩).foldl (fun k c => k.receive c now) k =
      k.complete (kind :: p) (frameCheck (kind :: p)) := by
  have len : (BitVec.ofNat 8 (p.length + 1)).toNat = p.length + 1 := by
    simp
    omega
  rw [Frame.characters]
  simp only [Frame.len, List.foldl_cons, List.cons_append, List.foldl_append, List.foldl_nil]
  rw [Link.receive_hunt hunt, if_pos rfl, Link.receive_length (k := k.inPhase _ _) rfl ⟨by omega, by omega⟩,
    ← List.foldl_cons (f := fun (k : Link) c => k.receive c now),
    Link.receive_bodyCharacters (cs := []) (kind :: p) rfl (by simp) (by simp [len]),
    List.nil_append, Link.receive_firstCheck (cs := kind :: p) (k := Link.inPhase _ _ _) rfl,
    Link.receive_lastCheck (k := Link.inPhase _ _ _) rfl, if_neg (by simp), checkBytes]
  rfl

/-! ### A request -/

/-- The frame of a request that is not the host's flow frame comes out as that request (R154, R155). -/
theorem Link.receive_request {kind : Byte} {p : Payload} (fits : p.length ≤ 120)
    (other : ¬(p = [] ∧ (kind = 0x70 ∨ kind = 0x71))) (hunt : k.receiver = .hunt) (none : k.lastChar = none) :
    (Frame.characters ⟨kind, p⟩).foldl (fun k c => k.receive c now) k = k.offer (.request kind p) := by
  have still : k.hunt = k := by
    simp only [Link.hunt, ← hunt, ← none]
  rw [Link.receive_characters fits hunt, Link.complete_of_request (judge_request fits rfl other), still]

theorem length_le_of_fits {p : Payload} (fits : payloadFits p = true) : p.length ≤ 120 := of_decide_eq_true fits

theorem decodeRequest_of_unknown {kind : Byte} {p : Payload} (unknown : requestKinds.contains kind.toNat = false) :
    decodeRequest kind p = .unknownKind kind p := by
  unfold decodeRequest
  split
  case h_28 => rfl
  all_goals
    next code => simp [requestKinds, code] at unknown

/-- A well-formed request fits a frame, is no flow frame of the host, and is the command of its kind and payload. -/
theorem Instr.wellFormed_request {i : Instr} {kind : Byte} {p : Payload} (formed : i.wellFormed = true)
    (encoded : encodeRequest i = some (kind, p)) :
    decodeRequest kind p = i ∧ p.length ≤ 120 ∧ ¬(p = [] ∧ (kind = 0x70 ∨ kind = 0x71)) := by
  cases i with
  | unknownKind code payload =>
    obtain ⟨rfl, rfl⟩ : code = kind ∧ payload = p := by simpa [encodeRequest] using encoded
    obtain ⟨⟨unknown, other⟩, fits⟩ :
        (requestKinds.contains code.toNat = false ∧ _) ∧ payloadFits payload = true := by
      simpa [Instr.wellFormed, unknownFits] using formed
    exact ⟨decodeRequest_of_unknown unknown, length_le_of_fits fits, by grind⟩
  | _ =>
    simp only [encodeRequest, Option.some.injEq, Prod.mk.injEq, reduceCtorEq] at encoded
    all_goals
      obtain ⟨rfl, rfl⟩ := encoded
      exact ⟨rfl, length_le_of_fits formed, by simp⟩

/-- Settles O9. -/
theorem sentRequestComesBackAsItself : Obligations.SentRequestComesBackAsItself := by
  intro i kind p formed encoded
  obtain ⟨decoded, fits, other⟩ := Instr.wellFormed_request formed encoded
  exact ⟨decoded, fun k now hunt none => Link.receive_request fits other hunt none⟩

end Sys2Proof.Machine
end

