-- ==== Sys2Proof/Proofs/Transmitter.lean ====
section
/-! The transmitter (R159), and what every step keeps of the link and the history (R153, R155, R157, R161, R167). -/

namespace Sys2Proof.Machine

set_option Elab.async false -- one declaration after another: the check bounds the threads waiting on one another

variable {s t : State}

/-! ### The choice of a frame -/

theorem Link.choose_busy {k : Link} (p : Stamp) (busy : k.sending ≠ none) : k.choose p = k :=
  if_pos (Option.isSome_iff_ne_none.mpr busy)

section
variable {k : Link} (p : Stamp) (idle : k.sending = none)
include idle

theorem Link.choose_flow {f : Flow} (flow : k.flow = some f) :
    k.choose p = { k with flow := none, sending := some ⟨flowFrame f, p⟩ } := by
  simp [Link.choose, idle, flow]

theorem Link.choose_held (flow : k.flow = none) (held : k.hostHeld = true) : k.choose p = k := by
  simp [Link.choose, idle, flow, held]

section
variable (flow : k.flow = none) (open_ : k.hostHeld = false)
include flow open_

theorem Link.choose_reply {f : Frame} (slot : k.slot = some f) :
    k.choose p = { k with slot := none, sending := some ⟨f, p⟩ } := by
  simp [Link.choose, idle, flow, open_, slot]

theorem Link.choose_alarm {f : Frame} {rest : List Frame} (slot : k.slot = none) (alarm : k.alarm = f :: rest) :
    k.choose p = { k with alarm := rest, sending := some ⟨f, p⟩ } := by
  simp [Link.choose, idle, flow, open_, slot, alarm]

theorem Link.choose_notice {f : Frame} {rest : List Frame} (slot : k.slot = none) (alarm : k.alarm = [])
    (notice : k.notice = f :: rest) : k.choose p = { k with notice := rest, sending := some ⟨f, p⟩ } := by
  simp [Link.choose, idle, flow, open_, slot, alarm, notice]

theorem Link.choose_nothing (slot : k.slot = none) (alarm : k.alarm = []) (notice : k.notice = []) : k.choose p = k := by
  simp [Link.choose, idle, flow, open_, slot, alarm, notice]

end

end

theorem State.settle_eq (s : State) : s.settle = s.withLink (s.link.choose s.stamp) := rfl

@[simp] theorem State.withLink_link (s : State) : s.withLink s.link = s := rfl

/-! ### The commands -/

theorem State.startBlocks_link (s : State) (restart : Bool) : (s.startBlocks restart).link = Link.fresh :=
  forAll_kept (l := [.lines]) (fun n t => t.startBlind_kept n) _ .link (by decide)

theorem State.startBlocks_history (s : State) (restart : Bool) : (s.startBlocks restart).history = s.history :=
  forAll_kept (l := [.lines]) (fun n t => t.startBlind_kept n) _ .history (by decide)

theorem State.announce_noted (s : State) (kind : Byte) (source : StartSource) : Noted s (s.announce kind source) :=
  (s.event_noted _ _ _ _ _ _).trans State.deriveStoreFaults_noted

/-- A restart starts the link anew and keeps the history (R165, R166). -/
theorem State.restart_link (source : StartSource) :
    Link.fresh.Reported (s.restart source).link ∧ (s.history.sound → (s.restart source).history.sound) := by
  obtain ⟨history, link⟩ := ((s.startBlocks true).announce_noted 2 source).trans (s.restart_rest source).noted
  rw [State.startBlocks_link] at link
  rw [State.startBlocks_history] at history
  exact ⟨link, history⟩

/-- A power-on reset starts the link and the history anew (R165, R169). -/
theorem State.powerOn_link : Link.fresh.Reported s.powerOn.link ∧ s.powerOn.history.sound := by
  unfold State.powerOn
  dsimp only
  obtain ⟨history, link⟩ := (State.startBlocks false { s with uptime := 0, tenth := 0, history := ⟨[], 1⟩ }).announce_noted
    1 .none
  rw [State.startBlocks_link] at link
  rw [State.startBlocks_history] at history
  exact ⟨link, history ⟨by simp, by simp⟩⟩

theorem Link.fresh_sound : Link.fresh.receiver.sound ∧ Link.fresh.capacities :=
  ⟨trivial, by simp [Link.capacities, Link.fresh]⟩

/-- A link started anew, with the reports since, and the transmitter's choice. -/
theorem Link.Reported.started {k : Link} (h : Link.fresh.Reported k) (p : Stamp) :
    (k.choose p).receiver.sound ∧ (k.choose p).capacities :=
  have goes := h.goes.trans (k.choose_goes p)
  ⟨goes.receiver Link.fresh_sound.1, goes.capacities Link.fresh_sound.2⟩

theorem running_or_reset (c : Instr) :
    running (execKinds c) ∨ c = .powerOnReset ∨ c = .resetInput ∨ c = .transmitFrameEnd := by
  cases c <;> simp [running, execKinds]

theorem exec_transmitFrameEnd_cases (s : State) :
    (s.link.restartPending = true ∧ exec .transmitFrameEnd s = .next (s.restart .request).settle) ∨
      exec .transmitFrameEnd s = .next (s.withLink { s.link with sending := none }).settle ∨
      exec .transmitFrameEnd s = .next s.settle := by
  show (_ ∧ execTransmitFrameEnd s = _) ∨ execTransmitFrameEnd s = _ ∨ execTransmitFrameEnd s = _
  unfold execTransmitFrameEnd
  split
  · split
    · next reply =>
      unfold Link.restartReply at reply
      exact .inl ⟨(Bool.and_eq_true_iff.mp reply).1, rfl⟩
    · exact .inr (.inl rfl)
  · exact .inr (.inr rfl)

/-- The link is sound within its capacities, and the history is one unbroken run. -/
def State.linked (s t : State) : Prop :=
  (s.link.receiver.sound → t.link.receiver.sound) ∧ (s.link.capacities → t.link.capacities) ∧
    (s.history.sound → t.history.sound)

theorem State.linked_of_started (link : Link.fresh.Reported t.link) (history : s.history.sound → t.history.sound) :
    s.linked t.settle :=
  ⟨fun _ => (link.started _).1, fun _ => (link.started _).2, history⟩

theorem State.linked_of_chosen {k : Link} (receiver : k.receiver = s.link.receiver)
    (capacities : k.capacities = s.link.capacities) : s.linked (s.withLink k).settle := by
  have goes := k.choose_goes s.stamp
  refine ⟨fun h => goes.receiver ?_, fun h => goes.capacities ?_, id⟩
  · rwa [receiver]
  · rwa [capacities]

/-- What every command keeps of the link and the history. -/
theorem exec_linked {c : Instr} (run : exec c s = .next t) : s.linked t := by
  obtain still | rfl | rfl | rfl := running_or_reset c
  · have runs := exec_leads s c t run
    exact ⟨(runs.link still).receiver, (runs.link still).capacities, runs.history still⟩
  · obtain rfl : s.powerOn.settle = t := Host.Outcome.next.inj run
    exact State.linked_of_started s.powerOn_link.1 fun _ => s.powerOn_link.2
  · obtain rfl : (s.restart .input).settle = t := Host.Outcome.next.inj run
    exact State.linked_of_started (s.restart_link .input).1 (s.restart_link .input).2
  · obtain ⟨-, same⟩ | same | same := exec_transmitFrameEnd_cases s
    · obtain rfl := Host.Outcome.next.inj (same.symm.trans run)
      exact State.linked_of_started (s.restart_link .request).1 (s.restart_link .request).2
    · obtain rfl := Host.Outcome.next.inj (same.symm.trans run)
      exact State.linked_of_chosen rfl rfl
    · obtain rfl := Host.Outcome.next.inj (same.symm.trans run)
      exact State.linked_of_chosen (k := s.link) rfl rfl

/-- Settles O50. -/
theorem linkAndHistoryStayWithinTheirBounds : Obligations.LinkAndHistoryStayWithinTheirBounds := by
  intro s t run
  have kept {P : State → Prop} (free : ∀ u k q, P u → P { u with freeCount := k, pending := q })
      (time : ∀ u : State, P u → P u.advance) (command : ∀ c u v, exec c u = .next v → P u → P v) (h : P s) : P t :=
    step_keeps run h free time command
  refine ⟨kept (P := fun u => u.link.receiver.sound) (fun _ _ _ => id) (fun _ => id) fun _ _ _ run => (exec_linked run).1,
    kept (P := fun u => u.link.capacities) (fun _ _ _ => id) (fun _ => id) fun _ _ _ run => (exec_linked run).2.1,
    kept (P := fun u => u.link.busyWhileWaiting) (fun _ _ _ => id) (fun _ => id) fun c u v run _ => (exec_leads u c v run).idle,
    kept (P := fun u => u.history.sound) (fun _ _ _ => id) (fun _ => id) fun _ _ _ run => (exec_linked run).2.2⟩

/-- Settles O10: the choice case by case, and the frame being sent through every command. -/
theorem transmitterServesInOrder : Obligations.TransmitterServesInOrder := by
  refine ⟨fun s => ?choice, fun c s t run => ⟨(exec_leads s c t run).idle, fun x busy => ?sending⟩⟩
  case choice =>
    intro k begun
    have settled {k' : Link} (chosen : k.choose s.stamp = k') : s.settle = s.withLink k' := by
      rw [State.settle_eq, chosen]
    refine ⟨fun busy => settled (Link.choose_busy _ busy), fun idle => ⟨fun flow => settled (Link.choose_flow _ idle flow),
      fun flow => settled (Link.choose_flow _ idle flow), fun flow held => settled (Link.choose_held _ idle flow held),
      fun flow open_ => ⟨fun f slot => settled (Link.choose_reply _ idle flow open_ slot),
        fun f rest slot alarm => settled (Link.choose_alarm _ idle flow open_ slot alarm),
        fun f rest slot alarm notice => settled (Link.choose_notice _ idle flow open_ slot alarm notice),
        fun slot alarm notice => settled (Link.choose_nothing _ idle flow open_ slot alarm notice)⟩⟩⟩
  case sending =>
    obtain still | rfl | rfl | rfl := running_or_reset c
    · exact .inl (((exec_leads s c t run).link still).sending x busy)
    · exact .inr (.inl rfl)
    · exact .inr (.inr (.inl rfl))
    · by_cases sent : s.sent = true
      · exact .inr (.inr (.inr ⟨rfl, sent⟩))
      · obtain rfl : s.settle = t := by
          have unsent : exec .transmitFrameEnd s = .next s.settle := if_neg sent
          simpa [unsent] using run
        exact .inl ((s.link.choose_goes s.stamp).sending x busy)

end Sys2Proof.Machine
end

