-- ==== Sys2Proof/Proofs/Pins.lean ====
section
/-! What only the outside or the host decides (R98, R165, R171): the shift mode, the input pins and the settings, with the
commands that change each. -/

namespace Sys2Proof.Machine

set_option Elab.async false -- one declaration after another: the check bounds the threads waiting on one another

variable {s t : State}

/-! ### The pins through every change but their own -/

theorem State.input_congr (same : t.inputs = s.inputs) (f : InputNo) : t.input f = s.input f := by
  simp only [State.input, same]

theorem State.det_congr (same : t.detectors = s.detectors) (d : DetNo) : t.det d = s.det d := by
  simp only [State.det, same]

theorem State.start_station (restart : Bool) (kind : Byte) (source : StartSource) (n : LineNo) :
    ((s.startBlocks restart).announce kind source).station n = { resetStation with wconf := (s.station n).wconf } := by
  have started : (s.startBlocks restart).stations =
      tabulate fun n => { resetStation with wconf := (s.station n).wconf } :=
    forAll_kept (l := [.lines]) (fun n t => t.startBlind_kept n) _ .stations (by decide)
  rw [State.station_congr (State.announce_kept _ _ _ .stations (by decide)), State.station, started, getElem_tabulate]

theorem State.start_input (restart : Bool) (kind : Byte) (source : StartSource) (f : InputNo) :
    ∃ e, ((s.startBlocks restart).announce kind source).input f = FireInput.anew (s.input f).raw e := by
  have started : ∃ e : InputNo → Instant, (s.startBlocks restart).inputs =
      tabulate fun f => FireInput.anew (s.input f).raw (e f) :=
    ⟨_, forAll_kept (l := [.lines]) (fun n t => t.startBlind_kept n) _ .inputs (by decide)⟩
  obtain ⟨e, put⟩ := started
  rw [State.input_congr (State.announce_kept _ _ _ .inputs (by decide)), State.input, put, getElem_tabulate]
  exact ⟨e f, rfl⟩

theorem State.start_det (restart : Bool) (kind : Byte) (source : StartSource) (d : DetNo) :
    ∃ m, ((s.startBlocks restart).announce kind source).det d = Detector.fresh (s.det d).lit m s.uptime := by
  have started : ∃ m : DetNo → Supervision, (s.startBlocks restart).detectors =
      tabulate fun d => Detector.fresh (s.det d).lit (m d) s.uptime :=
    ⟨_, forAll_kept (l := [.lines]) (fun n t => t.startBlind_kept n) _ .detectors (by decide)⟩
  obtain ⟨m, put⟩ := started
  rw [State.det_congr (State.announce_kept _ _ _ .detectors (by decide)), State.det, put, getElem_tabulate]
  exact ⟨m d, rfl⟩

theorem setStation_wconf {m n : LineNo} {x : Station} (same : x.wconf = (s.station m).wconf) :
    ((s.setStation m x).station n).wconf = (s.station n).wconf := by
  rw [State.setStation_station]
  split
  · next here => exact here ▸ same
  · rfl

theorem State.afterInsert_wconf (m n : LineNo) : ((s.afterInsert m).station n).wconf = (s.station n).wconf := by
  unfold State.afterInsert
  split
  · exact setStation_wconf rfl
  · split
    · exact setStation_wconf rfl
    · rfl

theorem State.offerWindow_wconf (m n : LineNo) (w : Window) :
    ((s.offerWindow m w).station n).wconf = (s.station n).wconf := by
  unfold State.offerWindow
  dsimp only
  split
  · exact setStation_wconf rfl
  · rw [State.afterInsert_wconf]
    exact setStation_wconf rfl

theorem State.endWindow_wconf (m n : LineNo) : ((s.endWindow m).station n).wconf = (s.station n).wconf := by
  have last (u : State) (b : Bool) : (if b then u.endActivity (.station m) else u).station n = u.station n := by
    split
    · exact State.station_congr (u.endActivity_kept _ .stations (by decide)) n
    · rfl
  unfold State.endWindow
  dsimp only
  split
  · rfl
  · rw [last]
    split
    · rw [State.station_congr (State.record_kept _ _ _ _ _ .stations (by decide))]
      exact setStation_wconf rfl
    · exact setStation_wconf rfl

theorem Change.wconf_kept {k : ChangeKind} (change : Change k s t) (pin : k ≠ .stationPin) (n : LineNo) :
    (t.station n).wconf = (s.station n).wconf := by
  by_cases untouched : Block.stations ∉ k.blocks
  · rw [State.station_congr (change.kept .stations untouched)]
  cases change with
  | turnOn => exact setStation_wconf rfl
  | offerWindow m w => exact State.offerWindow_wconf m n w
  | endWindow m => exact State.endWindow_wconf m n
  | waterMissed m =>
    rw [State.raiseFault_station]
    exact setStation_wconf rfl
  | waterReset m => simp
  | powerOn | restart => rw [State.start_station]
  | _ => simp [ChangeKind.blocks, sectorBlocks, faultBlocks, closureBlocks, lineBlocks] at untouched pin

theorem Change.raw_kept {k : ChangeKind} (change : Change k s t) (pin : k ≠ .inputPin) (f : InputNo) :
    (t.input f).raw = (s.input f).raw := by
  by_cases untouched : Block.inputs ∉ k.blocks
  · rw [State.input_congr (change.kept .inputs untouched)]
  cases change with
  | input g x same =>
    rw [State.setInput_input]
    split
    · next here => exact here ▸ same
    · rfl
  | powerOn | restart =>
    obtain ⟨e, put⟩ := State.start_input (s := s) _ _ _ f
    rw [put]
    unfold FireInput.anew
    split <;> simp_all
  | _ => simp [ChangeKind.blocks, sectorBlocks, faultBlocks, closureBlocks, lineBlocks] at untouched pin

theorem Change.lit_kept {k : ChangeKind} (change : Change k s t) (pin : k ≠ .channelPin) (d : DetNo) :
    (t.det d).lit = (s.det d).lit := by
  by_cases untouched : Block.detectors ∉ k.blocks
  · rw [State.det_congr (change.kept .detectors untouched)]
  cases change with
  | channel c x same =>
    rw [State.setDet_det]
    split
    · next here => exact here ▸ same
    · rfl
  | powerOn | restart =>
    obtain ⟨m, put⟩ := State.start_det (s := s) _ _ _ d
    rw [put]
    rfl
  | _ => simp [ChangeKind.blocks, sectorBlocks, faultBlocks, closureBlocks, lineBlocks] at untouched pin

/-- A line's two inputs. -/
theorem linePins_kept (a b : Bool) {l : List ChangeKind} (pin : .linePin ∉ l) :
    LineKept l fun x => x.fstop = a ∧ x.gopen = b where
  enter _ enters h := by cases enters <;> exact h
  replace _ _ h := h
  count _ _ _ _ h := h
  gateTimer _ _ h := h
  blind _ _ _ _ h := h
  pin is := absurd is pin
  off _ _ _ h := h
  stopped _ _ _ _ h := h
  powerOn _ _ _ _ h := h
  restart _ _ _ _ h := h

/-- A closure's two limit inputs. -/
theorem limits_kept (a b : Bool) : ClosureKept fun x _ => x.copen = a ∧ x.cshut = b where
  move _ _ timers h := by
    rw [timers.same]
    exact h
  origin _ h := h
  restart {x _} _ _ _ h := by
    unfold Closure.fresh
    split <;> exact h

theorem limits_lifted (a b : Bool) : ClosureLifted fun x _ => x.copen = a ∧ x.cshut = b where
  reopen _ _ _ h := h
  powerOn _ _ _ h := h

/-! ### The settings -/

theorem Store.load_stored (x : Store) : x.load.stored = x.stored := rfl

theorem Change.stored_kept {k : ChangeKind} (change : Change k s t) (stored : k ≠ .stored) :
    t.store.stored = s.store.stored := by
  by_cases untouched : Block.store ∉ k.blocks
  · rw [(change.kept .store untouched : t.store = s.store)]
  cases change with
  | flags | write | defaults => rfl
  | result k good =>
    unfold State.takeResult
    rw [(State.deriveStoreFaults_kept _ .store (by decide) : (State.deriveStoreFaults _).store = _)]
    rfl
  | powerOn | restart => rw [State.start_store, Store.load_stored]
  | _ => simp [ChangeKind.blocks, sectorBlocks, faultBlocks, lineBlocks, closureBlocks] at untouched stored

/-! ### The commands -/

/-- The commands that reset the part (R165). -/
def resets (c : Instr) (s : State) : Prop :=
  c = .powerOnReset ∨ c = .resetInput ∨ (c = .transmitFrameEnd ∧ s.link.restartPending = true)

/-- A command that resets nothing is a sequence of changes without a reset. -/
theorem exec_steps {c : Instr} (still : ¬resets c s) (run : exec c s = .next t) :
    ∃ l, Steps l s t ∧ running l ∧ ∀ k ∈ l, k ∈ execKinds c := by
  obtain plain | rfl | rfl | rfl := running_or_reset c
  · exact ⟨_, exec_path run, plain, fun _ => id⟩
  · exact absurd (.inl rfl) still
  · exact absurd (.inr (.inl rfl)) still
  · have chosen (k : Link) : Steps [.log] s (s.withLink k).settle :=
      (s.withLink_steps k (by decide)).trans ((Change.log ((State.settle_kept _).mono (by decide))).steps (by decide))
    refine ⟨[.log], ?_, by simp [running], by simp [execKinds]⟩
    obtain ⟨pending, -⟩ | same | same := exec_transmitFrameEnd_cases s
    · exact absurd (.inr (.inr ⟨rfl, pending⟩)) still
    · exact Host.Outcome.next.inj (same.symm.trans run) ▸ chosen _
    · exact Host.Outcome.next.inj (same.symm.trans run) ▸ chosen s.link

/-- What only some kinds of change and the resets move, a command without those kinds moves only as a reset. -/
theorem exec_keeps_but_resets {α : Type} {view : State → α} {kinds : List ChangeKind}
    (kept : ∀ {k : ChangeKind} {u v : State}, Change k u v → k ∉ kinds → k ≠ .powerOn ∧ k ≠ .restart → view v = view u)
    {c : Instr} (run : exec c s = .next t) (moved : view t ≠ view s) : resets c s ∨ ∃ k ∈ kinds, k ∈ execKinds c := by
  by_contra none
  simp only [not_or, not_exists, not_and] at none
  obtain ⟨l, steps, plain, sub⟩ := exec_steps none.1 run
  refine moved (steps.keeps (P := fun u => view u = view s) (fun k mem u v change hu => ?_) rfl)
  exact (kept change (fun named => none.2 k named (sub k mem))
    ⟨by rintro rfl; exact plain.2.1 mem, by rintro rfl; exact plain.2.2 mem⟩).trans hu

/-- What only some kinds of change move, a command without those kinds leaves. -/
theorem exec_keeps_but {α : Type} {view : State → α} {kind : ChangeKind}
    (kept : ∀ {k : ChangeKind} {u v : State}, Change k u v → k ≠ kind → view v = view u)
    {c : Instr} (run : exec c s = .next t) (moved : view t ≠ view s) : kind ∈ execKinds c := by
  by_contra none
  refine moved ((exec_path run).keeps (P := fun u => view u = view s) (fun k mem u v change hu => ?_) rfl)
  exact (kept change (by rintro rfl; exact none mem)).trans hu

theorem exec_shift {c : Instr} (run : exec c s = .next t) (moved : t.shift ≠ s.shift) :
    resets c s ∨ ∃ p, c = .setShift p := by
  refine (exec_keeps_but_resets (view := State.shift) (kinds := [.shift]) (fun {k _ _} change other running => ?_) run
    moved).imp_right ?_
  · exact change.kept .shift (by cases k <;> simp_all [ChangeKind.blocks, sectorBlocks, faultBlocks, lineBlocks, closureBlocks])
  · cases c <;> simp [execKinds]

theorem exec_live {c : Instr} (run : exec c s = .next t) (moved : t.store.live ≠ s.store.live) :
    resets c s ∨ (∃ p, c = .writeSetting p) ∨ ∃ p, c = .loadDefaults p := by
  refine (exec_keeps_but_resets (view := fun u => u.store.live) (kinds := [.live])
    (fun change other running => change.live_kept (by simpa using other) running) run moved).imp_right ?_
  rintro ⟨k, mem, named⟩
  obtain rfl : k = .live := by simpa using mem
  exact writes_of_live named

theorem exec_stored {c : Instr} (run : exec c s = .next t) (moved : t.store.stored ≠ s.store.stored) :
    (∃ p, c = .saveSettings p) ∨ (∃ p, c = .lockSection p) ∨ (∃ p, c = .loadDefaults p) ∨
      ∃ good, c = .sectionWriteEnd good := by
  have mem := exec_keeps_but (view := fun u => u.store.stored) (kind := .stored) (fun change => change.stored_kept) run moved
  cases c <;> simp [execKinds] at mem ⊢

/-! ### The pins at their own commands -/

theorem exec_service {c : Instr} (run : exec c s = .next t) (moved : t.service ≠ s.service) :
    c = .serviceChange t.service := by
  have mem : ChangeKind.service ∈ execKinds c :=
    exec_keeps_but (view := State.service) (fun {k _ _} change other => change.kept .service
      (by cases k <;> simp_all [ChangeKind.blocks, sectorBlocks, faultBlocks, lineBlocks, closureBlocks])) run moved
  cases c with
  | serviceChange active =>
    have put : t.service = active := by
      have seen : Shows (fun u => u.service = active) (execServiceChange active s) := by
        have log {u v : State} (change : Change .log u v) (h : u.service = active) : v.service = active :=
          (change.kept .service (by decide) : v.service = u.service).trans h
        unfold execServiceChange
        dsimp only
        split
        · exact .of_done log rfl
        · refine .of_done log ?_
          exact (State.discardPrepare_path _ 2).kept .service (by decide)
      exact seen t run
    rw [put]
  | _ => simp [execKinds] at mem

theorem exec_wconf {c : Instr} (run : exec c s = .next t) {n : LineNo} (moved : (t.station n).wconf ≠ (s.station n).wconf) :
    c = .wconfActive n ∨ c = .wconfInactive n := by
  have mem := exec_keeps_but (view := fun u => (u.station n).wconf) (kind := .stationPin)
    (fun change pin => change.wconf_kept pin n) run moved
  have other {m : LineNo} {x : Station} (run : done (s.setStation m x) = .next t) : m = n := by
    obtain rfl := Host.Outcome.next.inj run
    by_contra no
    exact moved (congrArg Station.wconf ((State.setStation_station _ _ _ _).trans (if_neg no)))
  cases c with
  | wconfActive m => 
    have run : execWconfActive m s = .next t := run
    unfold execWconfActive at run
    dsimp only at run
    split at run <;> exact .inl (by rw [other run])
  | wconfInactive m =>
    have run : execWconfInactive m s = .next t := run
    unfold execWconfInactive at run
    dsimp only at run
    split at run <;> exact .inr (by rw [other run])
  | _ => simp [execKinds] at mem

theorem FireInput.edge_raw (x : FireInput) (active : Bool) (expiry : Instant) : (x.edge active expiry).raw = active := by
  unfold FireInput.edge
  split <;> rfl

theorem exec_raw {c : Instr} (run : exec c s = .next t) {f : InputNo} (moved : (t.input f).raw ≠ (s.input f).raw) :
    c = .fireInputEdge f (t.input f).raw := by
  have mem := exec_keeps_but (view := fun u => (u.input f).raw) (kind := .inputPin)
    (fun change pin => change.raw_kept pin f) run moved
  cases c with
  | fireInputEdge g active =>
    obtain rfl : (s.setInput g ((s.input g).edge active (s.debounceEnd g))).settle = t := Host.Outcome.next.inj run
    have put : ((s.setInput g ((s.input g).edge active (s.debounceEnd g))).settle.input f) =
      if g = f then (s.input g).edge active (s.debounceEnd g) else s.input f := State.setInput_input _ _ _ _
    rw [put] at moved ⊢
    by_cases same : g = f
    · subst same
      rw [if_pos rfl, FireInput.edge_raw]
    · simp [same] at moved
  | _ => simp [execKinds] at mem

theorem exec_lit {c : Instr} (run : exec c s = .next t) {d : DetNo} (moved : (t.det d).lit ≠ (s.det d).lit) :
    c = .pulseLeadingEdge d ∨ c = .pulseTrailingEdge d := by
  have mem := exec_keeps_but (view := fun u => (u.det d).lit) (kind := .channelPin)
    (fun change pin => change.lit_kept pin d) run moved
  have log {u v : State} (change : Change .log u v) (h : (u.det d).lit = (s.det d).lit) : (v.det d).lit = (s.det d).lit :=
    (change.lit_kept (by decide) d).trans h
  have put {e : DetNo} (no : e ≠ d) (x : Detector) : ((s.setDet e x).det d).lit = (s.det d).lit :=
    congrArg Detector.lit ((State.setDet_det _ _ _ _).trans (if_neg no))
  have seen {e : DetNo} {o : Out} (shown : e ≠ d → Shows (fun u => (u.det d).lit = (s.det d).lit) o) (run : o = .next t) :
      e = d := by
    by_contra no
    exact moved (shown no t run)
  cases c with
  | pulseLeadingEdge e =>
    refine .inl (congrArg _ (seen (o := execPulseLeadingEdge e s) (fun no => ?_) run))
    unfold execPulseLeadingEdge
    dsimp only
    split
    · exact .of_done log rfl
    · exact .of_done log (put no _)
  | pulseTrailingEdge e =>
    refine .inr (congrArg _ (seen (o := execPulseTrailingEdge e s) (fun no => ?_) run))
    have delivered (u : State) (ember : Bool) : ((u.qualified e ember).det d).lit = (u.det d).lit :=
      (u.qualified_path e ember).keeps (P := fun v => (v.det d).lit = (u.det d).lit)
        (fun k mem _ _ change hv => (change.lit_kept (by rintro rfl; simp at mem) d).trans hv) rfl
    have ended (cls : PulseClass) : ((s.endPulse e cls).det d).lit = (s.det d).lit := put no _
    unfold execPulseTrailingEdge
    split
    · dsimp only
      split
      · split
        · exact .of_done log ((delivered _ _).trans (ended _))
        · exact .of_done log (ended _)
      · split
        · exact .of_done log ((delivered _ _).trans (ended _))
        · exact .of_done log (ended _)
      · exact .of_done log (ended _)
      · exact .of_done log (ended _)
    · exact .of_done log rfl
  | _ => simp [execKinds] at mem

/-- A line's inputs after the moves of the plant are those before them. -/
theorem PlantMoves.linePins (h : PlantMoves s t) (n : LineNo) :
    (t.line n).fstop = (s.line n).fstop ∧ (t.line n).gopen = (s.line n).gopen :=
  h.keeps_line (linePins_kept (l := []) _ _ (by simp)) ⟨rfl, rfl⟩

theorem exec_fstopActive_pins {m n : LineNo} {active : Bool} (run : exec (.fstopActive m active) s = .next t) :
    (t.line n).fstop = (if m = n then active else (s.line n).fstop) ∧ (t.line n).gopen = (s.line n).gopen := by
  have put : ((s.setLine m { s.line m with fstop := active }).line n).fstop = (if m = n then active else (s.line n).fstop) ∧
      ((s.setLine m { s.line m with fstop := active }).line n).gopen = (s.line n).gopen := by
    rw [State.setLine_line]
    split
    · next same => exact ⟨rfl, same ▸ rfl⟩
    · exact ⟨rfl, rfl⟩
  have run : execFstopActive m active s = .next t := run
  unfold execFstopActive at run
  dsimp only at run
  split at run
  · next on =>
    subst on
    obtain rfl := Host.Outcome.next.inj run
    obtain ⟨fstop, gopen⟩ := (s.fstopOn_moves m).linePins n
    rw [State.line_congr (State.settle_lines _), fstop, gopen]
    exact put
  · obtain rfl := Host.Outcome.next.inj run
    rw [State.line_congr (State.settle_lines _)]
    exact put

theorem exec_gopenActive_pins {m n : LineNo} {active : Bool} (run : exec (.gopenActive m active) s = .next t) :
    (t.line n).gopen = (if m = n then active else (s.line n).gopen) ∧ (t.line n).fstop = (s.line n).fstop := by
  obtain rfl := Host.Outcome.next.inj run
  rw [State.line_congr (State.settle_lines _), State.setLine_line]
  split
  · next same => exact ⟨rfl, same ▸ rfl⟩
  · exact ⟨rfl, rfl⟩

theorem exec_linePins {c : Instr} (run : exec c s = .next t) (n : LineNo) :
    ((t.line n).fstop ≠ (s.line n).fstop → c = .fstopActive n (t.line n).fstop) ∧
      ((t.line n).gopen ≠ (s.line n).gopen → c = .gopenActive n (t.line n).gopen) := by
  by_cases pin : .linePin ∈ execKinds c
  · cases c with
    | fstopActive m active =>
      obtain ⟨fstop, gopen⟩ := exec_fstopActive_pins run (n := n)
      refine ⟨fun moved => ?_, fun moved => absurd gopen moved⟩
      by_cases same : m = n
      · rw [fstop, if_pos same, same]
      · exact absurd (fstop.trans (if_neg same)) moved
    | gopenActive m active =>
      obtain ⟨gopen, fstop⟩ := exec_gopenActive_pins run (n := n)
      refine ⟨fun moved => absurd fstop moved, fun moved => ?_⟩
      by_cases same : m = n
      · rw [gopen, if_pos same, same]
      · exact absurd (gopen.trans (if_neg same)) moved
    | _ => simp [execKinds] at pin
  · obtain ⟨fstop, gopen⟩ := exec_keeps_line (linePins_kept _ _ pin) run (n := n) ⟨rfl, rfl⟩
    exact ⟨fun moved => absurd fstop moved, fun moved => absurd gopen moved⟩

/-- A closure's limit inputs through changes other than its own events. -/
theorem Steps.limits {l : List ChangeKind} (h : Steps l s t) (pin : .closurePin ∉ l) (x : ClosureNo) :
    (t.closure x).copen = (s.closure x).copen ∧ (t.closure x).cshut = (s.closure x).cshut :=
  h.keeps (P := State.closureHas (fun y _ => y.copen = (s.closure x).copen ∧ y.cshut = (s.closure x).cshut) x)
    (fun _ mem _ _ change => change.keeps_closure (limits_kept _ _) (by rintro rfl; exact absurd mem pin)
      fun _ => limits_lifted _ _) ⟨rfl, rfl⟩

theorem Change.log_limits (change : Change .log s t) {x : ClosureNo} {a b : Bool}
    (h : (s.closure x).copen = a ∧ (s.closure x).cshut = b) : (t.closure x).copen = a ∧ (t.closure x).cshut = b := by
  rwa [State.closure_congr (change.kept .closures (by decide))]

theorem exec_closureLimitChange_limits {c x : ClosureNo} {l : Limit} {v : Bool}
    (run : exec (.closureLimitChange c l v) s = .next t) : (t.closure x).copen =
        (if c = x then (s.closure c).setLimit l v else s.closure x).copen ∧
      (t.closure x).cshut = (if c = x then (s.closure c).setLimit l v else s.closure x).cshut := by
  have after : Shows (fun u => (u.closure x).copen = (if c = x then (s.closure c).setLimit l v else s.closure x).copen ∧
      (u.closure x).cshut = (if c = x then (s.closure c).setLimit l v else s.closure x).cshut)
      (execClosureLimitChange c l v s) := by
    rw [← State.setClosure_closure]
    have log {u w : State} (change : Change .log u w) := change.log_limits (x := x) (a := ((s.setClosure c
      ((s.closure c).setLimit l v)).closure x).copen) (b := ((s.setClosure c ((s.closure c).setLimit l v)).closure x).cshut)
    unfold execClosureLimitChange
    dsimp only
    split
    · exact .of_done log ⟨rfl, rfl⟩
    · split
      · exact .of_done log ((State.closedReached_path _ c).steps.limits (by decide) x)
      · exact .of_done log ((State.openReached_path _ c).steps.limits (by decide) x)
      · exact .of_done log ⟨rfl, rfl⟩
  exact after t run

theorem exec_limits {c : Instr} (run : exec c s = .next t) (x : ClosureNo) :
    ((t.closure x).copen ≠ (s.closure x).copen → c = .closureLimitChange x .openLimit (t.closure x).copen) ∧
      ((t.closure x).cshut ≠ (s.closure x).cshut → c = .closureLimitChange x .shutLimit (t.closure x).cshut) := by
  by_cases pin : .closurePin ∈ execKinds c
  · cases c with
    | closureLimitChange d l v =>
      obtain ⟨copen, cshut⟩ := exec_closureLimitChange_limits run (x := x)
      rw [copen, cshut]
      by_cases same : d = x
      · subst same
        rw [if_pos rfl]
        cases l with
        | openLimit => exact ⟨fun _ => rfl, fun moved => absurd rfl moved⟩
        | shutLimit => exact ⟨fun moved => absurd rfl moved, fun _ => rfl⟩
      · rw [if_neg same]
        exact ⟨fun moved => absurd rfl moved, fun moved => absurd rfl moved⟩
    | _ => simp [execKinds] at pin
  · obtain ⟨copen, cshut⟩ := (exec_path run).limits pin x
    exact ⟨fun moved => absurd copen moved, fun moved => absurd cshut moved⟩

/-- Settles O4: what each command's kinds of change move. -/
theorem onlyNamedCommandsChangeModesPinsAndSettings : Obligations.OnlyNamedCommandsChangeModesPinsAndSettings := by
  intro c s t run
  exact ⟨exec_shift run, exec_service run, fun _ => exec_wconf run, fun n => (exec_linePins run n).1,
    fun n => (exec_linePins run n).2, fun _ => exec_raw run, fun _ => exec_lit run, fun x => (exec_limits run x).1,
    fun x => (exec_limits run x).2, exec_live run, exec_stored run⟩

end Sys2Proof.Machine
end

