-- ==== Sys2Proof/Proofs/Starts.lean ====
section
/-! The start of every block at a reset (R20, R34, R55, R78, R101, R121, R138, R151, R166, R176): each block as the reset
tables list it. -/

namespace Sys2Proof.Machine

set_option Elab.async false -- one declaration after another: the check bounds the threads waiting on one another

variable {s t : State}

/-! ### The settings loaded -/

theorem Store.load_live (x : Store) : x.load.live =
    let ok := fun (k : StoreSection) => (x.marks[k.idx.val]).checkOk
    let old := x.stored
    { detectors := if ok .detectors then old.detectors else factorySettings.detectors
      lines := if ok .lines then old.lines else factorySettings.lines
      inputs := if ok .inputs then old.inputs else factorySettings.inputs
      closures := if ok .closures then old.closures else factorySettings.closures
      sectors := if ok .sectors then old.sectors else factorySettings.sectors
      patterns := if ok .patterns then old.patterns else factorySettings.patterns
      general := if ok .general then old.general else factorySettings.general } := by
  have copied {α : Type} (f : Settings → α) (b : Bool) :
      f (if b then x.stored else factorySettings) = if b then f x.stored else f factorySettings := apply_ite f _ _ _
  simp only [Store.load, allSections, List.foldl_cons, List.foldl_nil, Store.loadSection, Settings.copySection, copied]

theorem Store.load_flags (x : Store) (k : StoreSection) : x.load.flags[k.idx.val] =
    { lock := (x.marks[k.idx.val]).checkOk && (x.marks[k.idx.val]).lock, modified := false,
      defaulted := !(x.marks[k.idx.val]).checkOk, writeFailed := false } := by
  simp only [Store.load, allSections, List.foldl_cons, List.foldl_nil, Store.loadSection, Vector.getElem_set]
  cases k <;> rfl

theorem Store.load_marks (x : Store) : x.load.marks = x.marks := rfl

theorem Store.load_write (x : Store) : x.load.write = none := rfl

/-! ### The blocks -/

section
variable (s) (restart : Bool)

theorem State.startBlocks_time : (s.startBlocks restart).uptime = s.uptime ∧ (s.startBlocks restart).tenth = s.tenth :=
  forAll_kept (l := [.lines]) (fun n t => t.startBlind_kept n) _ .clock (by decide)

theorem State.startBlocks_shift : (s.startBlocks restart).shift = .day :=
  forAll_kept (l := [.lines]) (fun n t => t.startBlind_kept n) _ .shift (by decide)

theorem State.startBlocks_dis : (s.startBlocks restart).dis = ⟨[], none, false⟩ :=
  forAll_kept (l := [.lines]) (fun n t => t.startBlind_kept n) _ .disablements (by decide)

theorem State.startBlocks_service : (s.startBlocks restart).service = s.service :=
  forAll_kept (l := [.lines]) (fun n t => t.startBlind_kept n) _ .service (by decide)

theorem State.startBlocks_pending : (s.startBlocks restart).pending = s.pending :=
  forAll_kept (l := [.lines]) (fun n t => t.startBlind_kept n) _ .queue (by decide)

theorem State.startBlocks_freeCount : (s.startBlocks restart).freeCount = s.freeCount :=
  forAll_kept (l := [.lines]) (fun n t => t.startBlind_kept n) _ .freeValues (by decide)

theorem State.startBlocks_causes : (s.startBlocks restart).causes = [] :=
  forAll_kept (l := [.lines]) (fun n t => t.startBlind_kept n) _ .causes (by decide)

theorem State.startBlocks_faults :
    (s.startBlocks restart).faults = FaultTable.empty ∧ (s.startBlocks restart).faultOutput = false :=
  forAll_kept (l := [.lines]) (fun n t => t.startBlind_kept n) _ .faults (by decide)

theorem State.startBlocks_zone (z : ZoneNo) : (s.startBlocks restart).zone z = ⟨.quiet, none⟩ := by
  have zones : (s.startBlocks restart).zones = Vector.replicate 16 ⟨.quiet, none⟩ :=
    forAll_kept (l := [.lines]) (fun n t => t.startBlind_kept n) _ .zones (by decide)
  simp only [State.zone, zones, Vector.getElem_replicate]

theorem State.startBlocks_sector (n : SectorNo) : (s.startBlocks restart).sector n = resetSector := by
  have sectors : (s.startBlocks restart).sectors = Vector.replicate 6 resetSector :=
    forAll_kept (l := [.lines]) (fun n t => t.startBlind_kept n) _ .sectors (by decide)
  simp only [State.sector, sectors, Vector.getElem_replicate]

theorem State.startBlocks_meter (n : LineNo) : (s.startBlocks restart).meter n = Meter.fresh s.uptime := by
  have meters : (s.startBlocks restart).meters = Vector.replicate 8 (Meter.fresh s.uptime) :=
    forAll_kept (l := [.lines]) (fun n t => t.startBlind_kept n) _ .meters (by decide)
  simp only [State.meter, meters, Vector.getElem_replicate]

theorem State.startBlocks_station (n : LineNo) :
    (s.startBlocks restart).station n = { resetStation with wconf := (s.station n).wconf } := by
  have stations : (s.startBlocks restart).stations = tabulate fun n => { resetStation with wconf := (s.station n).wconf } :=
    forAll_kept (l := [.lines]) (fun n t => t.startBlind_kept n) _ .stations (by decide)
  rw [State.station, stations, getElem_tabulate]

theorem State.startBlocks_det (d : DetNo) : (s.startBlocks restart).det d =
    Detector.fresh (s.det d).lit ((s.startBlocks restart).detCfg d).supervision s.uptime := by
  have detectors : (s.startBlocks restart).detectors = tabulate fun d =>
      Detector.fresh (s.det d).lit (s.store.load.live.detectors[d.val]).supervision s.uptime :=
    forAll_kept (l := [.lines]) (fun n t => t.startBlind_kept n) _ .detectors (by decide)
  rw [State.det, detectors, getElem_tabulate, State.detCfg, State.startBlocks_store]

theorem State.startBlocks_input (f : InputNo) : (s.startBlocks restart).input f =
    FireInput.anew (s.input f).raw ((s.startBlocks restart).debounceEnd f) := by
  have inputs : (s.startBlocks restart).inputs = tabulate fun f => FireInput.anew (s.input f).raw
      (s.uptime + BitVec.ofNat 32 (s.store.load.live.inputs[f.val]).debounce) :=
    forAll_kept (l := [.lines]) (fun n t => t.startBlind_kept n) _ .inputs (by decide)
  rw [State.input, inputs, getElem_tabulate, State.debounceEnd, State.after, State.inputCfg, State.startBlocks_store,
    (s.startBlocks_time restart).1]

theorem State.startBlocks_closure (c : ClosureNo) : (s.startBlocks restart).closure c =
    (s.closure c).fresh (restart && (s.closure c).state == .shut) s.uptime
      (s.after (((s.startBlocks restart).closureCfg c).travelTime * 1000)) ((s.startBlocks restart).closureCfg c).kind := by
  have closures : (s.startBlocks restart).closures = tabulate fun c => (s.closure c).fresh
      (restart && (s.closure c).state == .shut) s.uptime
      (s.after ((s.store.load.live.closures[c.val]).travelTime * 1000)) (s.store.load.live.closures[c.val]).kind :=
    forAll_kept (l := [.lines]) (fun n t => t.startBlind_kept n) _ .closures (by decide)
  rw [State.closure, closures, getElem_tabulate, State.closureCfg, State.startBlocks_store]

theorem State.startBlocks_flagsOf (k : StoreSection) : (s.startBlocks restart).flagsOf k =
    { lock := (s.store.marks[k.idx.val]).checkOk && (s.store.marks[k.idx.val]).lock, modified := false,
      defaulted := !(s.store.marks[k.idx.val]).checkOk, writeFailed := false } := by
  rw [State.flagsOf, State.startBlocks_store, Store.load_flags]

/-- At a start every detector is usable, so a line is blind exactly with none assigned to it (R71). -/
theorem State.startBlocks_isBlind (n : LineNo) : (s.startBlocks restart).isBlind n =
    decide (∀ d, ((s.startBlocks restart).detCfg d).line ≠ some n) := by
  have usable (d : DetNo) : (s.startBlocks restart).usable d = true := by
    simp [State.usable, State.disabled, State.entryOf, (s.startBlocks_faults restart).1, State.startBlocks_dis,
      FaultTable.get_empty]
  rw [Bool.eq_iff_iff, State.isBlind]
  simp [State.assigned, usable]

/-- What both resets leave in the blocks that keep nothing of theirs. -/
theorem State.startBlocks_startedFrom : s.startedFrom (s.startBlocks restart) := by
  have time : (s.startBlocks restart).uptime = s.uptime := (s.startBlocks_time restart).1
  have free (o : Obj) : (s.startBlocks restart).faults.get o = 0 := by
    rw [(s.startBlocks_faults restart).1, FaultTable.get_empty]
  have store : (s.startBlocks restart).store = s.store.load := s.startBlocks_store restart
  refine ⟨s.startBlocks_shift restart, s.startBlocks_dis restart, s.startBlocks_service restart,
    s.startBlocks_pending restart, ?_, ?_, ?_, s.startBlocks_flagsOf restart, ?_, fun d => ⟨?_, free _⟩,
    fun n => ?_, fun n => ⟨s.startBlocks_station restart n, free _⟩, fun f => ?_⟩
  · rw [store, Store.load_write]
  · rw [store, Store.load_stored]
  · rw [store, Store.load_marks]
  · rw [store, Store.load_live]
  · rw [s.startBlocks_det restart d, Detector.fresh, time]
    cases ((s.startBlocks restart).detCfg d).supervision <;> rfl
  · rw [s.startBlocks_meter restart n, time, Meter.fresh]
  · rw [s.startBlocks_input restart f]
    rfl

/-- A line at a start (R78, R79). -/
theorem State.startBlocks_line_eq (n : LineNo) : (s.startBlocks restart).line n =
    let u := s.startBlocks restart
    let kept := restart && (s.line n).state == .stopped
    { state := if kept then .stopped else .off
      stopCause := if kept then (s.line n).stopCause else .none
      entered := if kept then (s.line n).entered else s.uptime
      fan := false, feed := false, gate := kept && (s.line n).gate, counter := 0
      countWindow := if (u.lineCfg n).sparkWindow = 0 then none
        else some (s.uptime + BitVec.ofNat 32 ((u.lineCfg n).sparkWindow * 100))
      startTimer := none, dwellTimer := none, gateTimer := none, rundownTimer := none
      blind := decide (∀ d, (u.detCfg d).line ≠ some n)
      blindTimer := if ∀ d, (u.detCfg d).line ≠ some n
        then some (s.uptime + BitVec.ofNat 32 ((u.lineCfg n).blindLimit * 1000)) else none
      fstop := (s.line n).fstop, gopen := (s.line n).gopen } := by
  have window : (s.startBlocks restart).freshWindow n = if ((s.startBlocks restart).lineCfg n).sparkWindow = 0 then none
      else some (s.uptime + BitVec.ofNat 32 (((s.startBlocks restart).lineCfg n).sparkWindow * 100)) := by
    rw [State.freshWindow, State.after, (s.startBlocks_time restart).1]
  rw [s.startBlocks_line restart n, s.startBlocks_isBlind restart n, window]
  simp only [State.lineJudged, State.lineStart, Line.fresh, State.after]
  by_cases blind : ∀ d, ((s.startBlocks restart).detCfg d).line ≠ some n
  · simp only [decide_eq_true blind, if_pos blind, if_true]
  · simp only [decide_eq_false blind, if_neg blind, Bool.false_eq_true, if_false]

/-- A closure at a start that keeps nothing (R121, R122). -/
theorem State.startBlocks_closure_new (c : ClosureNo) (new : (restart && (s.closure c).state == .shut) = false) :
    (s.startBlocks restart).closure c =
      { state := if (s.closure c).position = .opened then .held else .ready, direction := .none, hold := true
        travelTimer := if ((s.startBlocks restart).closureCfg c).kind = .damper ∧ (s.closure c).position ≠ .opened
          then some (s.uptime + BitVec.ofNat 32 (((s.startBlocks restart).closureCfg c).travelTime * 1000)) else none
        waitTimer := none, entered := s.uptime, origin := .none, copen := (s.closure c).copen,
        cshut := (s.closure c).cshut } := by
  rw [s.startBlocks_closure restart c, Closure.fresh, new]
  rfl

end

/-! ### The announcement -/

/-- What a reset leaves in the blocks that keep nothing of theirs stands while these blocks do. -/
theorem State.startedFrom.kept {u : State} (h : s.startedFrom u)
    (kept : KeptBut [.lines, .causes, .zones, .faults, .closures, .sectors, .history, .link, .freeValues] u t)
    (faults : ∀ o, (∀ c, o ≠ .closure c) → o ≠ .store → t.faults.get o = u.faults.get o) : s.startedFrom t := by
  have time : t.uptime = u.uptime := (kept .clock (by decide)).1
  have store : t.store = u.store := kept .store (by decide)
  have shift : t.shift = u.shift := kept .shift (by decide)
  have dis : t.dis = u.dis := kept .disablements (by decide)
  have service : t.service = u.service := kept .service (by decide)
  have queue : t.pending = u.pending := kept .queue (by decide)
  have meters : t.meters = u.meters := kept .meters (by decide)
  have det (d : DetNo) : t.det d = u.det d := State.det_congr (kept .detectors (by decide)) d
  have station (n : LineNo) : t.station n = u.station n := State.station_congr (kept .stations (by decide)) n
  have input (f : InputNo) : t.input f = u.input f := State.input_congr (kept .inputs (by decide)) f
  have detFaults (d : DetNo) : t.faults.get (.detector d) = u.faults.get (.detector d) := faults _ (by simp) (by simp)
  have stationFaults (n : LineNo) : t.faults.get (.station n) = u.faults.get (.station n) := faults _ (by simp) (by simp)
  unfold State.startedFrom State.flagsOf State.detCfg State.meter State.inputCfg at h ⊢
  simp only [time, store, shift, dis, service, queue, meters, det, station, input, detFaults, stationFaults]
  exact h

theorem mem_allSections (k : StoreSection) : k ∈ allSections := by cases k <;> decide

/-- At a start the store holds no fault, so what is raised or cleared there is DEFAULTED alone (R170, R177). -/
theorem State.startBlocks_announce (restart : Bool) (kind : Byte) (source : StartSource) :
    (s.startBlocks restart).announce kind source =
      (let v := (s.startBlocks restart).event .notice .start 0x40 0 0 ⟨kind, source.code, 0, 0, 0⟩
       if allSections.any fun k => ((s.startBlocks restart).flagsOf k).defaulted then v.raiseFault .store .defaulted
       else v) := by
  dsimp only
  generalize event : (s.startBlocks restart).event .notice .start 0x40 0 0 ⟨kind, source.code, 0, 0, 0⟩ = v
  have kept : KeptBut [.history, .link] (s.startBlocks restart) v := event ▸ State.event_kept _ _ _ _ _ _ _
  have flags (k : StoreSection) : v.flagsOf k = (s.startBlocks restart).flagsOf k :=
    State.flagsOf_congr (kept .store (by decide)) k
  have free (f : FaultCode) : v.holds .store f = false := by
    rw [State.holds, (kept .faults (by decide)).1, (s.startBlocks_faults restart).1, FaultTable.get_empty]
    simp [hasFault]
  have failed : v.store.flags.toList.any (·.writeFailed) = false := by
    rw [Bool.eq_false_iff, ne_eq, State.any_flags]
    rintro ⟨k, set⟩
    rw [flags, s.startBlocks_flagsOf restart k] at set
    cases set
  have defaulted : v.store.flags.toList.any (·.defaulted) =
      allSections.any fun k => ((s.startBlocks restart).flagsOf k).defaulted := by
    rw [Bool.eq_iff_iff, State.any_flags]
    simp [flags, mem_allSections]
  have first : (if v.store.flags.toList.any (·.writeFailed) then v.raiseFault .store .saveFailed
      else v.clearFault .store .saveFailed) = v := by
    simp [failed, State.clearFault, free]
  have second : v.clearFault .store .defaulted = v := by simp [State.clearFault, free]
  rw [State.announce, event]
  unfold State.deriveStoreFaults
  dsimp only
  rw [first, second, defaulted]

/-- A fault raised that is not held (R96). -/
theorem State.raiseFault_of_free {o : Obj} {f : FaultCode} (free : s.holds o f = false) :
    s.raiseFault o f = s.putFault o f true := by
  simp [State.raiseFault, free]

theorem State.announce_faults_of_ne (kind : Byte) (source : StartSource) {o : Obj} (other : o ≠ .store) :
    (s.announce kind source).faults.get o = s.faults.get o := by
  unfold State.announce
  rw [State.deriveStoreFaults_view (view := fun table => table.get o) fun f => unmoved_get other,
    (State.event_kept _ _ _ _ _ _ _ .faults (by decide)).1]

/-- A start announced leaves all but the store's fault, the history and the link (R166, R169). -/
theorem State.announce_startedFrom {u : State} (kind : Byte) (source : StartSource) (h : s.startedFrom u) :
    s.startedFrom (u.announce kind source) :=
  h.kept ((u.announce_kept kind source).mono (by decide)) fun o _ other => State.announce_faults_of_ne kind source other

/-! ### A power-on reset -/

/-- The part before the blocks are started by a power-on reset: the clock at 0 and the history empty (R166, R169). -/
def State.powered (s : State) : State := { s with uptime := 0, tenth := 0, history := ⟨[], 1⟩ }

theorem State.powerOn_eq (s : State) : s.powerOn = (s.powered.startBlocks false).announce 1 .none := rfl

theorem State.powerOn_rest (s : State) : KeptBut faultBlocks (s.powered.startBlocks false) s.powerOn :=
  State.announce_kept _ 1 .none

theorem State.powerOn_line (s : State) (n : LineNo) : s.powerOn.line n =
      { state := .off, stopCause := .none, entered := 0, fan := false, feed := false, gate := false, counter := 0,
        countWindow := if (s.powerOn.lineCfg n).sparkWindow = 0 then none
          else some (BitVec.ofNat 32 ((s.powerOn.lineCfg n).sparkWindow * 100)),
        startTimer := none, dwellTimer := none, gateTimer := none, rundownTimer := none,
        blind := decide (∀ d, (s.powerOn.detCfg d).line ≠ some n),
        blindTimer := if ∀ d, (s.powerOn.detCfg d).line ≠ some n
          then some (BitVec.ofNat 32 ((s.powerOn.lineCfg n).blindLimit * 1000)) else none,
        fstop := (s.line n).fstop, gopen := (s.line n).gopen } := by
  have store : s.powerOn.store = (s.powered.startBlocks false).store := s.powerOn_rest .store (by decide)
  rw [State.line_congr (s.powerOn_rest .lines (by decide)) n, s.powered.startBlocks_line_eq false n]
  have line : s.powered.line n = s.line n := rfl
  have time : s.powered.uptime = 0#32 := rfl
  simp only [State.lineCfg, State.detCfg, store, line, time, BitVec.ofNat_eq_ofNat, BitVec.zero_add, Bool.false_and, Bool.false_eq_true, if_false]
  congr 1

theorem State.powerOn_closure (s : State) (c : ClosureNo) : s.powerOn.closure c =
      { state := if (s.closure c).position = .opened then .held else .ready, direction := .none, hold := true
        travelTimer := if (s.powerOn.closureCfg c).kind = .damper ∧ (s.closure c).position ≠ .opened
          then some (BitVec.ofNat 32 ((s.powerOn.closureCfg c).travelTime * 1000)) else none
        waitTimer := none, entered := 0, origin := .none, copen := (s.closure c).copen, cshut := (s.closure c).cshut } := by
  have store : s.powerOn.store = (s.powered.startBlocks false).store := s.powerOn_rest .store (by decide)
  have closure : s.powered.closure c = s.closure c := rfl
  have time : s.powered.uptime = 0#32 := rfl
  rw [State.closure_congr (s.powerOn_rest .closures (by decide)) c, s.powered.startBlocks_closure_new false c rfl]
  simp only [State.closureCfg, store, closure, time, BitVec.ofNat_eq_ofNat, BitVec.zero_add]

/-- The START record and report of a power-on reset, and DEFAULTED where a section failed its check (R169, R177). -/
theorem State.powerOn_announced (s : State) :
    let failed := ∃ k, (s.powerOn.flagsOf k).defaulted = true
    let line_ : Link := { Link.fresh with sending := some ⟨⟨0x40, [0, 0, 0, 0, 0, 0, 1, 0, 0, 0, 0]⟩, ⟨0, 0⟩⟩ }
    (failed → s.powerOn.faults.store = 0x2000 ∧ s.powerOn.faultOutput = true ∧
      s.powerOn.settle.link = { line_ with notice := [⟨0x45, [0, 0, 0, 0, 8, 0, 14, 1, 0, 0, 0]⟩] } ∧
      s.powerOn.history = ⟨[⟨1, 0, .start, 0, 0, ⟨1, 0, 0, 0, 0⟩⟩, ⟨2, 0, .fault, 8, 0, ⟨14, 1, 0, 0, 0⟩⟩], 3⟩) ∧
    (¬failed → s.powerOn.faults.store = 0 ∧ s.powerOn.faultOutput = false ∧ s.powerOn.settle.link = line_ ∧
      s.powerOn.history = ⟨[⟨1, 0, .start, 0, 0, ⟨1, 0, 0, 0, 0⟩⟩], 2⟩) := by
  have flags (k : StoreSection) : s.powerOn.flagsOf k = (s.powered.startBlocks false).flagsOf k :=
    State.flagsOf_congr (s.powerOn_rest .store (by decide)) k
  have eq := s.powered.startBlocks_announce false 1 .none
  rw [← s.powerOn_eq] at eq
  have link := s.powered.startBlocks_link false
  have history : (s.powered.startBlocks false).history = ⟨[], 1⟩ := s.powered.startBlocks_history false
  have time : (s.powered.startBlocks false).uptime = 0 ∧ (s.powered.startBlocks false).tenth = 0 :=
    s.powered.startBlocks_time false
  have bit : addFault 0#16 .defaulted = 0x2000 := by decide
  have instant : enc32 0#32 = [0, 0, 0, 0] := by decide
  have faults := s.powered.startBlocks_faults false
  simp only [flags]
  generalize s.powered.startBlocks false = u at *
  refine ⟨fun failed => ?_, fun none => ?_⟩
  · have any : (allSections.any fun k => (u.flagsOf k).defaulted) = true := by
      simpa [mem_allSections] using failed
    have free : (u.event .notice .start 0x40 0 0 ⟨1, 0, 0, 0, 0⟩).holds .store .defaulted = false := by
      simp [State.holds, faults.1, FaultTable.get_empty, hasFault]
    have eq : s.powerOn = (u.event .notice .start 0x40 0 0 ⟨1, 0, 0, 0, 0⟩).putFault .store .defaulted true :=
      (eq.trans (if_pos any)).trans (State.raiseFault_of_free free)
    rw [eq]
    simp [State.settle_eq, State.putFault, State.deriveFault, State.faultDue, State.objEvent, State.event, State.record, State.report, faults, link, history, time,
      History.add, Link.report, Link.fresh, Link.choose, State.stamp, Config.historyCapacity, Config.noticeCapacity,
      faultQueue, FaultTable.put, FaultTable.get, FaultTable.empty, FaultTable.any, State.withLink, reportPayload, Obj.kindCode,
      Obj.num, byteOf, FaultCode.num, flagByte, bit, instant]
  · have any : (allSections.any fun k => (u.flagsOf k).defaulted) = false := by
      simpa [mem_allSections] using none
    have eq : s.powerOn = u.event .notice .start 0x40 0 0 ⟨1, 0, 0, 0, 0⟩ := eq.trans (if_neg (by simp [any]))
    rw [eq]
    simp [State.settle_eq, State.event, State.record, State.report, faults, link, history, time,
      History.add, Link.report, Link.fresh, Link.choose, State.stamp, Config.historyCapacity, Config.noticeCapacity,
      FaultTable.empty, reportPayload, State.withLink, instant]

/-- The clock and the history are no part of what a start comes from. -/
theorem State.startedFrom_of_powered (h : s.powered.startedFrom t) : s.startedFrom t := by
  unfold State.startedFrom at h ⊢
  exact h

/-- Settles O15: each block as the start puts it, and the announcement, which touches the store's fault, the history and
the link alone. -/
theorem powerOnResetStartsEveryBlock : Obligations.PowerOnResetStartsEveryBlock := by
  unfold Obligations.PowerOnResetStartsEveryBlock
  intro s
  have rest := s.powerOn_rest
  have clock : s.powerOn.uptime = 0 ∧ s.powerOn.tenth = 0 :=
    ⟨(rest .clock (by decide)).1.trans (s.powered.startBlocks_time false).1,
      (rest .clock (by decide)).2.trans (s.powered.startBlocks_time false).2⟩
  have from_ : s.startedFrom s.powerOn := 
    State.startedFrom_of_powered (State.announce_startedFrom 1 .none (s.powered.startBlocks_startedFrom false))
  have faults {o : Obj} (other : o ≠ .store) : s.powerOn.faults.get o = 0 := by
    rw [State.powerOn_eq, State.announce_faults_of_ne _ _ other, (s.powered.startBlocks_faults false).1,
      FaultTable.get_empty]
  have causes : s.powerOn.causes = [] :=
    (rest .causes (by decide) : _ = _).trans (s.powered.startBlocks_causes false)
  have zone (z : ZoneNo) : s.powerOn.zone z = ⟨.quiet, none⟩ := by
    have zones : s.powerOn.zones = _ := rest .zones (by decide)
    rw [State.zone, zones]
    exact s.powered.startBlocks_zone false z
  have sector (n : SectorNo) : s.powerOn.sector n = resetSector := by
    have sectors : s.powerOn.sectors = _ := rest .sectors (by decide)
    rw [State.sector, sectors]
    exact s.powered.startBlocks_sector false n
  have lines := s.powerOn_line
  have closures := s.powerOn_closure
  have announced := s.powerOn_announced
  have run : exec .powerOnReset s = .next s.powerOn.settle := rfl
  generalize s.powerOn = t at *
  exact ⟨t.settle, run, from_.kept ((State.settle_kept _).mono (by decide)) fun _ _ _ => rfl, clock.1, clock.2,
    fun n => ⟨lines n, faults (by simp)⟩, causes, zone, fun c => ⟨closures c, faults (by simp)⟩, sector, announced⟩

end Sys2Proof.Machine
end

