-- ==== Sys2Proof/Proofs/Levels.lean ====
section
/-! The level of a zone is the highest of its records' levels (R92). -/

namespace Sys2Proof.Machine

set_option Elab.async false -- one declaration after another: the check bounds the threads waiting on one another

variable {s t : State}

theorem Level.rank_injective {a b : Level} (same : a.rank = b.rank) : a = b := by
  cases a <;> cases b <;> simp_all [Level.rank]

theorem Level.max_rank (a b : Level) : (a.max b).rank = Nat.max a.rank b.rank := by
  unfold Level.max
  split
  · next less => exact (Nat.max_eq_right (Nat.le_of_lt less)).symm
  · next no => exact (Nat.max_eq_left (Nat.le_of_not_lt no)).symm

theorem Level.max_cases (a b : Level) : a.max b = a ∨ a.max b = b := by
  unfold Level.max
  split
  · exact .inr rfl
  · exact .inl rfl

/-- The highest level found in a list, from a level on: at least each, and one of them. -/
theorem foldl_max_level {α : Type} (l : List α) (p : α → Prop) [DecidablePred p] (f : α → Level) (a : Level) :
    let m := l.foldl (fun m r => if p r then m.max (f r) else m) a
    a.rank ≤ m.rank ∧ (∀ r ∈ l, p r → (f r).rank ≤ m.rank) ∧ (m = a ∨ ∃ r ∈ l, p r ∧ f r = m) := by
  induction l generalizing a with
  | nil => simp
  | cons x l ih =>
    obtain ⟨start, each, found⟩ := ih (if p x then a.max (f x) else a)
    simp only [List.foldl_cons]
    generalize l.foldl (fun m r => if p r then m.max (f r) else m) (if p x then a.max (f x) else a) = m at *
    by_cases mine : p x
    · rw [if_pos mine] at start found
      rw [Level.max_rank] at start
      refine ⟨le_trans (Nat.le_max_left _ _) start, fun r mem => ?_, ?_⟩
      · obtain rfl | mem := List.mem_cons.mp mem
        · exact fun _ => le_trans (Nat.le_max_right _ _) start
        · exact each r mem
      · obtain same | ⟨r, mem, own, eq⟩ := found
        · obtain first | second := a.max_cases (f x)
          · exact .inl (same.trans first)
          · exact .inr ⟨x, List.mem_cons_self, mine, (same.trans second).symm⟩
        · exact .inr ⟨r, List.mem_cons_of_mem _ mem, own, eq⟩
    · rw [if_neg mine] at start found
      refine ⟨start, fun r mem => ?_, ?_⟩
      · obtain rfl | mem := List.mem_cons.mp mem
        · exact fun own => absurd own mine
        · exact each r mem
      · exact found.imp_right fun ⟨r, mem, own⟩ => ⟨r, List.mem_cons_of_mem _ mem, own⟩

theorem levelOfZone_nil (z : ZoneNo) : levelOfZone [] z = .quiet := rfl

theorem le_levelOfZone {l : List Cause} {z : ZoneNo} {r : Cause} (mem : r ∈ l) (zone : r.zone = z) :
    r.level.rank ≤ (levelOfZone l z).rank :=
  (foldl_max_level l (fun r => r.zone = z) Cause.level .quiet).2.1 r mem zone

theorem levelOfZone_cases (l : List Cause) (z : ZoneNo) :
    levelOfZone l z = .quiet ∨ ∃ r ∈ l, r.zone = z ∧ r.level = levelOfZone l z :=
  (foldl_max_level l (fun r => r.zone = z) Cause.level .quiet).2.2

/-- A zone agrees with its records exactly where its level is the one they give (R92). -/
theorem zoneSound_iff {z : ZoneNo} : s.zoneSound z ↔ (s.zone z).level = levelOfZone s.causes z := by
  constructor
  · rintro ⟨each, found⟩
    apply Level.rank_injective
    apply Nat.le_antisymm
    · obtain quiet | ⟨r, mem, zone, eq⟩ := found
      · rw [quiet]
        exact Nat.zero_le _
      · rw [← eq]
        exact le_levelOfZone mem zone
    · obtain quiet | ⟨r, mem, zone, eq⟩ := levelOfZone_cases s.causes z
      · rw [quiet]
        exact Nat.zero_le _
      · rw [← eq]
        exact each r mem zone
  · intro eq
    rw [State.zoneSound, eq]
    exact ⟨fun r mem zone => le_levelOfZone mem zone, levelOfZone_cases s.causes z⟩

theorem State.highestOf_quiet (quiet : ∀ z, (s.zone z).level = .quiet) (set : ZoneSet) : s.highestOf set = .quiet := by
  obtain same | ⟨z, -, -, level⟩ :=
    (foldl_max_level (List.finRange 16) (fun z => zoneIn set z = true) (fun z => (s.zone z).level) .quiet).2.2
  · exact same
  · exact level.symm.trans (quiet z)

theorem State.zone_congr (same : t.zones = s.zones) (z : ZoneNo) : t.zone z = s.zone z := by
  simp only [State.zone, same]

/-- What the derivation of a zone leaves of its own record: the level of the records, and the instant of a change. -/
theorem State.deriveZone_zone (y z : ZoneNo) : (s.deriveZone y).zone z =
    if y = z ∧ (s.zone y).level ≠ levelOfZone s.causes y then ⟨levelOfZone s.causes y, some s.uptime⟩ else s.zone z := by
  unfold State.deriveZone
  dsimp only
  by_cases same : (s.zone y).level = levelOfZone s.causes y
  · simp [same]
  · rw [if_neg same, State.zone_congr (State.showSectors_kept _ y .zones (by decide)),
      State.zone_congr (State.handOn_kept _ y .zones (by decide))]
    simp [State.setZone_zone, same]

theorem State.deriveZone_causes (z : ZoneNo) : (s.deriveZone z).causes = s.causes :=
  s.deriveZone_kept z .causes (by decide)

end Sys2Proof.Machine
end

