-- ==== Sys2Proof/Proofs/Restart.lean ====
section
/-! A restart (R79, R101, R122, R138, R165, R166). After the start every line is at rest and no entry stands, so what
follows - the tests of the closures kept SHUT, the causes re-entered and the zones derived - touches no line and no
entry (`Restarted`). -/

namespace Sys2Proof.Machine

set_option Elab.async false -- one declaration after another: the check bounds the threads waiting on one another

variable {s t u : State}

/-! ### With every line at rest -/

/-- Every line OFF or STOPPED, and no disablement entry. -/
structure Resting (s : State) : Prop where
  still : ∀ n, (s.line n).state = .off ∨ (s.line n).state = .stopped
  free : s.dis.entries = []

/-- What a restart may change once every block has started: causes, zones, closures not SHUT, their faults, sectors, and
the history and link. -/
structure Restarted (s t : State) : Prop where
  kept : KeptBut [.causes, .zones, .closures, .sectors, .faults, .history, .link, .freeValues] s t
  faults : ∀ o, (∀ c, o ≠ .closure c) → t.faults.get o = s.faults.get o
  shut : ∀ c, (s.closure c).state = .shut → t.closure c = s.closure c

theorem Resting.of_kept (h : Resting s) (kept : KeptBut [.causes, .zones, .closures, .sectors, .faults, .history, .link,
    .freeValues] s t) : Resting t where
  still n := by
    rw [State.line_congr (kept .lines (by decide))]
    exact h.still n
  free := by rw [(kept .disablements (by decide) : t.dis = s.dis), h.free]

theorem Restarted.resting (h : Restarted s t) (rest : Resting s) : Resting t := rest.of_kept h.kept

theorem Restarted.refl (s : State) : Restarted s s := ⟨KeptBut.refl _ s, fun _ _ => rfl, fun _ _ => rfl⟩

theorem Restarted.trans (h : Restarted s t) (h' : Restarted t u) : Restarted s u where
  kept := h.kept.trans h'.kept
  faults o other := (h'.faults o other).trans (h.faults o other)
  shut c state := (h'.shut c (by rw [h.shut c state]; exact state)).trans (h.shut c state)

/-- What touches neither closures nor faults. -/
theorem KeptBut.restarted (kept : KeptBut [.causes, .zones, .sectors, .history, .link, .freeValues] s t) :
    Restarted s t where
  kept := kept.mono (by decide)
  faults o _ := by rw [(kept .faults (by decide)).1]
  shut c _ := State.closure_congr (kept .closures (by decide)) c

theorem Restarted.all {k : Nat} {f : Fin k → State → State} (step : ∀ i v, Resting v → Restarted v (f i v))
    (rest : Resting s) : Restarted s (forAll f s) :=
  forAll_keeps (P := fun v => Restarted s v) (fun i v hv => hv.trans (step i v (hv.resting rest))) (.refl s)

theorem Resting.protectLine (h : Resting s) (n : LineNo) (cause : StopCause) : s.protectLine n cause = s := by
  unfold State.protectLine
  obtain off | stopped := h.still n
  · simp only [off]
  · simp only [stopped]

theorem Resting.demandStop (h : Resting s) (c : ClosureNo) : s.demandStop c = s := by
  unfold State.demandStop
  split
  · rfl
  · exact h.protectLine _ _

theorem Resting.demandIfRunning (h : Resting s) (c : ClosureNo) : s.demandIfRunning c = s := by
  unfold State.demandIfRunning
  split
  · rfl
  · dsimp only
    split
    · exact h.protectLine _ _
    · rfl

theorem State.endActivity_of_free (free : s.dis.entries = []) (x : Target) : s.endActivity x = s := by
  simp [State.endActivity, State.entryOf, free]

/-- With no entry, a closure's move touches closures, its own faults and the reports. -/
theorem Resting.moveClosure (h : Resting s) {c : ClosureNo} (open_ : (s.closure c).state ≠ .shut) (st : ClosureState)
    (dir : Direction) (o : ReleaseOrigin) (f : Closure → Closure) : Restarted s (s.moveClosure c st dir o f) where
  kept := by
    obtain same | ⟨x, v, -, kept, eq⟩ := s.moveClosure_cases c st dir o f
    · rw [same]
      exact .refl _ s
    · have moved : KeptBut [.closures, .faults, .history, .link] s v :=
        ((s.setClosure_kept c x).mono (by decide)).andThen kept (by decide)
      have free : v.dis.entries = [] := by rw [(moved .disablements (by decide) : v.dis = s.dis), h.free]
      rw [eq, State.endActivity_of_free free, ite_self]
      exact moved.mono (by decide)
  faults p other := State.moveClosure_view (view := fun table => table.get p) (unmoved_get (other c)) _ _ _ _
  shut d state := State.moveClosure_closure_of_ne (by rintro rfl; exact open_ state) _ _ _ _

theorem Resting.letGo (h : Resting s) {c : ClosureNo} (open_ : (s.closure c).state ≠ .shut) (o : ReleaseOrigin) :
    Restarted s (s.letGo c o) := by
  unfold State.letGo State.startTravel
  split
  · exact h.moveClosure open_ _ _ _ _
  · exact h.moveClosure open_ _ _ _ _

theorem Resting.releaseClosure (h : Resting s) (c : ClosureNo) (o : ReleaseOrigin) :
    Restarted s (s.releaseClosure c o) := by
  unfold State.releaseClosure
  dsimp only
  split
  · next releasable =>
    have open_ : (s.closure c).state ≠ .shut := by
      intro shut
      simp [Closure.releasable, shut] at releasable
    have put : Restarted s (s.setClosure c { s.closure c with origin := o }) :=
      ⟨(s.setClosure_kept c _).mono (by decide), fun _ _ => rfl, fun d state => by
        rw [State.setClosure_closure, if_neg (by rintro rfl; exact open_ state)]⟩
    have rest := put.resting h
    generalize marked : s.setClosure c { s.closure c with origin := o } = v at *
    have open_ : (v.closure c).state ≠ .shut := by simpa [← marked] using open_
    refine put.trans ?_
    split
    · exact rest.letGo open_ o
    · split
      · have moved := rest.moveClosure open_ .waiting .none o fun x =>
          { x with travelTimer := none, waitTimer := some (v.after ((v.closureCfg c).waitMax * 1000)) }
        rw [(moved.resting rest).demandStop]
        exact moved
      · have gone := rest.letGo open_ o
        split
        · rw [(gone.resting rest).demandIfRunning]
          exact gone
        · exact gone
  · exact .refl s

theorem Resting.handOn (h : Resting s) (z : ZoneNo) : Restarted s (s.handOn z) := by
  have early : forAll (State.tripEarly z) s = s := by
    refine forAll_keeps (P := fun v => v = s) (fun n v same => ?_) rfl
    subst same
    have no : v.raced z n = false := by
      obtain off | stopped := h.still n
      · simp [State.raced, Line.stoppable, off]
      · simp [State.raced, Line.stoppable, stopped]
    simp [State.tripEarly, no]
  have closures : Restarted s (s.handClosures z) := Restarted.all (fun c v rest => by
    unfold State.triggerClosure
    split
    · exact rest.releaseClosure c _
    · exact .refl v) h
  have lines : (s.handClosures z).handLines z = s.handClosures z := by
    refine forAll_keeps (P := fun v => v = s.handClosures z) (fun n v same => ?_) rfl
    subst same
    split
    · exact (closures.resting h).protectLine n _
    · rfl
  rw [State.handOn, early, lines]
  exact closures

theorem Resting.deriveZone (h : Resting s) (z : ZoneNo) : Restarted s (s.deriveZone z) := by
  unfold State.deriveZone
  dsimp only
  split
  · exact .refl s
  · have put (x : Zone) (d : Detail) : Restarted s ((s.setZone z x).objEvent .alarm .zoneLevel 0x43 (.zone z) d) :=
      (((s.setZone_kept z x).mono (by decide)).andThen (State.objEvent_kept _ _ _ _ _ _) (by decide)).restarted
    exact ((put _ _).trans (((put _ _).resting h).handOn z)).trans ((State.showSectors_kept _ z).mono (by decide)).restarted

theorem State.putLineCause_path (n : LineNo) (z : ZoneNo) (l : Level) :
    Path [.log, .reentry, .sector] s (s.putCause (.line n) z l none) :=
  s.raiseThen_path (fun t y => (t.handSectors_path y).mono (by decide)) (by decide) _ z l _
    ((Change.reentry n z l).path (by decide))

/-- A cause re-entered touches the causes and the sectors. -/
theorem State.putLineCause_kept (n : LineNo) (z : ZoneNo) (l : Level) :
    KeptBut [.causes, .sectors, .history, .link, .freeValues] s (s.putCause (.line n) z l none) :=
  fun b no => (s.putLineCause_path n z l).kept b (by cases b <;> simp_all [ChangeKind.blocks, sectorBlocks])

theorem State.reenter_restarted (before : State) (n : LineNo) : Restarted s (before.reenter n s) := by
  unfold State.reenter State.raiseLineCause
  split
  · split
    · exact .refl s
    · exact ((s.putLineCause_kept n _ _).mono (by decide)).restarted
  · exact .refl s

theorem State.testShut_restarted (c : ClosureNo) : Restarted s (s.testShut c) := by
  unfold State.testShut
  split
  · exact ⟨(s.raiseFault_kept _ _).mono (by decide),
      fun o other => s.raiseFault_view (view := fun table => table.get o) (unmoved_get (other c)),
      fun d _ => by simp⟩
  · exact .refl s

/-! ### The steps of a restart -/

/-- The part with every block started, before anything is recorded. -/
def State.blank (s : State) : State := s.startBlocks true

/-- START recorded, DEFAULTED raised. -/
def State.loaded (s : State) (source : StartSource) : State := s.blank.announce 2 source

/-- The closures kept SHUT tested. -/
def State.tested (s : State) (source : StartSource) : State := forAll State.testShut (s.loaded source)

/-- The causes of STOPPED lines re-entered. -/
def State.reentered (s : State) (source : StartSource) : State := forAll s.reenter (s.tested source)

section
variable (s) (source : StartSource)

theorem State.blank_resting : Resting s.blank where
  still n := by
    have rest := start_line_rest (s := s) true 2 .none n
    rwa [State.announce_line] at rest
  free := by rw [State.blank, State.startBlocks_dis]

theorem State.blank_time : s.blank.uptime = s.uptime := (s.startBlocks_time true).1

theorem State.loaded_kept : KeptBut faultBlocks s.blank (s.loaded source) := State.announce_kept _ 2 source

theorem State.loaded_resting : Resting (s.loaded source) :=
  s.blank_resting.of_kept ((s.loaded_kept source).mono (by decide))

theorem State.tested_restarted : Restarted (s.loaded source) (s.tested source) :=
  Restarted.all (fun c _ _ => State.testShut_restarted c) (s.loaded_resting source)

theorem State.reentered_restarted : Restarted (s.loaded source) (s.reentered source) :=
  (s.tested_restarted source).trans (Restarted.all (fun n _ _ => State.reenter_restarted s n)
    ((s.tested_restarted source).resting (s.loaded_resting source)))

theorem State.reentered_kept : KeptBut [.causes, .zones, .closures, .sectors, .faults, .history, .link, .freeValues]
    s.blank (s.reentered source) :=
  ((s.loaded_kept source).mono (by decide)).trans (s.reentered_restarted source).kept

/-! ### The causes re-entered -/

/-- The record a restart re-enters for a line, with the reloaded settings of `v` (R79). -/
def State.reentry (s v : State) (n : LineNo) : Option Cause :=
  match (s.line n).state, s.causeOf (.line n), (v.lineCfg n).zone with
  | .stopped, some r, some z => some ⟨.line n, z, r.level, true, s.uptime, s.uptime, 0, none⟩
  | _, _, _ => none

end

theorem forAll_congr {k : Nat} {f g : Fin k → State → State} {P : State → Prop} (keeps : ∀ i u, P u → P (g i u))
    (eq : ∀ i u, P u → f i u = g i u) (h : P s) : forAll f s = forAll g s := by
  have each (l : List (Fin k)) : ∀ u, P u → forEach l f u = forEach l g u := by
    induction l with
    | nil => exact fun _ _ => rfl
    | cons a l ih =>
      intro u hu
      show forEach l f (f a u) = forEach l g (g a u)
      rw [eq a u hu]
      exact ih _ (keeps a u hu)
  exact each _ s h

theorem State.putCause_causes (src : Source) (z : ZoneNo) (l : Level) (hold : Option Instant) :
    (s.putCause src z l hold).causes = s.raisedCauses src z l hold := by
  have handed (v : State) (y : ZoneNo) (r : Cause) (a b : Option Level) : ((v.causeEvent r a b).handSectors y).causes = v.causes :=
    ((State.handSectors_kept _ y .causes (by decide) : _ = _)).trans (v.causeEvent_kept r a b .causes (by decide))
  unfold State.putCause State.raiseThen State.raisedCauses
  cases s.causeOf src with
  | none => exact handed _ _ _ _ _
  | some r =>
    dsimp only
    by_cases higher : r.level.rank < l.rank
    · rw [if_pos higher, if_pos higher]
      exact handed _ _ _ _ _
    · rw [if_neg higher, if_neg higher]

/-- A line's re-entry, by its state before the restart. -/
theorem State.reenter_eq {v : State} {n : LineNo} (same : (v.line n).state = .stopped ↔ (s.line n).state = .stopped) :
    s.reenter n v = match (s.line n).state, s.causeOf (.line n), (v.lineCfg n).zone with
      | .stopped, some r, some z => v.putCause (.line n) z r.level none
      | _, _, _ => v := by
  unfold State.reenter State.raiseLineCause State.causeLevel
  by_cases stopped : (s.line n).state = .stopped
  · rw [stopped, same.mpr stopped]
    cases s.causeOf (.line n) <;> cases (v.lineCfg n).zone <;> rfl
  · have now : (v.line n).state ≠ .stopped := fun yes => stopped (same.mp yes)
    split
    · contradiction
    · split
      · contradiction
      · rfl

section
variable (s) (source : StartSource)

/-- What stands while causes are re-entered: the lines as started, the settings loaded and the clock. -/
def State.reentering (s v : State) : Prop :=
  KeptBut [.causes, .zones, .closures, .sectors, .faults, .history, .link, .freeValues] s.blank v

variable {s} in
theorem State.reentering.stopped {v : State} (h : s.reentering v) (n : LineNo) :
    (v.line n).state = .stopped ↔ (s.line n).state = .stopped := by
  rw [State.line_congr (h .lines (by decide)), State.blank, State.startBlocks_line_eq]
  simp

variable {s} in
theorem State.reentering.lineCfg {v : State} (h : s.reentering v) (n : LineNo) : v.lineCfg n = s.blank.lineCfg n := by
  have store : v.store = s.blank.store := h .store (by decide)
  simp only [State.lineCfg, store]

variable {s} in
theorem State.reentering.time {v : State} (h : s.reentering v) : v.uptime = s.uptime :=
  (h .clock (by decide)).1.trans s.blank_time

variable {s} in
theorem State.reentering.reenter {v : State} (h : s.reentering v) (n : LineNo) : s.reentering (s.reenter n v) :=
  h.trans (State.reenter_restarted s n).kept

theorem State.tested_reentering : s.reentering (s.tested source) :=
  ((s.loaded_kept source).mono (by decide)).trans (s.tested_restarted source).kept

variable {s} in
theorem State.reentering.causeOf_of_ne {v : State} (h : s.reentering v) {n : LineNo} {src : Source} (other : src ≠ .line n) :
    (s.reenter n v).causeOf src = v.causeOf src := by
  rw [State.reenter_eq (h.stopped n)]
  split
  · rw [State.causeOf, State.putCause_causes, State.raisedCauses_of_ne other]
  · rfl

variable {s} in
theorem State.reentering.causeOf_self {v : State} (h : s.reentering v) {n : LineNo} (new : v.causeOf (.line n) = none) :
    (s.reenter n v).causeOf (.line n) = s.reentry s.blank n := by
  rw [State.reenter_eq (h.stopped n), State.reentry, h.lineCfg]
  split
  · next stopped found zone => rw [State.causeOf, State.putCause_causes, State.raisedCauses_self, new, h.time]; rfl
  · exact new

theorem State.loaded_causes : (s.loaded source).causes = [] :=
  (s.loaded_kept source .causes (by decide) : _ = _).trans (s.startBlocks_causes true)

theorem State.tested_causes : (s.tested source).causes = [] := by
  refine forAll_keeps (P := fun v => v.causes = []) (fun c v hv => ?_) (s.loaded_causes source)
  unfold State.testShut
  split
  · rwa [State.raiseFault_causes]
  · exact hv

/-- Each STOPPED line's cause is re-entered (R79). -/
theorem State.reentered_causeOf (n : LineNo) : (s.reentered source).causeOf (.line n) = s.reentry s.blank n := by
  refine (forAll_once (i := n) (Before := fun v => s.reentering v ∧ v.causeOf (.line n) = none)
    (After := fun v => s.reentering v ∧ v.causeOf (.line n) = s.reentry s.blank n)
    (fun v hv => ⟨hv.1.reenter n, hv.1.causeOf_self hv.2⟩) (fun m v other hv => ?_) (fun m v other hv => ?_)
    ⟨s.tested_reentering source, ?_⟩).2
  · exact ⟨hv.1.reenter m, by rw [hv.1.causeOf_of_ne (by simpa using Ne.symm other), hv.2]⟩
  · exact ⟨hv.1.reenter m, by rw [hv.1.causeOf_of_ne (by simpa using Ne.symm other), hv.2]⟩
  · rw [State.causeOf, s.tested_causes source]
    rfl

/-- A raise makes or changes the records of its own source. -/
theorem State.mem_raisedCauses {v : State} {src : Source} {z : ZoneNo} {l : Level} {hold : Option Instant} {r : Cause}
    (mem : r ∈ v.raisedCauses src z l hold) : r.source = src ∨ r ∈ v.causes := by
  unfold State.raisedCauses at mem
  split at mem
  · obtain there | rfl : r ∈ v.causes ∨ r = _ := by simpa using mem
    · exact .inr there
    · exact .inl rfl
  · next old found =>
    split at mem
    all_goals
      obtain ⟨x, there, rfl⟩ := List.mem_map.mp mem
      split
      · next own => exact .inl (by simp [Cause.risen, own, State.causeOf_source found])
      · exact .inr there

/-- No other cause is entered. -/
theorem State.reentered_sources : ∀ r ∈ (s.reentered source).causes, ∃ n, r.source = .line n := by
  refine forAll_keeps (P := fun v => ∀ r ∈ v.causes, ∃ n, r.source = .line n) (fun n v hv r mem => ?_) ?_
  · unfold State.reenter State.raiseLineCause at mem
    split at mem
    · split at mem
      · exact hv r mem
      · rw [State.putCause_causes] at mem
        obtain own | there := State.mem_raisedCauses mem
        · exact ⟨n, own⟩
        · exact hv r there
    · exact hv r mem
  · rw [s.tested_causes source]
    simp

/-! ### The zones derived -/

theorem State.reentered_zone (z : ZoneNo) : (s.reentered source).zone z = ⟨.quiet, none⟩ := by
  have loaded : (s.loaded source).zones = s.blank.zones := s.loaded_kept source .zones (by decide)
  have tested : (s.tested source).zones = s.blank.zones := by
    refine forAll_keeps (P := fun v => v.zones = s.blank.zones) (fun c v hv => ?_) loaded
    unfold State.testShut
    split
    · rwa [State.raiseFault_zones]
    · exact hv
  have reentered : (s.reentered source).zones = s.blank.zones := by
    refine forAll_keeps (P := fun v => v.zones = s.blank.zones) (fun n v hv => ?_) tested
    unfold State.reenter State.raiseLineCause
    split
    · split
      · exact hv
      · exact (v.putLineCause_kept n _ _ .zones (by decide) : _ = _).trans hv
    · exact hv
  rw [State.zone_congr reentered, State.blank, State.startBlocks_zone]

/-- The last step of a restart derives every zone: where the re-entered records still give QUIET nothing follows, and
where they do not the zone is derived (R92). -/
theorem State.restart_eq : s.restart source = forAll (fun z v => v.deriveZone z) (s.reentered source) := by
  have step (v : State) (z : ZoneNo) (derived : ∀ y, (v.zone y).level = .quiet ∨ (v.zone y).level = levelOfZone v.causes y) (y : ZoneNo) :
      ((v.deriveZone z).zone y).level = .quiet ∨ ((v.deriveZone z).zone y).level = levelOfZone (v.deriveZone z).causes y := by
    rw [v.deriveZone_zone, v.deriveZone_causes]
    split
    · next here => exact .inr (here.1 ▸ rfl)
    · exact derived y
  refine forAll_congr (P := fun v => ∀ y, (v.zone y).level = .quiet ∨ (v.zone y).level = levelOfZone v.causes y)
    (fun z v hv => step v z hv) (fun z v hv => ?_) (fun y => .inl (congrArg Zone.level (s.reentered_zone source y)))
  split
  · next quiet =>
    have same : (v.zone z).level = levelOfZone v.causes z := by
      obtain first | second := hv z
      · rw [first, ← quiet, levelOfZone_nil]
      · exact second
    simp [State.deriveZone, same]
  · rfl

theorem State.restart_causes : (s.restart source).causes = (s.reentered source).causes := by
  rw [State.restart_eq]
  exact forAll_keeps (P := fun v => v.causes = (s.reentered source).causes) (fun z v hv => (v.deriveZone_causes z).trans hv) rfl

theorem State.restart_restarted : Restarted (s.loaded source) (s.restart source) := by
  rw [State.restart_eq]
  exact (s.reentered_restarted source).trans (Restarted.all (fun z _ rest => rest.deriveZone z)
    ((s.reentered_restarted source).resting (s.loaded_resting source)))

theorem State.restart_kept : KeptBut [.causes, .zones, .closures, .sectors, .faults, .history, .link, .freeValues]
    s.blank (s.restart source) :=
  ((s.loaded_kept source).mono (by decide)).trans (s.restart_restarted source).kept

/-- Each zone at the level of the re-entered records, with the instant of the restart where that is not QUIET. -/
theorem State.restart_zone (z : ZoneNo) : (s.restart source).zoneSound z ∧
    ((s.restart source).zone z).changed =
      if ((s.restart source).zone z).level = .quiet then none else some s.uptime := by
  have zone : (s.restart source).zone z =
      if levelOfZone (s.reentered source).causes z = .quiet then ⟨.quiet, none⟩
      else ⟨levelOfZone (s.reentered source).causes z, some s.uptime⟩ := by
    rw [s.restart_eq source]
    have derived (y : ZoneNo) (v : State) (same : v.causes = (s.reentered source).causes ∧ v.uptime = s.uptime) :
        (v.deriveZone y).causes = (s.reentered source).causes ∧ (v.deriveZone y).uptime = s.uptime :=
      ⟨(v.deriveZone_causes y).trans same.1, (v.deriveZone_kept y .clock (by decide)).1.trans same.2⟩
    refine (forAll_once (i := z)
      (Before := fun v => (v.causes = (s.reentered source).causes ∧ v.uptime = s.uptime) ∧ v.zone z = ⟨.quiet, none⟩)
      (After := fun v => v.zone z = if levelOfZone (s.reentered source).causes z = .quiet then ⟨.quiet, none⟩
        else ⟨levelOfZone (s.reentered source).causes z, some s.uptime⟩)
      (fun v hv => ?_) (fun y v other hv => ⟨derived y v hv.1, ?_⟩) (fun y v other hv => ?_) ⟨⟨rfl, ?_⟩, s.reentered_zone source z⟩)
    · rw [v.deriveZone_zone, hv.1.1, hv.1.2, hv.2]
      by_cases quiet : levelOfZone (s.reentered source).causes z = .quiet
      · simp [quiet]
      · rw [if_pos ⟨rfl, Ne.symm quiet⟩, if_neg quiet]
    · rw [v.deriveZone_zone, if_neg (by simp [other]), hv.2]
    · rw [v.deriveZone_zone, if_neg (by simp [other]), hv]
    · exact (s.reentered_kept source .clock (by decide)).1.trans s.blank_time
  rw [zoneSound_iff, s.restart_causes source, zone]
  generalize levelOfZone (s.reentered source).causes z = level
  by_cases quiet : level = .quiet
  · rw [if_pos quiet]
    exact ⟨quiet.symm, rfl⟩
  · rw [if_neg quiet]
    exact ⟨rfl, (if_neg quiet).symm⟩

/-! ### The closures kept SHUT -/

/-- A closure kept SHUT, as a restart starts it (R122). -/
def Closure.keptShut (x : Closure) : Closure :=
  { x with direction := .none, hold := false, travelTimer := none, waitTimer := none }

theorem Closure.fresh_kept (x : Closure) (shut : x.state = .shut) (now e : Instant) (k : ClosureKind) :
    x.fresh true now e k = x.keptShut := by
  simp [Closure.fresh, Closure.keptShut, shut]

theorem State.blank_shut {c : ClosureNo} (shut : (s.closure c).state = .shut) : s.blank.closure c = (s.closure c).keptShut := by
  have kept : (true && (s.closure c).state == .shut) = true := by simp [shut]
  have start := s.startBlocks_closure true c
  rw [kept, Closure.fresh_kept _ shut] at start
  exact start

theorem State.loaded_faults {o : Obj} (other : o ≠ .store) : (s.loaded source).faults.get o = 0 := by
  rw [State.loaded, State.announce_faults_of_ne _ _ other, State.blank, (s.startBlocks_faults true).1,
    FaultTable.get_empty]

theorem State.loaded_closure (c : ClosureNo) : (s.loaded source).closure c = s.blank.closure c :=
  State.closure_congr (s.loaded_kept source .closures (by decide)) c

theorem State.tested_holds {c : ClosureNo} (shut : (s.closure c).state = .shut) :
    (s.tested source).holds (.closure c) .openedWhileShut = decide ((s.closure c).position = .opened) := by
  have test (v : State) (d : ClosureNo) : (v.testShut d).closure c = v.closure c := by
    unfold State.testShut
    split <;> simp
  have pass (v : State) (d : ClosureNo) (other : d ≠ c) :
      (v.testShut d).holds (.closure c) .openedWhileShut = v.holds (.closure c) .openedWhileShut := by
    unfold State.testShut
    split
    · rw [State.raiseFault_holds (o := .closure d) trivial]
      simp [Ne.symm other]
    · rfl
  refine forAll_once (i := c)
    (Before := fun v => v.closure c = s.blank.closure c ∧ v.holds (.closure c) .openedWhileShut = false)
    (After := fun v => v.holds (.closure c) .openedWhileShut = decide ((s.closure c).position = .opened))
    (fun v hv => ?_) (fun d v other hv => ⟨(test v d).trans hv.1, (pass v d other).trans hv.2⟩)
    (fun d v other hv => (pass v d other).trans hv) ⟨s.loaded_closure source c, ?_⟩
  · unfold State.testShut
    rw [hv.1, s.blank_shut shut]
    by_cases opened : (s.closure c).position = .opened
    · rw [if_pos ⟨shut, opened⟩, State.raiseFault_holds (o := .closure c) trivial]
      simp [opened]
    · rw [if_neg fun both => opened both.2, hv.2]
      simp [opened]
  · rw [State.holds, s.loaded_faults source (by simp)]
    simp [hasFault]

theorem State.reenter_puts (v : State) (n : LineNo) : Path [.log, .reentry, .sector] v (s.reenter n v) := by
  unfold State.reenter State.raiseLineCause
  split
  · split
    · exact .refl _ v
    · exact v.putLineCause_path n _ _
  · exact .refl _ v

/-- What follows the closures' test raises and clears no fault of a closure but STUCK. -/
theorem State.restart_after_test : Path (.reentry :: zoneKinds) (s.tested source) (s.restart source) := by
  rw [State.restart_eq]
  exact Path.trans ((Path.all (fun n v => s.reenter_puts v n) (s.tested source)).mono (by decide))
    ((Path.all (fun z v => v.deriveZone_path z) (s.reentered source)).mono (by decide))

theorem State.restart_holds (c : ClosureNo) :
    (s.restart source).holds (.closure c) .openedWhileShut = (s.tested source).holds (.closure c) .openedWhileShut := by
  have free (k : ChangeKind) (mem : k ∈ ChangeKind.reentry :: zoneKinds) :
      k.mayPut (.closure c) .openedWhileShut = false := by
    fin_cases mem <;> rfl
  refine (s.restart_after_test source).keeps
    (P := fun v => v.holds (.closure c) .openedWhileShut = (s.tested source).holds (.closure c) .openedWhileShut)
    (fun k mem v w change hv => ?_) rfl
  rw [change.holds_kept (free k mem), hv]

/-! ### With no cause re-entered -/

variable {s} in
theorem State.reentering.reenter_none {v : State} (h : s.reentering v) {n : LineNo} (none : s.reentry s.blank n = none) :
    s.reenter n v = v := by
  rw [State.reenter_eq (h.stopped n)]
  rw [State.reentry, ← h.lineCfg n] at none
  split
  · next stopped found zone =>
    simp only [stopped, found, zone] at none
    cases none
  · rfl

/-- Without a cause re-entered, a restart ends with the tests of the closures kept SHUT. -/
theorem State.restart_eq_tested (none : (s.restart source).causes = []) : s.restart source = s.tested source := by
  rw [State.restart_causes] at none
  have no (n : LineNo) : s.reentry s.blank n = .none := by
    rw [← s.reentered_causeOf source n, State.causeOf, none]
    rfl
  have same : s.reentered source = s.tested source :=
    forAll_keeps (P := fun v => v = s.tested source)
      (fun n v hv => by rw [hv, (s.tested_reentering source).reenter_none (no n)]) rfl
  rw [State.restart_eq, same]
  refine forAll_keeps (P := fun v => v = s.tested source) (fun z v hv => ?_) rfl
  have quiet := s.reentered_zone source z
  rw [same] at quiet none
  have level : ((s.tested source).zone z).level = levelOfZone (s.tested source).causes z := by
    rw [quiet, none, levelOfZone_nil]
  rw [hv, State.deriveZone, if_pos level]

theorem State.tested_closure (c : ClosureNo) : (s.tested source).closure c = s.blank.closure c := by
  refine forAll_keeps (P := fun v => v.closure c = s.blank.closure c) (fun d v hv => ?_) (s.loaded_closure source c)
  unfold State.testShut
  split
  · rwa [State.raiseFault_closure]
  · exact hv

/-- The test of the closures finds no fault at one that was not SHUT. -/
theorem State.tested_faults {c : ClosureNo} (open_ : (s.closure c).state ≠ .shut) :
    (s.tested source).faults.get (.closure c) = 0 := by
  have state : (s.blank.closure c).state ≠ .shut := by
    rw [State.blank, s.startBlocks_closure_new true c (by simp [open_])]
    dsimp only
    split <;> decide
  refine (forAll_keeps (P := fun v => v.closure c = s.blank.closure c ∧ v.faults.get (.closure c) = 0) (fun d v hv => ?_)
    ⟨s.loaded_closure source c, s.loaded_faults source (by simp)⟩).2
  unfold State.testShut
  split
  · next shut =>
    have other : d ≠ c := by
      rintro rfl
      exact state (hv.1 ▸ shut.1)
    refine ⟨by rw [State.raiseFault_closure, hv.1], ?_⟩
    rw [v.raiseFault_view (view := fun table => table.get (.closure c)) (unmoved_get (by simpa using Ne.symm other))]
    exact hv.2
  · exact hv

/-! ### The reports of a restart -/

/-- A link that has dropped no report and has room for some more notices. -/
def Link.roomFor (k : Link) (more : Nat) : Prop := k.dropped = false ∧ k.notice.length + more ≤ 32

theorem State.raiseFault_roomFor {v : State} {o : Obj} {f : FaultCode} {more : Nat} (water : f ≠ .noWater)
    (h : v.link.roomFor (more + 1)) : (v.raiseFault o f).link.roomFor more := by
  unfold State.raiseFault
  split
  · exact ⟨h.1, by have := h.2; omega⟩
  · obtain ⟨kept, room⟩ := h
    have short : v.link.notice.length < 32 := by omega
    have queue : faultQueue f true = .notice := by simp [faultQueue, water]
    simp only [State.putFault, State.deriveFault, State.objEvent, State.event, State.report, State.record, queue,
      Link.report, Config.noticeCapacity, if_pos short, Link.roomFor, List.length_append, List.length_cons, List.length_nil]
    exact ⟨kept, by omega⟩

theorem State.loaded_eq : s.loaded source =
    (let v := s.blank.event .notice .start 0x40 0 0 ⟨2, source.code, 0, 0, 0⟩
     if allSections.any fun k => (s.blank.flagsOf k).defaulted then v.raiseFault .store .defaulted else v) :=
  s.startBlocks_announce true 2 source

/-- What a restart announces: the record and report of START (R169). -/
theorem State.blank_event (d : Detail) : s.blank.event .notice .start 0x40 0 0 d =
    { s.blank with
      history := s.history.add s.uptime .start 0 0 d
      link := { Link.fresh with notice := [⟨0x40, enc32 s.uptime ++ [0, 0, d.d0, d.d1, d.d2, d.d3, d.d4]⟩] } } := by
  have link : s.blank.link = Link.fresh := s.startBlocks_link true
  have history : s.blank.history = s.history := s.startBlocks_history true
  simp [State.event, State.record, State.report, reportPayload, link, history, s.blank_time, Link.report, Link.fresh,
    Config.noticeCapacity]

theorem State.loaded_roomFor : (s.loaded source).link.roomFor 16 := by
  have start (d : Detail) : (s.blank.event .notice .start 0x40 0 0 d).link.roomFor 17 := by
    rw [s.blank_event]
    exact ⟨rfl, by simp⟩
  rw [State.loaded_eq]
  dsimp only
  split
  · exact State.raiseFault_roomFor (by decide) (start _)
  · exact ⟨(start _).1, by have := (start ⟨2, source.code, 0, 0, 0⟩).2; omega⟩

theorem State.tested_dropped : (s.tested source).link.dropped = false := by
  have each (l : List ClosureNo) : ∀ v : State, v.link.roomFor l.length → (forEach l State.testShut v).link.roomFor 0 := by
    induction l with
    | nil => exact fun v hv => hv
    | cons c l ih =>
      intro v hv
      refine ih (v.testShut c) ?_
      unfold State.testShut
      split
      · exact State.raiseFault_roomFor (by decide) hv
      · exact ⟨hv.1, by have := hv.2; simp at this; omega⟩
  have room : (s.loaded source).link.roomFor (List.finRange 16).length := by
    rw [List.length_finRange]
    exact s.loaded_roomFor source
  have listed : s.tested source = forEach (List.finRange 16) State.testShut (s.loaded source) := rfl
  have after := each (List.finRange 16) (s.loaded source) room
  rw [← listed] at after
  exact after.1

end

/-! ### The lines and the closures of a restart -/

/-- A line after a restart (R79), with the reloaded settings of `v`. -/
def State.lineAfter (s v : State) (n : LineNo) : Line :=
  { state := if (s.line n).state = .stopped then .stopped else .off
    stopCause := if (s.line n).state = .stopped then (s.line n).stopCause else .none
    entered := if (s.line n).state = .stopped then (s.line n).entered else s.uptime
    fan := false, feed := false, gate := decide ((s.line n).state = .stopped) && (s.line n).gate, counter := 0
    countWindow := if (v.lineCfg n).sparkWindow = 0 then none
      else some (s.uptime + BitVec.ofNat 32 ((v.lineCfg n).sparkWindow * 100))
    startTimer := none, dwellTimer := none, gateTimer := none, rundownTimer := none
    blind := decide (∀ d, (v.detCfg d).line ≠ some n)
    blindTimer := if ∀ d, (v.detCfg d).line ≠ some n
      then some (s.uptime + BitVec.ofNat 32 ((v.lineCfg n).blindLimit * 1000)) else none
    fstop := (s.line n).fstop, gopen := (s.line n).gopen }

/-- A closure after a restart (R122), with the reloaded settings of `v`. -/
def State.closureAfter (s v : State) (c : ClosureNo) : Closure :=
  if (s.closure c).state = .shut
  then { s.closure c with direction := .none, hold := false, travelTimer := none, waitTimer := none }
  else
    { state := if (s.closure c).position = .opened then .held else .ready, direction := .none, hold := true
      travelTimer := if (v.closureCfg c).kind = .damper ∧ (s.closure c).position ≠ .opened
        then some (s.uptime + BitVec.ofNat 32 ((v.closureCfg c).travelTime * 1000)) else none
      waitTimer := none, entered := s.uptime, origin := .none, copen := (s.closure c).copen
      cshut := (s.closure c).cshut }

theorem State.lineAfter_congr (same : t.store = u.store) (n : LineNo) : s.lineAfter t n = s.lineAfter u n := by
  unfold State.lineAfter State.lineCfg State.detCfg
  rw [same]

theorem State.closureAfter_congr (same : t.store = u.store) (c : ClosureNo) : s.closureAfter t c = s.closureAfter u c := by
  unfold State.closureAfter State.closureCfg
  rw [same]

theorem State.blank_line (s : State) (n : LineNo) : s.blank.line n = s.lineAfter s.blank n := by
  have start := s.startBlocks_line_eq true n
  simp only [Bool.true_and, beq_iff_eq] at start
  exact start

theorem State.blank_closure (s : State) (c : ClosureNo) : s.blank.closure c = s.closureAfter s.blank c := by
  by_cases shut : (s.closure c).state = .shut
  · rw [s.blank_shut shut, State.closureAfter, if_pos shut, Closure.keptShut]
  · rw [State.closureAfter, if_neg shut]
    exact s.startBlocks_closure_new true c (by simp [shut])

/-- A restart's outcome, by the reset input or at the end of a RESTART reply (R165). -/
theorem State.exec_restart {s : State} {i : Instr} {source : Byte}
    (starts : (i = .resetInput ∧ source = 2) ∨ (i = .transmitFrameEnd ∧ source = 1 ∧ s.link.restartPending = true ∧
      ∃ x, s.link.sending = some x ∧ x.frame.kind = 0x84 ∧
        125 * (x.frame.payload.length + 5) ≤ 144 * s.tenthsSince x.begun)) :
    ∃ from_ : StartSource, from_.code = source ∧ exec i s = .next (s.restart from_).settle := by
  obtain ⟨rfl, rfl⟩ | ⟨rfl, rfl, pending, x, sending, kind, ended⟩ := starts
  · exact ⟨.input, rfl, rfl⟩
  · have reply : s.link.restartReply = true := by simp [Link.restartReply, pending, sending, kind]
    exact ⟨.request, rfl, (if_pos ((State.sent_iff sending).mpr ended)).trans (if_pos reply)⟩

/-- A link started anew, its reports and the transmitter's choice: all else as it starts (R166). -/
theorem Link.Reported.chosen {k : Link} (h : Link.fresh.Reported k) (p : Stamp) :
    (k.choose p).dropped = k.dropped ∧ (k.choose p).receiver = .hunt ∧ (k.choose p).buffer = [] ∧ (k.choose p).slot = none ∧
      (k.choose p).partHolding = false ∧ (k.choose p).flow = none ∧ (k.choose p).hostHeld = false ∧
      (k.choose p).restartPending = false := by
  rw [h.same]
  dsimp only [Link.fresh, Link.choose]
  cases k.alarm <;> cases k.notice <;> simp

section
variable (s : State) (source : StartSource)

/-- The causes re-entered, as the model runs them (R79). -/
theorem State.reentered_eq : s.reentered source = forAll (fun n (v : State) =>
    match (s.line n).state, s.causeOf (.line n), (v.lineCfg n).zone with
    | .stopped, some r, some z => v.putCause (.line n) z r.level none
    | _, _, _ => v) (s.tested source) := by
  have each (n : LineNo) (v : State) (hv : s.reentering v) : s.reenter n v =
      match (s.line n).state, s.causeOf (.line n), (v.lineCfg n).zone with
      | .stopped, some r, some z => v.putCause (.line n) z r.level none
      | _, _, _ => v := State.reenter_eq (hv.stopped n)
  exact forAll_congr (P := s.reentering) (fun n v hv => each n v hv ▸ hv.reenter n) each (s.tested_reentering source)

/-- What stands after the start and before the transmitter's choice. -/
theorem State.restart_from : s.startedFrom (s.restart source) :=
  s.startBlocks_startedFrom true |>.kept ((s.restart_kept source).mono (by decide)) fun o closure store =>
    ((s.restart_restarted source).faults o closure).trans (State.announce_faults_of_ne _ _ store)

/-- With no cause re-entered every block but the kept lines and closures starts anew. -/
theorem State.restart_none (none : (s.restart source).causes = []) : (s.restart source).link.dropped = false ∧
    (∀ z, (s.restart source).zone z = ⟨.quiet, .none⟩) ∧ (∀ n, (s.restart source).sector n = resetSector) ∧
    ∀ c, (s.restart source).closure c = s.closureAfter (s.restart source) c ∧
      ((s.closure c).state ≠ .shut → (s.restart source).faults.get (.closure c) = 0) := by
  have store : (s.restart source).store = s.blank.store := s.restart_kept source .store (by decide)
  have tested := s.restart_eq_tested source none
  have kept : KeptBut faultBlocks s.blank (s.tested source) :=
    (s.loaded_kept source).trans (forAll_kept (fun c v => .ite (v.raiseFault_kept _ _) (.refl _ v)) _)
  refine ⟨?_, fun z => ?_, fun n => ?_, fun c => ⟨?_, fun open_ => ?_⟩⟩
  · rw [tested, s.tested_dropped source]
  · rw [tested, State.zone_congr (kept .zones (by decide)), State.blank, State.startBlocks_zone]
  · have sectors : (s.tested source).sectors = s.blank.sectors := kept .sectors (by decide)
    rw [tested, State.sector, sectors]
    exact s.startBlocks_sector true n
  · rw [State.closureAfter_congr store, tested, s.tested_closure source, s.blank_closure]
  · rw [tested, s.tested_faults source open_]

/-- With no cause re-entered, no section defaulted and no kept closure standing OPEN, START alone is recorded. -/
theorem State.restart_plain (none : (s.restart source).causes = [])
    (good : ∀ k, ((s.restart source).flagsOf k).defaulted = false)
    (shut : ∀ c, (s.closure c).state = .shut → (s.closure c).position ≠ .opened) :
    s.restart source = s.blank.event .notice .start 0x40 0 0 ⟨2, source.code, 0, 0, 0⟩ := by
  have flags (k : StoreSection) : (s.restart source).flagsOf k = s.blank.flagsOf k :=
    State.flagsOf_congr (s.restart_kept source .store (by decide)) k
  have any : (allSections.any fun k => (s.blank.flagsOf k).defaulted) = false := by
    simpa [mem_allSections, flags] using good
  have loaded : s.loaded source = s.blank.event .notice .start 0x40 0 0 ⟨2, source.code, 0, 0, 0⟩ :=
    (s.loaded_eq source).trans (if_neg (by simp [any]))
  rw [s.restart_eq_tested source none, ← loaded]
  refine forAll_keeps (P := fun v => v = s.loaded source) (fun c v hv => ?_) rfl
  rw [hv]
  unfold State.testShut
  refine if_neg fun both => ?_
  rw [s.loaded_closure, s.blank_closure, State.closureAfter] at both
  split at both
  · next state => exact shut c state both.2
  · have here := both.1
    dsimp only at here
    split at here <;> cases here

end

/-- What the start of every block leaves, as a restart finds it. -/
theorem State.blank_started (s : State) : s.startedFrom s.blank ∧ s.blank.uptime = s.uptime ∧ s.blank.tenth = s.tenth ∧
    s.blank.freeCount = s.freeCount ∧ s.blank.history = s.history ∧ s.blank.link = Link.fresh ∧ s.blank.causes = [] ∧
    (∀ z, s.blank.zone z = ⟨.quiet, none⟩) ∧ s.blank.faults = FaultTable.empty ∧ s.blank.faultOutput = false ∧
    (∀ n, s.blank.line n = s.lineAfter s.blank n) ∧ (∀ c, s.blank.closure c = s.closureAfter s.blank c) ∧
    ∀ n, s.blank.sector n = resetSector := by
  have time := s.startBlocks_time true
  have faults := s.startBlocks_faults true
  have lines := s.blank_line
  have closures := s.blank_closure
  have started := s.startBlocks_startedFrom true
  have free := s.startBlocks_freeCount true
  have history := s.startBlocks_history true
  have link := s.startBlocks_link true
  have causes := s.startBlocks_causes true
  have zones := s.startBlocks_zone true
  have sectors := s.startBlocks_sector true
  unfold State.blank at *
  exact ⟨started, time.1, time.2, free, history, link, causes, zones, faults.1, faults.2, lines, closures, sectors⟩

/-- A restart's steps written out over what the start leaves (R79, R92, R101, R122, R169, R177). -/
theorem State.restart_steps (s : State) (source : StartSource) :
    let announced := { s.blank with
      history := s.history.add s.uptime .start 0 0 ⟨2, source.code, 0, 0, 0⟩
      link := { Link.fresh with notice := [⟨0x40, enc32 s.uptime ++ [0, 0, 2, source.code, 0, 0, 0]⟩] } }
    let loaded := if allSections.any fun k => (s.blank.flagsOf k).defaulted
      then announced.raiseFault .store .defaulted else announced
    let tested := forAll (fun c (v : State) =>
      if (v.closure c).state = .shut ∧ (v.closure c).position = .opened
      then v.raiseFault (.closure c) .openedWhileShut else v) loaded
    let reentered := forAll (fun n (v : State) =>
      match (s.line n).state, s.causeOf (.line n), (v.lineCfg n).zone with
      | .stopped, some r, some z => v.putCause (.line n) z r.level none
      | _, _, _ => v) tested
    s.restart source = forAll (fun z (v : State) => v.deriveZone z) reentered := by
  dsimp only
  rw [State.restart_eq, State.reentered_eq, State.tested, s.loaded_eq source, s.blank_event]
  rfl

/-- The part's record and report of a restart alone, with the transmitter's choice. -/
theorem State.blank_event_settled (s : State) (source : StartSource) :
    let t := s.blank.event .notice .start 0x40 0 0 ⟨2, source.code, 0, 0, 0⟩
    t.history = s.history.add s.uptime .start 0 0 ⟨2, source.code, 0, 0, 0⟩ ∧ t.faultOutput = false ∧
      t.settle.link = { Link.fresh with
        sending := some ⟨⟨0x40, enc32 s.uptime ++ [0, 0, 2, source.code, 0, 0, 0]⟩, s.stamp⟩ } := by
  have started := s.blank_started
  have event := s.blank_event ⟨2, source.code, 0, 0, 0⟩
  generalize s.blank = u at started event
  obtain ⟨-, time, tenth, -, -, -, -, -, -, output, -⟩ := started
  dsimp only
  rw [event]
  refine ⟨rfl, output, ?_⟩
  simp [State.settle, Link.choose, Link.fresh, State.stamp, time, tenth]

/-- Settles O16: after the start no line moves and no entry stands, so that each later step touches its own part alone;
where no record was re-entered only the tests of the closures kept SHUT are left. -/
theorem restartKeepsLockouts : Obligations.RestartKeepsLockouts := by
  unfold Obligations.RestartKeepsLockouts
  intro s i source starts
  obtain ⟨from_, rfl, run⟩ := State.exec_restart starts
  have store : (s.restart from_).store = s.blank.store := s.restart_kept from_ .store (by decide)
  have line (n : LineNo) : (s.restart from_).line n = s.lineAfter (s.restart from_) n := by
    rw [State.line_congr (s.restart_kept from_ .lines (by decide)), s.blank_line, State.lineAfter_congr store]
  have shut (c : ClosureNo) (state : (s.closure c).state = .shut) :
      (s.restart from_).closure c = s.closureAfter (s.restart from_) c := by
    have before : ((s.loaded from_).closure c).state = .shut := by
      rw [s.loaded_closure, s.blank_shut state]
      exact state
    rw [(s.restart_restarted from_).shut c before, s.loaded_closure, s.blank_closure, State.closureAfter_congr store]
  have causes (n : LineNo) : (s.restart from_).causeOf (.line n) = s.reentry (s.restart from_) n := by
    rw [State.causeOf_congr (s.restart_causes from_), s.reentered_causeOf]
    unfold State.reentry State.lineCfg
    rw [store]
  have sources : ∀ r ∈ (s.restart from_).causes, ∃ n, r.source = .line n := by
    rw [s.restart_causes from_]
    exact s.reentered_sources from_
  have clock : (s.restart from_).uptime = s.uptime ∧ (s.restart from_).tenth = s.tenth :=
    ⟨(s.restart_kept from_ .clock (by decide)).1.trans s.blank_time,
      (s.restart_kept from_ .clock (by decide)).2.trans (s.startBlocks_time true).2⟩
  have lineFaults (n : LineNo) : (s.restart from_).faults.get (.line n) = 0 :=
    ((s.restart_restarted from_).faults _ (by simp)).trans (s.loaded_faults from_ (by simp))
  have shutFaults (c : ClosureNo) (state : (s.closure c).state = .shut) :=
    (s.restart_holds from_ c).trans (s.tested_holds from_ state)
  have link := (s.restart_link from_).1.chosen (s.restart from_).stamp
  have nothing := s.restart_none from_
  have plain (none : (s.restart from_).causes = []) (good : ∀ k, ((s.restart from_).flagsOf k).defaulted = false)
      (position : ∀ c, (s.closure c).state = .shut → (s.closure c).position ≠ .opened) :=
    s.restart_plain from_ none good position ▸ s.blank_event_settled from_
  have started := s.restart_from from_
  have zones := s.restart_zone from_
  have steps := s.restart_steps from_
  have blank := s.blank_started
  generalize s.blank = u at blank steps
  generalize s.restart from_ = t at *
  refine ⟨u, t.settle, run, blank, ?_, started.kept (t.settle_kept.mono (by decide)) fun _ _ _ => rfl, clock.1, clock.2,
    fun n => ⟨line n, lineFaults n⟩, causes, sources, zones, fun c state => ⟨shut c state, shutFaults c state⟩,
    fun none => ?_, plain, link.2⟩
  · exact congrArg State.settle steps
  · obtain ⟨dropped, zones, sectors, closures⟩ := nothing none
    exact ⟨link.1.trans dropped, zones, sectors, closures⟩

end Sys2Proof.Machine
end

