-- ==== Sys2Proof/Proofs/ResetState.lean ====
section
/-! The reset state meets every invariant: what it holds, object by object, then each predicate. -/

namespace Sys2Proof.Machine

set_option Elab.async false -- one declaration after another: the check bounds the threads waiting on one another

/-! ### The objects of the reset state -/

theorem State.reset_det (d : DetNo) : State.reset.det d = resetDetector := Vector.getElem_replicate ..

theorem State.reset_station (n : LineNo) : State.reset.station n = resetStation := Vector.getElem_replicate ..

theorem State.reset_line (n : LineNo) : State.reset.line n = resetLine := Vector.getElem_replicate ..

theorem State.reset_zone (z : ZoneNo) : State.reset.zone z = ⟨.quiet, none⟩ := Vector.getElem_replicate ..

theorem State.reset_input (f : InputNo) : State.reset.input f = ⟨false, .idle, none⟩ := Vector.getElem_replicate ..

theorem State.reset_closure (c : ClosureNo) : State.reset.closure c = resetClosure := Vector.getElem_replicate ..

theorem State.reset_sector (n : SectorNo) : State.reset.sector n = resetSector := Vector.getElem_replicate ..

theorem State.reset_detCfg (d : DetNo) : State.reset.detCfg d = factoryDetector := Vector.getElem_replicate ..

theorem State.reset_lineCfg (n : LineNo) : State.reset.lineCfg n = factoryLine := Vector.getElem_replicate ..

theorem State.reset_flagsOf (k : StoreSection) : State.reset.flagsOf k = ⟨false, false, true, false⟩ :=
  Vector.getElem_replicate ..

theorem State.reset_get {o : Obj} (other : o ≠ .store) : State.reset.faults.get o = 0 := by
  cases o <;> simp_all [FaultTable.get, State.reset]

theorem State.reset_holds {o : Obj} (f : FaultCode) (other : o ≠ .store) : State.reset.holds o f = false := by
  rw [State.holds, State.reset_get other]
  simp [hasFault]

/-! ### The invariants -/

/-- Settles O60. -/
theorem resetStateIsInOrder : Obligations.ResetStateIsInOrder := by
  unfold Obligations.ResetStateIsInOrder
  dsimp only
  refine ⟨trivial, by simp [Link.capacities, State.reset, resetLink], nofun, ⟨by decide, by decide⟩, fun n => ?_,
    fun c => ?_, fun n => ?_, fun n => ?_, ?_, ⟨List.nodup_nil, by simp [State.reset]⟩, fun z => ?_, fun n => ?_,
    fun n => ?_, fun n => ?_, ⟨thresholds_kept.factory, thresholds_kept.factory, fun n => ?_⟩, fun n => ?_, fun c => ?_,
    fun c => ?_, fun n => ?_, ?_, ?_, ?_, fun d => ?_, fun f => ?_, Tests.factory_inRange, Tests.factory_inRange, ?_, rfl,
    rfl, ?_⟩
  · rw [State.lineOutputs, State.reset_line]; decide
  · rw [State.closureOutputs, State.reset_closure]; decide
  · rw [State.sectorOutput, State.reset_sector]; simp [resetSector]
  · rw [State.valveSound, State.reset_station]; simp [resetStation]
  · exact State.faultSound_iff.mpr (by decide +kernel)
  · rw [zoneSound_iff, State.reset_zone]; rfl
  · rw [State.sectorSound, State.reset_sector]
    exact ⟨rfl, by simp [resetSector], by simp [resetSector], by simp [State.reset],
      (State.highestOf_quiet (fun z => by rw [State.reset_zone]) _).symm⟩
  · rw [State.reset_sector]; simp [resetSector, Sector.playingSound]
  · rw [State.reset_line]; simp [resetLine, Line.timersSound]
  · rw [State.reset_line, State.reset_lineCfg]; decide
  · rw [State.blindSound, State.reset_line, State.reset_holds _ (by simp)]
    refine ⟨?_, by simp, by simp [resetLine]⟩
    simp [State.isBlind, State.assigned, State.reset_detCfg, factoryDetector, resetLine]
  · rw [State.closureSound, State.reset_closure, State.reset_holds _ (by simp)]; simp [resetClosure]
  · rw [State.waitSound, State.reset_closure]; simp [resetClosure]
  · rw [State.dampersHeld, State.reset_line]; simp [resetLine]
  · exact fun watch => by cases watch
  · simp [State.tableSound, State.reset]
  · simp [State.prepareSound, State.reset]
  · rw [State.detectorSound, State.reset_det, State.reset_detCfg]
    simp [resetDetector, State.reset_holds]
    rfl
  · rw [State.inputSound, State.reset_input]
    simp [State.causeOf, State.reset]
  · have failed : State.reset.holds .store .saveFailed = false := by decide
    have defaulted : State.reset.holds .store .defaulted = true := by decide
    simp [State.storeFaultsSound, State.reset_flagsOf, failed, defaulted]
    exact ⟨.general⟩
  · have same : State.reset.powerOn.settle = State.reset := by decide +kernel
    exact ⟨_, rfl, same⟩

end Sys2Proof.Machine
end

