-- ==== Sys2Proof/Proofs/Inputs.lean ====
section
/-! Fire inputs (R86 to R89): raw level and debounce timer go with the phase, and a cause that is not latched stands only
while its input is debounced active and not disabled. -/

namespace Sys2Proof.Machine

set_option Elab.async false -- one declaration after another: the check bounds the threads waiting on one another

variable {s t : State} {f : InputNo}

/-! ### The two parts of the invariant -/

/-- The raw level and the timer go with the phase (R86). -/
def FireInput.phased (x : FireInput) : Prop :=
  (x.raw = true ↔ x.phase = .rising ∨ x.phase = .on) ∧ (x.timer ≠ none ↔ x.phase = .rising ∨ x.phase = .falling)

/-- A cause of a fire input that is not latched stands only while the input is debounced active and not disabled (R87 to
R89). -/
def State.causeBacked (s : State) (f : InputNo) : Prop :=
  ∀ r, s.causeOf (.fireInput f) = some r → r.latched = false →
    ((s.input f).phase = .on ∨ (s.input f).phase = .falling) ∧ s.disabled (.fireInput f) = false

theorem inputSound_iff : s.inputSound f ↔ (s.input f).phased ∧ s.causeBacked f := by
  unfold State.inputSound FireInput.phased State.causeBacked
  exact and_assoc.symm

theorem FireInput.anew_phased (raw : Bool) (e : Instant) : (FireInput.anew raw e).phased := by
  cases raw <;> simp [FireInput.anew, FireInput.phased]

theorem FireInput.edge_phased {x : FireInput} (h : x.phased) (b : Bool) (e : Instant) : (x.edge b e).phased := by
  obtain ⟨raw, timer⟩ := h
  cases phase : x.phase with
  | idle | rising | on | falling => cases b <;> simp_all [FireInput.edge, FireInput.phased]

/-- From a phase in which no unlatched cause stands an edge does not matter; from the others it leaves one of them. -/
theorem FireInput.edge_backing {x : FireInput} (b : Bool) (e : Instant) (h : x.phase = .on ∨ x.phase = .falling) :
    (x.edge b e).phase = .on ∨ (x.edge b e).phase = .falling := by
  obtain on | falling := h
  · cases b <;> simp [FireInput.edge, on]
  · cases b <;> simp [FireInput.edge, falling]

/-! ### What changes leave -/

/-- With no unlatched cause nothing need back it. -/
theorem causeBacked_of_none (none : ∀ r, s.causeOf (.fireInput f) = some r → r.latched = true) : s.causeBacked f :=
  fun r found latched => absurd (none r found) (by simp [latched])

theorem causeBacked_of_same (causes : ∀ r, t.causeOf (.fireInput f) = some r → r.latched = false →
      ∃ x, s.causeOf (.fireInput f) = some x ∧ x.latched = false)
    (phase : (s.input f).phase = .on ∨ (s.input f).phase = .falling → (t.input f).phase = .on ∨ (t.input f).phase = .falling)
    (disabled : t.disabled (.fireInput f) = s.disabled (.fireInput f)) (h : s.causeBacked f) : t.causeBacked f := by
  intro r found latched
  obtain ⟨x, before, free⟩ := causes r found latched
  obtain ⟨backed, able⟩ := h x before free
  exact ⟨phase backed, disabled ▸ able⟩

theorem Change.phased {k : ChangeKind} (change : Change k s t) (other : k ≠ .input) (h : (s.input f).phased) :
    (t.input f).phased := by
  by_cases untouched : Block.inputs ∉ k.blocks
  · rwa [State.input_congr (change.kept .inputs untouched)]
  cases change with
  | input => exact absurd rfl other
  | inputPin g b =>
    rw [State.setInput_input]
    split
    · next same => exact FireInput.edge_phased (same ▸ h) _ _
    · exact h
  | powerOn | restart =>
    obtain ⟨e, same⟩ := State.start_input (s := s) _ _ _ f
    rw [same]
    exact FireInput.anew_phased _ _
  | _ => simp [ChangeKind.blocks, sectorBlocks, faultBlocks, closureBlocks, lineBlocks] at untouched

/-- A raise leaves a fire input's cause backed: it is the input's own only while the input backs it. -/
theorem causeBacked_raised {src : Source} {z : ZoneNo} {l : Level} {hold : Option Instant} (may : s.mayRaise src l hold)
    (h : s.causeBacked f) : { s with causes := s.raisedCauses src z l hold }.causeBacked f := by
  by_cases own : src = .fireInput f
  · subst own
    obtain ⟨-, -, on, able⟩ := may
    exact fun _ _ _ => ⟨.inl on, able⟩
  · refine causeBacked_of_same (s := s) (fun r found latched => ⟨r, ?_, latched⟩) id rfl h
    rwa [State.causeOf, State.raisedCauses_of_ne (Ne.symm own)] at found

theorem Change.causeBacked {k : ChangeKind} (change : Change k s t) (other : k ≠ .input ∧ k ≠ .table)
    (h : s.causeBacked f) : t.causeBacked f := by
  by_cases reset : k = .powerOn ∨ k = .restart
  · refine causeBacked_of_none fun r found => ?_
    cases change with
    | powerOn | restart =>
      rw [State.causeOf, start_causes] at found
      cases found
    | _ => simp at reset
  have disabled : t.disabled (.fireInput f) = s.disabled (.fireInput f) := by
    exact change.disabled_kept other.2 (not_or.mp reset) rfl
  by_cases causes : Block.causes ∉ k.blocks
  · refine causeBacked_of_same (fun r found latched => ⟨r, ?_, latched⟩) ?_ disabled h
    · rwa [State.causeOf_congr (change.kept .causes causes)] at found
    · by_cases inputs : Block.inputs ∉ k.blocks
      · rw [State.input_congr (change.kept .inputs inputs)]
        exact id
      · cases change with
        | input => exact absurd rfl other.1
        | inputPin g b =>
          intro backed
          rw [State.setInput_input]
          split
          · next same => exact FireInput.edge_backing _ _ (same ▸ backed)
          · exact backed
        | _ => simp [ChangeKind.blocks, sectorBlocks, faultBlocks, closureBlocks, lineBlocks] at inputs reset
  · cases change with
    | raise src z l hold may => exact causeBacked_raised (s := s) may h
    | reentry n z l =>
      refine causeBacked_of_same (s := s) (fun r found latched => ⟨r, ?_, latched⟩) id rfl h
      rwa [State.causeOf, State.raisedCauses_of_ne (by simp)] at found
    | drop src =>
      refine causeBacked_of_same (s := s) (fun r found latched => ⟨r, ?_, latched⟩) id rfl h
      rw [State.causeOf, find?_source_filter] at found
      split at found
      · cases found
      · exact found
    | mark n =>
      refine causeBacked_of_same (s := s) (fun r found latched => ?_) id rfl h
      unfold State.causeOf State.markedCauses at found
      rw [find?_source_map fun x => by split <;> rfl] at found
      obtain ⟨x, before, rfl⟩ := Option.map_eq_some_iff.mp found
      refine ⟨x, before, ?_⟩
      split at latched <;> exact latched
    | _ => simp [ChangeKind.blocks, sectorBlocks, faultBlocks, closureBlocks, lineBlocks] at causes reset

theorem Change.inputSound {k : ChangeKind} (change : Change k s t) (other : k ≠ .input ∧ k ≠ .table)
    (h : s.inputSound f) : t.inputSound f :=
  have parts := inputSound_iff.mp h
  inputSound_iff.mpr ⟨change.phased other.1 parts.1, change.causeBacked other parts.2⟩

theorem Steps.inputSound {l : List ChangeKind} (path : Steps l s t) (other : .input ∉ l ∧ .table ∉ l)
    (h : s.inputSound f) : t.inputSound f := by
  refine path.keeps (P := fun u => u.inputSound f) (fun k mem u v change hu => change.inputSound ⟨?_, ?_⟩ hu) h
  all_goals
    rintro rfl
    simp_all

/-! ### A debounced change, and an input's own disablement -/

/-- Every fire input in order, but for the backing of one input's cause. -/
def State.inputsBut (f : InputNo) (s : State) : Prop := ∀ g, (s.input g).phased ∧ (g ≠ f → s.causeBacked g)

theorem Change.inputsBut {k : ChangeKind} (change : Change k s t) (other : k ≠ .input ∧ k ≠ .table)
    (h : s.inputsBut f) : t.inputsBut f :=
  fun g => ⟨change.phased other.1 (h g).1, fun ne => change.causeBacked other ((h g).2 ne)⟩

theorem State.inputsBut.sound (h : s.inputsBut f) (own : s.causeBacked f) (g : InputNo) : s.inputSound g := by
  refine inputSound_iff.mpr ⟨(h g).1, ?_⟩
  by_cases same : g = f
  · exact same ▸ own
  · exact (h g).2 same

theorem State.removeCause_eq {src : Source} {r : Cause} (found : s.causeOf src = some r) :
    s.removeCause src = (s.dropCause src).causeChanged r.zone := by
  rw [State.removeCause, found]

/-- After the removal of an unlatched cause no unlatched cause of the input stands (R88, R89). -/
theorem State.inputsBut.removeUnlatched (h : s.inputsBut f) (g : InputNo) :
    (s.removeUnlatched (.fireInput f)).inputSound g := by
  unfold State.removeUnlatched
  split
  · next none => exact h.sound (causeBacked_of_none fun r found => by rw [none] at found; cases found) g
  · next r found =>
    split
    · next latched =>
      exact h.sound (causeBacked_of_none fun x here => by rw [found] at here; cases here; exact latched) g
    · rw [State.removeCause_eq found]
      have logs {u v : State} (change : Change .log u v) : u.inputsBut f → v.inputsBut f := change.inputsBut (by decide)
      have dropped : (s.dropCause (.fireInput f)).inputsBut f :=
        (s.dropCause_path (.fireInput f)).keeps (P := State.inputsBut f)
          (fun k mem _ _ change hu => change.inputsBut (by fin_cases mem <;> decide) hu) h
      have gone : (s.dropCause (.fireInput f)).causeOf (.fireInput f) = none := by
        unfold State.dropCause
        rw [found]
        dsimp only
        rw [State.causeOf_congr (State.causeEvent_kept _ _ _ _ .causes (by decide)), State.causeOf, find?_source_filter,
          if_pos rfl]
      have before : (s.dropCause (.fireInput f)).inputSound g :=
        dropped.sound (causeBacked_of_none fun x here => by rw [gone] at here; cases here) g
      exact (State.causeChanged_path _ r.zone).steps.inputSound (by decide) before

/-- A debounced change of an input (R86). -/
theorem inputsBut_debounced {p : Debounce} (settled : p = .on ∧ (s.input f).raw = true ∨ p = .idle ∧ (s.input f).raw = false)
    (h : ∀ g, s.inputSound g) : ((s.setInput f { s.input f with phase := p, timer := none }).inputRecord f p).inputsBut f := by
  refine (Change.log ((State.record_kept _ _ _ _ _).mono (by decide))).inputsBut (by decide) fun g => ?_
  obtain ⟨phased, backed⟩ := inputSound_iff.mp (h g)
  rw [State.setInput_input]
  by_cases same : f = g
  · subst same
    rw [if_pos rfl]
    refine ⟨?_, fun ne => absurd rfl ne⟩
    obtain ⟨rfl, raw⟩ | ⟨rfl, raw⟩ := settled <;> simp [FireInput.phased, raw]
  · rw [if_neg same]
    refine ⟨phased, fun _ r found latched => ?_⟩
    rw [State.setInput_input, if_neg same]
    exact backed r found latched

theorem inputOn_sound (rising : (s.input f).phase = .rising) (h : ∀ g, s.inputSound g) (g : InputNo) :
    (s.inputOn f).inputSound g := by
  obtain ⟨phased, backed⟩ := inputSound_iff.mp (h f)
  have raw : (s.input f).raw = true := phased.1.mpr (.inl rising)
  refine (s.inputOn_rest f).steps.inputSound (by decide) ((inputsBut_debounced (.inl ⟨rfl, raw⟩) h).sound ?_ g)
  refine causeBacked_of_none fun r found => ?_
  replace found : s.causeOf (.fireInput f) = some r := found
  by_contra unlatched
  have := (backed r found (by simpa using unlatched)).1
  simp [rising] at this

theorem inputOff_sound (falling : (s.input f).phase = .falling) (h : ∀ g, s.inputSound g) (g : InputNo) :
    (s.inputOff f).inputSound g := by
  obtain ⟨phased, -⟩ := inputSound_iff.mp (h f)
  have raw : (s.input f).raw = false := by
    rw [Bool.eq_false_iff, ne_eq, phased.1, falling]
    simp
  exact (inputsBut_debounced (.inr ⟨rfl, raw⟩) h).removeUnlatched g

/-- Every fire input in order, but for what depends on a target's own disablement. -/
def inputsButOf (x : Target) (u : State) : Prop :=
  ∀ g, (u.input g).phased ∧ (x ≠ .fireInput g → u.causeBacked g)

theorem inputsButOf_fireInput : inputsButOf (.fireInput f) s ↔ s.inputsBut f := by
  unfold inputsButOf State.inputsBut
  simp only [ne_eq, Target.fireInput.injEq, eq_comm (a := f)]

theorem inputsButOf.sound {x : Target} (h : inputsButOf x s) (other : ∀ g, x ≠ .fireInput g) (g : InputNo) :
    s.inputSound g := inputSound_iff.mpr ⟨(h g).1, (h g).2 (other g)⟩

theorem causeBacked_dis {u : State} {d : Disablements} {g : InputNo}
    (same : { u with dis := d }.disabled (.fireInput g) = u.disabled (.fireInput g)) (h : u.causeBacked g) :
    { u with dis := d }.causeBacked g :=
  fun r found latched => ⟨(h r found latched).1, same ▸ (h r found latched).2⟩

theorem inputSound_tableKept : TableKept (fun u => ∀ g, u.inputSound g) inputsButOf where
  plain mem change h g := by
    have other : ∀ k ∈ [ChangeKind.log, .output], k ≠ .input ∧ k ≠ .table := by decide
    exact ⟨change.phased (other _ mem).1 (h g).1, fun ne => change.causeBacked (other _ mem) ((h g).2 ne)⟩
  same same h g := by
    obtain ⟨phased, backed⟩ := inputSound_iff.mp (h g)
    exact inputSound_iff.mpr ⟨phased, causeBacked_dis (same (.fireInput g) rfl) backed⟩
  but same h g := by
    obtain ⟨phased, backed⟩ := inputSound_iff.mp (h g)
    exact ⟨phased, fun ne => causeBacked_dis (same (.fireInput g) (Ne.symm ne) rfl) backed⟩
  active {x u} h g := by
    cases x with
    | fireInput f => exact (inputsButOf_fireInput.mp h).removeUnlatched g
    | detector d =>
      have path : Path (.log :: .channel :: .blindness :: alarmKinds) u (u.entryActive (.detector d)) :=
        (((u.dropCandidate_path d 3).mono (by decide)).andThen (State.removeCause_path _ _) (by decide)).andThen
          (State.judgeBlind_path _) (by decide)
      exact path.steps.inputSound (by decide) (h.sound (by simp) g)
    | sector n => exact ((Change.siren n).path (l := [.sector]) (by decide)).steps.inputSound (by decide) (h.sound (by simp) g)
    | station | closure => exact h.sound (by simp) g
  removed {x u v} disabled hu causes _ h g := by
    cases x with
    | fireInput f =>
      have put : (v.entryRemoved (.fireInput f)).inputsBut f := by
        intro g
        unfold State.entryRemoved
        dsimp only
        rw [State.setInput_input]
        split
        · next same => exact ⟨FireInput.anew_phased _ _, fun ne => absurd same.symm ne⟩
        · next ne =>
          refine ⟨(h g).1, fun _ r found latched => ?_⟩
          rw [State.setInput_input, if_neg ne]
          exact (h g).2 (by simpa using ne) r found latched
      refine put.sound (causeBacked_of_none fun r found => ?_) g
      rw [State.entryRemoved, State.causeOf_congr (s := v) (by rfl), State.causeOf_congr causes] at found
      by_contra unlatched
      have := ((inputSound_iff.mp (hu f)).2 r found (by simpa using unlatched)).2
      rw [disabled] at this
      cases this
    | detector d => exact (v.judgeBlind_path).steps.inputSound (by decide) (h.sound (by simp) g)
    | sector n => exact ((Change.siren n).path (l := [.sector]) (by decide)).steps.inputSound (by decide) (h.sound (by simp) g)
    | closure c => exact (v.testZones_path c).steps.inputSound (by decide) (h.sound (by simp) g)
    | station => exact h.sound (by simp) g

theorem exec_inputSound {c : Instr} (run : exec c s = .next t) (h : ∀ f, s.inputSound f) (f : InputNo) :
    t.inputSound f := by
  by_cases table : .table ∈ execKinds c
  · refine inputSound_tableKept.exec table (fun mem change hu g => change.inputSound ?_ (hu g)) run h f
    fin_cases mem <;> decide
  · by_cases input : .input ∈ execKinds c
    · cases c with
      | debounceTimerExpired f' =>
        have shown : Shows (fun v => v.inputSound f) (execDebounceTimerExpired f' s) := by
          have log {u v : State} (change : Change .log u v) : u.inputSound f → v.inputSound f :=
            change.inputSound (by decide)
          unfold execDebounceTimerExpired
          dsimp only
          split
          · split
            · next rising => exact .of_done log (inputOn_sound rising h f)
            · next falling => exact .of_done log (inputOff_sound falling h f)
            · exact .of_done log (h f)
            · exact .of_done log (h f)
          · exact .of_done log (h f)
        exact shown t run
      | _ => simp [execKinds] at input table
    · exact (exec_path run).inputSound ⟨input, table⟩ (h f)

theorem step_inputSound (run : step s = .next t) (h : ∀ f, s.inputSound f) : ∀ f, t.inputSound f :=
  step_keeps (P := fun u => ∀ f, u.inputSound f) run h (fun _ _ _ hu => hu) (fun _ hu => hu)
    fun _ _ _ run hu f => exec_inputSound run hu f

end Sys2Proof.Machine
end

