-- ==== Sys2Proof/Proofs/Channels.lean ====
section
/-! Detector channels (chapter 1): what each operation of a channel leaves of its own channel and its fault set, and that
it leaves every other alone. -/

namespace Sys2Proof.Machine

set_option Elab.async false -- one declaration after another: the check bounds the threads waiting on one another

variable {s t u : State} {d : DetNo}

/-! ### One channel alone -/

/-- A change of one channel, its faults and the reports. -/
structure ChannelOnly (d : DetNo) (s t : State) : Prop where
  kept : KeptBut detectorBlocks s t
  det : ∀ e, e ≠ d → t.det e = s.det e
  faults : ∀ o, o ≠ .detector d → t.faults.get o = s.faults.get o

theorem ChannelOnly.refl (d : DetNo) (s : State) : ChannelOnly d s s := ⟨.refl _ s, fun _ _ => rfl, fun _ _ => rfl⟩

theorem ChannelOnly.trans (h : ChannelOnly d s t) (h' : ChannelOnly d t u) : ChannelOnly d s u :=
  ⟨h.kept.trans h'.kept, fun e ne => (h'.det e ne).trans (h.det e ne), fun o ne => (h'.faults o ne).trans (h.faults o ne)⟩

theorem ChannelOnly.ite {p : Prop} [Decidable p] (yes : ChannelOnly d s t) (no : ChannelOnly d s u) :
    ChannelOnly d s (if p then t else u) := by
  split <;> assumption

theorem State.setDet_only (d : DetNo) (x : Detector) : ChannelOnly d s (s.setDet d x) where
  kept := (s.setDet_kept d x).mono (by decide)
  det e ne := by rw [State.setDet_det, if_neg (Ne.symm ne)]
  faults _ _ := rfl

theorem State.raiseFault_only (d : DetNo) (f : FaultCode) : ChannelOnly d s (s.raiseFault (.detector d) f) where
  kept := (s.raiseFault_kept _ f).mono (by decide)
  det e _ := by simp
  faults o ne := s.raiseFault_view (view := fun table => table.get o) (unmoved_get ne)

theorem State.clearFault_only (d : DetNo) (f : FaultCode) : ChannelOnly d s (s.clearFault (.detector d) f) where
  kept := (s.clearFault_kept _ f).mono (by decide)
  det e _ := by simp
  faults o ne := s.clearFault_view (view := fun table => table.get o) (unmoved_get ne)

theorem State.record_only (d : DetNo) (k : RecordKind) (a b : Byte) (e : Detail) : ChannelOnly d s (s.record k a b e) where
  kept := (s.record_kept k a b e).mono (by decide)
  det _ _ := by simp
  faults _ _ := by simp

theorem State.setDet_setDet (x y : Detector) : (s.setDet d x).setDet d y = s.setDet d y := by
  simp [State.setDet]

/-! ### A candidate discarded -/

theorem State.dropCandidate_of_none {r : Byte} (none : (s.det d).candidate = none) : s.dropCandidate d r = s := by
  simp [State.dropCandidate, none]

/-- The discarding of a candidate (R14). -/
theorem State.dropCandidate_of_some {r : Byte} {c : Candidate} (some : (s.det d).candidate = some c) :
    s.dropCandidate d r = (s.setDet d { s.det d with candidate := none }).record .unconfirmed 1 (byteOf (number d))
      ⟨if c.ember then 2 else 1, byteOf c.weight, r, 0, 0⟩ := by
  simp only [State.dropCandidate, some]
  rfl

theorem State.dropCandidate_det_self (d : DetNo) (r : Byte) :
    (s.dropCandidate d r).det d = { s.det d with candidate := none } := by
  cases held : (s.det d).candidate with
  | none =>
    rw [State.dropCandidate_of_none held]
    exact held ▸ rfl
  | some c => simp [State.dropCandidate_of_some held]

theorem State.dropCandidate_only (d : DetNo) (r : Byte) : ChannelOnly d s (s.dropCandidate d r) := by
  unfold State.dropCandidate
  split
  · exact .refl d s
  · exact (s.setDet_only d _).trans (State.record_only d _ _ _ _)

theorem State.dropCandidate_faults (d : DetNo) (r : Byte) : (s.dropCandidate d r).faults = s.faults :=
  (s.dropCandidate_path d r).kept .faults (by decide) |>.1

theorem State.dropCandidate_holds (d : DetNo) (r : Byte) (o : Obj) (f : FaultCode) :
    (s.dropCandidate d r).holds o f = s.holds o f := by
  rw [State.holds, State.dropCandidate_faults, State.holds]

/-! ### Faults raised and cleared -/

/-- The faults of a channel after a raise. -/
theorem State.raiseFault_detHolds (d : DetNo) (f g : FaultCode) :
    (s.raiseFault (.detector d) f).holds (.detector d) g = if g = f then true else s.holds (.detector d) g := by
  rw [State.raiseFault_holds (o := .detector d) trivial]
  by_cases same : g = f <;> simp [same]

theorem State.clearFault_detHolds (d : DetNo) (f g : FaultCode) :
    (s.clearFault (.detector d) f).holds (.detector d) g = if g = f then false else s.holds (.detector d) g := by
  rw [State.clearFault_holds (o := .detector d) trivial]
  by_cases same : g = f <;> simp [same]

/-- A raise of a supervision or glare fault, by whether it is held (R5, R9). -/
theorem State.raiseDet_of_free {f : FaultCode} (free : s.holds (.detector d) f = false) :
    s.raiseDet d f = (s.raiseFault (.detector d) f).dropCandidate d 2 := by
  simp [State.raiseDet, free]

theorem State.raiseDet_of_held {f : FaultCode} (held : s.holds (.detector d) f = true) : s.raiseDet d f = s := by
  simp [State.raiseDet, held]

theorem State.raiseDet_only (d : DetNo) (f : FaultCode) : ChannelOnly d s (s.raiseDet d f) :=
  .ite (.refl d s) ((s.raiseFault_only d f).trans (State.dropCandidate_only d 2))

theorem State.raiseDet_holds (d : DetNo) (f g : FaultCode) :
    (s.raiseDet d f).holds (.detector d) g = if g = f then true else s.holds (.detector d) g := by
  cases held : s.holds (.detector d) f with
  | true =>
    rw [State.raiseDet_of_held held]
    by_cases same : g = f <;> simp [same, held]
  | false => rw [State.raiseDet_of_free held, State.dropCandidate_holds, State.raiseFault_detHolds]

theorem State.raiseDet_det (d : DetNo) (f : FaultCode) : (s.raiseDet d f).det d =
    if s.holds (.detector d) f then s.det d else { s.det d with candidate := none } := by
  cases held : s.holds (.detector d) f with
  | true => rw [State.raiseDet_of_held held]; rfl
  | false => rw [State.raiseDet_of_free held, State.dropCandidate_det_self, State.raiseFault_det]; rfl

/-- A fault cleared leaves a channel without a fault without one. -/
theorem State.clearFault_none (d : DetNo) (f : FaultCode) (none : s.faults.get (.detector d) = 0) :
    (s.clearFault (.detector d) f).faults.get (.detector d) = 0 := by
  have free : s.holds (.detector d) f = false := by simp [State.holds, none, hasFault]
  simpa [State.clearFault, free] using none

/-! ### The level of a sample -/

/-- What the level of a sample raises and clears, with the run counts `a` and `b` it gives (R4, R5). -/
def State.judgeLevel (d : DetNo) (level : Fin 16) (a b : Nat) (s : State) : State :=
  let o := Obj.detector d
  if a = 4 ∧ s.holds o .openLoop = false then (s.raiseDet d .openLoop).clearFault o .short
  else if b = 4 ∧ s.holds o .short = false then (s.raiseDet d .short).clearFault o .openLoop
  else if 3 ≤ level.val ∧ level.val ≤ 12 then (s.clearFault o .openLoop).clearFault o .short
  else if level.val = 13 ∨ level.val = 14 then s.clearFault o .openLoop
  else s

/-- A channel with the level of a sample taken up (R4). -/
def Detector.sampled (x : Detector) (level : Fin 16) : Detector :=
  { x with
    busy := false
    lastLevel := some level
    openRun := if level.val ≤ 1 then min (x.openRun + 1) 4 else 0
    shortRun := if level.val = 15 then min (x.shortRun + 1) 4 else 0 }

section
variable (d : DetNo) (level : Fin 16)

theorem State.applyLevel_eq : s.applyLevel d level = (s.setDet d ((s.det d).sampled level)).judgeLevel d level
    ((s.det d).sampled level).openRun ((s.det d).sampled level).shortRun := rfl

theorem State.judgeLevel_only (a b : Nat) : ChannelOnly d s (s.judgeLevel d level a b) :=
  .ite ((s.raiseDet_only d _).trans (State.clearFault_only d _)) (.ite ((s.raiseDet_only d _).trans (State.clearFault_only d _))
    (.ite ((s.clearFault_only d _).trans (State.clearFault_only d _)) (.ite (s.clearFault_only d _) (.refl d s))))

theorem State.applyLevel_only : ChannelOnly d s (s.applyLevel d level) :=
  (s.setDet_only d _).trans (State.judgeLevel_only d level _ _)

/-- A fault raised discards the candidate; nothing else of the channel moves with its faults (R4, R5). -/
theorem State.judgeLevel_det (a b : Nat) : (s.judgeLevel d level a b).det d =
    if (a = 4 ∧ s.holds (.detector d) .openLoop = false) ∨ (b = 4 ∧ s.holds (.detector d) .short = false)
    then { s.det d with candidate := none } else s.det d := by
  unfold State.judgeLevel
  dsimp only
  by_cases opens : a = 4 ∧ s.holds (.detector d) .openLoop = false
  · rw [if_pos opens, if_pos (.inl opens), State.clearFault_det, State.raiseDet_det, opens.2]
    rfl
  · rw [if_neg opens]
    by_cases shorts : b = 4 ∧ s.holds (.detector d) .short = false
    · rw [if_pos shorts, if_pos (.inr shorts), State.clearFault_det, State.raiseDet_det, shorts.2]
      rfl
    · rw [if_neg shorts, if_neg (not_or.mpr ⟨opens, shorts⟩)]
      split_ifs <;> simp

/-- The loop faults after a sample (R4, R5): a level is in one band only, so it does not raise both. -/
theorem State.judgeLevel_holds (a b : Nat) :
    let o := s.holds (.detector d) .openLoop
    let h := s.holds (.detector d) .short
    let t := s.judgeLevel d level a b
    t.holds (.detector d) .openLoop = (if a = 4 ∧ o = false then true else if b = 4 ∧ h = false then false
      else if 3 ≤ level.val ∧ level.val ≤ 14 then false else o) ∧
    t.holds (.detector d) .short = (if a = 4 ∧ o = false then false else if b = 4 ∧ h = false then true
      else if 3 ≤ level.val ∧ level.val ≤ 12 then false else h) ∧
    t.holds (.detector d) .glare = s.holds (.detector d) .glare := by
  dsimp only
  unfold State.judgeLevel
  dsimp only
  by_cases opens : a = 4 ∧ s.holds (.detector d) .openLoop = false
  · simp only [if_pos opens, State.clearFault_detHolds, State.raiseDet_holds]
    simp
  by_cases shorts : b = 4 ∧ s.holds (.detector d) .short = false
  · simp only [if_neg opens, if_pos shorts, State.clearFault_detHolds, State.raiseDet_holds]
    simp
  simp only [if_neg opens, if_neg shorts]
  by_cases middle : 3 ≤ level.val ∧ level.val ≤ 12
  · have wide : 3 ≤ level.val ∧ level.val ≤ 14 := ⟨middle.1, by omega⟩
    simp only [if_pos middle, if_pos wide, State.clearFault_detHolds]
    simp
  by_cases upper : level.val = 13 ∨ level.val = 14
  · have wide : 3 ≤ level.val ∧ level.val ≤ 14 := by omega
    simp only [if_neg middle, if_pos upper, if_pos wide, State.clearFault_detHolds]
    simp
  · have narrow : ¬(3 ≤ level.val ∧ level.val ≤ 14) := by omega
    simp only [if_neg middle, if_neg upper, if_neg narrow]
    simp

end

/-! ### The mode -/

section
variable (d : DetNo)

/-- A channel turned OFF (R6). -/
def Detector.off (x : Detector) : Detector :=
  { x with mode := .off, nextMode := none, busy := false, lastLevel := none, openRun := 0, shortRun := 0 }

theorem State.turnOff_only : ChannelOnly d s (s.turnOff d) :=
  ((s.setDet_only d _).trans (State.clearFault_only d _)).trans (State.clearFault_only d _)

theorem State.turnOff_det : (s.turnOff d).det d = (s.det d).off := by
  simp [State.turnOff, Detector.off]

theorem State.turnOff_holds (f : FaultCode) : (s.turnOff d).holds (.detector d) f =
    if f = .openLoop ∨ f = .short then false else s.holds (.detector d) f := by
  simp only [State.turnOff, State.clearFault_detHolds, State.setDet_holds]
  by_cases short : f = .short
  · simp [short]
  · by_cases openLoop : f = .openLoop <;> simp [short, openLoop]

theorem State.turnOff_none (none : s.faults.get (.detector d) = 0) : (s.turnOff d).faults.get (.detector d) = 0 :=
  State.clearFault_none d _ (State.clearFault_none d _ none)

theorem State.startSample_only : ChannelOnly d s (s.startSample d) := s.setDet_only d _

/-- A new mode with a channel idle (R3, R6): the channel is turned OFF, or takes the mode with or without a sample. -/
theorem State.takeMode_cases (m : Supervision) : (s.takeMode d m = s.setDet d { s.det d with nextMode := none } ∧ m = (s.det d).mode) ∨
    (s.takeMode d m = s.turnOff d ∧ m = .off) ∨
    (s.takeMode d m = s.setDet d { s.det d with mode := m, nextMode := none, busy := true, lastStart := some s.uptime } ∧ m ≠ .off) ∨
    (s.takeMode d m = s.setDet d { s.det d with mode := m, nextMode := none } ∧ m ≠ .off) := by
  unfold State.takeMode
  dsimp only
  by_cases same : m = (s.det d).mode
  · exact .inl ⟨if_pos same, same⟩
  · rw [if_neg same]
    cases m with
    | off => exact .inr (.inl ⟨rfl, rfl⟩)
    | continuous | periodic =>
      refine .inr (.inr ?_)
      dsimp only
      split
      · refine .inl ⟨?_, by decide⟩
        simp [State.startSample, State.setDet_setDet]
      · exact .inr ⟨rfl, by decide⟩

theorem State.takeMode_only (m : Supervision) : ChannelOnly d s (s.takeMode d m) := by
  obtain ⟨eq, -⟩ | ⟨eq, -⟩ | ⟨eq, -⟩ | ⟨eq, -⟩ := s.takeMode_cases d m <;> rw [eq]
  · exact s.setDet_only d _
  · exact s.turnOff_only d
  · exact s.setDet_only d _
  · exact s.setDet_only d _

theorem State.deriveMode_only : ChannelOnly d s (s.deriveMode d) :=
  .ite (s.setDet_only d _) (s.takeMode_only d _)

theorem State.takeWaitingMode_only : ChannelOnly d s (s.takeWaitingMode d) := by
  unfold State.takeWaitingMode
  split
  · exact .refl d s
  · exact s.turnOff_only d
  · exact s.setDet_only d _

/-! ### Glare -/

theorem State.beginGlare_only : ChannelOnly d s (s.beginGlare d) :=
  (s.setDet_only d _).trans (State.raiseDet_only d _)

theorem State.endGlare_only : ChannelOnly d s (s.endGlare d) :=
  (s.setDet_only d _).trans (State.clearFault_only d _)

end

end Sys2Proof.Machine
end

