-- ==== Sys2Proof/Proofs/ChannelOrder.lean ====
section
/-! Every step keeps the detector channels in order (R1 to R6, R9, R10, R13, R14): the channel itself, its mode, and its
candidate, three parts that the operations keep or restore in turn. -/

namespace Sys2Proof.Machine

set_option Elab.async false -- one declaration after another: the check bounds the threads waiting on one another

variable {s t u : State} {d e : DetNo}

/-! ### The three parts -/

/-- A channel in order, apart from its mode's origin and its candidate; `o`, `h` and `g` say whether it holds OPEN, SHORT
and GLARE (R4 to R6, R9, R10). -/
structure Detector.Ordered (x : Detector) (o h g : Bool) : Prop where
  off : x.mode = .off → x.busy = false ∧ x.lastLevel = none ∧ x.openRun = 0 ∧ x.shortRun = 0 ∧ o = false ∧ h = false
  openRun : x.openRun ≤ 4
  shortRun : x.shortRun ≤ 4
  loop : ¬(o = true ∧ h = true)
  glare : g = true ↔ x.glare ≠ .none

def State.channelOrdered (s : State) (d : DetNo) : Prop :=
  (s.det d).Ordered (s.holds (.detector d) .openLoop) (s.holds (.detector d) .short) (s.holds (.detector d) .glare)

/-- The mode is the one derived, or that one waits for the sample in flight (R1, R3). -/
def State.modeDerived (s : State) (d : DetNo) : Prop :=
  let m := effectiveMode (s.detCfg d).supervision s.shift
  ((s.det d).nextMode = none → (s.det d).mode = m) ∧ ∀ w, (s.det d).nextMode = some w → (s.det d).busy = true ∧ w = m

/-- A candidate is held only in WATCH by a channel that is usable (R13, R14). -/
def State.candidateKept (s : State) (d : DetNo) : Prop :=
  (s.det d).candidate ≠ none → s.shift = .watch ∧ s.usable d = true

theorem detectorSound_iff : s.detectorSound d ↔ s.channelOrdered d ∧ s.modeDerived d ∧ s.candidateKept d := by
  constructor
  · rintro ⟨mode, next, off, openRun, shortRun, loop, glare, candidate⟩
    exact ⟨⟨off, openRun, shortRun, loop, glare⟩, ⟨mode, next⟩, candidate⟩
  · rintro ⟨⟨off, openRun, shortRun, loop, glare⟩, ⟨mode, next⟩, candidate⟩
    exact ⟨mode, next, off, openRun, shortRun, loop, glare, candidate⟩

/-- A busy channel is not OFF (R6). -/
theorem Detector.Ordered.on {x : Detector} {o h g : Bool} (ordered : x.Ordered o h g) (busy : x.busy = true) : x.mode ≠ .off :=
  fun off => by simp [(ordered.off off).1] at busy

theorem State.usable_iff : s.usable d = true ↔ s.faults.get (.detector d) = 0 ∧ s.disabled (.detector d) = false := by
  simp [State.usable]

theorem candidateKept_of_none (none : (s.det d).candidate = none) : s.candidateKept d := fun some => absurd none some

/-! ### What leaves a channel alone -/

theorem channelOrdered_of_same (det : t.det d = s.det d) (faults : t.faults.get (.detector d) = s.faults.get (.detector d))
    (h : s.channelOrdered d) : t.channelOrdered d := by
  unfold State.channelOrdered State.holds at *
  rwa [det, faults]

theorem modeDerived_of_same (det : t.det d = s.det d) (cfg : t.detCfg d = s.detCfg d) (shift : t.shift = s.shift)
    (h : s.modeDerived d) : t.modeDerived d := by
  unfold State.modeDerived at *
  rwa [det, cfg, shift]

theorem candidateKept_of_same (det : t.det d = s.det d) (faults : t.faults.get (.detector d) = s.faults.get (.detector d))
    (disabled : t.disabled (.detector d) = s.disabled (.detector d)) (shift : t.shift = s.shift) (h : s.candidateKept d) :
    t.candidateKept d := by
  unfold State.candidateKept State.usable at *
  rwa [det, faults, disabled, shift]

theorem State.detCfg_congr (same : t.store.live = s.store.live) (d : DetNo) : t.detCfg d = s.detCfg d := by
  simp only [State.detCfg, same]

theorem ChannelOnly.shift (h : ChannelOnly d s t) : t.shift = s.shift := h.kept .shift (by decide)

theorem ChannelOnly.detCfg (h : ChannelOnly d s t) (e : DetNo) : t.detCfg e = s.detCfg e :=
  State.detCfg_congr (congrArg Store.live (h.kept .store (by decide) : t.store = s.store)) e

theorem ChannelOnly.disabled (h : ChannelOnly d s t) (x : Target) : t.disabled x = s.disabled x :=
  State.disabled_congr (State.entryOf_congr (by rw [(h.kept .disablements (by decide) : t.dis = s.dis)]) x)

theorem ChannelOnly.faults_other (h : ChannelOnly d s t) (ne : e ≠ d) :
    t.faults.get (.detector e) = s.faults.get (.detector e) := h.faults _ (by simpa using ne)

theorem ChannelOnly.ordered (h : ChannelOnly d s t) (ne : e ≠ d) : s.channelOrdered e → t.channelOrdered e :=
  channelOrdered_of_same (h.det e ne) (h.faults_other ne)

theorem ChannelOnly.derived (h : ChannelOnly d s t) (ne : e ≠ d) : s.modeDerived e → t.modeDerived e :=
  modeDerived_of_same (h.det e ne) (h.detCfg e) h.shift

theorem ChannelOnly.candidate (h : ChannelOnly d s t) (ne : e ≠ d) : s.candidateKept e → t.candidateKept e :=
  candidateKept_of_same (h.det e ne) (h.faults_other ne) (h.disabled _) h.shift

/-- An operation of one channel keeps every channel in order where it keeps its own. -/
theorem ChannelOnly.sound (h : ChannelOnly d s t) (own : s.detectorSound d → t.detectorSound d)
    (he : s.detectorSound e) : t.detectorSound e := by
  by_cases same : e = d
  · subst same
    exact own he
  · obtain ⟨ordered, derived, candidate⟩ := detectorSound_iff.mp he
    exact detectorSound_iff.mpr ⟨h.ordered same ordered, h.derived same derived, h.candidate same candidate⟩

/-- The kinds that touch a channel or what its order is measured by. -/
abbrev channelTouching : List ChangeKind :=
  [.channel, .channelPin, .channelFault, .shift, .table, .live, .powerOn, .restart]

theorem Change.channel_kept {k : ChangeKind} (change : Change k s t) (other : k ∉ channelTouching) (d : DetNo) :
    t.det d = s.det d ∧ t.faults.get (.detector d) = s.faults.get (.detector d) ∧ t.detCfg d = s.detCfg d ∧
      t.shift = s.shift ∧ t.disabled (.detector d) = s.disabled (.detector d) := by
  have running : k ≠ .powerOn ∧ k ≠ .restart := by
    refine ⟨?_, ?_⟩ <;> rintro rfl <;> simp at other
  have table : k ≠ .table := by rintro rfl; simp at other
  have live : k ≠ .live := by rintro rfl; simp at other
  refine ⟨State.det_congr (change.kept .detectors ?_) d, ?_, State.detCfg_congr (change.live_kept live running) d,
    change.kept .shift ?_, change.disabled_kept table running rfl⟩
  · cases k <;> simp_all [ChangeKind.blocks, sectorBlocks, faultBlocks, closureBlocks, lineBlocks]
  · refine change.view_kept (view := fun table => table.get (.detector d)) running fun o f may => ?_
    refine unmoved_get ?_
    rintro rfl
    cases k <;> simp_all [ChangeKind.mayPut, plantPuts]
  · cases k <;> simp_all [ChangeKind.blocks, sectorBlocks, faultBlocks, closureBlocks, lineBlocks]

theorem Change.channelOrdered {k : ChangeKind} (change : Change k s t) (other : k ∉ channelTouching)
    (h : s.channelOrdered d) : t.channelOrdered d :=
  have ⟨det, faults, _⟩ := change.channel_kept other d
  channelOrdered_of_same det faults h

theorem Change.modeDerived {k : ChangeKind} (change : Change k s t) (other : k ∉ channelTouching)
    (h : s.modeDerived d) : t.modeDerived d :=
  have ⟨det, _, cfg, mode, _⟩ := change.channel_kept other d
  modeDerived_of_same det cfg mode h

theorem Change.candidateKept {k : ChangeKind} (change : Change k s t) (other : k ∉ channelTouching)
    (h : s.candidateKept d) : t.candidateKept d :=
  have ⟨det, faults, _, mode, disabled⟩ := change.channel_kept other d
  candidateKept_of_same det faults disabled mode h

theorem start_detectorSound (restart : Bool) (kind : Byte) (source : StartSource) (d : DetNo) :
    ((s.startBlocks restart).announce kind source).detectorSound d := by
  have from_ := State.announce_startedFrom (s := s) kind source (s.startBlocks_startedFrom restart)
  generalize (s.startBlocks restart).announce kind source = t at from_
  obtain ⟨shift, -, -, -, -, -, -, -, -, det, -⟩ := from_
  obtain ⟨det, none⟩ := det d
  have holds (f : FaultCode) : t.holds (.detector d) f = false := by simp [State.holds, none, hasFault]
  refine detectorSound_iff.mpr ⟨?_, ?_, candidateKept_of_none (by rw [det])⟩
  · rw [State.channelOrdered, det, holds, holds, holds]
    exact ⟨fun off => ⟨decide_eq_false (by simpa using off), rfl, rfl, rfl, rfl, rfl⟩, by simp, by simp, by simp, by simp⟩
  · rw [State.modeDerived, det, shift]
    cases (t.detCfg d).supervision <;> simp [effectiveMode]

/-- The kinds that move a channel or what its order is measured by, but for the resets. -/
abbrev channelMoving : List ChangeKind := [.channel, .channelPin, .channelFault, .shift, .table, .live]

theorem Change.detectorSound {k : ChangeKind} (change : Change k s t) (other : k ∉ channelMoving)
    (h : s.detectorSound d) : t.detectorSound d := by
  by_cases reset : k = .powerOn ∨ k = .restart
  · cases change with
    | powerOn | restart => exact start_detectorSound _ _ _ d
    | _ => simp at reset
  · have ⟨ordered, derived, candidate⟩ := detectorSound_iff.mp h
    have untouched : k ∉ channelTouching := by simp_all
    exact detectorSound_iff.mpr ⟨change.channelOrdered untouched ordered, change.modeDerived untouched derived,
      change.candidateKept untouched candidate⟩

theorem Steps.detectorSound {l : List ChangeKind} (path : Steps l s t) (other : ∀ k ∈ l, k ∉ channelMoving)
    (h : s.detectorSound d) : t.detectorSound d :=
  path.keeps (P := fun u => u.detectorSound d) (fun k mem _ _ change hu => change.detectorSound (other k mem) hu) h

/-! ### Samples and modes -/

/-- Fields an order does not speak of. -/
theorem Detector.Ordered.congr {x y : Detector} {o h g : Bool} (ordered : x.Ordered o h g) (mode : y.mode = x.mode)
    (busy : y.busy = x.busy) (level : y.lastLevel = x.lastLevel) (openRun : y.openRun = x.openRun)
    (shortRun : y.shortRun = x.shortRun) (glare : y.glare = x.glare) : y.Ordered o h g := by
  obtain ⟨off, a, b, loop, glared⟩ := ordered
  exact ⟨by rwa [mode, busy, level, openRun, shortRun], openRun ▸ a, shortRun ▸ b, loop, by rwa [glare]⟩

/-- With a mode that is not OFF only the run counts and the glare phase matter. -/
theorem Detector.Ordered.running {x y : Detector} {o h g : Bool} (ordered : x.Ordered o h g) (mode : y.mode ≠ .off)
    (openRun : y.openRun = x.openRun) (shortRun : y.shortRun = x.shortRun) (glare : y.glare = x.glare) :
    y.Ordered o h g := by
  obtain ⟨-, a, b, loop, glared⟩ := ordered
  exact ⟨fun off => absurd off mode, openRun ▸ a, shortRun ▸ b, loop, by rwa [glare]⟩

theorem State.turnOff_ordered (h : s.channelOrdered d) : (s.turnOff d).channelOrdered d := by
  unfold State.channelOrdered
  rw [State.turnOff_det, State.turnOff_holds, State.turnOff_holds, State.turnOff_holds]
  obtain ⟨-, -, -, -, glare⟩ := h
  exact ⟨fun _ => ⟨rfl, rfl, rfl, rfl, by simp, by simp⟩, by simp [Detector.off], by simp [Detector.off], by simp,
    by simpa [Detector.off] using glare⟩

theorem State.turnOff_candidate (h : s.candidateKept d) : (s.turnOff d).candidateKept d := by
  intro some
  rw [State.turnOff_det] at some
  obtain ⟨watch, usable⟩ := h some
  obtain ⟨none, able⟩ := State.usable_iff.mp usable
  have only := s.turnOff_only d
  exact ⟨only.shift.trans watch, State.usable_iff.mpr ⟨s.turnOff_none d none, (only.disabled _).trans able⟩⟩

theorem State.setDet_ordered {x : Detector} : (s.setDet d x).channelOrdered d ↔
    x.Ordered (s.holds (.detector d) .openLoop) (s.holds (.detector d) .short) (s.holds (.detector d) .glare) := by
  simp [State.channelOrdered]

theorem State.setDet_candidate {x : Detector} (same : x.candidate = (s.det d).candidate) (h : s.candidateKept d) :
    (s.setDet d x).candidateKept d := by
  intro some
  rw [State.setDet_det_self, same] at some
  exact h some

/-- The derivation of the mode puts it right, whatever stood before (R1, R3). -/
theorem State.deriveMode_sound (ordered : s.channelOrdered d) :
    (s.deriveMode d).channelOrdered d ∧ (s.deriveMode d).modeDerived d := by
  have derived {m : Supervision} {x : Detector} (eq : m = effectiveMode (s.detCfg d).supervision s.shift) :
      (s.setDet d x).modeDerived d ↔ (x.nextMode = none → x.mode = m) ∧ ∀ w, x.nextMode = some w → x.busy = true ∧ w = m := by
    simp [State.modeDerived, eq]
  unfold State.deriveMode
  dsimp only
  generalize eq : effectiveMode (s.detCfg d).supervision s.shift = m
  split
  · next busy =>
    refine ⟨State.setDet_ordered.mpr (ordered.running (ordered.on busy) rfl rfl rfl), (derived eq.symm).mpr ⟨by simp, ?_⟩⟩
    rintro w ⟨⟩
    exact ⟨busy, rfl⟩
  · obtain ⟨same, mode⟩ | ⟨same, off⟩ | ⟨same, on⟩ | ⟨same, on⟩ := s.takeMode_cases d m <;> rw [same]
    · exact ⟨State.setDet_ordered.mpr (ordered.congr rfl rfl rfl rfl rfl rfl),
        (derived eq.symm).mpr ⟨fun _ => mode.symm, by simp⟩⟩
    · have only := s.turnOff_only d
      refine ⟨State.turnOff_ordered ordered, ?_⟩
      unfold State.modeDerived
      rw [State.turnOff_det, only.detCfg, only.shift, eq, off]
      simp [Detector.off]
    · exact ⟨State.setDet_ordered.mpr (ordered.running on rfl rfl rfl), (derived eq.symm).mpr ⟨fun _ => rfl, by simp⟩⟩
    · exact ⟨State.setDet_ordered.mpr (ordered.running on rfl rfl rfl), (derived eq.symm).mpr ⟨fun _ => rfl, by simp⟩⟩

theorem State.deriveMode_candidate (h : s.candidateKept d) : (s.deriveMode d).candidateKept d := by
  unfold State.deriveMode
  dsimp only
  split
  · exact State.setDet_candidate rfl h
  · obtain ⟨same, -⟩ | ⟨same, -⟩ | ⟨same, -⟩ | ⟨same, -⟩ :=
      s.takeMode_cases d (effectiveMode (s.detCfg d).supervision s.shift) <;> rw [same]
    · exact State.setDet_candidate rfl h
    · exact State.turnOff_candidate h
    · exact State.setDet_candidate rfl h
    · exact State.setDet_candidate rfl h

theorem State.judgeLevel_none (level : Fin 16) {a b : Nat} (calm : ¬((a = 4 ∧ s.holds (.detector d) .openLoop = false) ∨
    (b = 4 ∧ s.holds (.detector d) .short = false))) (none : s.faults.get (.detector d) = 0) :
    (s.judgeLevel d level a b).faults.get (.detector d) = 0 := by
  obtain ⟨opens, shorts⟩ := not_or.mp calm
  unfold State.judgeLevel
  dsimp only
  rw [if_neg opens, if_neg shorts]
  split_ifs
  · exact State.clearFault_none d _ (State.clearFault_none d _ none)
  · exact State.clearFault_none d _ none
  · exact none

/-- What a level raises and clears leaves at most one loop fault (R5). -/
theorem loop_apart {o h : Bool} (level a b : Nat) (loop : ¬(o = true ∧ h = true)) :
    ¬((if a = 4 ∧ o = false then true else if b = 4 ∧ h = false then false
      else if 3 ≤ level ∧ level ≤ 14 then false else o) = true ∧
      (if a = 4 ∧ o = false then false else if b = 4 ∧ h = false then true
      else if 3 ≤ level ∧ level ≤ 12 then false else h) = true) := by
  by_cases opens : a = 4 ∧ o = false
  · simp [opens]
  by_cases shorts : b = 4 ∧ h = false
  · simp only [if_neg opens, if_pos shorts]
    simp
  simp only [if_neg opens, if_neg shorts]
  rintro ⟨first, second⟩
  split at first
  · cases first
  · split at second
    · cases second
    · exact loop ⟨first, second⟩

/-- A level leaves the channel in order: the counts stop at 4, and no band raises both faults (R4, R5). -/
theorem State.applyLevel_ordered (level : Fin 16) (busy : (s.det d).busy = true) (ordered : s.channelOrdered d) :
    (s.applyLevel d level).channelOrdered d := by
  have on := ordered.on busy
  obtain ⟨-, -, -, loop, glare⟩ := ordered
  have counts : ((s.det d).sampled level).openRun ≤ 4 ∧ ((s.det d).sampled level).shortRun ≤ 4 := by
    simp only [Detector.sampled]
    constructor <;> split <;> omega
  rw [State.applyLevel_eq]
  generalize put : (s.det d).sampled level = y at *
  have mode : y.mode = (s.det d).mode := put ▸ rfl
  have phase : y.glare = (s.det d).glare := put ▸ rfl
  obtain ⟨openLoop, short, glared⟩ := (s.setDet d y).judgeLevel_holds d level y.openRun y.shortRun
  unfold State.channelOrdered
  rw [openLoop, short, glared, State.judgeLevel_det]
  simp only [State.setDet_holds, State.setDet_det_self]
  have both := loop_apart level.val y.openRun y.shortRun loop
  split
  · exact ⟨fun off => absurd (mode ▸ off) on, counts.1, counts.2, both, by rw [glare, ← phase]⟩
  · exact ⟨fun off => absurd (mode ▸ off) on, counts.1, counts.2, both, by rw [glare, ← phase]⟩

theorem State.applyLevel_candidate (level : Fin 16) (h : s.candidateKept d) : (s.applyLevel d level).candidateKept d := by
  have only := s.applyLevel_only d level
  rw [State.applyLevel_eq] at only ⊢
  generalize put : (s.det d).sampled level = y at *
  intro some
  rw [State.judgeLevel_det] at some
  split at some
  · exact absurd rfl some
  · next calm =>
    have held : (s.det d).candidate ≠ none := by
      rw [State.setDet_det_self, ← put] at some
      exact some
    obtain ⟨watch, usable⟩ := h held
    obtain ⟨none, able⟩ := State.usable_iff.mp usable
    exact ⟨only.shift.trans watch, State.usable_iff.mpr
      ⟨State.judgeLevel_none level calm (by simpa using none), (only.disabled _).trans able⟩⟩

theorem State.applyLevel_nextMode (level : Fin 16) :
    ((s.applyLevel d level).det d).nextMode = (s.det d).nextMode ∧ ((s.applyLevel d level).det d).mode = (s.det d).mode := by
  rw [State.applyLevel_eq, State.judgeLevel_det]
  split <;> simp [Detector.sampled]

/-- The end of a sample keeps a channel in order: its waiting mode takes hold (R3). -/
theorem sampleEnd_sound (level : Fin 16) (busy : (s.det d).busy = true) (h : s.detectorSound d) :
    ((s.applyLevel d level).takeWaitingMode d).detectorSound d := by
  obtain ⟨ordered, ⟨mode, next⟩, candidate⟩ := detectorSound_iff.mp h
  have judged := State.applyLevel_ordered level busy ordered
  have held := State.applyLevel_candidate level candidate
  have only := s.applyLevel_only d level
  obtain ⟨nextSame, modeSame⟩ := s.applyLevel_nextMode (d := d) level
  rw [← nextSame] at mode next
  rw [← modeSame, ← only.detCfg, ← only.shift] at mode
  rw [← only.detCfg, ← only.shift] at next
  have on : ((s.applyLevel d level).det d).mode ≠ .off := modeSame ▸ ordered.on busy
  generalize s.applyLevel d level = u at *
  unfold State.takeWaitingMode
  split
  · next none => exact detectorSound_iff.mpr ⟨judged, ⟨mode, fun w some => by rw [none] at some; cases some⟩, held⟩
  · next off =>
    have turned := u.turnOff_only d
    refine detectorSound_iff.mpr ⟨State.turnOff_ordered judged, ?_, State.turnOff_candidate held⟩
    unfold State.modeDerived
    rw [State.turnOff_det, turned.detCfg, turned.shift, ← (next _ off).2]
    simp [Detector.off]
  · next m other some =>
    refine detectorSound_iff.mpr ⟨State.setDet_ordered.mpr (judged.running (fun off => other (off ▸ rfl)) rfl rfl rfl), ?_,
      State.setDet_candidate rfl held⟩
    have derived := (next m some).2
    simpa [State.modeDerived] using derived

/-! ### Glare and pulses -/

theorem State.modeDerived.congr (h : s.modeDerived d) (only : ChannelOnly d s t)
    (same : (t.det d).mode = (s.det d).mode ∧ (t.det d).nextMode = (s.det d).nextMode ∧ (t.det d).busy = (s.det d).busy) :
    t.modeDerived d := by
  unfold State.modeDerived
  rw [same.1, same.2.1, same.2.2, only.detCfg, only.shift]
  exact h

/-- A channel put with its supervision and its candidate as they were, and the glare phase that goes with GLARE. -/
theorem setDet_sound {x : Detector} (same : x.mode = (s.det d).mode ∧ x.nextMode = (s.det d).nextMode ∧
      x.busy = (s.det d).busy ∧ x.lastLevel = (s.det d).lastLevel ∧ x.openRun = (s.det d).openRun ∧
      x.shortRun = (s.det d).shortRun) (glare : s.holds (.detector d) .glare = true ↔ x.glare ≠ .none)
    (candidate : x.candidate ≠ none → s.shift = .watch ∧ s.usable d = true) (h : s.detectorSound d) :
    (s.setDet d x).detectorSound d := by
  obtain ⟨⟨off, openRun, shortRun, loop, -⟩, derived, -⟩ := detectorSound_iff.mp h
  obtain ⟨mode, next, busy, level, first, second⟩ := same
  refine detectorSound_iff.mpr ⟨State.setDet_ordered.mpr ⟨?_, first ▸ openRun, second ▸ shortRun, loop, glare⟩,
    derived.congr (s.setDet_only d x) (by simp [mode, next, busy]), fun some => ?_⟩
  · rwa [mode, busy, level, first, second]
  · rw [State.setDet_det_self] at some
    exact candidate some

/-- Without its candidate a channel otherwise in order is in order. -/
theorem dropCandidate_whole (r : Byte) (ordered : s.channelOrdered d) (derived : s.modeDerived d) :
    (s.dropCandidate d r).detectorSound d := by
  refine detectorSound_iff.mpr ⟨?_, derived.congr (s.dropCandidate_only d r) (by simp [State.dropCandidate_det_self]),
    candidateKept_of_none (by rw [State.dropCandidate_det_self])⟩
  unfold State.channelOrdered
  simp only [State.dropCandidate_det_self, State.dropCandidate_holds]
  exact ordered.congr rfl rfl rfl rfl rfl rfl

theorem dropCandidate_sound (r : Byte) (h : s.detectorSound d) : (s.dropCandidate d r).detectorSound d :=
  have ⟨ordered, derived, _⟩ := detectorSound_iff.mp h
  dropCandidate_whole r ordered derived

theorem State.beginGlare_det (s : State) (d : DetNo) : (s.beginGlare d).det d =
    if s.holds (.detector d) .glare then { s.det d with glare := .glaring }
    else { s.det d with glare := .glaring, candidate := none } := by
  rw [State.beginGlare, State.raiseDet_det]
  simp

theorem State.endGlare_det (s : State) (d : DetNo) : (s.endGlare d).det d = { s.det d with glare := .none } := by
  simp [State.endGlare]

/-- A channel in order but for its mode's origin. -/
def State.channelKept (s : State) (d : DetNo) : Prop := s.channelOrdered d ∧ s.candidateKept d

theorem beginGlare_kept (h : s.channelKept d) : (s.beginGlare d).channelKept d := by
  obtain ⟨⟨off, openRun, shortRun, loop, -⟩, candidate⟩ := h
  have holds (f : FaultCode) : (s.beginGlare d).holds (.detector d) f =
      if f = .glare then true else s.holds (.detector d) f := by
    rw [State.beginGlare, State.raiseDet_holds, State.setDet_holds]
  constructor
  · unfold State.channelOrdered
    rw [s.beginGlare_det, holds, holds, holds]
    split
    · exact ⟨off, openRun, shortRun, loop, by simp⟩
    · exact ⟨off, openRun, shortRun, loop, by simp⟩
  · cases held : s.holds (.detector d) .glare with
    | true =>
      rw [State.beginGlare, State.raiseDet_of_held (by simpa using held)]
      exact State.setDet_candidate rfl candidate
    | false => exact candidateKept_of_none (by rw [s.beginGlare_det, held]; rfl)

theorem endGlare_kept (h : s.channelKept d) : (s.endGlare d).channelKept d := by
  obtain ⟨⟨off, openRun, shortRun, loop, -⟩, candidate⟩ := h
  have only := s.endGlare_only d
  refine ⟨?_, fun some => ?_⟩
  · unfold State.channelOrdered
    rw [s.endGlare_det]
    simp only [State.endGlare, State.clearFault_detHolds, State.setDet_holds]
    exact ⟨off, openRun, shortRun, loop, by simp⟩
  · rw [s.endGlare_det] at some
    obtain ⟨watch, usable⟩ := candidate some
    obtain ⟨none, able⟩ := State.usable_iff.mp usable
    exact ⟨only.shift.trans watch, State.usable_iff.mpr ⟨State.clearFault_none d _ none, (only.disabled _).trans able⟩⟩

theorem beginGlare_sound (h : s.detectorSound d) : (s.beginGlare d).detectorSound d := by
  obtain ⟨ordered, derived, candidate⟩ := detectorSound_iff.mp h
  obtain ⟨ordered, candidate⟩ := beginGlare_kept ⟨ordered, candidate⟩
  refine detectorSound_iff.mpr ⟨ordered, derived.congr (s.beginGlare_only d) ?_, candidate⟩
  rw [s.beginGlare_det]
  split <;> exact ⟨rfl, rfl, rfl⟩

theorem endGlare_sound (h : s.detectorSound d) : (s.endGlare d).detectorSound d := by
  obtain ⟨ordered, derived, candidate⟩ := detectorSound_iff.mp h
  obtain ⟨ordered, candidate⟩ := endGlare_kept ⟨ordered, candidate⟩
  exact detectorSound_iff.mpr
    ⟨ordered, derived.congr (s.endGlare_only d) (by rw [s.endGlare_det]; exact ⟨rfl, rfl, rfl⟩), candidate⟩

theorem endPulse_sound (cls : PulseClass) (h : s.detectorSound d) : (s.endPulse d cls).detectorSound d := by
  obtain ⟨⟨-, -, -, -, glare⟩, -, candidate⟩ := detectorSound_iff.mp h
  refine setDet_sound ⟨rfl, rfl, rfl, rfl, rfl, rfl⟩ ?_ candidate h
  cases held : s.holds (.detector d) .glare with
  | true => simp
  | false => simpa [held] using glare

/-! ### Deliveries -/

theorem deliver_sound (ember : Bool) (weight : Nat) (confirmed : Bool) (h : ∀ e, s.detectorSound e) (e : DetNo) :
    (s.deliver d ember weight confirmed).detectorSound e := by
  have offered (e : DetNo) : (s.offerSpark d).detectorSound e := (s.offerSpark_path d).steps.detectorSound (by decide) (h e)
  unfold State.deliver
  dsimp only
  generalize s.offerSpark d = u at *
  have counted (e : DetNo) : (u.setDet d { u.det d with deliveries := min ((u.det d).deliveries + 1) 65535 }).detectorSound e :=
    (u.setDet_only d { u.det d with deliveries := min ((u.det d).deliveries + 1) 65535 }).sound
      (fun own => setDet_sound ⟨rfl, rfl, rfl, rfl, rfl, rfl⟩
        (detectorSound_iff.mp own).1.glare (detectorSound_iff.mp own).2.2 own) (offered e)
  generalize u.setDet d _ = v at *
  refine (((((State.record_kept v _ _ _ _).logged.mono (l := .lineAside :: lineKinds ++ alarmKinds) (by decide)).andThen
    (State.report_kept _ _ _).logged (by decide)).andThen (State.countAt_path _ d weight) (by decide)).andThen
    (State.sparkCause_path _ d) (by decide) |>.andThen (State.deriveChanged_path _ _) (by decide)).steps.detectorSound
    (by decide) (counted e)

theorem watchPulse_sound (ember : Bool) (weight : Nat) (watch : s.shift = .watch) (usable : s.usable d = true)
    (h : ∀ e, s.detectorSound e) (e : DetNo) : (s.watchPulse d ember weight).detectorSound e := by
  have put {u : State} (c : Option Candidate) (watch : u.shift = .watch) (usable : u.usable d = true)
      (hu : ∀ e, u.detectorSound e) (e : DetNo) : (u.setDet d { u.det d with candidate := c }).detectorSound e :=
    (u.setDet_only d { u.det d with candidate := c }).sound (fun own => setDet_sound ⟨rfl, rfl, rfl, rfl, rfl, rfl⟩
      (detectorSound_iff.mp own).1.glare (fun _ => ⟨watch, usable⟩) own) (hu e)
  unfold State.watchPulse
  dsimp only
  split
  · exact put _ watch usable h e
  · split
    · exact deliver_sound _ _ _ (put none watch usable h) e
    · have only := s.dropCandidate_only d 1
      refine put _ (only.shift.trans watch) ?_ (fun e => only.sound (dropCandidate_sound 1) (h e)) e
      unfold State.usable
      rw [only.disabled, State.dropCandidate_faults]
      exact usable

theorem qualified_sound (ember : Bool) (usable : s.usable d = true) (h : ∀ e, s.detectorSound e) (e : DetNo) :
    (s.qualified d ember).detectorSound e := by
  unfold State.qualified
  dsimp only
  split
  · exact deliver_sound _ _ _ h e
  · next watch => exact watchPulse_sound _ _ watch usable h e

/-! ### A written setting -/

theorem ChannelOnly.channelKept (h : ChannelOnly d s t) (own : s.channelKept d → t.channelKept d)
    (he : s.channelKept e) : t.channelKept e := by
  by_cases same : e = d
  · subst same
    exact own he
  · exact ⟨h.ordered same he.1, h.candidate same he.2⟩

theorem Change.channelKept {k : ChangeKind} (change : Change k s t) (other : k ∉ channelTouching)
    (h : s.channelKept d) : t.channelKept d :=
  ⟨change.channelOrdered other h.1, change.candidateKept other h.2⟩

theorem Steps.channelKept {l : List ChangeKind} (path : Steps l s t) (other : ∀ k ∈ l, k ∉ channelTouching)
    (h : s.channelKept d) : t.channelKept d :=
  path.keeps (P := fun u => u.channelKept d) (fun k mem _ _ change hu => change.channelKept (other k mem) hu) h

/-- The mode derived makes a channel in order that was so but for its mode's origin. -/
theorem State.deriveMode_whole (h : s.channelKept d) : (s.deriveMode d).detectorSound d :=
  have ⟨ordered, derived⟩ := State.deriveMode_sound h.1
  detectorSound_iff.mpr ⟨ordered, derived, State.deriveMode_candidate h.2⟩

theorem detectorSound_iff_kept : s.detectorSound d ↔ s.channelKept d ∧ s.modeDerived d := by
  rw [detectorSound_iff, State.channelKept]
  tauto

theorem State.judgeBlind_detector (h : s.detectorSound e) : s.judgeBlind.detectorSound e :=
  s.judgeBlind_path.steps.detectorSound (by decide) h

theorem State.judgeBlind_channelKept (h : s.channelKept e) : s.judgeBlind.channelKept e :=
  s.judgeBlind_path.steps.channelKept (by decide) h

theorem handSetting_detectorSound (name : SettingName) (h : s.detectorSound e) : (s.handSetting name).detectorSound e := by
  by_cases detector : ∃ d f, name = .detector d f
  · obtain ⟨d, f, rfl⟩ := detector
    unfold State.handSetting
    dsimp only
    split
    · exact State.judgeBlind_detector h
    · split
      · exact State.judgeBlind_detector ((s.beginGlare_only d).sound beginGlare_sound h)
      · exact h
    · split
      · exact State.judgeBlind_detector ((s.endGlare_only d).sound endGlare_sound h)
      · exact h
    · exact State.judgeBlind_detector ((s.deriveMode_only d).sound
        (fun own => State.deriveMode_whole (detectorSound_iff_kept.mp own).1) h)
    · exact h
  · exact (s.handSetting_path_of_not_detector fun d f same => detector ⟨d, f, same⟩).steps.detectorSound (by decide) h

theorem handSetting_channelKept (name : SettingName) (h : s.channelKept e) : (s.handSetting name).channelKept e := by
  by_cases detector : ∃ d f, name = .detector d f
  · obtain ⟨d, f, rfl⟩ := detector
    unfold State.handSetting
    dsimp only
    split
    · exact State.judgeBlind_channelKept h
    · split
      · exact State.judgeBlind_channelKept ((s.beginGlare_only d).channelKept beginGlare_kept h)
      · exact h
    · split
      · exact State.judgeBlind_channelKept ((s.endGlare_only d).channelKept endGlare_kept h)
      · exact h
    · exact State.judgeBlind_channelKept ((s.deriveMode_only d).channelKept
        (fun own => (detectorSound_iff_kept.mp (State.deriveMode_whole own)).1) h)
    · exact h
  · exact (s.handSetting_path_of_not_detector fun d f same => detector ⟨d, f, same⟩).steps.channelKept (by decide) h

theorem modeDerived_live (live : Settings) (same : (live.detectors[d.val]).supervision = (s.detCfg d).supervision)
    (h : s.modeDerived d) : (s.setLive live).modeDerived d := by
  unfold State.modeDerived at *
  rw [show (s.setLive live).detCfg d = live.detectors[d.val] from rfl, same]
  exact h

theorem Settings.write_supervision_of_ne (u : Settings) {name : SettingName} (v : Nat) (d : DetNo)
    (other : name ≠ .detector d 8) : ((u.write name v).detectors[d.val]).supervision = (u.detectors[d.val]).supervision := by
  cases name with
  | detector e f =>
    simp only [Settings.write, Vector.getElem_set]
    split
    · next same =>
      have eq : e = d := Fin.ext same
      subst eq
      have field : f ≠ 8 := by rintro rfl; exact other rfl
      unfold DetSettings.write
      split <;> simp_all
    · rfl
  | _ => rfl

theorem detectorSound_written : WrittenKept (fun d u => u.detectorSound d) (fun d u => u.channelKept d)
    (fun name d => name = .detector d 8) where
  plain mem change h := by
    have other : ∀ k ∈ [ChangeKind.stored, .flags, .log], k ∉ channelMoving := by decide
    exact change.detectorSound (other _ mem) h
  but mem change h := by
    have other : ∀ k ∈ [ChangeKind.flags, .log], k ∉ channelTouching := by decide
    exact change.channelKept (other _ mem) h
  handOther name h := handSetting_detectorSound name h
  handBut name h := handSetting_channelKept name h
  hand {d u name} touches h := by
    subst touches
    exact State.judgeBlind_detector (State.deriveMode_whole h)
  write {d u} name v _ h := by
    obtain ⟨kept, derived⟩ := detectorSound_iff_kept.mp h
    exact ⟨kept, fun other => detectorSound_iff_kept.mpr
      ⟨kept, modeDerived_live _ (u.store.live.write_supervision_of_ne v d other) derived⟩⟩
  copy {d u} k _ h := by
    obtain ⟨kept, derived⟩ := detectorSound_iff_kept.mp h
    refine ⟨kept, fun other => detectorSound_iff_kept.mpr ⟨kept, modeDerived_live _ ?_ derived⟩⟩
    cases k with
    | detectors => exact absurd rfl (other _ (detector_mem_names d (f := 7) (by decide)))
    | _ => rfl

/-! ### An entry created or removed -/

/-- Every channel in order, but for what depends on a target's own disablement. -/
def channelsBut (x : Target) (u : State) : Prop :=
  ∀ d, u.channelOrdered d ∧ u.modeDerived d ∧ (x ≠ .detector d → u.candidateKept d)

theorem channelsBut.sound {x : Target} (h : channelsBut x s) (other : ∀ d, x ≠ .detector d) (d : DetNo) :
    s.detectorSound d :=
  have ⟨ordered, derived, candidate⟩ := h d
  detectorSound_iff.mpr ⟨ordered, derived, candidate (other d)⟩

/-- With no candidate of the target's own, the rest is in order too. -/
theorem channelsBut.sound_of_none (h : channelsBut (.detector d) s) (none : (s.det d).candidate = none) (e : DetNo) :
    s.detectorSound e := by
  obtain ⟨ordered, derived, candidate⟩ := h e
  refine detectorSound_iff.mpr ⟨ordered, derived, ?_⟩
  by_cases same : e = d
  · subst same
    exact candidateKept_of_none none
  · exact candidate (by simpa [eq_comm] using same)

theorem channelsBut.dropped (r : Byte) (h : channelsBut (.detector d) s) (e : DetNo) :
    (s.dropCandidate d r).detectorSound e := by
  obtain ⟨ordered, derived, candidate⟩ := h e
  by_cases same : e = d
  · subst same
    exact dropCandidate_whole r ordered derived
  · have only := s.dropCandidate_only d r
    exact detectorSound_iff.mpr ⟨only.ordered same ordered, only.derived same derived,
      only.candidate same (candidate (by simpa [eq_comm] using same))⟩

theorem detectorSound_tableKept : TableKept (fun u => ∀ d, u.detectorSound d) channelsBut where
  plain mem change h d := by
    have other : ∀ k ∈ [ChangeKind.log, .output], k ∉ channelTouching := by decide
    obtain ⟨ordered, derived, candidate⟩ := h d
    exact ⟨change.channelOrdered (other _ mem) ordered, change.modeDerived (other _ mem) derived,
      fun ne => change.candidateKept (other _ mem) (candidate ne)⟩
  same {u _} same h d := by
    obtain ⟨ordered, derived, candidate⟩ := detectorSound_iff.mp (h d)
    exact detectorSound_iff.mpr ⟨ordered, derived, candidateKept_of_same (s := u) rfl rfl (same (.detector d) rfl) rfl candidate⟩
  but {_ u _} same h d := by
    obtain ⟨ordered, derived, candidate⟩ := detectorSound_iff.mp (h d)
    exact ⟨ordered, derived, fun ne => candidateKept_of_same (s := u) rfl rfl (same (.detector d) ne.symm rfl) rfl candidate⟩
  active {x u} h d := by
    cases x with
    | detector e =>
      exact State.judgeBlind_detector ((State.removeCause_path _ _).steps.detectorSound (by decide) (h.dropped 3 d))
    | fireInput f => exact (u.removeUnlatched_path _).steps.detectorSound (by decide) (h.sound (by simp) d)
    | sector n => exact ((Change.siren n).path (l := [.sector]) (by decide)).steps.detectorSound (by decide) (h.sound (by simp) d)
    | station | closure => exact h.sound (by simp) d
  removed {x u v} disabled hu _ detectors h d := by
    cases x with
    | detector e =>
      refine State.judgeBlind_detector (h.sound_of_none ?_ d)
      by_contra some
      rw [State.det_congr detectors] at some
      have usable := ((detectorSound_iff.mp (hu e)).2.2 some).2
      rw [State.usable_iff] at usable
      rw [disabled] at usable
      cases usable.2
    | fireInput f => exact h.sound (by simp) d
    | sector n => exact ((Change.siren n).path (l := [.sector]) (by decide)).steps.detectorSound (by decide) (h.sound (by simp) d)
    | closure c => exact (v.testZones_path c).steps.detectorSound (by decide) (h.sound (by simp) d)
    | station => exact h.sound (by simp) d

/-! ### A change of shift mode -/

/-- The new mode handed to every channel; the candidates are looked after apart. -/
theorem shiftDerived (m : Shift) (h : s.channelOrdered d) :
    (forAll State.deriveMode (s.putShift m)).channelOrdered d ∧ (forAll State.deriveMode (s.putShift m)).modeDerived d := by
  have only (e : DetNo) (u : State) := u.deriveMode_only e
  refine forAll_once (i := d) (Before := fun u => u.channelOrdered d)
    (After := fun u => u.channelOrdered d ∧ u.modeDerived d) (fun u hu => State.deriveMode_sound hu)
    (fun e u ne hu => (only e u).ordered ne.symm hu)
    (fun e u ne hu => ⟨(only e u).ordered ne.symm hu.1, (only e u).derived ne.symm hu.2⟩) ?_
  have same : KeptBut [.shift, .history, .link] s (s.putShift m) :=
    (KeptBut.trans (t := { s with shift := m }) (by intro b hb; cases b <;> simp_all [Block.same])
      ((State.event_kept _ _ _ _ _ _ _).mono (by decide)))
  exact channelOrdered_of_same (State.det_congr (same .detectors (by decide)) d)
    (congrArg (fun table => FaultTable.get table _) (same .faults (by decide)).1) h

/-- In DAY there is no candidate to keep, and WATCH takes none up. -/
theorem shiftCandidate (day : s.shift = .day) (h : s.candidateKept d) :
    (forAll State.deriveMode (s.putShift .watch)).candidateKept d := by
  refine forAll_keeps (P := fun u => u.candidateKept d) (fun e u hu => ?_) (candidateKept_of_none ?_)
  · by_cases same : d = e
    · subst same
      exact State.deriveMode_candidate hu
    · exact (u.deriveMode_only e).candidate same hu
  · have same : (s.putShift .watch).det d = s.det d :=
      State.det_congr ((State.event_kept _ _ _ _ _ _ _ .detectors (by decide))) d
    rw [same]
    by_contra some
    rw [(h some).1] at day
    cases day

theorem shift_detectorSound {mode : Nat} (h : ∀ d, s.detectorSound d) (d : DetNo) :
    (s.setShiftReq mode).1.detectorSound d := by
  have derived (m : Shift) (e : DetNo) := shiftDerived m (detectorSound_iff.mp (h e)).1
  have meters (f : LineNo → State → Meter) {u : State} (hu : u.detectorSound d) :
      (forAll (fun n v => v.setMeter n (f n v)) u).detectorSound d :=
    forAll_keeps (P := fun v => v.detectorSound d)
      (fun n v hv => (Change.meter n (f n v)).detectorSound (by decide) hv) hu
  unfold State.setShiftReq
  split
  · exact h d
  · refine meters (fun n v => (v.meter n).start v.uptime) (forAll_once (i := d)
      (Before := fun u => u.channelOrdered d ∧ u.modeDerived d) (After := fun u => u.detectorSound d)
      (fun u hu => dropCandidate_whole 4 hu.1 hu.2) (fun e u ne hu => ?_) (fun e u ne hu => ?_) ?_)
    · have only := u.dropCandidate_only e 4
      exact ⟨only.ordered ne.symm hu.1, only.derived ne.symm hu.2⟩
    · exact (u.dropCandidate_only e 4).sound (dropCandidate_sound 4) hu
    · have judged := State.judgeBlind_path (forAll State.deriveMode (s.putShift .day))
      have judging : ∀ k ∈ [ChangeKind.blindness], k ∉ channelTouching := by decide
      obtain ⟨ordered, derived⟩ := derived .day d
      exact ⟨judged.steps.keeps (P := fun u => u.channelOrdered d) (fun k mem _ _ change hu => change.channelOrdered
        (judging k mem) hu) ordered, judged.steps.keeps (P := fun u => u.modeDerived d)
        (fun k mem _ _ change hu => change.modeDerived (judging k mem) hu) derived⟩
  · exact h d
  · next day =>
    split
    · exact h d
    · obtain ⟨ordered, derived⟩ := derived .watch d
      exact meters (fun n v => (v.meter n).stop) (State.judgeBlind_detector (detectorSound_iff.mpr
        ⟨ordered, derived, shiftCandidate day (detectorSound_iff.mp (h d)).2.2⟩))
  · exact h d

/-! ### Every step -/

theorem startSample_sound (due : s.sampleStartDue d = true) (h : s.detectorSound d) : (s.startSample d).detectorSound d := by
  obtain ⟨ordered, ⟨mode, next⟩, candidate⟩ := detectorSound_iff.mp h
  obtain ⟨⟨idle, on⟩, -⟩ : ((s.det d).busy = false ∧ (s.det d).mode ≠ .off) ∧ _ := by
    simpa [State.sampleStartDue] using due
  refine detectorSound_iff.mpr ⟨State.setDet_ordered.mpr (ordered.running on rfl rfl rfl), ?_,
    State.setDet_candidate rfl candidate⟩
  have waiting : (s.det d).nextMode = none := by
    cases held : (s.det d).nextMode with
    | none => rfl
    | some w => simp [(next w held).1] at idle
  have derived := mode waiting
  simpa [State.startSample, State.modeDerived, waiting] using derived

theorem leadingEdge_sound (h : s.detectorSound d) : (s.setDet d
    { s.det d with
      lit := true
      lastEdge := some s.uptime
      width := 0
      glare := if s.holds (.detector d) .glare then .glaring else (s.det d).glare }).detectorSound d := by
  obtain ⟨⟨-, -, -, -, glare⟩, -, candidate⟩ := detectorSound_iff.mp h
  refine setDet_sound ⟨rfl, rfl, rfl, rfl, rfl, rfl⟩ ?_ candidate h
  cases held : s.holds (.detector d) .glare with
  | true => simp
  | false => simpa [held] using glare

theorem trailingEdge_sound (h : ∀ e, s.detectorSound e) (e : DetNo) :
    Shows (fun v => v.detectorSound e) (execPulseTrailingEdge d s) := by
  have log {u v : State} (change : Change .log u v) : u.detectorSound e → v.detectorSound e :=
    change.detectorSound (by decide)
  have ended (cls : PulseClass) (e : DetNo) : (s.endPulse d cls).detectorSound e :=
    (s.setDet_only d _).sound (endPulse_sound cls) (h e)
  have qualified (ember : Bool) (cls : PulseClass) (usable : s.qualifies d = true) :
      ((s.endPulse d cls).qualified d ember).detectorSound e := qualified_sound (s := s.endPulse d cls) ember usable (ended cls) e
  unfold execPulseTrailingEdge
  dsimp only
  split
  · split
    · split
      · next usable => exact .of_done log (qualified _ _ usable)
      · exact .of_done log (ended _ e)
    · split
      · next usable => exact .of_done log (qualified _ _ usable)
      · exact .of_done log (ended _ e)
    · exact .of_done log (ended _ e)
    · exact .of_done log (ended _ e)
  · exact .of_done log (h e)

/-- The commands of the channels' own keep them in order. -/
theorem channelCommand_sound {c : Instr} (moves : ¬∀ k ∈ execKinds c, k ∉ channelMoving) (table : .table ∉ execKinds c)
    (live : .live ∉ execKinds c) (h : ∀ e, s.detectorSound e) (e : DetNo) :
    Shows (fun v => v.detectorSound e) (exec c s) := by
  have log {u v : State} (change : Change .log u v) : u.detectorSound e → v.detectorSound e :=
    change.detectorSound (by decide)
  have own {d : DetNo} {u : State} {p : Prop} [Decidable p] (only : ChannelOnly d s u)
      (sound : p → s.detectorSound d → u.detectorSound d) :
      Shows (fun v => v.detectorSound e) (if p then done u else done s) := by
    split
    · next due => exact .of_done log (only.sound (sound due) (h e))
    · exact .of_done log (h e)
  have judged {d : DetNo} {u : State} {p : Prop} [Decidable p] (only : ChannelOnly d s u)
      (sound : p → s.detectorSound d → u.detectorSound d) :
      Shows (fun v => v.detectorSound e) (if p then done u.judgeBlind else done s) := by
    split
    · next due => exact .of_done log (State.judgeBlind_detector (only.sound (sound due) (h e)))
    · exact .of_done log (h e)
  cases c with
  | sampleStart d => exact own (s.startSample_only d) fun due => startSample_sound due
  | candidateExpired d => exact own (s.dropCandidate_only d 1) fun _ => dropCandidate_sound 1
  | sampleEnd d level =>
    exact judged ((s.applyLevel_only d level).trans (State.takeWaitingMode_only d)) fun due =>
      sampleEnd_sound level (Bool.and_eq_true_iff.mp due).1
  | glareLimitReached d => exact judged (s.beginGlare_only d) fun _ => beginGlare_sound
  | glareCleared d => exact judged (s.endGlare_only d) fun _ => endGlare_sound
  | pulseLeadingEdge d =>
    have shown : Shows (fun v => v.detectorSound e) (execPulseLeadingEdge d s) := by
      unfold execPulseLeadingEdge
      dsimp only
      split
      · exact .of_done log (h e)
      · exact .of_done log ((s.setDet_only d _).sound leadingEdge_sound (h e))
    exact shown
  | pulseTrailingEdge d => exact trailingEdge_sound h e
  | setShift p =>
    exact fun v run => Shows.of_request (P := fun v => ∀ e, v.detectorSound e)
      (fun change hu e => change.detectorSound (by decide) (hu e)) (owner := State.setShiftReq (byteAt p 0))
      (fun u hu => shift_detectorSound hu) h v run e
  | _ => simp [execKinds] at moves table live

theorem exec_detectorSound {c : Instr} (run : exec c s = .next t) (h : ∀ d, s.detectorSound d) (d : DetNo) :
    t.detectorSound d := by
  by_cases table : .table ∈ execKinds c
  · have other : ∀ k ∈ [ChangeKind.log, .plan], k ∉ channelMoving := by decide
    exact detectorSound_tableKept.exec table (fun mem change hu e => change.detectorSound (other _ mem) (hu e)) run h d
  by_cases live : .live ∈ execKinds c
  · exact detectorSound_written.exec (writes_of_live live) run (h d)
  by_cases still : ∀ k ∈ execKinds c, k ∉ channelMoving
  · exact (exec_path run).detectorSound still (h d)
  · exact channelCommand_sound still table live h d t run

/-- Time moves the width of a lit pulse and nothing else of a channel. -/
theorem State.advance_det (s : State) (d : DetNo) : ∃ w, s.advance.det d = { s.det d with width := w } := by
  have ticked : s.advance.det d = (s.det d).tick := by simp only [State.det, State.advance, getElem_tabulate]
  rw [ticked, Detector.tick]
  split <;> exact ⟨_, rfl⟩

theorem step_detectorSound (run : step s = .next t) (h : ∀ d, s.detectorSound d) : ∀ d, t.detectorSound d := by
  refine step_keeps (P := fun u => ∀ d, u.detectorSound d) run h (fun _ _ _ hu => hu) (fun u hu d => ?_)
    fun _ _ _ run hu d => exec_detectorSound run hu d
  obtain ⟨w, det⟩ := u.advance_det d
  have same := hu d
  unfold State.detectorSound at same ⊢
  rw [det]
  exact same

/-- Settles O58: a channel's own operations keep its order, its mode and its candidate, or put them right, and leave the
other channels alone; the fire inputs are kept by `step_inputSound`. -/
theorem detectorsAndInputsStayInOrder : Obligations.DetectorsAndInputsStayInOrder :=
  fun _ _ run => ⟨step_detectorSound run, fun _ => step_inputSound run⟩

end Sys2Proof.Machine
end

