-- ==== Sys2Proof/Proofs/Agreement.lean ====
section
/-! Causes, zone levels and sectors in agreement (R92, R123, R124): what breaks it is a change of the cause list, which
touches one zone, and what restores it is the derivation of that zone and of the sectors around it. -/

namespace Sys2Proof.Machine

set_option Elab.async false -- one declaration after another: the check bounds the threads waiting on one another

variable {s t u : State} {n : SectorNo} {z y : ZoneNo}

/-! ### The parts -/

/-- A sector's demand and state follow the causes (R123, R124). -/
def State.demandSound (s : State) (n : SectorNo) : Prop :=
  (s.sector n).demand = s.demandOf n ∧ ((s.sector n).state = .sounding ↔ (s.sector n).demand ≠ .none) ∧
    ((s.sector n).state = .silenced → s.causes.any (s.standsFor n) = true) ∧
    ((s.sector n).state = .quiet → s.causes.any (s.standsFor n) = false)

/-- A sector shows the highest level of its zones (R124). -/
def State.highestSound (s : State) (n : SectorNo) : Prop := (s.sector n).highest = s.highestOf (s.sectorCfg n).zones

theorem sectorSound_iff : s.sectorSound n ↔ s.demandSound n ∧ s.highestSound n := by
  unfold State.sectorSound State.demandSound State.highestSound
  simp only [List.any_eq_true, List.any_eq_false, Bool.not_eq_true]
  tauto

/-- The records of the other zones. -/
def elsewhere (z : ZoneNo) (l : List Cause) : List Cause := l.filter fun r => r.zone ≠ z

theorem any_elsewhere {l : List Cause} {p : Cause → Bool} (other : ∀ r, p r = true → r.zone ≠ y) :
    (elsewhere y l).any p = l.any p := by
  rw [elsewhere, List.any_filter]
  congr 1
  funext r
  cases held : p r with
  | false => simp
  | true => simp [other r held]

theorem levelOfZone_elsewhere {l : List Cause} (ne : z ≠ y) : levelOfZone (elsewhere y l) z = levelOfZone l z := by
  unfold levelOfZone elsewhere
  generalize Level.quiet = m
  induction l generalizing m with
  | nil => rfl
  | cons r l ih =>
    by_cases there : r.zone = y
    · have other : r.zone ≠ z := by rw [there]; exact Ne.symm ne
      simp only [List.filter_cons, there, ne_eq, not_true_eq_false, decide_false, Bool.false_eq_true, if_false,
        List.foldl_cons]
      rw [if_neg (Ne.symm ne)]
      exact ih m
    · simp only [List.filter_cons, there, ne_eq, not_false_eq_true, decide_true, if_true, List.foldl_cons]
      exact ih _

theorem State.sectorCfg_congr (live : t.store.live = s.store.live) (n : SectorNo) : t.sectorCfg n = s.sectorCfg n := by
  simp only [State.sectorCfg, live]

theorem State.standsFor_congr (live : t.store.live = s.store.live) : t.standsFor n = s.standsFor n := by
  funext r
  simp only [State.standsFor, State.sectorCfg_congr live]

theorem State.countsFor_congr (live : t.store.live = s.store.live) : t.countsFor n = s.countsFor n := by
  funext r
  simp only [State.countsFor, State.standsFor_congr live]

theorem State.demandOf_congr (causes : t.causes = s.causes) (live : t.store.live = s.store.live) :
    t.demandOf n = s.demandOf n := by
  simp only [State.demandOf, causes, State.countsFor_congr live]

/-- A sector sees nothing of a zone outside its set (R124). -/
theorem State.demandOf_elsewhere (outside : zoneIn (s.sectorCfg n).zones y = false)
    (same : elsewhere y t.causes = elsewhere y s.causes) (live : t.store.live = s.store.live) :
    t.demandOf n = s.demandOf n ∧ t.causes.any (t.standsFor n) = s.causes.any (s.standsFor n) := by
  have stands (r : Cause) (h : s.standsFor n r = true) : r.zone ≠ y := by
    rintro rfl
    simp [State.standsFor, outside] at h
  have counts (r : Cause) (h : s.countsFor n r = true) : r.zone ≠ y := by
    rw [State.countsFor, Bool.and_eq_true] at h
    exact stands r h.1
  have whole {p : Cause → Bool} (other : ∀ r, p r = true → r.zone ≠ y) : t.causes.any p = s.causes.any p := by
    rw [← any_elsewhere other, same, any_elsewhere other]
  constructor
  · unfold State.demandOf
    rw [State.countsFor_congr live, whole counts, whole fun r h => counts r (Bool.and_eq_true_iff.mp h).1]
  · rw [State.standsFor_congr live, whole stands]

theorem demandSound_congr (demand : (t.sector n).demand = (s.sector n).demand) (state : (t.sector n).state = (s.sector n).state)
    (same : t.demandOf n = s.demandOf n ∧ t.causes.any (t.standsFor n) = s.causes.any (s.standsFor n))
    (h : s.demandSound n) : t.demandSound n := by
  unfold State.demandSound at h ⊢
  rwa [demand, state, same.1, same.2]

theorem demandSound_of_same (sector : t.sector n = s.sector n) (causes : t.causes = s.causes)
    (live : t.store.live = s.store.live) (h : s.demandSound n) : t.demandSound n :=
  demandSound_congr (by rw [sector]) (by rw [sector])
    ⟨State.demandOf_congr causes live, by rw [causes, State.standsFor_congr live]⟩ h

theorem State.highestOf_congr {set : ZoneSet} (same : ∀ z, zoneIn set z = true → (t.zone z).level = (s.zone z).level) :
    t.highestOf set = s.highestOf set := by
  unfold State.highestOf
  refine List.foldl_ext _ _ _ fun m z _ => ?_
  split
  · next inside => rw [same z inside]
  · rfl

/-! ### What restores it -/

/-- A derivation puts a sector right, whatever stood before (R123, R124). -/
theorem State.Derived.demandSound {x : Sector} (derived : s.Derived n x) : x.demand = s.demandOf n ∧
    (x.state = .sounding ↔ x.demand ≠ .none) ∧ (x.state = .silenced → s.causes.any (s.standsFor n) = true) ∧
    (x.state = .quiet → s.causes.any (s.standsFor n) = false) := by
  have rest : (s.restState n = .silenced → s.causes.any (s.standsFor n) = true) ∧
      (s.restState n = .quiet → s.causes.any (s.standsFor n) = false) ∧ s.restState n ≠ .sounding := by
    unfold State.restState
    split <;> simp_all
  cases derived with
  | testOn test calm => simp [test, calm]
  | rises demand above => simp [State.risenSector, State.struck, State.sirened, demand]
  | stops sounding calm => simpa [State.sirened, Sector.stopped, calm, and_assoc, and_comm, and_left_comm] using rest
  | stays sounding demand same => simp [sounding, demand]
  | waits sounding demand below other cycle => simp [sounding, demand]
  | switches sounding demand => simp [State.switchedSector, State.struck, State.sirened, sounding, demand]
  | rests calmState calm => simpa [calm, and_assoc, and_comm, and_left_comm] using rest

theorem State.deriveSector_causes (n : SectorNo) : (s.deriveSector n).causes = s.causes :=
  s.deriveSector_kept n .causes (by decide)

theorem State.deriveSector_live (n : SectorNo) : (s.deriveSector n).store.live = s.store.live :=
  congrArg Store.live (s.deriveSector_kept n .store (by decide) : (s.deriveSector n).store = s.store)

theorem State.deriveSector_demandSound (s : State) (n : SectorNo) : (s.deriveSector n).demandSound n := by
  unfold State.demandSound
  rw [State.demandOf_congr (State.deriveSector_causes n) (State.deriveSector_live n), State.deriveSector_causes,
    State.standsFor_congr (State.deriveSector_live n)]
  exact (s.deriveSector_derived n).demandSound

theorem State.deriveSector_keeps {m : SectorNo} (h : s.demandSound m) : (s.deriveSector n).demandSound m := by
  by_cases same : m = n
  · subst same
    exact s.deriveSector_demandSound m
  · exact demandSound_of_same (s.deriveSector_sector_of_ne same) (State.deriveSector_causes n)
      (State.deriveSector_live n) h

/-- Handed a cause change of a zone, the sectors around it are put right (R83). -/
theorem handSectors_demandSound (h : ∀ n, zoneIn (s.sectorCfg n).zones z = false → s.demandSound n) (n : SectorNo) :
    (s.handSectors z).demandSound n := by
  unfold State.handSectors
  have live (m : SectorNo) (u : State) : (if zoneIn (u.sectorCfg m).zones z then u.deriveSector m else u).store.live =
      u.store.live := by
    split
    · exact State.deriveSector_live m
    · rfl
  refine forAll_once (i := n)
    (Before := fun u => u.store.live = s.store.live ∧ (zoneIn (s.sectorCfg n).zones z = false → u.demandSound n))
    (After := fun u => u.demandSound n) (fun u hu => ?_) (fun m u _ hu => ⟨(live m u).trans hu.1, fun out => ?_⟩)
    (fun m u _ hu => ?_) ⟨rfl, h n⟩
  · split
    · exact u.deriveSector_demandSound n
    · next out => exact hu.2 (by rw [← State.sectorCfg_congr hu.1]; simpa using out)
  · split
    · exact State.deriveSector_keeps (hu.2 out)
    · exact hu.2 out
  · split
    · exact State.deriveSector_keeps hu
    · exact hu

theorem State.highestSound_of_same (highest : (t.sector n).highest = (s.sector n).highest)
    (zones : ∀ z, zoneIn (s.sectorCfg n).zones z = true → (t.zone z).level = (s.zone z).level)
    (live : t.store.live = s.store.live) (h : s.highestSound n) : t.highestSound n := by
  unfold State.highestSound at *
  rw [highest, State.sectorCfg_congr live, State.highestOf_congr zones, h]

theorem State.refreshHighest_highestSound (s : State) (n : SectorNo) : (s.refreshHighest n).highestSound n := by
  unfold State.highestSound State.refreshHighest
  rw [State.setSector_sector_self]
  rfl

theorem State.refreshHighest_keeps {m : SectorNo} (h : s.highestSound m) : (s.refreshHighest n).highestSound m := by
  by_cases same : m = n
  · subst same
    exact s.refreshHighest_highestSound m
  · refine State.highestSound_of_same (s := s) ?_ (fun _ _ => rfl) rfl h
    simp [State.refreshHighest, Ne.symm same]

/-- Shown a change of a zone's level, the sectors around it show the highest again (R92, R124). -/
theorem showSectors_highestSound (h : ∀ n, zoneIn (s.sectorCfg n).zones z = false → s.highestSound n) (n : SectorNo) :
    (s.showSectors z).highestSound n := by
  unfold State.showSectors
  refine forAll_once (i := n)
    (Before := fun u => u.store.live = s.store.live ∧ (zoneIn (s.sectorCfg n).zones z = false → u.highestSound n))
    (After := fun u => u.highestSound n) (fun u hu => ?_) (fun m u _ hu => ⟨?_, fun out => ?_⟩) (fun m u _ hu => ?_)
    ⟨rfl, h n⟩
  · split
    · exact u.refreshHighest_highestSound n
    · next out => exact hu.2 (by rw [← State.sectorCfg_congr hu.1]; simpa using out)
  · split
    · exact hu.1
    · exact hu.1
  · split
    · exact State.refreshHighest_keeps (hu.2 out)
    · exact hu.2 out
  · split
    · exact State.refreshHighest_keeps hu
    · exact hu

/-! ### Every change -/

theorem start_demandSound (restart : Bool) (kind : Byte) (source : StartSource) (n : SectorNo) :
    ((s.startBlocks restart).announce kind source).demandSound n := by
  unfold State.demandSound State.demandOf
  rw [State.start_sectors, start_causes]
  simp [resetSector]

theorem start_zone (restart : Bool) (kind : Byte) (source : StartSource) (z : ZoneNo) :
    ((s.startBlocks restart).announce kind source).zone z = ⟨.quiet, none⟩ := by
  rw [State.zone_congr (State.announce_kept _ _ _ .zones (by decide)), State.startBlocks_zone]

theorem start_highestSound (restart : Bool) (kind : Byte) (source : StartSource) (n : SectorNo) :
    ((s.startBlocks restart).announce kind source).highestSound n := by
  unfold State.highestSound
  rw [State.start_sectors, State.highestOf_quiet fun z => by rw [start_zone]]
  rfl

theorem start_zoneSound (restart : Bool) (kind : Byte) (source : StartSource) (z : ZoneNo) :
    ((s.startBlocks restart).announce kind source).zoneSound z := by
  rw [zoneSound_iff, start_zone, start_causes]
  rfl

theorem ChangeKind.touches_causes {k : ChangeKind} (mem : .causes ∈ k.blocks) :
    k ∈ [.cause, .reentry, .powerOn, .restart] := by
  cases k <;> simp_all [ChangeKind.blocks, sectorBlocks, faultBlocks, lineBlocks, closureBlocks]

theorem ChangeKind.touches_sectors {k : ChangeKind} (mem : .sectors ∈ k.blocks) :
    k ∈ [.sector, .hush, .powerOn, .restart] := by
  cases k <;> simp_all [ChangeKind.blocks, sectorBlocks, faultBlocks, lineBlocks, closureBlocks]

theorem ChangeKind.touches_zones {k : ChangeKind} (mem : .zones ∈ k.blocks) : k ∈ [.zone, .powerOn, .restart] := by
  cases k <;> simp_all [ChangeKind.blocks, sectorBlocks, faultBlocks, lineBlocks, closureBlocks]

/-- A move of a sector other than a silencing leaves its demand and state as the causes give them. -/
theorem State.SectorMoved.demandSound (moved : s.SectorMoved n .sector (t.sector n)) (causes : t.causes = s.causes)
    (live : t.store.live = s.store.live) (h : s.demandSound n) : t.demandSound n := by
  have seen : t.demandOf n = s.demandOf n ∧ t.causes.any (t.standsFor n) = s.causes.any (s.standsFor n) :=
    ⟨State.demandOf_congr causes live, by rw [causes, State.standsFor_congr live]⟩
  obtain ⟨demand, sounding, -, quietly⟩ := id h
  generalize put : t.sector n = x at moved
  have still (demand : x.demand = (s.sector n).demand) (state : x.state = (s.sector n).state) : t.demandSound n :=
    demandSound_congr (by rw [put]; exact demand) (by rw [put]; exact state) seen h
  cases moved with
  | derived derived =>
    unfold State.demandSound
    rw [seen.1, seen.2, put]
    exact derived.demandSound
  | silenced hush => cases hush
  | testOver test =>
    have calm : s.demandOf n = .none := by simpa [test, demand] using sounding
    unfold State.demandSound
    rw [seen.1, seen.2, put, calm]
    unfold State.restState
    split <;> simp_all [State.sirened, Sector.stopped]
  | test p ms quiet =>
    have calm : (s.sector n).demand = .none := by simpa [quiet] using sounding
    unfold State.demandSound
    rw [seen.1, seen.2, put]
    simp [State.struck, State.sirened, calm, ← demand]
  | _ => exact still rfl rfl

theorem State.SectorMoved.highestSound {k : ChangeKind} (moved : s.SectorMoved n k (t.sector n)) (zones : t.zones = s.zones)
    (live : t.store.live = s.store.live) (h : s.highestSound n) : t.highestSound n := by
  have same : t.highestOf (t.sectorCfg n).zones = s.highestOf (s.sectorCfg n).zones := by
    rw [State.sectorCfg_congr live]
    exact State.highestOf_congr fun z _ => by rw [State.zone_congr zones]
  unfold State.highestSound at h ⊢
  generalize t.sector n = x at moved
  rw [same]
  cases moved with
  | derived derived => cases derived <;> exact h
  | highest => rfl
  | _ => exact h

theorem Change.demandSound {k : ChangeKind} (change : Change k s t) (other : k ∉ [.cause, .reentry, .hush, .live])
    (h : s.demandSound n) : t.demandSound n := by
  by_cases reset : k = .powerOn ∨ k = .restart
  · cases change with
    | powerOn | restart => exact start_demandSound _ _ _ n
    | _ => simp at reset
  have causes : t.causes = s.causes := change.kept .causes fun mem => by
    have := ChangeKind.touches_causes mem
    simp_all
  have live : t.store.live = s.store.live := change.live_kept (by simp_all) (by simpa [not_or] using reset)
  by_cases sector : k = .sector
  · subst sector
    obtain ⟨m, others, moved⟩ := change.sectorMoved (.inl rfl)
    by_cases same : n = m
    · subst same
      exact moved.demandSound causes live h
    · exact demandSound_of_same (others n same) causes live h
  · refine demandSound_of_same (State.sector_congr (change.kept .sectors fun mem => ?_) n) causes live h
    have := ChangeKind.touches_sectors mem
    simp_all

theorem Change.highestSound {k : ChangeKind} (change : Change k s t) (other : k ∉ [.zone, .live])
    (h : s.highestSound n) : t.highestSound n := by
  by_cases reset : k = .powerOn ∨ k = .restart
  · cases change with
    | powerOn | restart => exact start_highestSound _ _ _ n
    | _ => simp at reset
  have zones : t.zones = s.zones := change.kept .zones fun mem => by
    have := ChangeKind.touches_zones mem
    simp_all
  have live : t.store.live = s.store.live := change.live_kept (by simp_all) (by simpa [not_or] using reset)
  by_cases sector : k = .sector ∨ k = .hush
  · obtain ⟨m, others, moved⟩ := change.sectorMoved sector
    by_cases same : n = m
    · subst same
      exact moved.highestSound zones live h
    · exact State.highestSound_of_same (by rw [others n same]) (fun z _ => by rw [State.zone_congr zones]) live h
  · have sectors : t.sectors = s.sectors := change.kept .sectors fun mem => by
      have := ChangeKind.touches_sectors mem
      simp_all
    exact State.highestSound_of_same (by rw [State.sector_congr sectors]) (fun z _ => by rw [State.zone_congr zones]) live h

theorem Change.zoneSound {k : ChangeKind} (change : Change k s t) (other : k ∉ [.cause, .reentry])
    (h : s.zoneSound z) : t.zoneSound z := by
  by_cases reset : k = .powerOn ∨ k = .restart
  · cases change with
    | powerOn | restart => exact start_zoneSound _ _ _ z
    | _ => simp at reset
  have causes : t.causes = s.causes := change.kept .causes fun mem => by
    have := ChangeKind.touches_causes mem
    simp_all
  rw [zoneSound_iff] at h ⊢
  rw [causes]
  by_cases zone : k = .zone
  · subst zone
    cases change with
    | zone y =>
      rw [State.setZone_zone]
      split
      · next same => rw [same]
      · exact h
  · rw [State.zone_congr (change.kept .zones fun mem => ?_), h]
    have := ChangeKind.touches_zones mem
    simp_all

/-- What a sector plays is kept by every change (R125, R128, R129). -/
theorem Change.playingSound {k : ChangeKind} (change : Change k s t) (h : (s.sector n).playingSound) :
    (t.sector n).playingSound := by
  by_cases reset : k = .powerOn ∨ k = .restart
  · cases change with
    | powerOn | restart =>
      rw [State.start_sectors]
      simp [Sector.playingSound, resetSector]
    | _ => simp at reset
  by_cases sector : k = .sector ∨ k = .hush
  · obtain ⟨m, others, moved⟩ := change.sectorMoved sector
    by_cases same : n = m
    · subst same
      exact moved.playingSound h
    · rw [others n same]
      exact h
  · rw [State.sector_congr (change.kept .sectors fun mem => ?_)]
    · exact h
    · have := ChangeKind.touches_sectors mem
      simp_all

end Sys2Proof.Machine
end

