-- ==== Sys2Proof/Proofs/AgreementKept.lean ====
section
/-! Every operation keeps causes, zone levels and sectors in agreement: a change of the cause list touches one zone and is
handed to that zone and its sectors, at once or, for the zones, at the end of the event (R83, R92). -/

namespace Sys2Proof.Machine

set_option Elab.async false -- one declaration after another: the check bounds the threads waiting on one another

variable {s t u : State} {n : SectorNo} {z y : ZoneNo}

/-! ### Outcomes that agree -/

/-- The kinds that take the agreement apart, for an operation to put it right. -/
abbrev alarmMoving : List ChangeKind := [.cause, .reentry, .hush, .live, .zone]

/-- What leaves causes, zones and sectors in agreement where they are. -/
structure Agrees (s t : State) : Prop where
  causes : s.causesSound → t.causesSound
  zones : s.causesSound → (∀ z, s.zoneSound z) → ∀ z, t.zoneSound z
  demand : s.causesSound → (∀ n, s.demandSound n) → ∀ n, t.demandSound n
  highest : s.causesSound → (∀ n, s.highestSound n) → ∀ n, t.highestSound n

/-- What leaves causes and sectors in agreement, with the zones yet to derive. -/
structure Handed (s t : State) : Prop where
  causes : s.causesSound → t.causesSound
  demand : s.causesSound → (∀ n, s.demandSound n) → ∀ n, t.demandSound n
  highest : s.causesSound → (∀ n, s.highestSound n) → ∀ n, t.highestSound n
  zones : t.zones = s.zones

theorem Agrees.refl (s : State) : Agrees s s := ⟨id, fun _ h => h, fun _ h => h, fun _ h => h⟩

theorem Handed.refl (s : State) : Handed s s := ⟨id, fun _ h => h, fun _ h => h, rfl⟩

theorem Agrees.trans (h : Agrees s t) (h' : Agrees t u) : Agrees s u :=
  ⟨h'.causes ∘ h.causes, fun c z => h'.zones (h.causes c) (h.zones c z), fun c d => h'.demand (h.causes c) (h.demand c d),
    fun c d => h'.highest (h.causes c) (h.highest c d)⟩

theorem Handed.trans (h : Handed s t) (h' : Handed t u) : Handed s u :=
  ⟨h'.causes ∘ h.causes, fun c d => h'.demand (h.causes c) (h.demand c d),
    fun c d => h'.highest (h.causes c) (h.highest c d), h'.zones.trans h.zones⟩

theorem Handed.ite {p : Prop} [Decidable p] (yes : Handed s t) (no : Handed s u) : Handed s (if p then t else u) := by
  split <;> assumption

theorem Steps.causesSound {l : List ChangeKind} (path : Steps l s t) (other : .reentry ∉ l) (h : s.causesSound) :
    t.causesSound :=
  path.keeps (P := State.causesSound) (fun _ mem _ _ change hu => change.causesSound (fun same => other (same ▸ mem)) hu) h

theorem Steps.zoneSound {l : List ChangeKind} (path : Steps l s t) (other : ∀ k ∈ l, k ∉ [.cause, .reentry])
    (h : s.zoneSound z) : t.zoneSound z :=
  path.keeps (P := fun v => v.zoneSound z) (fun k mem _ _ change hu => change.zoneSound (other k mem) hu) h

theorem Steps.demandSound {l : List ChangeKind} (path : Steps l s t)
    (other : ∀ k ∈ l, k ∉ [.cause, .reentry, .hush, .live]) (h : s.demandSound n) : t.demandSound n :=
  path.keeps (P := fun v => v.demandSound n) (fun k mem _ _ change hu => change.demandSound (other k mem) hu) h

theorem Steps.highestSound {l : List ChangeKind} (path : Steps l s t) (other : ∀ k ∈ l, k ∉ [.zone, .live])
    (h : s.highestSound n) : t.highestSound n :=
  path.keeps (P := fun v => v.highestSound n) (fun k mem _ _ change hu => change.highestSound (other k mem) hu) h

/-- What moves none of them keeps them in agreement. -/
theorem Steps.agrees {l : List ChangeKind} (path : Steps l s t) (other : ∀ k ∈ l, k ∉ alarmMoving) : Agrees s t := by
  have out (k : ChangeKind) (mem : k ∈ l) := other k mem
  refine ⟨path.causesSound fun mem => out _ mem (by simp), fun _ h z => path.zoneSound (fun k mem => ?_) (h z),
    fun _ h n => path.demandSound (fun k mem => ?_) (h n), fun _ h n => path.highestSound (fun k mem => ?_) (h n)⟩
  all_goals
    have := out k mem
    simp_all

theorem Path.agrees {l : List ChangeKind} (path : Path l s t) (other : ∀ k ∈ l, k ∉ alarmMoving := by decide) :
    Agrees s t := path.steps.agrees other

theorem Path.handed {l : List ChangeKind} (path : Path l s t)
    (other : ∀ k ∈ l, k ∉ alarmMoving ++ [.powerOn, .restart] := by decide) : Handed s t := by
  have agrees : Agrees s t := path.agrees fun k mem inside => other k mem (List.mem_append_left _ inside)
  refine ⟨agrees.causes, agrees.demand, agrees.highest, path.kept .zones fun k mem inside => ?_⟩
  have := ChangeKind.touches_zones inside
  have := other k mem
  simp_all

/-! ### A zone derived -/

theorem deriveZone_zoneSound (h : ∀ y, y ≠ z → s.zoneSound y) (y : ZoneNo) : (s.deriveZone z).zoneSound y := by
  rw [zoneSound_iff, State.deriveZone_zone, State.deriveZone_causes]
  by_cases same : z = y
  · subst same
    by_cases stands : (s.zone z).level = levelOfZone s.causes z
    · simp [stands]
    · simp [stands]
  · simpa [same] using zoneSound_iff.mp (h y (Ne.symm same))

theorem deriveZone_highestSound (h : ∀ n, s.highestSound n) (n : SectorNo) : (s.deriveZone z).highestSound n := by
  unfold State.deriveZone
  dsimp only
  split
  · exact h n
  · refine showSectors_highestSound (fun n out => ?_) n
    have event : KeptBut [.zones, .history, .link] s ((s.setZone z ⟨levelOfZone s.causes z, some s.uptime⟩).objEvent .alarm
        .zoneLevel 0x43 (.zone z) ⟨(s.zone z).level.code, (levelOfZone s.causes z).code, 0, 0, 0⟩) :=
      ((s.setZone_kept z _).mono (by decide)).andThen (State.objEvent_kept _ _ _ _ _ _) (by decide)
    have zone (y : ZoneNo) := State.zone_congr (State.objEvent_kept (s.setZone z ⟨levelOfZone s.causes z, some s.uptime⟩)
      .alarm .zoneLevel 0x43 (.zone z) ⟨(s.zone z).level.code, (levelOfZone s.causes z).code, 0, 0, 0⟩ .zones (by decide)) y
    generalize State.objEvent _ _ _ _ _ _ = v at event zone out ⊢
    have handed := v.handOn_path z
    have live : (v.handOn z).store.live = s.store.live :=
      congrArg Store.live ((handed.kept .store (by decide)).trans (event .store (by decide)))
    refine State.highestSound_of_same ?_ (fun y inside => ?_) live (h n)
    · rw [State.sector_congr (handed.kept .sectors (by decide)), State.sector_congr (event .sectors (by decide))]
    · have other : z ≠ y := by
        rintro rfl
        rw [State.sectorCfg_congr live, inside] at out
        cases out
      rw [State.zone_congr (handed.kept .zones (by decide)), zone, State.setZone_zone, if_neg other]

theorem deriveZone_demandSound (h : s.demandSound n) : (s.deriveZone z).demandSound n :=
  (s.deriveZone_path z).steps.demandSound (by decide) h

theorem deriveZone_causesSound (h : s.causesSound) : (s.deriveZone z).causesSound :=
  (s.deriveZone_path z).steps.causesSound (by decide) h

/-- At the end of an event each zone whose records give another level is derived (R92). -/
theorem Handed.deriveChanged (h : Handed s t) : Agrees s (t.deriveChanged s.causes) := by
  have each (P : State → Prop) (keeps : ∀ z u, P u → P (u.deriveZone z)) (start : P t) : P (t.deriveChanged s.causes) := by
    refine forAll_keeps (fun z u hu => ?_) start
    split
    · exact hu
    · exact keeps z u hu
  refine ⟨fun c => each _ (fun z u => deriveZone_causesSound) (h.causes c), fun c zones z => ?_,
    fun c d n => each (fun u => u.demandSound n) (fun z u => deriveZone_demandSound) (h.demand c d n),
    fun c d => each (fun u => ∀ n, u.highestSound n) (fun z u => deriveZone_highestSound) (h.highest c d)⟩
  have same (y : ZoneNo) (u : State) (hu : u.causes = t.causes) :
      (if levelOfZone s.causes y = levelOfZone u.causes y then u else u.deriveZone y).causes = t.causes := by
    split
    · exact hu
    · exact (u.deriveZone_causes y).trans hu
  refine forAll_once (i := z) (Before := fun u => u.causes = t.causes ∧ u.zone z = s.zone z)
    (After := fun u => u.zoneSound z) (fun u hu => ?_) (fun y u ne hu => ⟨same y u hu.1, ?_⟩) (fun y u ne hu => ?_)
    ⟨rfl, State.zone_congr h.zones z⟩
  · split
    · next stands => rw [zoneSound_iff, hu.2, ← stands, ← zoneSound_iff.mp (zones z)]
    · rw [zoneSound_iff, State.deriveZone_zone, State.deriveZone_causes]
      by_cases stands : (u.zone z).level = levelOfZone u.causes z <;> simp [stands]
  · split
    · exact hu.2
    · rw [State.deriveZone_zone, if_neg fun both => ne both.1, hu.2]
  · split
    · exact hu
    · rw [zoneSound_iff, State.deriveZone_zone, State.deriveZone_causes, if_neg fun both => ne both.1]
      exact zoneSound_iff.mp hu

/-! ### A change of the cause list -/

/-- The cause list changed in one zone, with its record and report. -/
structure CauseMoved (y : ZoneNo) (s t : State) : Prop where
  same : KeptBut [.causes, .history, .link] s t
  elsewhere : s.causesSound → Machine.elsewhere y t.causes = Machine.elsewhere y s.causes
  causes : s.causesSound → t.causesSound

theorem CauseMoved.live (h : CauseMoved y s t) : t.store.live = s.store.live :=
  congrArg Store.live (h.same .store (by decide) : t.store = s.store)

theorem CauseMoved.demand (h : CauseMoved y s t) (sound : s.causesSound) (all : ∀ n, s.demandSound n)
    (n : SectorNo) (out : zoneIn (t.sectorCfg n).zones y = false) : t.demandSound n := by
  have sector := State.sector_congr (h.same .sectors (by decide)) n
  rw [State.sectorCfg_congr h.live] at out
  exact demandSound_congr (by rw [sector]) (by rw [sector]) (State.demandOf_elsewhere out (h.elsewhere sound) h.live) (all n)

theorem CauseMoved.highest (h : CauseMoved y s t) (all : ∀ n, s.highestSound n) (n : SectorNo) : t.highestSound n :=
  State.highestSound_of_same (by rw [State.sector_congr (h.same .sectors (by decide))])
    (fun z _ => by rw [State.zone_congr (h.same .zones (by decide))]) h.live (all n)

theorem CauseMoved.zones (h : CauseMoved y s t) (sound : s.causesSound) (all : ∀ z, s.zoneSound z) (z : ZoneNo)
    (ne : z ≠ y) : t.zoneSound z := by
  rw [zoneSound_iff, State.zone_congr (h.same .zones (by decide)), zoneSound_iff.mp (all z), ← levelOfZone_elsewhere ne,
    ← h.elsewhere sound, levelOfZone_elsewhere ne]

/-- Handed to the sectors, the zone left to the event's end (R83). -/
theorem CauseMoved.handed (h : CauseMoved y s t) : Handed s (t.handSectors y) where
  causes c := (t.handSectors_path y).steps.causesSound (by decide) (h.causes c)
  demand c all := handSectors_demandSound (h.demand c all)
  highest _ all n := (t.handSectors_path y).steps.highestSound (by decide) (h.highest all n)
  zones := (t.handSectors_kept y .zones (by decide)).trans (h.same .zones (by decide))

/-- Handed to the zone and the sectors (R83, R92). -/
theorem CauseMoved.agrees (h : CauseMoved y s t) : Agrees s (t.causeChanged y) where
  causes c := (t.causeChanged_path y).steps.causesSound (by decide) (h.causes c)
  zones c all z := ((t.deriveZone y).handSectors_path y).steps.zoneSound (by decide)
    (deriveZone_zoneSound (h.zones c all) z)
  demand c all := by
    refine handSectors_demandSound fun n out => deriveZone_demandSound (h.demand c all n ?_)
    rwa [State.sectorCfg_congr (congrArg Store.live (t.deriveZone_kept y .store (by decide)))] at out
  highest _ all n := ((t.deriveZone y).handSectors_path y).steps.highestSound (by decide)
    (deriveZone_highestSound (h.highest all) n)

theorem filter_map_eq {l : List Cause} {f : Cause → Cause} (each : ∀ r ∈ l, f r = r ∨ (r.zone = y ∧ (f r).zone = y)) :
    elsewhere y (l.map f) = elsewhere y l := by
  unfold elsewhere
  induction l with
  | nil => rfl
  | cons r l ih =>
    have rest := ih fun x mem => each x (List.mem_cons_of_mem _ mem)
    obtain same | ⟨here, there⟩ := each r List.mem_cons_self
    · simp only [List.map_cons, List.filter_cons, same, rest]
    · simp only [List.map_cons, List.filter_cons, here, there, rest]
      simp

/-- The cause list with records refreshed: the same sources, zones, levels and silencings. -/
theorem Agrees.of_refreshed {f : Cause → Cause} (source : ∀ r, (f r).zone = r.zone ∧ (f r).level = r.level ∧
    (f r).silenced = r.silenced) (causes : s.causesSound → causeListSound (s.causes.map f)) :
    Handed s { s with causes := s.causes.map f } ∧ Agrees s { s with causes := s.causes.map f } := by
  have levels (z : ZoneNo) : levelOfZone (s.causes.map f) z = levelOfZone s.causes z := by
    unfold levelOfZone
    rw [List.foldl_map]
    simp only [source]
  have demand (all : ∀ n, s.demandSound n) (n : SectorNo) : { s with causes := s.causes.map f }.demandSound n := by
    have stands : { s with causes := s.causes.map f }.standsFor n ∘ f = s.standsFor n := by
      funext r
      simp [State.standsFor, source, State.sectorCfg]
    have counts : { s with causes := s.causes.map f }.countsFor n ∘ f = s.countsFor n := by
      funext r
      simp [State.countsFor, State.standsFor, source, State.sectorCfg]
    refine demandSound_congr (s := s) rfl rfl ⟨?_, ?_⟩ (all n)
    · unfold State.demandOf
      have fires : (fun r => { s with causes := s.causes.map f }.countsFor n r && r.level == .fire) ∘ f =
          fun r => s.countsFor n r && r.level == .fire := by
        funext r
        simp only [Function.comp_apply, ← congrFun counts r, source]
      simp only [List.any_map, fires, counts]
    · rw [List.any_map, stands]
  exact ⟨⟨causes, fun _ => demand, fun _ all => all, rfl⟩, ⟨causes, fun _ all z => zoneSound_iff.mpr
    (by rw [levels]; exact zoneSound_iff.mp (all z)), fun _ => demand, fun _ all => all⟩⟩

/-- A raise refreshes the record its source holds, or changes the list in the zone of its record (R81). -/
theorem State.raiseThen_cases (after : ZoneNo → State → State) (src : Source) (z : ZoneNo) (l : Level)
    (hold : Option Instant) (allowed : src.allows l hold) :
    (∃ y t, CauseMoved y s t ∧ s.raiseThen after src z l hold = after y t) ∨
      (Handed s (s.raiseThen after src z l hold) ∧ Agrees s (s.raiseThen after src z l hold)) := by
  have raised := causesSound_raised (s := s) allowed z
  have moved {y : ZoneNo} {causes : List Cause} (r : Cause) (a b : Option Level)
      (away : s.causesSound → elsewhere y causes = elsewhere y s.causes) (sound : s.causesSound → causeListSound causes) :
      CauseMoved y s ({ s with causes := causes }.causeEvent r a b) := by
    have kept := State.causeEvent_kept { s with causes := causes } r a b
    refine ⟨(KeptBut.andThen (l := [.causes, .history, .link]) ?_ kept (by decide)), fun c => ?_, fun c => ?_⟩
    · intro b hb
      cases b <;> simp_all [Block.same]
    · rw [(kept .causes (by decide) : _ = causes), away c]
    · rw [causesSound_iff, (kept .causes (by decide) : _ = causes)]
      exact sound c
  unfold State.raisedCauses at raised
  unfold State.raiseThen
  cases found : s.causeOf src with
  | none =>
    simp only [found] at raised
    exact .inl ⟨z, _, moved _ _ _ (fun _ => by simp [elsewhere]) raised, rfl⟩
  | some r =>
    simp only [found] at raised
    dsimp only
    split
    · next higher =>
      simp only [higher, if_true] at raised
      refine .inl ⟨r.zone, _, moved _ _ _ (fun c => filter_map_eq fun x mem => ?_) raised, rfl⟩
      split
      · next named =>
        have same : x = r := List.inj_on_of_nodup_map c.1 mem (State.causeOf_mem found)
          (named.trans (State.causeOf_source found).symm)
        exact .inr ⟨by rw [same], rfl⟩
      · exact .inl rfl
    · next lower =>
      simp only [lower, if_false] at raised
      exact .inr (Agrees.of_refreshed (fun x => by split <;> exact ⟨rfl, rfl, rfl⟩) raised)

theorem State.raiseCause_agrees {src : Source} {l : Level} {hold : Option Instant} (allowed : src.allows l hold)
    (z : ZoneNo) : Agrees s (s.raiseCause src z l hold) := by
  obtain ⟨y, t, moved, eq⟩ | ⟨-, agrees⟩ := s.raiseThen_cases State.causeChanged src z l hold allowed
  · rw [State.raiseCause, eq]
    exact moved.agrees
  · exact agrees

theorem State.putCause_handed {src : Source} {l : Level} {hold : Option Instant} (allowed : src.allows l hold)
    (z : ZoneNo) : Handed s (s.putCause src z l hold) := by
  obtain ⟨y, t, moved, eq⟩ | ⟨handed, -⟩ := s.raiseThen_cases State.handSectors src z l hold allowed
  · rw [State.putCause, eq]
    exact moved.handed
  · exact handed

/-- The record of a source leaves the list in its zone (R82). -/
theorem State.dropCause_moved {src : Source} (own : ∀ r ∈ s.causes, r.source = src → r.zone = y) :
    CauseMoved y s (s.dropCause src) := by
  unfold State.dropCause
  split
  · exact ⟨.refl _ s, fun _ => rfl, id⟩
  · next r found =>
    have kept := State.causeEvent_kept { s with causes := s.causes.filter fun x => x.source ≠ src } r (some r.level) none
    refine ⟨(KeptBut.andThen (l := [.causes, .history, .link]) ?_ kept (by decide)), fun c => ?_, fun c => ?_⟩
    · intro b hb
      cases b <;> simp_all [Block.same]
    · rw [(kept .causes (by decide) : _ = s.causes.filter fun x => x.source ≠ src), elsewhere, elsewhere, List.filter_filter]
      refine List.filter_congr fun x mem => ?_
      by_cases named : x.source = src
      · simp [own x mem named, named]
      · simp [named]
    · rw [causesSound_iff, (kept .causes (by decide) : _ = s.causes.filter fun x => x.source ≠ src)]
      exact (causesSound_iff.mp c).filter _

theorem State.removeCause_agrees (src : Source) : Agrees s (s.removeCause src) := by
  unfold State.removeCause
  split
  · exact .refl s
  · next r found =>
    by_cases sound : s.causesSound
    · refine CauseMoved.agrees (State.dropCause_moved fun x mem named => ?_)
      rw [List.inj_on_of_nodup_map sound.1 mem (State.causeOf_mem found) (named.trans (State.causeOf_source found).symm)]
    · exact ⟨fun c => absurd c sound, fun c => absurd c sound, fun c => absurd c sound, fun c => absurd c sound⟩

theorem State.removeUnlatched_agrees (src : Source) : Agrees s (s.removeUnlatched src) := by
  unfold State.removeUnlatched
  split
  · exact .refl s
  · split
    · exact .refl s
    · exact s.removeCause_agrees src

/-! ### Events with a cause -/

theorem State.raiseLineCause_handed (n : LineNo) {l : Level} (alarm : l = .alert ∨ l = .fire) :
    Handed s (s.raiseLineCause n l) := by
  unfold State.raiseLineCause
  split
  · exact .refl s
  · exact State.putCause_handed (src := .line n) ⟨alarm, rfl⟩ _

theorem State.escalate_handed (n : LineNo) (k : Nat) (d : DetNo) : Handed s (s.escalate n k d) := by
  have noted (a b : Byte) (e : Detail) : Path [.lineAside, .log] s ((s.restartCount n).record .escalation a b e) :=
    ((s.restartCount_path n).mono (by decide)).andThen (State.record_kept _ _ _ _ _).logged (by decide)
  have raised {l : List ChangeKind} {t : State} (path : Path l s t) (x : Level) (alarm : x = .alert ∨ x = .fire)
      (other : ∀ k ∈ l, k ∉ alarmMoving ++ [.powerOn, .restart]) : Handed s (t.raiseLineCause n x) :=
    (path.handed other).trans (t.raiseLineCause_handed n alarm)
  unfold State.escalate
  dsimp only
  split
  case h_1 h | h_2 h =>
    exact raised (l := .lineAside :: lineKinds) (((noted _ _ _).mono (by decide)).andThen
      (State.abortLine_path _ n _ (by simp [h]) (by decide)) (by decide)) _ (.inl rfl) (by decide)
  case h_3 h =>
    exact raised (l := .lineAside :: lineKinds) (((noted _ _ _).mono (by decide)).andThen
      (State.stopLine_path _ n _ (by simp [h]) (.inl (by decide))) (by decide)) _ (.inr rfl) (by decide)
  case h_4 h =>
    split
    · exact raised (l := .lineAside :: lineKinds) (((noted _ _ _).mono (by decide)).change
        (Change.replaceCause_of_line (by simp) h (by decide)) (by decide)) _ (.inr rfl) (by decide)
    · exact raised (noted _ _ _) _ (.inr rfl) (by decide)
  case h_5 | h_6 => exact raised (noted _ _ _) _ (.inr rfl) (by decide)

theorem State.countAt_handed (d : DetNo) (w : Nat) : Handed s (s.countAt d w) := by
  unfold State.countAt
  split
  · exact .refl s
  · next n _ =>
    unfold State.countSpark
    dsimp only
    split
    · exact s.escalate_handed n _ d
    · next below => exact ((Change.count n _ _ (.inr (by omega))).path (l := [.lineAside]) (by decide)).handed

theorem State.sparkCause_handed (d : DetNo) : Handed s (s.sparkCause d) := by
  unfold State.sparkCause
  split
  · exact .refl s
  · exact State.putCause_handed (src := .detector d) ⟨rfl, by simp⟩ _

theorem State.deliver_agrees (d : DetNo) (e : Bool) (w : Nat) (c : Bool) : Agrees s (s.deliver d e w c) := by
  unfold State.deliver
  dsimp only
  refine Handed.deriveChanged (Handed.trans (Handed.trans (Path.handed (l := [.log, .station, .channel]) ?_)
    (State.countAt_handed d w)) (State.sparkCause_handed d))
  exact ((((s.offerSpark_path d).mono (by decide)).change (Change.channel d _ (by rfl)) (by decide)).andThen
    (State.record_kept _ _ _ _ _).logged (by decide)).andThen (State.report_kept _ _ _).logged (by decide)

theorem State.qualified_agrees (d : DetNo) (e : Bool) : Agrees s (s.qualified d e) := by
  have put (t : State) (x : Detector) (lit : x.lit = (t.det d).lit) : Agrees t (t.setDet d x) :=
    ((Change.channel d x lit).path (l := [.channel]) (by decide)).agrees
  unfold State.qualified State.watchPulse
  dsimp only
  split
  · exact s.deliver_agrees _ _ _ _
  · split
    · exact put _ _ rfl
    · split
      · exact (put _ _ (by rfl)).trans (State.deliver_agrees _ _ _ _)
      · exact ((s.dropCandidate_path d 1).agrees).trans (put _ _ rfl)

theorem State.noWater_agrees (n : LineNo) : Agrees s (s.noWater n) := by
  have missed : Agrees s ((s.setStation n { s.station n with confirmTimer := none }).raiseFault (.station n) .noWater) :=
    ((Change.waterMissed n).path (l := [.water]) (by decide)).agrees
  have aborted (t : State) : Agrees t
      (if (t.line n).state = .starting ∨ (t.line n).state = .run then t.abortLine n .noWater else t) := by
    split
    · next moving => exact (t.abortLine_path n _ moving (by decide)).agrees
    · exact .refl t
  unfold State.noWater
  dsimp only
  split
  · exact missed.trans (aborted _)
  · exact (missed.trans (aborted _)).trans (State.raiseCause_agrees (src := .station n) ⟨rfl, rfl⟩ _)

theorem State.inputOn_agrees (f : InputNo) : Agrees s (s.inputOn f) := by
  have noted : Agrees s ((s.setInput f { s.input f with phase := .on, timer := none }).inputRecord f .on) :=
    (((Change.input f _ (by rfl)).path (l := [.input, .log]) (by decide)).andThen
      (State.record_kept _ _ _ _ _).logged (by decide)).agrees
  unfold State.inputOn
  dsimp only
  split
  · exact noted
  · split
    · exact noted
    · have alarm (l : AlarmLevel) : l.level = .alert ∨ l.level = .fire := by cases l <;> simp [AlarmLevel.level]
      exact noted.trans (State.raiseCause_agrees (src := .fireInput f) ⟨alarm _, rfl⟩ _)

theorem State.inputOff_agrees (f : InputNo) : Agrees s (s.inputOff f) := by
  have noted : Agrees s ((s.setInput f { s.input f with phase := .idle, timer := none }).inputRecord f .idle) :=
    (((Change.input f _ (by rfl)).path (l := [.input, .log]) (by decide)).andThen
      (State.record_kept _ _ _ _ _).logged (by decide)).agrees
  exact noted.trans (State.removeUnlatched_agrees _)

theorem State.clearLine_agrees (n : LineNo) (locked : (s.line n).state = .stopped ∨ (s.line n).state = .off) :
    Agrees s (s.clearLine n) := by
  have lifted : Agrees s (if (s.line n).state = .off then
      s.setLine n { s.line n with gate := false, gateTimer := none }
      else s.moveLine n .off .none (fun x => { x with gateTimer := none })) := by
    split
    · next off => exact ((Change.liftOff n off).path (l := [.lineLift]) (by decide)).agrees
    · next on => exact ((Change.liftStopped n (locked.resolve_right on)).path (l := [.lineLift]) (by decide)).agrees
  have cleared (t : State) : Agrees t (forEach resetLineFaults (fun f t => t.clearFault (.line n) f) t) := by
    have one (f : FaultCode) (other : f ≠ .blind) (u : State) : Agrees u (u.clearFault (.line n) f) :=
      (u.clearFault_line_path n f other).agrees
    exact (((one .lowFlow (by decide) _).trans (one .gate (by decide) _)).trans (one .rundown (by decide) _)).trans
      (one .startFail (by decide) _)
  exact ((lifted.trans (State.removeCause_agrees _)).trans (cleared _)).trans (State.restartCount_path _ n).agrees

/-! ### Removals in one zone (R93) -/

/-- What RESET-ZONE leaves along the way: sectors agree, and every other zone. -/
structure Cleared (z : ZoneNo) (s t : State) : Prop where
  handed : Handed s t
  fewer : t.causes ⊆ s.causes
  away : s.causesSound → elsewhere z t.causes = elsewhere z s.causes

theorem Cleared.deriveZone (h : Cleared z s t) : Agrees s (t.deriveZone z) where
  causes c := deriveZone_causesSound (h.handed.causes c)
  zones c all := deriveZone_zoneSound fun y ne => by
    rw [zoneSound_iff, State.zone_congr h.handed.zones, zoneSound_iff.mp (all y), ← levelOfZone_elsewhere ne,
      ← h.away c, levelOfZone_elsewhere ne]
  demand c all n := deriveZone_demandSound (h.handed.demand c all n)
  highest c all := deriveZone_highestSound (h.handed.highest c all)

theorem State.dropCause_sub (src : Source) : (s.dropCause src).causes ⊆ s.causes := by
  unfold State.dropCause
  split
  · exact fun _ mem => mem
  · rw [State.causeEvent_kept _ _ _ _ .causes (by decide)]
    exact fun _ mem => List.mem_of_mem_filter mem

theorem Cleared.dropHanded {r : Cause} (h : Cleared z s t) (sound : s.causesSound) (mem : r ∈ s.causes) (zone : r.zone = z) :
    Cleared z s (t.dropHanded z r.source) := by
  have moved : CauseMoved z t (t.dropCause r.source) := State.dropCause_moved fun x there named => by
    rw [← zone, List.inj_on_of_nodup_map sound.1 (h.fewer there) mem named]
  have causes : (t.dropHanded z r.source).causes = (t.dropCause r.source).causes :=
    State.handSectors_kept _ z .causes (by decide)
  refine ⟨h.handed.trans moved.handed, ?_, fun c => ?_⟩
  · rw [causes]
    exact fun x there => h.fewer (State.dropCause_sub _ there)
  · rw [causes, moved.elsewhere (h.handed.causes c), h.away c]

theorem State.resetZoneReq_agrees (num : Nat) : Agrees s (s.resetZoneReq num).1 := by
  unfold State.resetZoneReq
  split
  · exact .refl s
  · next z _ =>
    by_cases sound : s.causesSound
    · have each (l : List Cause) (gone : ∀ r ∈ l, r ∈ s.causes ∧ r.zone = z) (t : State) (h : Cleared z s t) :
          Cleared z s (forEach l (fun r v => v.dropHanded z r.source) t) := by
        induction l generalizing t with
        | nil => exact h
        | cons r l ih =>
          obtain ⟨mem, zone⟩ := gone r List.mem_cons_self
          exact ih (fun x there => gone x (List.mem_cons_of_mem _ there)) _ (h.dropHanded sound mem zone)
      refine (each _ (fun r there => ?_) s ⟨.refl s, fun _ mem => mem, fun _ => rfl⟩).deriveZone
      obtain ⟨mem, resettable⟩ := List.mem_filter.mp there
      refine ⟨mem, ?_⟩
      unfold State.resettable at resettable
      split at resettable
      · simp only [Bool.and_eq_true, beq_iff_eq] at resettable
        exact resettable.1.1
      · cases resettable
    · exact ⟨fun c => absurd c sound, fun c => absurd c sound, fun c => absurd c sound, fun c => absurd c sound⟩

/-! ### A silencing (R130) -/

theorem sectorIn_addSector (set : SectorSet) (m : SectorNo) :
    sectorIn (addSector set n) m = (decide (m = n) || sectorIn set m) := by
  revert set
  fin_cases n <;> fin_cases m <;> simp [sectorIn, addSector]

/-- The causes that count for a sector marked silenced there, as a map. -/
def State.markAt (s : State) (n : SectorNo) (r : Cause) : Cause :=
  if s.countsFor n r then { r with silenced := addSector r.silenced n } else r

theorem State.markAt_same (r : Cause) : (s.markAt n r).zone = r.zone ∧ (s.markAt n r).level = r.level := by
  unfold State.markAt
  split <;> exact ⟨rfl, rfl⟩

theorem State.markAt_stands (m : SectorNo) : s.standsFor m ∘ s.markAt n = s.standsFor m := by
  funext r
  simp only [Function.comp_apply, State.standsFor, State.markAt_same]

/-- Marked, no cause counts for the sector; every other sector counts the causes it did. -/
theorem State.markAt_counts (m : SectorNo) :
    s.countsFor m ∘ s.markAt n = if m = n then fun _ => false else s.countsFor m := by
  funext r
  have stands := congrFun (s.markAt_stands (n := n) m) r
  simp only [Function.comp_apply] at stands ⊢
  by_cases counted : s.countsFor n r = true
  · have silenced : (s.markAt n r).silenced = addSector r.silenced n := by simp [State.markAt, counted]
    rw [State.countsFor, stands, silenced, sectorIn_addSector]
    by_cases same : m = n
    · simp [same]
    · simp [same, State.countsFor]
  · have still : s.markAt n r = r := by simp [State.markAt, counted]
    rw [still]
    by_cases same : m = n
    · subst same
      simpa using counted
    · simp [same]

theorem State.marked_agrees (sounding : (s.sector n).state = .sounding) :
    Agrees s ({ s with causes := s.markedCauses n }.stopSector n .silenced) := by
  have marked : s.markedCauses n = s.causes.map (s.markAt n) := rfl
  rw [marked]
  have kept := State.stopSector_kept { s with causes := s.causes.map (s.markAt n) } n .silenced
  have own := State.stopSector_sector_self { s with causes := s.causes.map (s.markAt n) } n .silenced
  have others (m : SectorNo) (ne : m ≠ n) :=
    State.stopSector_sector_of_ne { s with causes := s.causes.map (s.markAt n) } ne .silenced
  have silence := (Change.silence (s := { s with causes := s.causes.map (s.markAt n) }) n sounding).path (l := [.hush])
    (by decide)
  generalize State.stopSector n .silenced { s with causes := s.causes.map (s.markAt n) } = t at *
  have causes : t.causes = s.causes.map (s.markAt n) := kept .causes (by decide)
  have live : t.store.live = s.store.live := congrArg Store.live (kept .store (by decide) : t.store = s.store)
  have stands (m : SectorNo) : t.causes.any (t.standsFor m) = s.causes.any (s.standsFor m) := by
    rw [causes, List.any_map, State.standsFor_congr live, s.markAt_stands]
  have demand (m : SectorNo) : t.demandOf m = if m = n then .none else s.demandOf m := by
    have fires : (fun r => s.countsFor m r && r.level == .fire) ∘ s.markAt n =
        fun r => (if m = n then false else s.countsFor m r) && r.level == .fire := by
      funext r
      have counts := congrFun (s.markAt_counts (n := n) m) r
      simp only [Function.comp_apply] at counts ⊢
      rw [counts, (s.markAt_same r).2]
      split <;> rfl
    unfold State.demandOf
    rw [State.countsFor_congr live, causes, List.any_map, List.any_map, fires, s.markAt_counts]
    by_cases same : m = n <;> simp [same]
  refine ⟨fun c => ?_, fun _ all z => zoneSound_iff.mpr ?_, fun _ all m => ?_, fun _ all m => ?_⟩
  · rw [causesSound_iff, causes]
    exact causesSound_marked n c
  · have levels : levelOfZone (s.causes.map (s.markAt n)) z = levelOfZone s.causes z := by
      unfold levelOfZone
      rw [List.foldl_map]
      simp only [s.markAt_same]
    rw [State.zone_congr (kept .zones (by decide)), causes, levels]
    exact zoneSound_iff.mp (all z)
  · by_cases same : m = n
    · subst same
      obtain ⟨was, loud, -⟩ := all m
      have counted : s.causes.any (s.standsFor m) = true := by
        have some : s.demandOf m ≠ .none := was ▸ loud.mp sounding
        by_contra none
        refine some ?_
        have no : ∀ r ∈ s.causes, s.standsFor m r = false := by simpa using none
        have quiet : s.causes.any (s.countsFor m) = false := by
          simp only [List.any_eq_false, State.countsFor]
          intro r mem
          simp [no r mem]
        have calm : s.causes.any (fun r => s.countsFor m r && r.level == .fire) = false := by
          simp only [List.any_eq_false, State.countsFor]
          intro r mem
          simp [no r mem]
        simp [State.demandOf, quiet, calm]
      unfold State.demandSound
      rw [demand, stands, own, counted]
      simp [State.sirened, Sector.stopped]
    · exact demandSound_congr (by rw [others m same]; rfl) (by rw [others m same]; rfl)
        ⟨by rw [demand, if_neg same], stands m⟩ (all m)
  · exact silence.steps.highestSound (by decide) (all m)

theorem State.silenceReq_agrees (num : Nat) : Agrees s (s.silenceReq num).1 := by
  unfold State.silenceReq
  split
  · exact .refl s
  · next n _ =>
    dsimp only
    split
    · exact .refl s
    · next sounding =>
      split
      · exact .refl s
      · exact State.marked_agrees (not_not.mp sounding)

end Sys2Proof.Machine
end

