-- ==== Sys2Proof/Proofs/AgreementStep.lean ====
section
/-! Every step keeps causes, zone levels and sectors in agreement: entries, settings, resets, and the statement. -/

namespace Sys2Proof.Machine

set_option Elab.async false -- one declaration after another: the check bounds the threads waiting on one another

variable {s t u : State} {n : SectorNo} {z : ZoneNo}

theorem Change.agrees {k : ChangeKind} (change : Change k s t) (other : k ∉ alarmMoving) : Agrees s t :=
  (change.steps (l := [k]) (List.mem_singleton.mpr rfl)).agrees (by simpa using other)

/-! ### Entries of the table -/

theorem State.entryActive_agrees (x : Target) : Agrees s (s.entryActive x) := by
  cases x with
  | detector d =>
    exact ((s.dropCandidate_path d 3).agrees.trans (State.removeCause_agrees _)).trans (State.judgeBlind_path _).agrees
  | fireInput f => exact s.removeUnlatched_agrees _
  | sector n => exact ((Change.siren n).path (l := [.sector]) (by decide)).agrees
  | station | closure => exact .refl s

theorem State.entryRemoved_agrees (x : Target) : Agrees s (s.entryRemoved x) := by
  cases x with
  | detector d => exact s.judgeBlind_path.agrees
  | fireInput f => exact ⟨id, fun _ h => h, fun _ h => h, fun _ h => h⟩
  | sector n => exact ((Change.siren n).path (l := [.sector]) (by decide)).agrees
  | closure c => exact (s.testZones_path c).agrees
  | station => exact .refl s

theorem agrees_tableKept (s : State) : TableKept (fun u => Agrees s u) (fun _ u => Agrees s u) where
  plain mem change h := by
    have other : ∀ k ∈ [ChangeKind.log, .output], k ∉ alarmMoving := by decide
    exact h.trans (change.agrees (other _ mem))
  same _ h := h.trans ⟨id, fun _ h => h, fun _ h => h, fun _ h => h⟩
  but _ h := h.trans ⟨id, fun _ h => h, fun _ h => h, fun _ h => h⟩
  active h := h.trans (State.entryActive_agrees _)
  removed _ _ _ _ h := h.trans (State.entryRemoved_agrees _)

/-! ### Settings -/

theorem State.standsFor_set (zones : (t.sectorCfg n).zones = (s.sectorCfg n).zones) : t.standsFor n = s.standsFor n := by
  funext r
  simp only [State.standsFor, zones]

/-- A write of anything but a sector's zones leaves what it sees. -/
theorem sectorSound_live (live : Settings) (zones : (live.sectors[n.val]).zones = (s.sectorCfg n).zones)
    (h : s.sectorSound n) : (s.setLive live).sectorSound n := by
  obtain ⟨demand, highest⟩ := sectorSound_iff.mp h
  have stands : (s.setLive live).standsFor n = s.standsFor n := State.standsFor_set zones
  have counts : (s.setLive live).countsFor n = s.countsFor n := by
    funext r
    simp only [State.countsFor, stands]
  refine sectorSound_iff.mpr ⟨demandSound_congr (s := s) rfl rfl ⟨?_, ?_⟩ demand, ?_⟩
  · unfold State.demandOf
    rw [counts]
    rfl
  · rw [stands]
    rfl
  · unfold State.highestSound at highest ⊢
    rw [show ((s.setLive live).sectorCfg n).zones = (s.sectorCfg n).zones from zones]
    exact highest

theorem Settings.write_zones_of_ne (u : Settings) {name : SettingName} (v : Nat) (n : SectorNo)
    (other : name ≠ .sector n 1) : ((u.write name v).sectors[n.val]).zones = (u.sectors[n.val]).zones := by
  cases name with
  | sector m f =>
    simp only [Settings.write, Vector.getElem_set]
    split
    · next same =>
      have eq : m = n := Fin.ext same
      subst eq
      have field : f ≠ 1 := by rintro rfl; exact other rfl
      unfold SectorSettings.write
      split <;> simp_all
    · rfl
  | _ => rfl

theorem Steps.sectorSound {l : List ChangeKind} (path : Steps l s t) (other : ∀ k ∈ l, k ∉ alarmMoving)
    (h : s.sectorSound n) : t.sectorSound n := by
  obtain ⟨demand, highest⟩ := sectorSound_iff.mp h
  refine sectorSound_iff.mpr ⟨path.demandSound (fun k mem => ?_) demand, path.highestSound (fun k mem => ?_) highest⟩
  all_goals
    have := other k mem
    simp_all

theorem sectorSound_written : WrittenKept (fun n u => u.sectorSound n) (fun _ _ => True)
    (fun name n => name = .sector n 1) where
  plain mem change h := by
    have other : ∀ k ∈ [ChangeKind.stored, .flags, .log], k ∉ alarmMoving := by decide
    exact (change.steps (List.mem_singleton.mpr rfl)).sectorSound (by simpa using other _ mem) h
  but _ _ _ := trivial
  handOther name h := (State.handSetting_path _ name).steps.sectorSound (by decide) h
  handBut _ _ := trivial
  hand {n u name} touches _ := by
    subst touches
    have derived := (Change.derive (s := u.refreshHighest n) n).highestSound (by decide) (u.refreshHighest_highestSound n)
    exact sectorSound_iff.mpr ⟨State.deriveSector_demandSound _ n, derived⟩
  write {n u} name v _ h := ⟨trivial, fun other => sectorSound_live _ (u.store.live.write_zones_of_ne v n other) h⟩
  copy {n u} k _ h := by
    refine ⟨trivial, fun other => sectorSound_live _ ?_ h⟩
    cases k with
    | sectors => exact absurd rfl (other _ (sector_mem_names n (f := 0) (by decide)))
    | _ => rfl

/-! ### Resets -/

theorem State.testShut_handed (c : ClosureNo) : Handed s (s.testShut c) := by
  unfold State.testShut
  split
  · exact (s.raiseFault_closure_path c _ (by decide)).handed
  · exact .refl s

theorem reenter_handed (sound : s.causesSound) (n : LineNo) : Handed u (s.reenter n u) := by
  unfold State.reenter
  split
  · next l held =>
    obtain ⟨r, found, rfl⟩ := Option.map_eq_some_iff.mp held
    have level := sound.2 r (State.causeOf_mem found)
    rw [Cause.sound, State.causeOf_source found] at level
    exact State.raiseLineCause_handed n level.1
  · exact .refl u

theorem State.restart_agrees (source : StartSource) : Agrees s (s.restart source) := by
  have reentered (c : s.causesSound) : Handed (s.loaded source) (s.reentered source) := by
    have tested : Handed (s.loaded source) (s.tested source) :=
      forAll_keeps (P := fun v => Handed (s.loaded source) v)
        (fun c v hv => hv.trans (State.testShut_handed c)) (.refl _)
    exact forAll_keeps (P := fun v => Handed (s.loaded source) v) (fun n v hv => hv.trans (reenter_handed c n)) tested
  have started : (s.loaded source).causesSound := by
    rw [causesSound_iff, State.loaded, State.blank, start_causes]
    exact ⟨List.nodup_nil, by simp⟩
  have each (P : State → Prop) (keeps : ∀ z v, P v → P (v.deriveZone z)) (h : P (s.reentered source)) : P (s.restart source) := by
    rw [State.restart_eq]
    exact forAll_keeps keeps h
  exact ⟨fun c => each _ (fun z v => deriveZone_causesSound) ((reentered c).causes started),
    fun _ _ z => (s.restart_zone source z).1,
    fun c _ n => each (fun v => v.demandSound n) (fun z v => deriveZone_demandSound)
      ((reentered c).demand started (start_demandSound _ _ _) n),
    fun c _ => each (fun v => ∀ n, v.highestSound n) (fun z v => deriveZone_highestSound)
      ((reentered c).highest started (start_highestSound _ _ _))⟩

/-! ### Every step -/

/-- The commands of an alarm's own. -/
theorem alarmCommand_agrees {c : Instr} (alarm : ¬∀ k ∈ execKinds c, k ∉ alarmMoving) (table : .table ∉ execKinds c)
    (live : .live ∉ execKinds c) : Shows (fun v => Agrees s v) (exec c s) := by
  have log {u v : State} (change : Change .log u v) (h : Agrees s u) : Agrees s v :=
    h.trans (change.agrees (by decide))
  have due {u : State} {p : Prop} [Decidable p] (agrees : p → Agrees s u) :
      Shows (fun v => Agrees s v) (if p then done u else done s) := by
    split
    · next h => exact .of_done log (agrees h)
    · exact .of_done log (.refl s)
  cases c with
  | resetInput => exact .of_done log (s.restart_agrees _)
  | transmitFrameEnd =>
    have shown : Shows (fun v => Agrees s v) (execTransmitFrameEnd s) := by
      unfold execTransmitFrameEnd
      dsimp only
      split
      · split
        · exact .of_done log (s.restart_agrees _)
        · exact .of_done log ⟨id, fun _ h => h, fun _ h => h, fun _ h => h⟩
      · exact .of_done log (.refl s)
    exact shown
  | resetStation p =>
    refine .of_request log (owner := State.resetStationReq (byteAt p 0)) (fun u hu => hu.trans ?_) (.refl s)
    unfold State.resetStationReq
    split
    · exact .refl u
    · split
      · exact .refl u
      · exact ((Change.waterReset _).path (l := [.water]) (by decide)).agrees.trans (State.removeCause_agrees _)
  | resetLine p =>
    refine .of_request log (owner := State.resetLineReq (byteAt p 0)) (fun u hu => hu.trans ?_) (.refl s)
    unfold State.resetLineReq
    split
    · exact .refl u
    · dsimp only
      split
      · exact .refl u
      · next locked =>
        split
        · exact .refl u
        · split
          · exact .refl u
          · rw [not_not] at locked
            exact u.clearLine_agrees _ (locked.imp_right And.left)
  | resetZone p => exact .of_request log (owner := State.resetZoneReq (byteAt p 0)) (fun u hu => hu.trans (u.resetZoneReq_agrees _)) (.refl s)
  | silenceSector p => exact .of_request log (owner := State.silenceReq (byteAt p 0)) (fun u hu => hu.trans (u.silenceReq_agrees _)) (.refl s)
  | confirmTimerExpired n => exact due fun _ => s.noWater_agrees n
  | sparkHoldExpired d => exact due fun _ => s.removeCause_agrees _
  | pulseTrailingEdge d =>
    have ended (cls : PulseClass) : Agrees s (s.endPulse d cls) :=
      ((Change.channelPin d _).path (l := [.channelPin]) (by decide)).agrees
    have shown : Shows (fun v => Agrees s v) (execPulseTrailingEdge d s) := by
      unfold execPulseTrailingEdge
      dsimp only
      split
      · split
        · split
          · exact .of_done log ((ended _).trans (State.qualified_agrees d _))
          · exact .of_done log (ended _)
        · split
          · exact .of_done log ((ended _).trans (State.qualified_agrees d _))
          · exact .of_done log (ended _)
        · exact .of_done log (ended _)
        · exact .of_done log (ended _)
      · exact .of_done log (.refl s)
    exact shown
  | debounceTimerExpired f =>
    have shown : Shows (fun v => Agrees s v) (execDebounceTimerExpired f s) := by
      unfold execDebounceTimerExpired
      dsimp only
      split
      · split
        · exact .of_done log (s.inputOn_agrees f)
        · exact .of_done log (s.inputOff_agrees f)
        · exact .of_done log (.refl s)
        · exact .of_done log (.refl s)
      · exact .of_done log (.refl s)
    exact shown
  | _ => simp [execKinds] at alarm table live

/-- What every command keeps of the agreement. -/
structure Agreement (s t : State) : Prop where
  causes : s.causesSound → t.causesSound
  zones : s.causesSound → (∀ z, s.zoneSound z) → ∀ z, t.zoneSound z
  sectors : s.causesSound → (∀ n, s.sectorSound n) → ∀ n, t.sectorSound n

theorem Agrees.agreement (h : Agrees s t) : Agreement s t where
  causes := h.causes
  zones := h.zones
  sectors c all n := sectorSound_iff.mpr ⟨h.demand c (fun m => (sectorSound_iff.mp (all m)).1) n,
    h.highest c (fun m => (sectorSound_iff.mp (all m)).2) n⟩

theorem exec_agreement {c : Instr} (run : exec c s = .next t) : Agreement s t := by
  by_cases table : .table ∈ execKinds c
  · have other : ∀ k ∈ [ChangeKind.log, .plan], k ∉ alarmMoving := by decide
    exact ((agrees_tableKept s).exec table (fun mem change h => h.trans (change.agrees (other _ mem)))
      run (.refl s)).agreement
  by_cases live : .live ∈ execKinds c
  · have kinds : .reentry ∉ execKinds c ∧ ∀ k ∈ execKinds c, k ∉ [ChangeKind.cause, .reentry] := by
      obtain ⟨p, rfl⟩ | ⟨p, rfl⟩ := writes_of_live live <;> simp [execKinds]
    exact ⟨(exec_path run).causesSound kinds.1, fun _ all z => (exec_path run).zoneSound kinds.2 (all z),
      fun _ all n => sectorSound_written.exec (writes_of_live live) run (all n)⟩
  by_cases still : ∀ k ∈ execKinds c, k ∉ alarmMoving
  · exact ((exec_path run).agrees still).agreement
  · exact (alarmCommand_agrees still table live t run).agreement

theorem step_agreement (run : step s = .next t) : Agreement s t := by
  obtain ⟨c, k, q, run⟩ | rfl := step_cases run
  · obtain ⟨causes, zones, sectors⟩ := exec_agreement run
    exact ⟨causes, zones, sectors⟩
  · exact ⟨id, fun _ h => h, fun _ h => h⟩

theorem step_playingSound (run : step s = .next t) (h : ∀ n, (s.sector n).playingSound) : ∀ n, (t.sector n).playingSound :=
  step_keeps (P := fun u => ∀ n, (u.sector n).playingSound) run h (fun _ _ _ hu => hu) (fun _ hu => hu)
    fun _ _ _ run hu n => (exec_path run).keeps (P := fun u => (u.sector n).playingSound)
      (fun _ _ _ _ change hv => change.playingSound hv) (hu n)

/-- Settles O53: a change of the cause list touches one zone, whose derivation and that of its sectors put the agreement
right, at once or at the event's end. -/
theorem causesZonesAndSectorsAgree : Obligations.CausesZonesAndSectorsAgree := by
  intro s t run
  obtain ⟨causes, zones, sectors⟩ := step_agreement run
  exact ⟨causes, zones, sectors, step_playingSound run⟩

end Sys2Proof.Machine
end

