-- ==== Sys2Proof/Proofs/Samples.lean ====
section
/-! Detector channels: when a sample starts and ends, what a pulse comes to, and the timed events of a channel. -/

namespace Sys2Proof.Machine

set_option Elab.async false -- one declaration after another: the check bounds the threads waiting on one another

variable (s : State) (d : DetNo)

/-! ### Instants -/

/-- An instant a time after another is reached once that time has passed. -/
theorem reached_add (now start : Instant) (n : Nat) (recent : (now - start).toNat < 2 ^ 31) (short : n < 2 ^ 31) :
    reached now (start + BitVec.ofNat 32 n) = decide (n ≤ (now - start).toNat) := by
  have apart : now - (start + BitVec.ofNat 32 n) = (now - start) - BitVec.ofNat 32 n := by abel
  unfold reached
  rw [apart]
  generalize now - start = x at *
  rw [BitVec.toNat_sub, BitVec.toNat_ofNat]
  have size := x.isLt
  by_cases passed : n ≤ x.toNat <;> simp only [passed, decide_true, decide_false, decide_eq_true_eq, decide_eq_false_iff_not]
  all_goals omega

/-! ### Commands that wait for their instant -/

theorem exec_sampleStart : exec (.sampleStart d) s = .next (if s.sampleStartDue d then s.startSample d else s).settle := by
  show execSampleStart d s = _
  unfold execSampleStart
  split <;> rfl

variable {s d}

theorem sampleStartDue_of_start {t₀ : Instant} (idle : (s.det d).busy = false) (on : (s.det d).mode ≠ .off)
    (start : (s.det d).lastStart = some t₀) (recent : (s.uptime - t₀).toNat < 2 ^ 31) :
    s.sampleStartDue d = decide (sampleInterval (s.det d).mode ≤ (s.uptime - t₀).toNat) := by
  have short : sampleInterval (s.det d).mode < 2 ^ 31 := by cases (s.det d).mode <;> decide
  simp only [State.sampleStartDue, idle, start, reached_add _ _ _ recent short]
  simp [on]

theorem sampleStartDue_of_none (idle : (s.det d).busy = false) (on : (s.det d).mode ≠ .off)
    (start : (s.det d).lastStart = none) : s.sampleStartDue d = true := by
  simp [State.sampleStartDue, idle, start, on]

theorem takeMode_of_ne {m : Supervision} (differs : m ≠ (s.det d).mode) (on : m ≠ .off) : s.takeMode d m =
    if (s.det d).mode = .off ∨ (s.setDet d { s.det d with mode := m, nextMode := none }).sampleStartDue d = true
    then s.setDet d { s.det d with mode := m, nextMode := none, busy := true, lastStart := some s.uptime }
    else s.setDet d { s.det d with mode := m, nextMode := none } := by
  have started : (s.setDet d { s.det d with mode := m, nextMode := none }).startSample d =
      s.setDet d { s.det d with mode := m, nextMode := none, busy := true, lastStart := some s.uptime } := by
    simp [State.startSample, State.setDet_setDet]
  unfold State.takeMode
  dsimp only
  rw [if_neg differs]
  cases m with
  | off => exact absurd rfl on
  | continuous | periodic => rw [← started]

/-- Settles O17: a sample starts once its interval has passed, and a derived mode waits for the sample in flight or takes
hold at once. -/
theorem samplesFollowTheDerivedMode : Obligations.SamplesFollowTheDerivedMode := by
  intro s d x m t start
  have mode : effectiveMode (s.detCfg d).supervision s.shift = m := by
    simp only [m]
    cases (s.detCfg d).supervision <;> cases s.shift <;> rfl
  have derived : t = if (s.det d).busy then s.setDet d { s.det d with nextMode := some m } else s.takeMode d m := by
    rw [← mode]
    rfl
  clear_value m t
  subst derived
  dsimp only [x, start]
  clear x start
  refine ⟨fun still => ?_, fun idle on none => ?_, fun idle t₀ last recent => ⟨fun mode => ?_, fun mode => ?_⟩,
    fun busy => if_pos busy, fun idle => ⟨fun same => ?_, fun differs off => ?_, fun differs on => ⟨fun fresh => ?_,
      fun was t₀ last recent => ?_⟩⟩⟩
  · have notDue : s.sampleStartDue d = false := by
      obtain busy | off := still
      · simp [State.sampleStartDue, busy]
      · simp [State.sampleStartDue, off]
    rw [exec_sampleStart, notDue]
    rfl
  · rw [exec_sampleStart, sampleStartDue_of_none idle on none]
    rfl
  · rw [exec_sampleStart, sampleStartDue_of_start idle (by simp [mode]) last recent]
    simp only [mode, sampleInterval, State.startSample, decide_eq_true_eq]
  · rw [exec_sampleStart, sampleStartDue_of_start idle (by simp [mode]) last recent]
    simp only [mode, sampleInterval, State.startSample, decide_eq_true_eq]
  · simp [idle, State.takeMode, same]
  · have turned : (if (s.det d).busy then s.setDet d { s.det d with nextMode := some m } else s.takeMode d m) = s.turnOff d := by
      subst off
      simp [idle, State.takeMode, differs]
    rw [turned]
    exact ⟨s.turnOff_det d, by simp [State.turnOff_holds], by simp [State.turnOff_holds], by simp [State.turnOff_holds],
      (s.turnOff_only d).kept.mono (by decide)⟩
  · simp only [idle, Bool.false_eq_true, if_false, takeMode_of_ne differs on]
    obtain off | none := fresh
    · simp [off]
    · rw [if_pos (.inr (sampleStartDue_of_none (by simp) (by simpa using on) (by simpa using none)))]
  · simp only [idle, Bool.false_eq_true, if_false, takeMode_of_ne differs on]
    rw [sampleStartDue_of_start (by simp) (by simpa using on) (by simpa using last) (by simpa using recent)]
    have interval : sampleInterval m = if m = .continuous then 125 else 4000 := by
      cases m <;> simp_all [sampleInterval]
    simp only [State.setDet_det_self, State.setDet_uptime, interval, was, false_or, decide_eq_true_eq]
    exact (apply_ite (s.setDet d) _ _ _).symm

end Sys2Proof.Machine
end

