-- ==== Sys2Proof/Proofs/Pulses.lean ====
section
/-! Pulses, glare, candidates and holds (R7 to R14, R84): what each event of a channel comes to. -/

namespace Sys2Proof.Machine

set_option Elab.async false -- one declaration after another: the check bounds the threads waiting on one another

variable {s : State} {d : DetNo}

/-! ### Timed events -/

theorem done_ite (p : Prop) [Decidable p] (u v : State) : (if p then done u else done v) = .next (if p then u else v).settle := by
  split <;> rfl

theorem byteOf_number {k : Nat} (small : k ≤ 255) (i : Fin k) : byteOf (number i) = BitVec.ofNat 8 (number i) := by
  have := i.isLt
  simp only [byteOf, number]
  rw [Nat.min_eq_left (by omega)]

theorem State.glareDue_iff : s.glareDue d = true ↔
    (s.det d).lit = true ∧ s.holds (.detector d) .glare = false ∧ (s.detCfg d).glareLimit * 10 ≤ (s.det d).width := by
  simp [State.glareDue, and_assoc]

theorem State.glareOver_clearing {since : Instant} (held : s.holds (.detector d) .glare = true)
    (clearing : (s.det d).glare = .clearing since) (recent : (s.uptime - since).toNat < 2 ^ 31)
    (short : (s.detCfg d).glareClear < 2 ^ 31) :
    s.glareOver d = decide ((s.detCfg d).glareClear ≤ (s.uptime - since).toNat) := by
  simp only [State.glareOver, held, clearing, reached_add _ _ _ recent short, Bool.true_and]

theorem State.candidateOver_some {c : Candidate} (held : (s.det d).candidate = some c)
    (recent : (s.uptime - c.at_).toNat < 2 ^ 31) : s.candidateOver d = decide (1000 ≤ (s.uptime - c.at_).toNat) := by
  unfold State.candidateOver
  rw [held]
  exact reached_add _ _ 1000 recent (by decide)

/-- Settles O22: each timed event of a channel acts at its instant and leaves the state alone before it. -/
theorem glareCandidateAndHoldEndInTime : Obligations.GlareCandidateAndHoldEndInTime := by
  intro s d
  dsimp only
  refine ⟨fun lit free long => ?_, fun early => ?_, fun since held clearing recent short => ?_, fun glaring => ?_,
    fun c held recent => ?_, fun r e found hold => ?_, fun none => ?_⟩
  · show execGlareLimitReached d s = _
    rw [execGlareLimitReached, if_pos (State.glareDue_iff.mpr ⟨lit, free, long⟩), State.beginGlare,
      State.raiseDet_of_free (by simpa using free)]
    rfl
  · have notDue : ¬s.glareDue d = true := by
      rw [State.glareDue_iff]
      rintro ⟨lit, free, long⟩
      obtain dark | held | short := early
      · simp [dark] at lit
      · simp [held] at free
      · omega
    show execGlareLimitReached d s = _
    rw [execGlareLimitReached, if_neg notDue]
    rfl
  · show execGlareCleared d s = _
    rw [execGlareCleared, State.glareOver_clearing held clearing recent short, done_ite]
    simp only [decide_eq_true_eq, State.endGlare]
  · show execGlareCleared d s = _
    simp [execGlareCleared, State.glareOver, glaring, done]
  · show execCandidateExpired d s = _
    rw [execCandidateExpired, State.candidateOver_some held recent, done_ite, State.dropCandidate_of_some held]
    simp only [decide_eq_true_eq, byteOf_number (by decide : 24 ≤ 255)]
  · show execSparkHoldExpired d s = _
    rw [execSparkHoldExpired, done_ite]
    simp only [State.holdOver, found, hold, State.expired]
  · show execSparkHoldExpired d s = _
    simp [execSparkHoldExpired, State.holdOver, none, done]

/-! ### Pulses -/

theorem execPulseTrailingEdge_of_lit (lit : (s.det d).lit = true) (cls : PulseClass)
    (class_ : (if s.holds (.detector d) .glare then PulseClass.glare
      else classify (s.det d).width (s.detCfg d).wMin (s.detCfg d).wMax) = cls) :
    exec (.pulseTrailingEdge d) s = .next (match cls with
      | .spark => if s.usable d then (s.endPulse d cls).qualified d false else s.endPulse d cls
      | .ember => if s.usable d then (s.endPulse d cls).qualified d true else s.endPulse d cls
      | .noise | .glare => s.endPulse d cls).settle := by
  show execPulseTrailingEdge d s = _
  unfold execPulseTrailingEdge
  dsimp only
  rw [if_pos lit, class_]
  cases cls with
  | spark | ember => exact done_ite _ _ _
  | noise | glare => rfl

theorem exec_pulseTrailingEdge_dark (dark : (s.det d).lit = false) : exec (.pulseTrailingEdge d) s = .next s.settle := by
  show execPulseTrailingEdge d s = _
  simp [execPulseTrailingEdge, dark, done]

/-- Settles O19: a leading edge starts a width; a trailing edge records the pulse, and a pulse that does not qualify goes
no further. -/
theorem pulsesAreMeasuredAndClassed : Obligations.PulsesAreMeasuredAndClassed := by
  intro s d
  dsimp only
  refine ⟨fun lit => ?_, fun dark => ?_, exec_pulseTrailingEdge_dark, fun lit fails => ?_⟩
  · show execPulseLeadingEdge d s = _
    simp [execPulseLeadingEdge, lit, done]
  · show execPulseLeadingEdge d s = _
    simp only [execPulseLeadingEdge, dark, done]
    rfl
  · rw [execPulseTrailingEdge_of_lit lit _ rfl]
    unfold classify
    generalize (if s.holds (.detector d) .glare = true then PulseClass.glare else _) = cls at fails ⊢
    have unusable : cls = .spark ∨ cls = .ember → s.usable d = false := by
      intro bright
      obtain noise | glare | held | disabled := fails
      · simp [noise] at bright
      · simp [glare] at bright
      · exact Bool.eq_false_iff.mpr fun usable => held (State.usable_iff.mp usable).1
      · simp [State.usable, disabled]
    cases cls with
    | spark | ember => simp [unusable, State.endPulse]
    | noise | glare => rfl

/-- The first qualifying pulse in WATCH is the candidate (R13). -/
theorem watchPulse_first {ember : Bool} {w : Nat} (fresh : (s.det d).candidate = none) : s.watchPulse d ember w =
    s.setDet d { s.det d with candidate := some ⟨ember, w, s.uptime⟩ } := by
  simp only [State.watchPulse, fresh]

/-- A second one in time confirms it (R13). -/
theorem watchPulse_confirms {ember : Bool} {w : Nat} {c : Candidate} (held : (s.det d).candidate = some c)
    (recent : s.since c.at_ ≤ 1000) : s.watchPulse d ember w =
    (s.setDet d { s.det d with candidate := none }).deliver d (c.ember || ember) (max c.weight w) true := by
  simp only [State.watchPulse, held, if_pos recent]

/-- An older candidate is discarded as EXPIRED first (R14). -/
theorem watchPulse_late {ember : Bool} {w : Nat} {c : Candidate} (held : (s.det d).candidate = some c)
    (late : 1000 < s.since c.at_) : s.watchPulse d ember w =
    (s.record .unconfirmed 1 (byteOf (number d)) ⟨if c.ember then 2 else 1, byteOf c.weight, 1, 0, 0⟩).setDet d
      { s.det d with candidate := some ⟨ember, w, s.uptime⟩ } := by
  simp only [State.watchPulse, held, if_neg (Nat.not_le.mpr late), State.dropCandidate_of_some held]
  simp [State.setDet, State.record, State.det]

/-- Settles O20: a qualifying pulse is delivered in DAY, and in WATCH becomes or confirms the candidate. -/
theorem qualifyingPulsesAreDeliveredOrConfirmed : Obligations.QualifyingPulsesAreDeliveredOrConfirmed := by
  intro s d
  dsimp only
  intro lit none able wide
  have usable : s.usable d = true := State.usable_iff.mpr ⟨none, able⟩
  have free : s.holds (.detector d) .glare = false := by simp [State.holds, none, hasFault]
  have ran : exec (.pulseTrailingEdge d) s = .next ((s.setDet d { s.det d with
      lit := false, lastEdge := some s.uptime,
      lastPulse := some ⟨(s.det d).width, if (s.detCfg d).wMax < (s.det d).width then .ember else .spark, s.uptime⟩
      }).qualified d (decide ((s.detCfg d).wMax < (s.det d).width))).settle := by
    rw [execPulseTrailingEdge_of_lit lit _ rfl]
    by_cases long : (s.detCfg d).wMax < (s.det d).width
    · simp [free, classify, usable, State.endPulse, long, Nat.not_lt.mpr wide, Nat.not_le.mpr long]
    · simp [free, classify, usable, State.endPulse, long, Nat.not_lt.mpr wide, Nat.not_lt.mp long]
  rw [ran]
  have weight : (if (decide ((s.detCfg d).wMax < (s.det d).width)) = true then 4 else 1) =
      if (s.detCfg d).wMax < (s.det d).width then 4 else 1 := by simp only [decide_eq_true_eq]
  unfold State.qualified
  dsimp only
  rw [weight]
  refine ⟨fun day => ?_, fun watch => ⟨fun fresh => ?_, fun c held recent => ?_, fun c held late => ?_⟩⟩
  · rw [show (s.setDet d _).shift = _ from day]
  all_goals rw [show (s.setDet d _).shift = _ from watch]
  · rw [watchPulse_first (by simpa using fresh), State.setDet_setDet, State.setDet_det_self]
    rfl
  · rw [watchPulse_confirms (by simpa using held) (by exact recent), State.setDet_setDet, State.setDet_det_self]
  · rw [watchPulse_late (by simpa using held) (by exact late), byteOf_number (by decide), State.setDet_det_self]
    simp [State.setDet, State.record]

end Sys2Proof.Machine
end

