-- ==== Sys2Proof/Proofs/SampleEnd.lean ====
section
/-! The end of a sample (R2 to R6, R71): the channel, its loop faults, and every line's blindness. -/

namespace Sys2Proof.Machine

set_option Elab.async false -- one declaration after another: the check bounds the threads waiting on one another

variable {s : State} {d : DetNo}

/-! ### Blindness judged -/

/-- A line with its blindness judged (R71). -/
def State.judged (s : State) (n : LineNo) : Line :=
  { s.line n with
    blind := s.isBlind n
    blindTimer := if s.isBlind n = (s.line n).blind then (s.line n).blindTimer
      else if s.isBlind n then some (s.after ((s.lineCfg n).blindLimit * 1000)) else none }

theorem State.judgeLine_line_self (n : LineNo) : (s.judgeLine n).line n = s.judged n := by
  unfold State.judgeLine State.judged
  dsimp only
  split
  · next same => rw [same]
  · split
    · next blind => simp [blind]
    · next sees => simp [Bool.eq_false_iff.mpr sees]

theorem State.judgeBlind_line (n : LineNo) : s.judgeBlind.line n = s.judged n := by
  have blind (u : State) (m : LineNo) : (u.judgeLine m).isBlind n = u.isBlind n :=
    (Change.judge m).isBlind_kept (by decide) n
  refine forAll_once (i := n)
    (Before := fun u => u.line n = s.line n ∧ u.isBlind n = s.isBlind n ∧ KeptBut [.lines, .faults, .history, .link] s u)
    (After := fun u => u.line n = s.judged n) (fun u hu => ?_) (fun m u ne hu => ?_) (fun m u ne hu => ?_)
    ⟨rfl, rfl, .refl _ s⟩
  · obtain ⟨line, sees, kept⟩ := hu
    have store : u.store = s.store := kept .store (by decide)
    have time : u.uptime = s.uptime := (kept .clock (by decide)).1
    rw [State.judgeLine_line_self]
    simp only [State.judged, State.lineCfg, State.after, line, sees, store, time]
  · obtain ⟨line, sees, kept⟩ := hu
    exact ⟨(u.judgeLine_line_of_ne (Ne.symm ne)).trans line, (blind u m).trans sees, kept.trans (u.judgeLine_kept m)⟩
  · exact (u.judgeLine_line_of_ne (Ne.symm ne)).trans hu

theorem State.judgeBlind_isBlind (n : LineNo) : s.judgeBlind.isBlind n = s.isBlind n :=
  s.judgeBlind_path.keeps (P := fun u => u.isBlind n = s.isBlind n)
    (fun k mem _ _ change hu => (change.isBlind_kept (by fin_cases mem; decide) n).trans hu) rfl

theorem State.judgeBlind_channel (e : DetNo) : s.judgeBlind.det e = s.det e ∧
    s.judgeBlind.faults.get (.detector e) = s.faults.get (.detector e) :=
  s.judgeBlind_path.keeps (P := fun u => u.det e = s.det e ∧ u.faults.get (.detector e) = s.faults.get (.detector e))
    (fun k mem _ _ change hu => by
      have ⟨det, faults, _⟩ := change.channel_kept (by fin_cases mem; decide) e
      exact ⟨det.trans hu.1, faults.trans hu.2⟩) ⟨rfl, rfl⟩

theorem State.judgeBlind_detHolds (e : DetNo) (f : FaultCode) : s.judgeBlind.holds (.detector e) f = s.holds (.detector e) f := by
  simp only [State.holds, (s.judgeBlind_channel e).2]

/-! ### The end of a sample -/

theorem sampleEndDue_of_start {t₀ : Instant} (busy : (s.det d).busy = true) (start : (s.det d).lastStart = some t₀)
    (recent : (s.uptime - t₀).toNat < 2 ^ 31) : s.sampleEndDue d = decide (8 ≤ (s.uptime - t₀).toNat) := by
  simp only [State.sampleEndDue, busy, start, Bool.true_and]
  exact reached_add _ _ 8 recent (by decide)

theorem State.takeWaitingMode_of_off (off : (s.det d).nextMode = some .off) : s.takeWaitingMode d = s.turnOff d := by
  simp [State.takeWaitingMode, off]

theorem State.takeWaitingMode_of_on (on : (s.det d).nextMode ≠ some .off) :
    (s.takeWaitingMode d).det d = { s.det d with mode := (s.det d).nextMode.getD (s.det d).mode, nextMode := none } ∧
      ∀ f, (s.takeWaitingMode d).holds (.detector d) f = s.holds (.detector d) f := by
  unfold State.takeWaitingMode
  split
  · next none =>
    refine ⟨?_, fun _ => rfl⟩
    simp only [none, Option.getD_none]
    exact none ▸ rfl
  · next off => exact absurd off on
  · next m _ some => simp [some]

/-- The channel after the level of a sample (R4, R5): a fault raised discards the candidate. -/
theorem State.applyLevel_det (level : Fin 16) : (s.applyLevel d level).det d = { (s.det d).sampled level with candidate :=
    if (((s.det d).sampled level).openRun = 4 ∧ s.holds (.detector d) .openLoop = false) ∨
      (((s.det d).sampled level).shortRun = 4 ∧ s.holds (.detector d) .short = false) then none
    else (s.det d).candidate } := by
  rw [State.applyLevel_eq, State.judgeLevel_det]
  simp only [State.setDet_holds, State.setDet_det_self]
  split <;> rfl

/-- The loop faults after the level of a sample (R4, R5). -/
theorem State.applyLevel_holds (level : Fin 16) :
    let opens := ((s.det d).sampled level).openRun = 4 ∧ s.holds (.detector d) .openLoop = false
    let shorts := ((s.det d).sampled level).shortRun = 4 ∧ s.holds (.detector d) .short = false
    (s.applyLevel d level).holds (.detector d) .openLoop = (if opens then true else if shorts then false
      else if 3 ≤ level.val ∧ level.val ≤ 14 then false else s.holds (.detector d) .openLoop) ∧
    (s.applyLevel d level).holds (.detector d) .short = (if shorts then true else if opens then false
      else if 3 ≤ level.val ∧ level.val ≤ 12 then false else s.holds (.detector d) .short) ∧
    (s.applyLevel d level).holds (.detector d) .glare = s.holds (.detector d) .glare := by
  obtain ⟨openLoop, short, glare⟩ := (s.setDet d ((s.det d).sampled level)).judgeLevel_holds d level
    ((s.det d).sampled level).openRun ((s.det d).sampled level).shortRun
  simp only [State.setDet_holds] at openLoop short glare
  dsimp only
  rw [State.applyLevel_eq, openLoop, short, glare]
  refine ⟨rfl, ?_, rfl⟩
  have apart : ((s.det d).sampled level).openRun = 4 → ((s.det d).sampled level).shortRun ≠ 4 := by
    simp only [Detector.sampled]
    split <;> split <;> omega
  by_cases opens : ((s.det d).sampled level).openRun = 4 <;> simp [opens, apart]

/-- Settles O18: the level moves the run counts and the loop faults, a waiting mode takes hold, and blindness is judged. -/
theorem sampleEndJudgesTheLoop : Obligations.SampleEndJudgesTheLoop := by
  intro s d level t₀
  dsimp only
  intro busy start recent
  have due := sampleEndDue_of_start busy start recent
  refine ⟨fun early => ?_, fun passed => ?_⟩
  · show execSampleEnd d level s = _
    rw [execSampleEnd, due, if_neg (by simpa using early)]
    rfl
  have only := (s.applyLevel_only d level).trans (State.takeWaitingMode_only d)
  have next := State.applyLevel_nextMode (s := s) (d := d) level
  obtain ⟨openLoop, short, glare⟩ := s.applyLevel_holds (d := d) level
  refine ⟨((s.applyLevel d level).takeWaitingMode d).judgeBlind.settle, ?_, ?_, fun e ne => ?_, fun on => ?_,
    fun off => ?_, ?_, fun n => ?_⟩
  · show execSampleEnd d level s = _
    rw [execSampleEnd, due, if_pos (by simpa using passed)]
    rfl
  · exact ((only.kept.mono (by decide)).andThen (State.judgeBlind_kept _) (by decide)).andThen (State.settle_kept _) (by decide)
  · simp only [State.settle_det, State.settle_faults, State.judgeBlind_channel]
    exact ⟨only.det e ne, only.faults _ (by simpa using ne)⟩
  · simp only [State.settle_det, State.settle_holds, State.judgeBlind_channel, State.judgeBlind_detHolds]
    obtain ⟨taken, same⟩ := (s.applyLevel d level).takeWaitingMode_of_on (d := d) (by rwa [next.1])
    rw [taken, same, same, next.1, next.2, openLoop, short, State.applyLevel_det]
    exact ⟨rfl, rfl, rfl⟩
  · simp only [State.settle_det, State.settle_holds, State.judgeBlind_channel, State.judgeBlind_detHolds]
    rw [State.takeWaitingMode_of_off (by rwa [next.1]), State.turnOff_det, State.turnOff_holds, State.turnOff_holds,
      State.applyLevel_det]
    exact ⟨rfl, rfl, rfl⟩
  · simp only [State.settle_holds, State.judgeBlind_detHolds]
    by_cases off : ((s.applyLevel d level).det d).nextMode = some .off
    · rw [State.takeWaitingMode_of_off off, State.turnOff_holds, glare]
      rfl
    · rw [(State.takeWaitingMode_of_on off).2, glare]
  · have sees := State.judgeBlind_isBlind (s := (s.applyLevel d level).takeWaitingMode d) n
    generalize eq : (s.applyLevel d level).takeWaitingMode d = u at *
    have settled : u.judgeBlind.settle.isBlind n = u.isBlind n := by
      rw [← sees]
      exact State.isBlind_congr (fun _ => by simp [State.assigned]) fun _ => by simp [State.usable]
    have line : u.line n = s.line n := State.line_congr (only.kept .lines (by decide)) n
    have store : u.store = s.store := only.kept .store (by decide)
    have time : u.uptime = s.uptime := (only.kept .clock (by decide)).1
    rw [settled, State.settle_line, State.judgeBlind_line]
    simp only [State.judged, State.lineCfg, State.after, line, store, time]

end Sys2Proof.Machine
end

