-- ==== Sys2Proof/Proofs/Requests.lean ====
section
/-! A request taken and answered by its owner: refused, with nothing changed but the link, or replied to. -/

namespace Sys2Proof.Machine

set_option Elab.async false -- one declaration after another: the check bounds the threads waiting on one another

variable {s t : State} {k : Link} {kind : Byte} {p q : Payload} {owner : State → State × Answer}

/-- Taken and refused by its owner. -/
theorem request_refused (taken : s.link.claim (.request kind p) = some k) {r : Reason} {d : Nat}
    (answer : owner (s.withLink k) = refuse (s.withLink k) r d) (small : d < 256 := by omega)
    (len : p.length = (requestLength kind).getD 0 := by rfl) :
    request kind p owner s = .next ((s.withLink k).answered ⟨0xFF, [kind, r.code, 0, 0, 0, BitVec.ofNat 8 d]⟩) := by
  rw [request_claimed taken len, answer, ← refusedFrame_of_lt _ _ small]
  rfl

/-- Taken and refused by its owner with a detail of 32 bits. -/
theorem request_refused_with (taken : s.link.claim (.request kind p) = some k) {r : Reason} {d : Nat}
    (answer : owner (s.withLink k) = refuse (s.withLink k) r d)
    (len : p.length = (requestLength kind).getD 0 := by rfl) :
    request kind p owner s = .next ((s.withLink k).answered ⟨0xFF, kind :: r.code :: enc32 (BitVec.ofNat 32 d)⟩) := by
  rw [request_claimed taken len, answer]
  rfl

/-- Taken and replied to by its owner. -/
theorem request_replied (taken : s.link.claim (.request kind p) = some k)
    (answer : owner (s.withLink k) = (t, .reply q)) (len : p.length = (requestLength kind).getD 0 := by rfl) :
    request kind p owner s = .next (t.answered ⟨kind + 0x80, q⟩) := by
  rw [request_claimed taken len, answer]
  rfl

/-- The number of an object sent as a byte. -/
theorem toNat_number {m : Nat} (i : Fin m) (small : m ≤ 255 := by decide) : (BitVec.ofNat 8 (number i)).toNat = number i := by
  have := i.isLt
  rw [BitVec.toNat_ofNat, number]
  omega

theorem number_small {m : Nat} (i : Fin m) (small : m ≤ 255 := by decide) : number i < 256 := by
  have := i.isLt
  rw [number]
  omega

/-- The number of an object sent as a byte names it. -/
theorem numbered_byte {m : Nat} (i : Fin m) (small : m ≤ 255 := by decide) :
    numbered m (BitVec.ofNat 8 (number i)).toNat = some i := by
  rw [toNat_number i small, numbered_number]

/-- The object a request names with its first byte. -/
theorem named_first {m : Nat} (i : Fin m) (p : Payload) (small : m ≤ 255 := by decide) :
    numbered m (byteAt (BitVec.ofNat 8 (number i) :: p) 0) = some i := numbered_byte i small

theorem named_none {m : Nat} {b : Byte} (p : Payload) (outside : b.toNat = 0 ∨ m < b.toNat) :
    numbered m (byteAt (b :: p) 0) = none := numbered_none.mpr outside

end Sys2Proof.Machine
end

