-- ==== Sys2Proof/Proofs/Velocity.lean ====
section
/-! Velocity meters and the transit computation (R21 to R31). -/

namespace Sys2Proof.Machine

set_option Elab.async false -- one declaration after another: the check bounds the threads waiting on one another

variable {s : State} {n : LineNo}

theorem gateDue_of_start {t₀ : Instant} (running : (s.meter n).running = true) (start : (s.meter n).gateStart = some t₀)
    (recent : (s.uptime - t₀).toNat < 2 ^ 31) : s.gateDue n = decide (250 ≤ (s.uptime - t₀).toNat) := by
  simp only [State.gateDue, running, start, Bool.true_and]
  exact reached_add _ _ 250 recent (by decide)

/-- Settles O23: pulses are counted, a gate end gives the velocities, and the line is handed them. -/
theorem gateEndsGiveTheVelocity : Obligations.GateEndsGiveTheVelocity := by
  intro s n t₀
  dsimp only
  refine ⟨fun stopped => ⟨?_, ?_⟩, fun running => ⟨?_, fun start recent => ⟨fun early => ?_, fun ended => ⟨?_, ?_⟩⟩⟩⟩
  · show execVelocityPulse n s = _
    simp [execVelocityPulse, stopped, done]
  · show execGateEnd n s = _
    simp [execGateEnd, State.gateDue, stopped, done]
  · show execVelocityPulse n s = _
    simp [execVelocityPulse, running, done]
  · show execGateEnd n s = _
    rw [execGateEnd, gateDue_of_start running start recent, if_neg (by simpa using early)]
    rfl
  · show execGateEnd n s = _
    rw [execGateEnd, gateDue_of_start running start recent, if_pos (by simpa using ended)]
    simp only [Meter.endGate, rawVelocity, filtered, running]
    rfl
  · generalize min _ 65535 = ends
    generalize min ((s.meter n).count * (s.lineCfg n).kFactor / 25) 10000 = v
    generalize (3 * (s.meter n).vf + v + 2) / 4 = vf
    simp only [State.gateAtLine, State.setMeter_line, State.setMeter_lineCfg, State.setMeter_meter_self]
    refine ⟨fun starting fast => ?_, fun starting slow => ?_, fun run slow low => ?_, fun run well => ?_, fun stopping => ?_,
      fun other => ?_⟩
    · simp [starting, fast]
    · simp [starting, Nat.not_le.mpr slow]
    · have four : min ((s.meter n).lowRun + 1) 4 = 4 := by omega
      simp [run, slow, four]
    · have fewer : ¬(if vf < (s.lineCfg n).vMin then min ((s.meter n).lowRun + 1) 4 else 0) = 4 := by
        split <;> omega
      simp only [run, if_neg fewer]
    · simp [stopping]
    · obtain off | abort | stopped := other
      · simp [off]
      · simp [abort]
      · simp [stopped]

/-! ### The transit computation -/

/-- The transit is the least time that covers the distance (R30). -/
theorem transit_spec (distance : Nat) {vf : Nat} (moving : 1 ≤ vf) :
    transit distance vf * vf < distance * 1000 + vf ∧ distance * 1000 ≤ transit distance vf * vf := by
  unfold transit
  have whole := Nat.div_add_mod (distance * 1000 + vf - 1) vf
  have rest := Nat.mod_lt (distance * 1000 + vf - 1) (show vf > 0 by omega)
  rw [Nat.mul_comm] at whole
  omega

theorem transit_le_iff {distance vf : Nat} (moving : 1 ≤ vf) (t : Nat) :
    transit distance vf ≤ t ↔ distance * 1000 ≤ t * vf := by
  obtain ⟨least, covers⟩ := transit_spec distance moving
  constructor
  · intro le
    exact covers.trans (Nat.mul_le_mul_right vf le)
  · intro enough
    by_contra more
    have : (t + 1) * vf ≤ transit distance vf * vf := Nat.mul_le_mul_right vf (by omega)
    rw [Nat.add_mul] at this
    omega

theorem margin_spec (t u : Nat) : margin t u * 64 ≤ t * u ∧ t * u < (margin t u + 1) * 64 := by
  unfold margin
  omega

/-- Settles O24: a spark is flooded below v_min and beyond 8,191 ms, and otherwise timed by its transit and margin. -/
theorem windowsAreTimedByTransit : Obligations.WindowsAreTimedByTransit := by
  intro distance vf cfg low
  refine ⟨fun slow => by simp [shotOf, slow], fun fast far => ?_, fun fast near => ?_⟩
  · have late : 8191 < transit distance vf := by
      by_contra soon
      have := (transit_le_iff (by omega) 8191).mp (Nat.not_lt.mp soon)
      omega
    simp [shotOf, Nat.not_lt.mpr fast, late]
  · obtain ⟨least, covers⟩ := transit_spec distance (vf := vf) (by omega)
    have soon : transit distance vf ≤ 8191 := (transit_le_iff (by omega) 8191).mpr near
    obtain ⟨whole, rest⟩ := margin_spec (transit distance vf) cfg.uncertainty
    refine ⟨transit distance vf, margin (transit distance vf) cfg.uncertainty, least, covers, soon, whole, rest,
      transit distance vf - (cfg.valveLatency + margin (transit distance vf) cfg.uncertainty),
      if cfg.valveLatency ≤ transit distance vf + margin (transit distance vf) cfg.uncertainty then
        transit distance vf + margin (transit distance vf) cfg.uncertainty - cfg.valveLatency + cfg.windowHold
      else cfg.windowHold,
      decide (transit distance vf < cfg.valveLatency),
      by simp [shotOf, Nat.not_lt.mpr fast, Nat.not_lt.mpr soon], ?_⟩
    generalize transit distance vf = T at *
    generalize margin T cfg.uncertainty = P at *
    refine ⟨by omega, ?_, by simp, by omega, fun long => ?_, fun later => ?_⟩
    · split <;> omega
    · split <;> omega
    · rw [if_pos (by omega)]
      omega

end Sys2Proof.Machine
end

