-- ==== Sys2Proof/Proofs/Water.lean ====
section
/-! The windows and the valve of a station, its water, and its requests (R36 to R51). -/

namespace Sys2Proof.Machine

set_option Elab.async false -- one declaration after another: the check bounds the threads waiting on one another

variable {s : State} {n : LineNo} {v w : Window} {rest : List Window}

/-! ### Windows and the valve -/

/-- The output turned on, with water where the input is active already (R42, R43, R44). -/
theorem turnOn_eq (n : LineNo) (s : State) : s.turnOn n = s.setStation n { s.station n with
    valveOn := true, outputOn := some s.uptime, valve := if (s.station n).wconf then .opened else .opening,
    waterConfirmed := (s.station n).wconf, waterSeen := (s.station n).wconf,
    confirmTimer := if (s.station n).wconf = true ∨ s.holds (.station n) .noWater = true then none
      else some (s.uptime + BitVec.ofNat 32 s.store.live.general.confirmTime) } := by
  unfold State.turnOn State.confirmStart State.after
  cases wet : (s.station n).wconf <;> simp [wet]

theorem windowDue_first (first : (s.station n).windows = v :: rest) :
    s.windowDue n = (v.running s.uptime && !(s.station n).valveOn && !s.disabled (.station n)) := by
  simp only [State.windowDue, first]

theorem windowOver_first (first : (s.station n).windows = v :: rest) : s.windowOver n = reached s.uptime v.stop := by
  simp only [State.windowOver, first]

theorem windowDue_empty (empty : (s.station n).windows = []) : s.windowDue n = false := by
  simp only [State.windowDue, empty]

theorem windowOver_empty (empty : (s.station n).windows = []) : s.windowOver n = false := by
  simp only [State.windowOver, empty]

theorem windowDue_on (on : (s.station n).valveOn = true) : s.windowDue n = false := by
  cases list : (s.station n).windows with
  | nil => simp only [State.windowDue, list]
  | cons v rest => simp [windowDue_first list, on]

theorem execWindowStart_due (due : s.windowDue n = true) : exec (.windowStart n) s = .next (s.turnOn n).settle :=
  if_pos due

theorem execWindowStart_idle (idle : s.windowDue n = false) : exec (.windowStart n) s = .next s.settle :=
  if_neg (by simp [idle])

theorem execWindowEnd_over (ended : s.windowOver n = true) : exec (.windowEnd n) s = .next (s.endWindow n).settle :=
  if_pos ended

theorem execWindowEnd_idle (idle : s.windowOver n = false) : exec (.windowEnd n) s = .next s.settle :=
  if_neg (by simp [idle])

/-- The end of the first window (R40). -/
theorem endWindow_first (first : (s.station n).windows = v :: rest) : s.endWindow n =
    let off := s.setStation n { s.station n with
      windows := rest, valveOn := false, valve := if rest.isEmpty then .closed else .armed, outputOn := none,
      confirmTimer := none }
    let t := match (s.station n).valveOn, (s.station n).outputOn with
      | true, some since =>
        off.record .valve 3 (byteOf (number n)) (valveDetail (off.since since) (s.station n).waterSeen v)
      | _, _ => off
    if rest.isEmpty then t.endActivity (.station n) else t := by
  simp only [State.endWindow, first] <;> rfl

/-- Settles O26: windows are taken, start and end with the valve. -/
theorem windowsOpenAndCloseTheValve : Obligations.WindowsOpenAndCloseTheValve := by
  intro s n w
  dsimp only
  refine ⟨fun active => if_pos active, fun idle => ?_, fun v rest first => ⟨fun now off idle => ?_, fun not => ?_, fun running => ?_,
    fun ended => ⟨fun t on since => ?_, fun off => ?_⟩⟩, fun empty => ⟨?_, ?_⟩⟩
  · unfold State.offerWindow
    simp only [idle, if_false, Bool.false_eq_true]
    generalize insertWindow s.uptime w (s.station n).windows = r
    refine ⟨fun on spraying => ?_, fun off v rest first => ⟨fun now => ?_, fun later => ?_⟩⟩
    · rw [State.afterInsert, windowDue_on (by simpa using on), if_neg (by simp), if_neg (by simpa using spraying)]
    · have due : State.windowDue (s.setStation n { s.station n with
          offered := min ((s.station n).offered + 1) 65535, windows := r.1,
          forced := if r.2 = true then min ((s.station n).forced + 1) 65535 else (s.station n).forced }) n = true := by
        rw [windowDue_first (v := v) (rest := rest) (by simpa using first)]
        simp [now, off, idle]
      rw [State.afterInsert, if_pos due, turnOn_eq]
      simp
    · have due : State.windowDue (s.setStation n { s.station n with
          offered := min ((s.station n).offered + 1) 65535, windows := r.1,
          forced := if r.2 = true then min ((s.station n).forced + 1) 65535 else (s.station n).forced }) n = false := by
        rw [windowDue_first (v := v) (rest := rest) (by simpa using first)]
        simp [later]
      rw [State.afterInsert, due, if_neg (by simp)]
      simp
  · rw [execWindowStart_due (by simp [windowDue_first first, now, off, idle]), turnOn_eq]
  · refine execWindowStart_idle ?_
    rw [windowDue_first first]
    obtain later | on | active := not
    · simp [later]
    · simp [on]
    · simp [active]
  · exact execWindowEnd_idle (by rw [windowOver_first first, running])
  · rw [execWindowEnd_over (by rw [windowOver_first first, ended])]
    rw [endWindow_first first]
    simp only [on, since, valveDetail, List.isEmpty_iff]
    rw [byteOf_of_le (show number n ≤ 255 by have := number_small n; omega)]
    rfl
  · rw [execWindowEnd_over (by rw [windowOver_first first, ended])]
    rw [endWindow_first first]
    simp only [off, List.isEmpty_iff]
  · exact execWindowStart_idle (windowDue_empty empty)
  · exact execWindowEnd_idle (windowOver_empty empty)

/-! ### Water -/

theorem KeptBut.lineCfg {l : List Block} {t : State} (kept : KeptBut l s t) (n : LineNo)
    (store : .store ∉ l := by decide) : t.lineCfg n = s.lineCfg n :=
  congrArg (fun x : Store => x.live.lines[n.val]) (kept .store store)

/-- NO-WATER with its cause in the line's zone, as the settings before it name it (R47 to R49). -/
theorem noWater_zoned (n : LineNo) (s : State) :
    s.noWater n =
      let u := (s.setStation n { s.station n with confirmTimer := none }).raiseFault (.station n) .noWater
      let v := if (s.line n).state = .starting ∨ (s.line n).state = .run then u.abortLine n .noWater else u
      match (s.lineCfg n).zone with
      | none => v
      | some z => v.raiseCause (.station n) z .alert none := by
  unfold State.noWater
  dsimp only
  have line : ((s.setStation n { s.station n with confirmTimer := none }).raiseFault (.station n) .noWater).line n
      = s.line n := by simp
  have cfg : ((s.setStation n { s.station n with confirmTimer := none }).raiseFault (.station n) .noWater).lineCfg n
      = s.lineCfg n := by simp
  rw [line]
  generalize (s.setStation n { s.station n with confirmTimer := none }).raiseFault (.station n) .noWater = u at *
  have same : State.lineCfg (if (s.line n).state = .starting ∨ (s.line n).state = .run then u.abortLine n .noWater else u) n
      = s.lineCfg n :=
    ((KeptBut.ite (State.abortLine_kept u n _) (.refl _ u)).lineCfg n).trans cfg
  rw [same] <;> rfl

/-- Settles O27: water is confirmed by the input, or missed at the timer's expiry. -/
theorem waterIsConfirmedOrMissed : Obligations.WaterIsConfirmedOrMissed := by
  intro s n
  refine ⟨fun opening => if_pos opening, fun other => if_neg other, fun opened => if_pos opened, fun other => if_neg other,
    fun not => ?_, fun opening expired => ?_⟩
  · refine if_neg ?_
    obtain other | running := not
    · simp [State.confirmDue, other]
    · simp [State.confirmDue, running]
  · have due : s.confirmDue n = true := by simp [State.confirmDue, opening, expired]
    have missed : exec (.confirmTimerExpired n) s = .next (s.noWater n).settle := if_pos due
    rw [missed]
    dsimp only
    exact ⟨fun zone => by rw [noWater_zoned, zone], fun z zone => by rw [noWater_zoned, zone]⟩

/-! ### Requests -/

/-- A flood accepted (R51). -/
theorem floodReq_free {m : Nat} (named : numbered 8 m = some n) (seconds : Nat) (free : s.hasEntry (.station n) = false) :
    s.floodReq m seconds =
      let secs := clamp 1 120 seconds
      let t := (s.offerWindow n (manualWindow s.uptime secs)).record .manualFlood 3 (byteOf (number n)) { d0 := byteOf secs }
      let w := ((t.station n).windows.find? (fun w => w.running s.uptime)).getD (manualWindow s.uptime secs)
      (t, .reply (enc32 (w.start - s.uptime) ++ enc32 (w.stop - s.uptime) ++ [w.origin.code, byteOf w.merged])) := by
  have clock : ∀ w : Window, (s.offerWindow n w).uptime = s.uptime :=
    fun w => (s.offerWindow_kept n w .clock (by decide)).1
  simp only [State.floodReq, named, free, Bool.false_eq_true, if_false, State.record_uptime, clock]
  rfl

/-- Settles O28: RESET-STATION and FLOOD-STATION. -/
theorem stationRequestsResetAndFlood : Obligations.StationRequestsResetAndFlood := by
  intro s k n bad seconds
  dsimp only
  have clamped : clamp 1 120 seconds.toNat = max 1 (min seconds.toNat 120) := clamp_eq_max_min (by decide) _
  refine ⟨fun outside => ⟨fun taken => ?_, fun taken => ?_⟩, fun taken => ⟨fun on => ?_, fun off => ?_⟩,
    fun taken => ⟨fun entry => ?_, fun free => ?_⟩⟩
  · exact request_refused taken (r := .badObject) (d := 0) (by simp only [State.resetStationReq, named_none [] outside])
  · exact request_refused taken (r := .badObject) (d := 0) (by simp only [State.floodReq, named_none [seconds] outside])
  · refine request_refused taken (r := .state) (d := 0) ?_
    simp only [State.resetStationReq, named_first n]
    exact if_pos on
  · refine request_replied taken ?_
    simp only [State.resetStationReq, named_first n]
    exact if_neg (show ¬(s.station n).valveOn = true by simp [off])
  · refine request_refused taken (r := .disabled) (d := 0) ?_
    simp only [State.floodReq, named_first n]
    exact if_pos entry
  · refine request_replied taken ((floodReq_free (named_first n [seconds]) _ (by exact free)).trans ?_)
    rw [show byteAt [BitVec.ofNat 8 (number n), seconds] 1 = seconds.toNat from rfl, clamped]
    have second := byteOf_of_le (show max 1 (min seconds.toNat 120) ≤ 255 by omega)
    have small := byteOf_of_le (show number n ≤ 255 by have := number_small n; omega)
    simp only [second, small]
    rfl

end Sys2Proof.Machine
end

