-- ==== Sys2Proof/Proofs/Deliveries.lean ====
section
/-! One delivery of a spark (R15, R16). -/

namespace Sys2Proof.Machine

set_option Elab.async false -- one declaration after another: the check bounds the threads waiting on one another

variable {s t u : State} {d : DetNo} {l : List Block}

theorem KeptBut.detCfg (kept : KeptBut l s t) (d : DetNo) (store : .store ∉ l := by decide) : t.detCfg d = s.detCfg d :=
  congrArg (fun x : Store => x.live.detectors[d.val]) (kept .store store)

theorem KeptBut.det (kept : KeptBut l s t) (d : DetNo) (same : .detectors ∉ l := by decide) : t.det d = s.det d :=
  congrArg (fun x : Vector Detector _ => x[d.val]) (kept .detectors same)

theorem KeptBut.uptime (kept : KeptBut l s t) (same : .clock ∉ l := by decide) : t.uptime = s.uptime :=
  (kept .clock same).1

/-- A delivery counted, recorded and reported, after what the station has done with its window. -/
def State.sparkNoted (s : State) (d : DetNo) (detail : Detail) (u : State) : State :=
  ((u.setDet d { s.det d with deliveries := min ((s.det d).deliveries + 1) 65535 }).record .spark 1
    (BitVec.ofNat 8 (number d)) detail).report .notice ⟨0x41, enc32 s.uptime ++
      [BitVec.ofNat 8 (number d), detail.d0, detail.d1, detail.d2, detail.d3, detail.d4]⟩

theorem State.sparkNoted_kept (detail : Detail) (kept : KeptBut [.stations] s u) :
    KeptBut (.stations :: .detectors :: causeBlocks) s (s.sparkNoted d detail u) :=
  (((kept.mono (by decide)).andThen (State.setDet_kept u d _) (by decide)).andThen (State.record_kept _ _ _ _ _) (by decide)).andThen
    (State.report_kept _ _ _) (by decide)

/-- What a delivery does in a line's count and in the zone's cause, its hold counted from the delivery. -/
def State.sparkCaused (s : State) (d : DetNo) (u : State) : State :=
  (match (s.detCfg d).zone with
    | none => u
    | some z => u.putCause (.detector d) z .spark
      (some (s.uptime + BitVec.ofNat 32 ((s.detCfg d).sparkHold * 1000)))).deriveChanged s.causes

theorem sparkCause_of_kept (kept : KeptBut l s u) (clock : .clock ∉ l) (store : .store ∉ l) :
    (u.sparkCause d).deriveChanged s.causes = s.sparkCaused d u := by
  have cfg := kept.detCfg d store
  have clock := kept.uptime clock
  unfold State.sparkCause State.sparkCaused State.after
  rw [cfg, clock] <;> rfl

/-- A delivery: the station, the record and report, the line's count, the zone's cause (R15). -/
theorem deliver_eq (d : DetNo) (ember : Bool) (weight : Nat) (confirmed : Bool) (s : State) :
    s.deliver d ember weight confirmed =
      let detail := sparkDetail (s.outcomeAt d) (s.shotAt d) ember confirmed (numberOrZero (s.detCfg d).line)
      let t := s.sparkNoted d detail (s.offerSpark d)
      s.sparkCaused d (match (s.detCfg d).line with
        | none => t
        | some n => t.countSpark n weight d) := by
  have offered := s.offerSpark_kept d
  have det := offered.det d
  have clock := offered.uptime
  unfold State.deliver
  dsimp only
  generalize sparkDetail (s.outcomeAt d) (s.shotAt d) ember confirmed (numberOrZero (s.detCfg d).line) = detail
  have small := byteOf_of_le (show number d ≤ 255 by have := number_small d; omega)
  have noted := State.sparkNoted_kept (d := d) detail offered
  have cfg := noted.detCfg d
  simp only [State.record_uptime, State.setDet_uptime, clock, det, small]
  show ((State.countAt d weight (s.sparkNoted d detail (s.offerSpark d))).sparkCause d).deriveChanged s.causes = _
  have counted := noted.andThen (State.countAt_kept _ d weight) (by decide)
  rw [sparkCause_of_kept counted (by decide) (by decide), State.countAt, cfg] <;> rfl

/-- The SPARK detail with its first field and its two offsets given. -/
def sparkFields (first a b : Nat) (ember confirmed : Bool) (line : Nat) : Detail :=
  ⟨BitVec.ofNat 8 (first + (if confirmed then 16 else 0) + line), highByte (a + if ember then 32768 else 0),
    lowByte (a + if ember then 32768 else 0), highByte b, lowByte b⟩

variable {ember confirmed : Bool} {line : Nat}

theorem sparkDetail_none : sparkDetail .none none ember confirmed line = sparkFields 0 0 0 ember confirmed line := rfl

theorem sparkDetail_flood (hold : Nat) (refused : Bool) :
    sparkDetail (if refused then .refused else .flood) (some (.flood hold)) ember confirmed line =
      if refused then sparkFields 192 0 0 ember confirmed line else sparkFields 128 0 hold ember confirmed line := by
  cases refused <;> rfl

theorem sparkDetail_timed (a b : Nat) (late refused : Bool) :
    sparkDetail (if refused then .refused else .timed) (some (.timed a b late)) ember confirmed line =
      sparkFields ((if refused then 192 else 64) + if late then 32 else 0) a b ember confirmed line := by
  cases refused <;> rfl

/-- Settles O21: a delivery reaches the station, the record and report, the line's count and the zone's cause. -/
theorem deliveryReachesTheBlocksNamed : Obligations.DeliveryReachesTheBlocksNamed := by
  intro s d ember confirmed weight
  dsimp only
  refine ⟨fun line => ?_, fun n line => ⟨fun hold shot => ?_, fun a b late shot => ?_⟩⟩
  · rw [deliver_eq]
    simp only [line, State.offerSpark, State.shotAt, State.outcomeAt, sparkDetail_none]
    rfl
  · rw [deliver_eq]
    simp only [line, State.offerSpark, State.shotAt, State.outcomeAt, shot, sparkDetail_flood, apply_ite (s.sparkNoted d)]
    cases s.disabled (.station n) <;> rfl
  · rw [deliver_eq]
    simp only [line, State.offerSpark, State.shotAt, State.outcomeAt, shot, sparkDetail_timed]
    rfl

end Sys2Proof.Machine
end

