-- ==== Sys2Proof/Proofs/LineOps.lean ====
section
/-! The changes of a line, its timers and inputs, and its spark counter (R56 to R74, R109). -/

namespace Sys2Proof.Machine

set_option Elab.async false -- one declaration after another: the check bounds the threads waiting on one another

variable {s : State} {n : LineNo} {c : ClosureNo}

/-! ### Changes of state -/

theorem position_closed {x : Closure} : x.position = .closed ↔ x.cshut = true := by
  unfold Closure.position
  split_ifs <;> simp_all

theorem fanFor_eq (st : LineState) : fanFor st = decide (st = .starting ∨ st = .run ∨ st = .abort) := by
  cases st <;> rfl

theorem feedFor_eq (st : LineState) : feedFor st = decide (st = .run) := by
  cases st <;> rfl

theorem gateFor_eq (st : LineState) (stood : Bool) :
    gateFor st stood = (decide (st = .abort) || (decide (st = .stopping ∨ st = .stopped) && stood)) := by
  cases st <;> cases stood <;> rfl

theorem lineQueue_eq (st : LineState) :
    lineQueue st = if st = .abort ∨ st = .stopping ∨ st = .stopped then .alarm else .notice := by
  cases st <;> rfl

theorem fanDown_iff : s.fanDown n = true ↔ (s.line n).fstop = true ∨ (s.meter n).vf < (s.lineCfg n).vMin / 4 := by
  simp [State.fanDown]

/-- A line that enters STOPPING has run down as its fan had before. -/
theorem moveLine_fanDown (cause : StopCause) {f : Line → Line} (fan : (f (s.line n)).fstop = (s.line n).fstop) :
    (s.moveLine n .stopping cause f).fanDown n = s.fanDown n := by
  have kept := s.moveLine_kept n .stopping cause f
  have meter : (s.moveLine n .stopping cause f).meter n = s.meter n :=
    congrArg (fun x : Vector Meter _ => x[n.val]) (kept .meters (by decide))
  unfold State.fanDown
  rw [meter, kept.lineCfg n, State.moveLine_line_self]
  exact congrArg (· || _) fan

theorem testRundown_of_moving (moving : (s.line n).state ≠ .stopping) : s.testRundown n = s :=
  if_neg fun h => moving h.1

theorem testRundown_of_turning (turning : s.fanDown n = false) : s.testRundown n = s :=
  if_neg fun h => by simp [turning] at h

theorem testRundown_of_down (stopping : (s.line n).state = .stopping) (down : s.fanDown n = true) :
    s.testRundown n = if (s.line n).stopCause = .orderly then
      s.moveLine n .off .none (fun x => { x with rundownTimer := none, gateTimer := none }) else s.stopDone n :=
  if_pos ⟨stopping, down⟩

theorem moveLine_run (cause : StopCause) (f : Line → Line) :
    (s.moveLine n .run cause f).lineCfg n = s.lineCfg n ∧
      (s.moveLine n .run cause f).holds (.line n) .blind = s.holds (.line n) .blind := by
  refine ⟨(s.moveLine_kept n _ _ _).lineCfg n, ?_⟩
  unfold State.moveLine
  simp

/-- The end of a damper's wait leaves its limit inputs alone (R109). -/
theorem startTravel_position (origin : ReleaseOrigin) :
    ((s.startTravel c origin).closure c).position = (s.closure c).position := by
  unfold State.startTravel
  rw [State.moveClosure_closure_self]
  split <;> rfl

/-- Settles O30: what a change of a line's state does, and what follows from it. -/
theorem lineChangesFollowTheirState : Obligations.LineChangesFollowTheirState := by
  intro s n st cause f
  dsimp only
  rw [← fanDown_iff]
  have ran := moveLine_run (s := s) (n := n) .none (fun y => { y with startTimer := none })
  refine ⟨?_, rfl, ⟨fun turning => ?_, fun down => ?_⟩, fun none => ?_, fun stopping down => ⟨fun orderly => ?_,
    fun other late => ?_, fun failed => ?_⟩, ⟨fun on blind => ?_, fun off => ?_⟩, fun c => ⟨fun other => if_neg other,
    fun waiting open_ => ?_, fun waiting shut => ?_⟩⟩
  · rw [← fanFor_eq, ← feedFor_eq, ← gateFor_eq, ← lineQueue_eq]
    rfl
  · exact testRundown_of_turning ((moveLine_fanDown cause rfl).trans (by simpa using turning))
  · rfl
  · obtain moving | turning := none
    · exact testRundown_of_moving moving
    · exact testRundown_of_turning (by simpa using turning)
  · rw [testRundown_of_down stopping down, if_pos orderly]
  · rw [testRundown_of_down stopping down, if_neg other, State.stopDone, if_neg late]
  · rw [testRundown_of_down stopping down, if_neg (by simp [failed]), State.stopDone, failed, if_pos rfl]
  · exact if_pos (by simp [ran.1, ran.2, on, blind])
  · refine if_neg ?_
    obtain off | sees := off
    · simp [ran.1, off]
    · simp [ran.2, sees]
  · have position := startTravel_position (s := s) (c := c) .none
    rw [State.endWait, if_pos waiting]
    dsimp only
    rw [if_neg (by rw [position, position_closed]; simp [open_])]
    rfl
  · have position := startTravel_position (s := s) (c := c) .none
    rw [State.endWait, if_pos waiting]
    dsimp only
    rw [if_pos (by rw [position, position_closed, shut])]
    rfl

/-! ### Timers and inputs -/

/-- Settles O32: the timers and the two inputs of a line. -/
theorem lineTimersAct : Obligations.LineTimersAct := by
  intro s n
  dsimp only
  refine ⟨done_ite _ _ _, done_ite _ _ _, ?_, ?_, ?_, ?_, rfl, rfl, rfl, ?_⟩
  · show execGateTimerExpired n s = _
    unfold execGateTimerExpired
    dsimp only
    rw [done_ite]
    split <;> rfl
  · refine (done_ite _ _ _).trans ?_
    split
    · simp only [State.stopDone, State.raiseFault_line]
    · rfl
  · show execBlindTimerExpired n s = _
    unfold execBlindTimerExpired
    dsimp only
    rw [done_ite, State.raiseFault_lineCfg, State.setLine_lineCfg]
    split <;> rfl
  · exact done_ite _ _ _
  · show done _ = _
    split
    · rfl
    · next moving =>
      dsimp only
      rw [testRundown_of_moving (by simpa using moving)]
      rfl

/-! ### The spark counter -/

theorem KeptBut.raiseLineCause {l : List Block} {v : State} (kept : KeptBut l s v) (level : Level)
    (store : .store ∉ l := by decide) : v.raiseLineCause n level =
      match (s.lineCfg n).zone with
      | none => v
      | some z => v.putCause (.line n) z level none := by
  unfold State.raiseLineCause
  rw [kept.lineCfg n store] <;> rfl

/-- What an escalation has done before the line moves (R63): the count and its window started anew, and the record. -/
def State.escalated (s : State) (n : LineNo) (count : Nat) (d : DetNo) : State :=
  (s.restartCount n).record .escalation 4 (BitVec.ofNat 8 (number n))
    ⟨(s.line n).state.code, highByte count, lowByte count, BitVec.ofNat 8 (number d), 0⟩

theorem escalated_kept (count : Nat) (d : DetNo) : KeptBut lineBlocks s (s.escalated n count d) :=
  ((s.setLine_kept n _).mono (by decide)).andThen (State.record_kept _ _ _ _ _) (by decide)

theorem escalate_eq (count : Nat) (d : DetNo) : s.escalate n count d =
    let u := s.escalated n count d
    match (s.line n).state with
    | .starting | .run => (u.abortLine n .escalation).raiseLineCause n .alert
    | .abort => (u.stopLine n .fire).raiseLineCause n .fire
    | .stopping => (if (s.line n).stopCause = .orderly then
        u.setLine n { (s.restartCount n).line n with stopCause := .fire } else u).raiseLineCause n .fire
    | .off | .stopped => u.raiseLineCause n .fire := by
  have small := byteOf_number (by decide) n
  have small' := byteOf_number (by decide) d
  unfold State.escalate State.escalated
  dsimp only
  rw [small, small']
  simp only [State.restartCount, State.setLine_line_self] <;> rfl

/-- Settles O33: a weight is added below the threshold, and escalates at it by the line's state. -/
theorem sparkCounterEscalates : Obligations.SparkCounterEscalates := by
  intro s n weight d
  dsimp only
  refine ⟨fun below => if_neg (Nat.not_le.mpr below), fun reached => ?_⟩
  have escalates : s.countSpark n weight d = s.escalate n (min ((s.line n).counter + weight) 1023) d := if_pos reached
  rw [escalates]
  have most : min ((s.line n).counter + weight) 1023 ≤ 1023 := Nat.min_le_right ..
  generalize min ((s.line n).counter + weight) 1023 = count at *
  have high : highByte count = BitVec.ofNat 8 (count / 256) := by rw [highByte, Nat.min_eq_left (by omega)]
  have low : lowByte count = BitVec.ofNat 8 count := by rw [lowByte, Nat.min_eq_left (by omega)]
  have kept := escalated_kept (s := s) (n := n) count d
  refine ⟨fun running => ?_, fun abort => ?_, fun stopping => ?_, fun rest => ?_⟩
  · have moved : s.escalate n count d = ((s.escalated n count d).abortLine n .escalation).raiseLineCause n .alert := by
      obtain running | running := running <;> simp only [escalate_eq, running]
    rw [moved, (kept.trans (State.abortLine_kept _ n _)).raiseLineCause .alert (by decide), State.escalated, high, low] <;> rfl
  · have moved : s.escalate n count d = ((s.escalated n count d).stopLine n .fire).raiseLineCause n .fire := by
      simp only [escalate_eq, abort]
    rw [moved, (kept.trans (State.stopLine_kept _ n _)).raiseLineCause .fire (by decide), State.escalated, high, low] <;> rfl
  · have moved : s.escalate n count d = (if (s.line n).stopCause = .orderly then
        (s.escalated n count d).setLine n { (s.restartCount n).line n with stopCause := .fire }
        else s.escalated n count d).raiseLineCause n .fire := by
      simp only [escalate_eq, stopping]
    have put := (State.setLine_kept (s.escalated n count d) n { (s.restartCount n).line n with stopCause := .fire }).mono
      (l := lineBlocks) (by decide)
    rw [moved, (kept.trans (.ite put (.refl _ _))).raiseLineCause .fire (by decide), State.escalated, high, low,
      State.restartCount, State.setLine_line_self] <;> rfl
  · have moved : s.escalate n count d = (s.escalated n count d).raiseLineCause n .fire := by
      obtain rest | rest := rest <;> simp only [escalate_eq, rest]
    rw [moved, kept.raiseLineCause .fire (by decide), State.escalated, high, low] <;> rfl

end Sys2Proof.Machine
end

