-- ==== Sys2Proof/Proofs/LineRequests.lean ====
section
/-! STOP-LINE and RESET-LINE (R61, R75). -/

namespace Sys2Proof.Machine

set_option Elab.async false -- one declaration after another: the check bounds the threads waiting on one another

variable {s : State} {n : LineNo}

/-! ### Faults cleared -/

theorem and_bit (g : FaultSet) (f : FaultCode) : g &&& f.bit = if hasFault g f then f.bit else 0 :=
  BitVec.and_twoPow g (f.num - 1)

/-- The faults of a list that an object holds are its fault set within the list. -/
theorem heldAmong_eq (o : Obj) (l : List FaultCode) :
    s.heldAmong o l = s.faults.get o &&& l.foldl addFault 0 := by
  have held (set : FaultSet) : l.foldl (fun set f => if s.holds o f then addFault set f else set)
      (s.faults.get o &&& set) = s.faults.get o &&& l.foldl addFault set := by
    induction l generalizing set with
    | nil => rfl
    | cons f l ih =>
      rw [List.foldl_cons, List.foldl_cons, ← ih (addFault set f)]
      congr 1
      simp only [addFault, BitVec.and_or_distrib_left, and_bit, State.holds]
      by_cases held : hasFault (s.faults.get o) f = true <;> simp [held]
  simpa [State.heldAmong] using held 0

theorem enc16_toNat (b : BitVec 16) : enc16 b.toNat = [b.extractLsb' 8 8, b.extractLsb' 0 8] := by
  have high : BitVec.ofNat 8 (b.toNat / 256) = b.extractLsb' 8 8 :=
    BitVec.eq_of_toNat_eq (by simp [Nat.shiftRight_eq_div_pow])
  have low : BitVec.ofNat 8 b.toNat = b.extractLsb' 0 8 := BitVec.eq_of_toNat_eq (by simp)
  rw [enc16, high, low]

/-! ### RESET-LINE -/

/-- A zone that keeps a line from its reset (R75): a trip zone with a FIRE cause of a fire input. -/
def State.tripHeld (s : State) (n : LineNo) (z : ZoneNo) : Prop :=
  zoneIn (s.lineCfg n).tripZones z = true ∧ ∃ r ∈ s.causes, r.zone = z ∧ r.level = .fire ∧ ∃ f, r.source = .fireInput f

theorem tripHeld_iff {z : ZoneNo} : s.tripHeld n z ↔ (zoneIn (s.lineCfg n).tripZones z &&
    s.causes.any fun r => r.zone == z && r.level == .fire &&
      match r.source with
      | .fireInput _ => true
      | _ => false) = true := by
  have input (x : Source) : (match x with | .fireInput _ => true | _ => false) = true ↔ ∃ f, x = .fireInput f := by
    cases x <;> simp
  simp only [State.tripHeld, Bool.and_eq_true, List.any_eq_true, beq_iff_eq, and_assoc, input]

theorem tripHeldByInput_eq_some_iff {z : ZoneNo} :
    s.tripHeldByInput n = some z ↔ s.tripHeld n z ∧ ∀ y < z, ¬s.tripHeld n y := by
  simp only [tripHeld_iff, Bool.not_eq_true]
  exact firstOf_eq_some_iff

theorem tripHeldByInput_eq_none_iff : s.tripHeldByInput n = none ↔ ∀ z, ¬s.tripHeld n z := by
  simp only [tripHeld_iff, Bool.not_eq_true]
  exact firstOf_none

section
variable {m : Nat} (named : numbered 8 m = some n)
include named

theorem resetLineReq_busy (busy : ¬((s.line n).state = .stopped ∨ (s.line n).state = .off ∧ s.causeOf (.line n) ≠ none)) :
    s.resetLineReq m = refuse s .state (s.line n).state.code.toNat := by
  simp only [State.resetLineReq, named]
  exact if_pos (by simpa [Option.isSome_iff_ne_none] using busy)

variable (ready : (s.line n).state = .stopped ∨ (s.line n).state = .off ∧ s.causeOf (.line n) ≠ none)
include ready

theorem resetLineReq_windows (windows : (s.station n).windows ≠ []) :
    s.resetLineReq m = refuse s .state (s.station n).windows.length := by
  simp only [State.resetLineReq, named]
  exact (if_neg (not_not_intro (by rwa [Option.isSome_iff_ne_none]))).trans (if_pos windows)

variable (empty : (s.station n).windows = [])
include empty

theorem resetLineReq_ready : s.resetLineReq m =
    match s.tripHeldByInput n with
    | some z => refuse s .zoneActive (number z)
    | none => (s.clearLine n, .reply (enc16 (s.heldAmong (.line n) resetLineFaults).toNat)) := by
  simp only [State.resetLineReq, named]
  exact (if_neg (not_not_intro (by rwa [Option.isSome_iff_ne_none]))).trans (if_neg (by simp [empty]))

end

/-- What RESET-LINE does before it starts the counter anew (R75). -/
def State.unlocked (n : LineNo) (s : State) : State :=
  forEach resetLineFaults (fun f s => s.clearFault (.line n) f)
    ((if (s.line n).state = .off then s.setLine n { s.line n with gate := false, gateTimer := none }
      else s.moveLine n .off .none (fun x => { x with gateTimer := none })).removeCause (.line n))

theorem unlocked_kept (n : LineNo) : KeptBut (lineBlocks ++ causeBlocks) s (s.unlocked n) := by
  have off : KeptBut (lineBlocks ++ causeBlocks) s (if (s.line n).state = .off then
      s.setLine n { s.line n with gate := false, gateTimer := none }
      else s.moveLine n .off .none (fun x => { x with gateTimer := none })) :=
    .ite ((s.setLine_kept n _).mono (by decide)) ((s.moveLine_kept n _ _ _).mono (by decide))
  exact (off.andThen (State.removeCause_kept _ _) (by decide)).andThen
    (forEach_kept (fun f t => t.clearFault_kept (.line n) f) resetLineFaults _) (by decide)

theorem clearLine_eq (n : LineNo) : s.clearLine n =
    let t := s.unlocked n
    t.setLine n { t.line n with counter := 0, countWindow := s.freshWindow n } := by
  have cfg := (unlocked_kept n).lineCfg (s := s) n
  have clock := (unlocked_kept n).uptime (s := s)
  show (s.unlocked n).restartCount n = _
  unfold State.restartCount State.freshWindow State.after
  rw [cfg, clock]

/-- Settles O31: STOP-LINE and RESET-LINE are decided by the line's state, its station and its trip zones. -/
theorem stopAndResetLineAreDecided : Obligations.StopAndResetLineAreDecided := by
  intro s k n bad
  dsimp only
  refine ⟨fun outside => ⟨fun taken => ?_, fun taken => ?_⟩,
    fun taken => ⟨fun abort => ?_, fun running => ?_, fun rest => ?_⟩,
    fun taken => ⟨fun busy => ?_, fun ready => ⟨fun windows => ?_, fun empty => ⟨fun z held first => ?_, fun free => ?_⟩⟩⟩⟩
  · exact request_refused taken (r := .badObject) (d := 0) (by simp only [State.stopReq, named_none [] outside])
  · exact request_refused taken (r := .badObject) (d := 0) (by simp only [State.resetLineReq, named_none [] outside])
  · refine request_refused taken (r := .state) (d := 0) ?_
    simp only [State.stopReq, named_first n]
    rw [show ((s.withLink k).line n).state = .abort from abort]
  · refine request_replied taken ?_
    simp only [State.stopReq, named_first n]
    obtain running | running := running <;> rw [show ((s.withLink k).line n).state = _ from running]
  · refine request_replied taken ?_
    simp only [State.stopReq, named_first n]
    obtain rest | rest | rest := rest <;> rw [show ((s.withLink k).line n).state = _ from rest, rest]
  · refine (request_refused taken (resetLineReq_busy (named_first n []) (by exact busy)) (BitVec.isLt _)).trans ?_
    rw [BitVec.ofNat_toNat, BitVec.setWidth_eq]
    rfl
  · exact request_refused_with taken (resetLineReq_windows (named_first n []) (by exact ready) (by exact windows))
  · have found : (s.withLink k).tripHeldByInput n = some z := tripHeldByInput_eq_some_iff.mpr ⟨held, first⟩
    refine request_refused taken (r := .zoneActive) ((resetLineReq_ready (named_first n []) (by exact ready) (by exact empty)).trans ?_)
      (number_small z)
    rw [found]
  · have none : (s.withLink k).tripHeldByInput n = none := tripHeldByInput_eq_none_iff.mpr free
    refine (request_replied taken ((resetLineReq_ready (named_first n []) (by exact ready) (by exact empty)).trans (by rw [none]))).trans ?_
    rw [heldAmong_eq, enc16_toNat, clearLine_eq]
    rfl

end Sys2Proof.Machine
end

