-- ==== Sys2Proof/Proofs/CauseOps.lean ====
section
/-! Raising, refreshing and removing a cause (R81 to R83). -/

namespace Sys2Proof.Machine

set_option Elab.async false -- one declaration after another: the check bounds the threads waiting on one another

variable {s : State} {src : Source} {r : Cause}

/-- The list with a source's cause changed and the change recorded and reported (R82). -/
def State.causeNoted (s : State) (causes : List Cause) (src : Source) (z : ZoneNo) (before after : Byte) (latched : Bool) :
    State :=
  ({ s with causes := causes }).objEvent .notice .cause 0x42 src.obj
    ⟨BitVec.ofNat 8 (number z), before, after, if latched then 1 else 0,
      match src with
      | .fireInput f => (s.inputCfg f).type.code
      | _ => 0⟩

theorem causeEvent_eq (causes : List Cause) (source : r.source = src) (before after : Option Level) :
    ({ s with causes := causes }).causeEvent r before after =
      s.causeNoted causes src r.zone (levelCode before) (levelCode after) r.latched := by
  have number_ := byteOf_number (by decide) r.zone
  unfold State.causeEvent State.causeNoted
  rw [number_, source]
  rfl

theorem raiseThen_new (after : ZoneNo → State → State) (none : s.causeOf src = none) (z : ZoneNo) (l : Level)
    (hold : Option Instant) : s.raiseThen after src z l hold =
      after z (s.causeNoted (s.causes ++ [⟨src, z, l, latchedFor src l, s.uptime, s.uptime, 0, hold⟩]) src z 0xFF l.code
        (latchedFor src l)) := by
  unfold State.raiseThen
  rw [none]
  dsimp only
  rw [causeEvent_eq _ rfl]
  rfl

theorem raiseThen_rise (after : ZoneNo → State → State) (held : s.causeOf src = some r) (z : ZoneNo) {l : Level}
    (hold : Option Instant) (rise : r.level.rank < l.rank) : s.raiseThen after src z l hold =
      after r.zone (s.causeNoted (s.causes.map fun (x : Cause) => if x.source = src then { r with
          level := l, latched := r.latched || latchedFor src l, changed := s.uptime, silenced := 0, hold := hold } else x)
        src r.zone r.level.code l.code (r.latched || latchedFor src l)) := by
  unfold State.raiseThen
  rw [held]
  dsimp only
  rw [if_pos rise]
  generalize (s.causes.map fun (x : Cause) => if x.source = src then _ else x) = causes
  have source := State.causeOf_source held
  have noted := causeEvent_eq (s := s) (src := src) (r := { r with
    level := l, latched := r.latched || latchedFor src l, changed := s.uptime, silenced := 0, hold := hold }) causes
    source (some r.level) (some l)
  exact congrArg (after r.zone) noted

theorem raiseThen_refresh (after : ZoneNo → State → State) (held : s.causeOf src = some r) (z : ZoneNo) {l : Level}
    (hold : Option Instant) (low : l.rank ≤ r.level.rank) : s.raiseThen after src z l hold =
      { s with causes := s.causes.map fun (x : Cause) =>
          if x.source = src then { x with changed := s.uptime, hold := hold } else x } := by
  unfold State.raiseThen
  rw [held]
  exact if_neg (Nat.not_lt.mpr low)

theorem removeCause_held (held : s.causeOf src = some r) : s.removeCause src =
    (s.causeNoted (s.causes.filter fun (x : Cause) => x.source ≠ src) src r.zone r.level.code 0xFF r.latched).causeChanged
      r.zone := by
  unfold State.removeCause State.dropCause
  rw [held]
  dsimp only
  rw [causeEvent_eq _ (State.causeOf_source held)]
  rfl

theorem removeCause_none (none : s.causeOf src = none) : s.removeCause src = s := by
  unfold State.removeCause
  rw [none]

/-- Settles O34: a cause is raised, refreshed and removed. -/
theorem causesAreRaisedRefreshedAndRemoved : Obligations.CausesAreRaisedRefreshedAndRemoved := by
  intro s src z l hold latch
  have latched : latchedFor src l = latch := by
    simp only [latch]
    cases src <;> rfl
  clear_value latch
  subst latched
  refine ⟨fun none => ⟨?_, ?_, removeCause_none none⟩, fun r held => ⟨fun rise => ⟨?_, ?_⟩, fun low => ⟨?_, ?_⟩, ?_⟩⟩
  · exact raiseThen_new _ none z l hold
  · exact raiseThen_new _ none z l hold
  · exact raiseThen_rise _ held z hold rise
  · exact raiseThen_rise _ held z hold rise
  · exact raiseThen_refresh _ held z hold low
  · exact raiseThen_refresh _ held z hold low
  · exact removeCause_held held

end Sys2Proof.Machine
end

