-- ==== Sys2Proof/Proofs/ZoneOps.lean ====
section
/-! Fire inputs, the reset of a zone, and changes of shift mode (R86 to R100). -/

namespace Sys2Proof.Machine

set_option Elab.async false -- one declaration after another: the check bounds the threads waiting on one another

variable {s : State} {f : InputNo}

/-! ### Fire inputs -/

/-- The debounced change of an input recorded (R87, R88). -/
def State.inputNoted (s : State) (f : InputNo) (p : Debounce) : State :=
  (s.setInput f { s.input f with phase := p, timer := none }).record .input 2 (BitVec.ofNat 8 (number f))
    ⟨p.code, (s.inputCfg f).type.code, 0, 0, 0⟩

theorem inputRecord_eq (p : Debounce) :
    (s.setInput f { s.input f with phase := p, timer := none }).inputRecord f p = s.inputNoted f p := by
  have small := byteOf_number (by decide) f
  unfold State.inputRecord State.inputNoted
  rw [small]
  rfl

theorem inputNoted_frame (p : Debounce) : (s.inputNoted f p).disabled = s.disabled ∧
    (s.inputNoted f p).inputCfg = s.inputCfg ∧ (s.inputNoted f p).causeOf = s.causeOf := by
  refine ⟨funext fun x => ?_, funext fun x => ?_, funext fun x => ?_⟩ <;> simp [State.inputNoted]

/-- The debounced activation of an input that is disabled or has no zone (R87). -/
theorem inputOn_alone (alone : s.disabled (.fireInput f) = true ∨ (s.inputCfg f).zone = none) :
    s.inputOn f = s.inputNoted f .on := by
  obtain ⟨disabled, cfg, -⟩ := inputNoted_frame (s := s) (f := f) .on
  unfold State.inputOn
  rw [inputRecord_eq]
  dsimp only
  rw [disabled, cfg]
  obtain off | free := alone
  · exact if_pos off
  · rw [free]
    exact ite_self _

/-- The debounced activation of an input raises its cause (R87). -/
theorem inputOn_raises {z : ZoneNo} (on : s.disabled (.fireInput f) = false) (zone : (s.inputCfg f).zone = some z) :
    s.inputOn f = (s.inputNoted f .on).raiseCause (.fireInput f) z (s.inputCfg f).level.level none := by
  obtain ⟨disabled, cfg, -⟩ := inputNoted_frame (s := s) (f := f) .on
  unfold State.inputOn
  rw [inputRecord_eq]
  dsimp only
  rw [disabled, cfg, if_neg (by simp [on]), zone]

theorem inputOff_eq : s.inputOff f = match s.causeOf (.fireInput f) with
    | none => s.inputNoted f .idle
    | some r => if r.latched then s.inputNoted f .idle else (s.inputNoted f .idle).removeCause (.fireInput f) := by
  obtain ⟨-, -, causes⟩ := inputNoted_frame (s := s) (f := f) .idle
  unfold State.inputOff State.removeUnlatched
  rw [inputRecord_eq, causes] <;> rfl

theorem execDebounce_idle (idle : s.expired (s.input f).timer = false ∨ (s.input f).phase = .idle ∨ (s.input f).phase = .on) :
    exec (.debounceTimerExpired f) s = .next s.settle := by
  show execDebounceTimerExpired f s = _
  unfold execDebounceTimerExpired
  dsimp only
  split
  · next expired =>
    obtain running | idle | on := idle
    · simp [running] at expired
    · rw [idle]
      rfl
    · rw [on]
      rfl
  · rfl

theorem execDebounce_rising (expired : s.expired (s.input f).timer = true) (phase : (s.input f).phase = .rising) :
    exec (.debounceTimerExpired f) s = .next (s.inputOn f).settle := by
  refine (if_pos expired).trans ?_
  rw [phase]
  rfl

theorem execDebounce_falling (expired : s.expired (s.input f).timer = true) (phase : (s.input f).phase = .falling) :
    exec (.debounceTimerExpired f) s = .next (s.inputOff f).settle := by
  refine (if_pos expired).trans ?_
  rw [phase]
  rfl

/-- An edge of an input, from the phase it finds (R86). -/
theorem edge_eq {p : Debounce} (phase : (s.input f).phase = p) {active : Bool} {y : FireInput}
    (moved : FireInput.edge ⟨(s.input f).raw, p, (s.input f).timer⟩ active (s.debounceEnd f) = y) :
    exec (.fireInputEdge f active) s = .next (s.setInput f y).settle := by
  subst phase moved
  rfl

/-- Settles O36: the fire inputs are debounced by edge and expiry, and raise or remove their cause. -/
theorem fireInputsAreDebounced : Obligations.FireInputsAreDebounced := by
  intro s f
  dsimp only
  refine ⟨fun phase => ⟨edge_eq phase rfl, edge_eq phase (by rw [phase] <;> rfl)⟩,
    fun phase => ⟨edge_eq phase rfl, edge_eq phase (by rw [phase] <;> rfl)⟩,
    fun phase => ⟨edge_eq phase rfl, edge_eq phase (by rw [phase] <;> rfl)⟩,
    fun phase => ⟨edge_eq phase rfl, edge_eq phase (by rw [phase] <;> rfl)⟩, execDebounce_idle,
    fun expired => ⟨fun phase alone => ?_, fun phase on z zone => ?_, fun phase => ⟨fun none => ?_, fun r held => ?_⟩⟩⟩
  · rw [execDebounce_rising expired phase, inputOn_alone alone]
    rfl
  · rw [execDebounce_rising expired phase, inputOn_raises on zone]
    cases level : (s.inputCfg f).level <;> rfl
  · rw [execDebounce_falling expired phase, inputOff_eq, none]
    rfl
  · rw [execDebounce_falling expired phase, inputOff_eq, held]
    rfl

end Sys2Proof.Machine
end

