-- ==== Sys2Proof/Proofs/Shifts.lean ====
section
/-! SET-SHIFT (R98 to R100). -/

namespace Sys2Proof.Machine

set_option Elab.async false -- one declaration after another: the check bounds the threads waiting on one another

variable {s t : State}

/-! ### The channels -/

theorem deriveMode_det_candidate (d e : DetNo) : ((s.deriveMode d).det e).candidate = (s.det e).candidate := by
  by_cases same : e = d
  · subst same
    unfold State.deriveMode
    dsimp only
    split
    · simp
    · obtain ⟨same, -⟩ | ⟨same, -⟩ | ⟨same, -⟩ | ⟨same, -⟩ :=
        s.takeMode_cases e (effectiveMode (s.detCfg e).supervision s.shift) <;> rw [same]
      · simp
      · rw [State.turnOff_det]
        rfl
      · simp
      · simp
  · rw [(s.deriveMode_only d).det e same]

/-- The mode changed, recorded and reported, with the supervision modes derived and blindness judged (R98 to R100). -/
def State.shifted (m : Shift) (s : State) : State := (forAll State.deriveMode (s.putShift m)).judgeBlind

def shiftBlocks : List Block := [.shift, .detectors, .faults, .lines, .history, .link]

theorem putShift_kept (m : Shift) : KeptBut [.shift, .history, .link] s (s.putShift m) := by
  have put : KeptBut [.shift, .history, .link] s { s with shift := m } := by
    intro b out
    cases b <;> simp_all [Block.same]
  exact put.andThen (State.event_kept _ _ _ _ _ _ _) (by decide)

theorem shifted_kept (m : Shift) : KeptBut shiftBlocks s (s.shifted m) :=
  (((putShift_kept m).mono (by decide)).andThen (forAll_kept (fun d u => u.deriveMode_kept d) _) (by decide)).andThen
    (State.judgeBlind_kept _) (by decide)

theorem shifted_candidate (m : Shift) (d : DetNo) : ((s.shifted m).det d).candidate = (s.det d).candidate := by
  have derived : ((forAll State.deriveMode (s.putShift m)).det d).candidate = (s.det d).candidate :=
    forAll_keeps (P := fun u => (u.det d).candidate = (s.det d).candidate)
      (fun e u h => (deriveMode_det_candidate e d).trans h) (by rw [(putShift_kept m).det d])
  rw [← derived, State.shifted, (State.judgeBlind_kept _).det d]

/-! ### Candidates discarded -/

/-- The history after a channel's candidate has been discarded with the reason SHIFT (R14, R100). -/
def State.candidateDropped (s : State) (h : History) (d : DetNo) : History :=
  match (s.det d).candidate with
  | none => h
  | some c => h.add s.uptime .unconfirmed 1 (BitVec.ofNat 8 (number d))
      ⟨if c.ember then 2 else 1, byteOf c.weight, 4, 0, 0⟩

theorem dropCandidate_history {d : DetNo} (candidate : (t.det d).candidate = (s.det d).candidate)
    (clock : t.uptime = s.uptime) : (t.dropCandidate d 4).history = s.candidateDropped t.history d := by
  unfold State.candidateDropped
  cases held : (s.det d).candidate with
  | none => rw [State.dropCandidate_of_none (candidate.trans held)]
  | some c =>
    rw [State.dropCandidate_of_some (candidate.trans held), byteOf_number (by decide), ← clock]
    rfl

theorem dropCandidates_history {l : List DetNo} (once : l.Nodup) : ∀ {t : State},
    (∀ d ∈ l, (t.det d).candidate = (s.det d).candidate) → t.uptime = s.uptime →
    (forEach l (fun d (u : State) => u.dropCandidate d 4) t).history = l.foldl s.candidateDropped t.history := by
  induction l with
  | nil => exact fun _ _ => rfl
  | cons d l ih =>
    intro t same clock
    obtain ⟨fresh, rest⟩ := List.nodup_cons.mp once
    have dropped := dropCandidate_history (same d (by simp)) clock
    rw [List.foldl_cons, ← dropped]
    refine ih rest (fun e mem => ?_) ((t.dropCandidate_kept d 4).uptime.trans clock)
    rw [(t.dropCandidate_only d 4).det e (by rintro rfl; exact fresh mem)]
    exact same e (by simp [mem])

theorem dropCandidates_det (d : DetNo) :
    (forAll (fun d (u : State) => u.dropCandidate d 4) t).det d = { t.det d with candidate := none } :=
  forAll_once (i := d) (Before := fun u => u.det d = t.det d) (After := fun u => u.det d = { t.det d with candidate := none })
    (fun u h => by rw [State.dropCandidate_det_self, h])
    (fun e u ne h => ((u.dropCandidate_only e 4).det d (Ne.symm ne)).trans h)
    (fun e u ne h => ((u.dropCandidate_only e 4).det d (Ne.symm ne)).trans h) rfl

/-! ### Meters -/

theorem setMeters_meter (f : Meter → Instant → Meter) (n : LineNo) :
    (forAll (fun n (u : State) => u.setMeter n (f (u.meter n) u.uptime)) t).meter n = f (t.meter n) t.uptime :=
  (forAll_once (i := n) (Before := fun u => u.meter n = t.meter n ∧ u.uptime = t.uptime)
    (After := fun u => u.meter n = f (t.meter n) t.uptime ∧ u.uptime = t.uptime)
    (fun u h => by simp [h.1, h.2]) (fun m u ne h => by simpa [State.setMeter_meter, ne] using h)
    (fun m u ne h => by simpa [State.setMeter_meter, ne] using h) ⟨rfl, rfl⟩).1

/-! ### The request -/

theorem lineBusy_eq_some_iff {n : LineNo} : s.lineBusy = some n ↔
    ¬((s.line n).state = .off ∨ (s.line n).state = .stopped) ∧
      ∀ i < n, (s.line i).state = .off ∨ (s.line i).state = .stopped := by
  simp only [State.lineBusy, firstOf_eq_some_iff, Bool.and_eq_false_iff, bne_eq_false_iff_eq, Bool.and_eq_true, bne_iff_ne,
    not_or]

/-- Settles O38: a shift change is decided, recorded and handed on to channels and meters. -/
theorem shiftChangesAreHandedOn : Obligations.ShiftChangesAreHandedOn := by
  intro s k mode taken
  dsimp only
  refine ⟨fun other => ?_, fun same => ?_, fun watch day => ⟨fun n busy first => ?_, fun still => ?_⟩, fun day watch => ?_⟩
  · refine request_refused taken (r := .badObject) (d := 0) ?_
    obtain ⟨m, two⟩ : ∃ m, byteAt [mode] 0 = m + 2 := ⟨mode.toNat - 2, show mode.toNat = _ by omega⟩
    rw [two]
    unfold State.setShiftReq
    cases (s.withLink k).shift <;> rfl
  · subst same
    refine request_replied taken ?_
    show State.setShiftReq (byteAt [s.shift.code] 0) (s.withLink k) = _
    have shift : (s.withLink k).shift = s.shift := rfl
    unfold State.setShiftReq
    rw [shift]
    cases s.shift <;> rfl
  · subst watch
    refine request_refused taken (r := .state) ?_ (number_small n)
    have found : (s.withLink k).lineBusy = some n := lineBusy_eq_some_iff.mpr ⟨busy, first⟩
    have shift : (s.withLink k).shift = .day := day
    show State.setShiftReq 1 (s.withLink k) = _
    unfold State.setShiftReq
    simp only [shift, found]
  · subst watch
    have none : (s.withLink k).lineBusy = none := State.lineBusy_eq_none_iff.mpr still
    have shift : (s.withLink k).shift = .day := day
    refine ⟨(s.withLink k).toWatch, request_replied taken ?_, forAll_kept (fun n u => u.setMeter_kept n _) _, fun n => ?_⟩
    · show State.setShiftReq 1 (s.withLink k) = _
      unfold State.setShiftReq
      simp only [shift, none]
    · have meter : ((s.withLink k).shifted .watch).meter n = s.meter n :=
        congrArg (fun x : Vector Meter _ => x[n.val]) ((shifted_kept .watch) .meters (by decide))
      refine (setMeters_meter (fun m _ => m.stop) n).trans ?_
      show (((s.withLink k).shifted .watch).meter n).stop = _
      rw [meter]
      rfl
  · subst day
    have shift : (s.withLink k).shift = .watch := watch
    have kept := (shifted_kept (s := s.withLink k) .day)
    have drops : KeptBut [.detectors, .history] ((s.withLink k).shifted .day) _ :=
      forAll_kept (fun d u => u.dropCandidate_kept d 4) _
    have starts := fun v : State => forAll_kept (fun n u => u.setMeter_kept n ((u.meter n).start u.uptime)) v
    refine ⟨(s.withLink k).toDay, request_replied taken ?_, ?_, ?_, fun n => ?_, fun d => ?_⟩
    · show State.setShiftReq 0 (s.withLink k) = _
      unfold State.setShiftReq
      simp only [shift]
    · exact (drops.mono (by decide)).andThen (starts _) (by decide)
    · have history := dropCandidates_history (s := s.withLink k) (List.nodup_finRange 24)
        (fun d _ => shifted_candidate (s := s.withLink k) .day d) kept.uptime
      exact ((starts _) .history (by decide)).trans history
    · have before := kept.andThen drops (by decide)
      have meter : (forAll (fun d (u : State) => u.dropCandidate d 4) ((s.withLink k).shifted .day)).meter n = s.meter n :=
        congrArg (fun x : Vector Meter _ => x[n.val]) (before .meters (by decide))
      refine (setMeters_meter (fun m now => m.start now) n).trans ?_
      exact congrArg₂ Meter.start meter before.uptime
    · exact ((starts _).det d).trans (dropCandidates_det d)

end Sys2Proof.Machine
end

