-- ==== Sys2Proof/Proofs/ZoneRequests.lean ====
section
/-! RESET-ZONE and READ-CAUSES (R93, R95). -/

namespace Sys2Proof.Machine

set_option Elab.async false -- one declaration after another: the check bounds the threads waiting on one another

variable {s t : State} {z : ZoneNo} {r : Cause}

/-! ### RESET-ZONE -/

/-- A record that RESET-ZONE takes out: latched, of a fire input of the zone that has settled to IDLE (R93). -/
theorem resettable_iff : s.resettable z r = true ↔ r.zone = z ∧ r.latched = true ∧
    ∃ f, r.source = .fireInput f ∧ (s.input f).phase = .idle := by
  unfold State.resettable
  cases r.source <;> simp [and_assoc]

theorem dropCause_causes (src : Source) : (s.dropCause src).causes = s.causes.filter fun (x : Cause) => x.source ≠ src := by
  unfold State.dropCause
  split
  · next none =>
    refine (List.filter_eq_self.mpr fun x mem => ?_).symm
    simpa using State.causeOf_none none x mem
  · exact (State.causeEvent_kept _ _ _ _ .causes (by decide)).trans rfl

theorem dropHanded_causes (src : Source) :
    (s.dropHanded z src).causes = s.causes.filter fun (x : Cause) => x.source ≠ src :=
  ((s.dropCause src).handSectors_kept z .causes (by decide)).trans (dropCause_causes src)

theorem dropsHanded_causes (gone : List Cause) : (forEach gone (fun r (u : State) => u.dropHanded z r.source) s).causes =
    s.causes.filter fun x => decide (x.source ∉ gone.map (·.source)) := by
  induction gone generalizing s with
  | nil => simp [forEach]
  | cons r gone ih =>
    refine (ih (s := s.dropHanded z r.source)).trans ?_
    rw [dropHanded_causes, List.filter_filter]
    refine List.filter_congr fun x _ => ?_
    rw [List.map_cons, ← Bool.decide_and]
    refine decide_eq_decide.mpr ?_
    simp only [List.mem_cons, not_or, ne_eq, and_comm]

theorem dropHanded_kept (src : Source) : KeptBut (.causes :: sectorBlocks) s (s.dropHanded z src) :=
  ((s.dropCause_kept src).mono (by decide)).andThen (State.handSectors_kept _ z) (by decide)

/-- With one record to a source, those left are the ones not to go. -/
theorem filter_not_gone {l : List Cause} (once : (l.map (·.source)).Nodup) (goes : Cause → Bool) :
    (l.filter fun x => decide (x.source ∉ (l.filter goes).map (·.source))) = l.filter fun x => !goes x := by
  refine List.filter_congr fun x mem => ?_
  by_cases go : goes x = true
  · simp only [go, Bool.not_true, decide_eq_false_iff_not, not_not]
    exact List.mem_map_of_mem (List.mem_filter.mpr ⟨mem, go⟩)
  · simp only [go, Bool.not_false, decide_eq_true_eq]
    intro named
    obtain ⟨y, there, same⟩ := List.mem_map.mp named
    obtain ⟨there, go'⟩ := List.mem_filter.mp there
    exact go (List.inj_on_of_nodup_map once there mem same ▸ go')

theorem withLink_kept (s : State) (k : Link) : KeptBut [.link] s (s.withLink k) := by
  intro b out
  cases b <;> simp_all [Block.same, State.withLink]

/-- The state RESET-ZONE leaves (R93). -/
def State.zoneReset (z : ZoneNo) (s : State) : State :=
  (forEach (s.causes.filter (s.resettable z)) (fun r (u : State) => u.dropHanded z r.source) s).deriveZone z

theorem zoneReset_kept : KeptBut (.zones :: .causes :: zoneBlocks) s (s.zoneReset z) :=
  ((forEach_kept (fun (r : Cause) (u : State) => dropHanded_kept (s := u) (z := z) r.source) _ s).mono (by decide)).andThen
    (State.deriveZone_kept _ z) (by decide)

theorem zoneReset_causes (sound : s.causesSound) : (s.zoneReset z).causes = s.causes.filter fun r => !s.resettable z r := by
  rw [State.zoneReset, State.deriveZone_causes, dropsHanded_causes, filter_not_gone sound.1]

theorem zoneReset_zoneSound : (s.zoneReset z).zoneSound z := by
  rw [State.zoneReset, zoneSound_iff, State.deriveZone_zone, State.deriveZone_causes]
  split
  · rfl
  · next same => simpa using same

theorem zoneReset_zone_of_ne {y : ZoneNo} (other : y ≠ z) : (s.zoneReset z).zone y = s.zone y := by
  have dropped : (forEach (s.causes.filter (s.resettable z)) (fun r (u : State) => u.dropHanded z r.source) s).zones = s.zones :=
    (forEach_kept (fun (r : Cause) (u : State) => dropHanded_kept (s := u) (z := z) r.source) _ s) .zones (by decide)
  rw [State.zoneReset, State.deriveZone_zone, if_neg fun h => other h.1.symm]
  exact congrArg (fun x : Vector Zone _ => x[y.val]) dropped

/-! ### READ-CAUSES -/

theorem encDuration_remaining (t : Option Instant) : encDuration (s.remaining t) = match t with
    | none => [0xFF, 0xFF, 0xFF, 0xFF]
    | some e => if reached s.uptime e then [0, 0, 0, 0] else enc32 (e - s.uptime) := by
  cases t with
  | none => rfl
  | some e =>
    unfold State.remaining State.until_ encDuration
    dsimp only
    split
    · rfl
    · rw [BitVec.ofNat_toNat, BitVec.setWidth_eq]

theorem encCause_eq (r : Cause) : s.encCause r =
    [r.source.obj.kindCode, BitVec.ofNat 8 r.source.obj.num, BitVec.ofNat 8 (number r.zone), r.level.code,
      if r.latched then 1 else 0] ++ enc32 r.raised ++ enc32 r.changed ++ [r.silenced.setWidth 8] ++
      encDuration (s.remaining r.hold) := by
  have small := r.source.obj.num_le
  unfold State.encCause
  rw [byteOf_number (by decide), byteOf_of_le (by omega)]
  rfl

theorem pick_eq {α : Type} (first count : Nat) (l : List α) :
    pick first count l = (l.drop (first - 1)).take (max 1 (min count 6)) := by
  rw [pick, clamp_eq_max_min (by decide)]

/-- Settles O37: RESET-ZONE removes the settled records of its zone, and READ-CAUSES shows those selected. -/
theorem zoneRequestsResetAndRead : Obligations.ZoneRequestsResetAndRead := by
  intro s k z a first count me goes
  have goes_eq (v : State) (causes : v.input = s.input) : v.resettable z = goes := by
    funext r
    exact Bool.eq_iff_iff.mpr (by rw [resettable_iff, causes]; exact (decide_eq_true_iff).symm)
  refine ⟨fun sound taken => ?_, fun taken outside => ?_, fun taken => ⟨fun outside => ?_, fun inside => ?_⟩⟩
  · have kept := zoneReset_kept (s := s.withLink k) (z := z)
    have causes : ((s.withLink k).zoneReset z).causes = s.causes.filter fun r => !goes r := by
      rw [zoneReset_causes (by exact sound), goes_eq (s.withLink k) rfl]
      rfl
    refine ⟨(s.withLink k).zoneReset z, ?_, causes, zoneReset_zoneSound, fun y other => zoneReset_zone_of_ne other, ?_⟩
    · refine request_replied taken ?_
      simp only [State.resetZoneReq, me, named_first z]
      have gone : (s.withLink k).causes.filter ((s.withLink k).resettable z) = s.causes.filter goes := by
        rw [goes_eq (s.withLink k) rfl]
        rfl
      have stay : (((s.withLink k).zoneReset z).causes.filter fun r => decide (r.zone = z)) =
          s.causes.filter fun r => decide (r.zone = z) && !goes r := by
        rw [causes, List.filter_filter]
      exact congrArg₂ (fun m n => ((s.withLink k).zoneReset z, Answer.reply [byteOf m, byteOf n]))
        (congrArg List.length gone) (congrArg List.length stay)
    · exact ((withLink_kept s k).mono (by decide)).andThen kept (by decide)
  · exact request_refused taken (r := .badObject) (d := 0) (by simp only [State.resetZoneReq, named_none [] outside])
  · exact request_refused taken (r := .badObject) (d := 0) (if_pos outside)
  · refine request_replied taken ((if_neg (Nat.not_lt.mpr inside)).trans ?_)
    have selected : (s.causes.filter fun r => decide (a.toNat = 0 ∨ number r.zone = a.toNat)) =
        s.causes.filter fun r => decide (a = 0 ∨ number r.zone = a.toNat) := by
      have zero : a.toNat = 0 ↔ a = 0 := ⟨fun h => BitVec.eq_of_toNat_eq h, fun h => by rw [h]; rfl⟩
      simp only [zero]
    have record : (s.withLink k).encCause = fun (r : Cause) =>
        [r.source.obj.kindCode, BitVec.ofNat 8 r.source.obj.num, BitVec.ofNat 8 (number r.zone), r.level.code,
          if r.latched then 1 else 0] ++ enc32 r.raised ++ enc32 r.changed ++ [r.silenced.setWidth 8] ++
          match r.hold with
          | none => [0xFF, 0xFF, 0xFF, 0xFF]
          | some e => if reached s.uptime e then [0, 0, 0, 0] else enc32 (e - s.uptime) := by
      funext r
      rw [encCause_eq, encDuration_remaining] <;> rfl
    dsimp only
    rw [pick_eq, record]
    exact congrArg (fun l : List Cause => (s.withLink k, Answer.reply (byteOf l.length :: ((l.drop (first.toNat - 1)).take
      (max 1 (min count.toNat 6))).flatMap _))) selected

end Sys2Proof.Machine
end

