-- ==== Sys2Proof/Proofs/ClosureOps.lean ====
section
/-! The releases of a closure, its limit inputs and its timers (R102 to R114). -/

namespace Sys2Proof.Machine

set_option Elab.async false -- one declaration after another: the check bounds the threads waiting on one another

variable {s t : State} {c : ClosureNo} {l : List Block}

theorem KeptBut.closureCfg (kept : KeptBut l s t) (c : ClosureNo) (store : .store ∉ l := by decide) :
    t.closureCfg c = s.closureCfg c :=
  congrArg (fun x : Store => x.live.closures[c.val]) (kept .store store)

theorem KeptBut.line (kept : KeptBut l s t) (n : LineNo) (lines : .lines ∉ l := by decide) : t.line n = s.line n :=
  congrArg (fun x : Vector Line _ => x[n.val]) (kept .lines lines)

/-! ### Releases -/

theorem releasable_iff (x : Closure) : x.releasable = true ↔
    x.state = .held ∨ x.state = .ready ∨ (x.state = .stuck ∧ x.direction = .opening) := by
  simp [Closure.releasable, or_assoc]

theorem fanRunning_iff {n : LineNo} (line : (s.closureCfg c).line = some n) : s.fanRunning c = true ↔
    ((s.line n).state = .starting ∨ (s.line n).state = .run ∨ (s.line n).state = .abort ∨ (s.line n).state = .stopping) ∧
      (s.line n).fstop = false := by
  simp [State.fanRunning, line, or_assoc]

theorem fanRunning_of_none (line : (s.closureCfg c).line = none) : s.fanRunning c = false := by
  simp [State.fanRunning, line]

/-- A closure let go on a release takes its origin, and its position says how far it goes at once (R106, R107). -/
def State.released (c : ClosureNo) (origin : ReleaseOrigin) (s : State) : State :=
  (s.setClosure c { s.closure c with origin := origin }).letGo c origin

theorem released_eq (origin : ReleaseOrigin) : s.released c origin =
    let u := s.setClosure c { s.closure c with origin := origin }
    if (s.closure c).position = .closed then
      u.moveClosure c .shut .none origin (fun y => { y with travelTimer := none, waitTimer := none })
    else u.moveClosure c .releasing .none origin (fun y => { y with
      travelTimer := some (s.uptime + BitVec.ofNat 32 ((s.closureCfg c).travelTime * 1000)), waitTimer := none }) := by
  unfold State.released State.letGo
  rw [State.setClosure_closure_self]
  rfl

theorem released_kept (origin : ReleaseOrigin) : KeptBut closureBlocks s (s.released c origin) :=
  ((s.setClosure_kept c _).mono (by decide)).andThen (State.letGo_kept _ c origin) (by decide)

/-- A damper kept waiting by the fan (R107). -/
def State.waiting (c : ClosureNo) (origin : ReleaseOrigin) (s : State) : State :=
  (s.setClosure c { s.closure c with origin := origin }).moveClosure c .waiting .none origin (fun y => { y with
    travelTimer := none, waitTimer := some (s.uptime + BitVec.ofNat 32 ((s.closureCfg c).waitMax * 1000)) })

theorem releaseClosure_eq (origin : ReleaseOrigin) (acts : (s.closure c).releasable = true) :
    s.releaseClosure c origin =
      match (s.closureCfg c).kind with
      | .passage => s.released c origin
      | .damper =>
        if s.fanRunning c then (s.waiting c origin).demandStop c
        else if (s.closure c).state = .held then (s.released c origin).demandIfRunning c else s.released c origin := by
  unfold State.releaseClosure
  dsimp only
  rw [if_pos acts]
  rfl

theorem demandIfRunning_none (line : (s.closureCfg c).line = none) : s.demandIfRunning c = s := by
  unfold State.demandIfRunning
  rw [line]

theorem demandIfRunning_some {n : LineNo} (line : (s.closureCfg c).line = some n) : s.demandIfRunning c =
    if (s.line n).state = .starting ∨ (s.line n).state = .run ∨ (s.line n).state = .abort then s.protectLine n .damper
    else s := by
  unfold State.demandIfRunning
  rw [line]

theorem demandStop_some {n : LineNo} (line : (s.closureCfg c).line = some n) : s.demandStop c = s.protectLine n .damper := by
  unfold State.demandStop
  rw [line]

theorem holdFor_eq (st : ClosureState) (dir : Direction) : holdFor st dir =
    decide (st = .held ∨ st = .ready ∨ st = .waiting ∨ (st = .stuck ∧ dir = .opening)) := by
  cases st <;> cases dir <;> rfl

theorem moving_iff (x st : ClosureState) : (x.moving && !st.moving) = true ↔
    (x = .waiting ∨ x = .releasing) ∧ st ≠ .waiting ∧ st ≠ .releasing := by
  simp [ClosureState.moving]

/-- Settles O40: a closure is released by its kind, its position and its fan. -/
theorem closuresAreReleasedByKindAndFan : Obligations.ClosuresAreReleasedByKindAndFan := by
  intro s c origin
  dsimp only
  rw [← releasable_iff]
  have cfg : (s.released c origin).closureCfg c = s.closureCfg c := (released_kept origin).closureCfg c
  have line (n : LineNo) : (s.released c origin).line n = s.line n := (released_kept origin).line n
  have same := (released_eq (s := s) (c := c) origin).symm
  dsimp only at same
  rw [same]
  refine ⟨fun rests => if_neg rests, fun acts passage => ?_, fun acts damper none => ?_,
    fun acts damper n here => ⟨fun fan => ?_, fun still calm => ?_, fun still held running => ?_⟩,
    fun st dir timers => ⟨fun stands => if_pos stands, fun moves => ?_⟩⟩
  · rw [releaseClosure_eq origin acts, passage]
  · rw [releaseClosure_eq origin acts, damper]
    dsimp only
    rw [if_neg (by simp [fanRunning_of_none none]), demandIfRunning_none (cfg ▸ none), ite_self]
  · rw [releaseClosure_eq origin acts, damper]
    dsimp only
    rw [if_pos ((fanRunning_iff here).mpr fan), demandStop_some (n := n)]
    · rfl
    · have kept : KeptBut closureBlocks s (s.waiting c origin) :=
        ((s.setClosure_kept c _).mono (by decide)).andThen (State.moveClosure_kept _ _ _ _ _ _) (by decide)
      rw [kept.closureCfg c, here]
  · rw [releaseClosure_eq origin acts, damper]
    dsimp only
    rw [if_neg (fun run => still ((fanRunning_iff here).mp run)), demandIfRunning_some (cfg ▸ here), line]
    split
    · next held =>
      refine if_neg ?_
      simpa using calm.resolve_left (not_not_intro held)
    · rfl
  · rw [releaseClosure_eq origin acts, damper]
    dsimp only
    rw [if_neg (fun run => still ((fanRunning_iff here).mp run)), demandIfRunning_some (cfg ▸ here), line, if_pos held,
      if_pos running]
  · unfold State.moveClosure
    dsimp only
    rw [if_neg moves, holdFor_eq]
    simp only [moving_iff]

/-! ### Limit inputs and timers -/

section
variable {limit : Limit} {active : Bool}

/-- A limit input taken up. -/
def State.limited (c : ClosureNo) (limit : Limit) (active : Bool) (s : State) : State :=
  s.setClosure c ((s.closure c).setLimit limit active)

theorem limited_closure : (s.limited c limit active).closure c = (s.closure c).setLimit limit active := by
  simp [State.limited]

theorem limited_state : ((s.limited c limit active).closure c).state = (s.closure c).state := by
  rw [limited_closure]
  cases limit <;> rfl

theorem limited_direction : ((s.limited c limit active).closure c).direction = (s.closure c).direction := by
  rw [limited_closure]
  cases limit <;> rfl

theorem limited_kept : KeptBut [.closures] s (s.limited c limit active) := s.setClosure_kept c _

/-- A change of input that leaves the position, or ends in no limit, does nothing more (R103). -/
theorem limitChange_passes (passes : ((s.closure c).setLimit limit active).position = (s.closure c).position ∨
    ((s.closure c).setLimit limit active).position = .mid) :
    exec (.closureLimitChange c limit active) s = .next (s.limited c limit active).settle := by
  show execClosureLimitChange c limit active s = _
  unfold execClosureLimitChange
  dsimp only
  rw [State.setClosure_closure_self]
  split
  · rfl
  · next moved =>
    rw [passes.resolve_left (Ne.symm moved)]
    rfl

theorem limitChange_closes (moved : ((s.closure c).setLimit limit active).position ≠ (s.closure c).position)
    (closed : ((s.closure c).setLimit limit active).position = .closed) :
    exec (.closureLimitChange c limit active) s = .next ((s.limited c limit active).closedReached c).settle := by
  show execClosureLimitChange c limit active s = _
  unfold execClosureLimitChange
  dsimp only
  rw [State.setClosure_closure_self, if_neg (Ne.symm moved), closed]
  rfl

theorem limitChange_opens (moved : ((s.closure c).setLimit limit active).position ≠ (s.closure c).position)
    (opened : ((s.closure c).setLimit limit active).position = .opened) :
    exec (.closureLimitChange c limit active) s = .next ((s.limited c limit active).openReached c).settle := by
  show execClosureLimitChange c limit active s = _
  unfold execClosureLimitChange
  dsimp only
  rw [State.setClosure_closure_self, if_neg (Ne.symm moved), opened]
  rfl

end

/-- A closed passage made READY starts no travel (R113). -/
theorem makeReady_closed (passage : (s.closureCfg c).kind = .passage) (closed : (s.closure c).position = .closed) :
    s.makeReady c = s.moveClosure c .ready .none .none (fun y => { y with travelTimer := none, waitTimer := none }) := by
  unfold State.makeReady
  dsimp only
  have still : (s.closure c).position ≠ .opened := by simp [closed]
  have stopped : ¬((s.closureCfg c).kind = .damper ∧ ¬(s.closure c).position = .opened) := by simp [passage]
  rw [if_neg stopped, if_neg still]

/-- A damper's wait ended (R109). -/
theorem endWait_waiting (waits : (s.closure c).state = .waiting) : s.endWait c =
    if (s.closure c).position = .closed then (s.startTravel c .none).shutClosure c else s.startTravel c .none := by
  rw [State.endWait, if_pos waits]
  dsimp only
  rw [startTravel_position]

/-- Settles O41: the limit inputs and timers of a closure act by its state. -/
theorem closureInputsAndTimersAct : Obligations.ClosureInputsAndTimersAct := by
  intro s c limit active x cfg y pos u goes to_ runs o
  have limited : x.setLimit limit active = y := by
    simp only [y]
    cases limit <;> rfl
  have at_u : u = s.limited c limit active := by rw [State.limited, limited]
  have state : (u.closure c).state = x.state := at_u ▸ limited_state
  have direction : (u.closure c).direction = x.direction := at_u ▸ limited_direction
  have kept : KeptBut [.closures] s u := at_u ▸ limited_kept
  have kind : (u.closureCfg c).kind = cfg.kind := congrArg ClosureSettings.kind (kept.closureCfg c)
  have position : (u.closure c).position = pos y := by
    rw [at_u, limited_closure, limited]
    rfl
  have closes (moved : pos y ≠ pos x) (closed : pos y = .closed) {v : State} (h : u.closedReached c = v) : goes v := by
    subst h
    rw [at_u]
    exact limitChange_closes (by rw [limited]; exact moved) (by rw [limited]; exact closed)
  have opens (moved : pos y ≠ pos x) (opened : pos y = .opened) {v : State} (h : u.openReached c = v) : goes v := by
    subst h
    rw [at_u]
    exact limitChange_opens (by rw [limited]; exact moved) (by rw [limited]; exact opened)
  have shutKept : KeptBut closureBlocks s (u.shutClosure c) := (kept.mono (by decide)).andThen (u.shutClosure_kept c) (by decide)
  refine ⟨fun passes => ?_, fun moved closed => ⟨fun held passage => ?_, fun held damper => ⟨fun n line running => ?_, fun rest => ?_⟩,
    fun moving => ?_, fun shut => ?_, fun stays => ?_⟩, fun moved opened => ⟨fun waits => ?_, fun shut => ?_, fun stays => ?_⟩, ?_,
    fun none => ?_, fun waits expired => ?_⟩
  · rw [← limited] at passes
    show exec (.closureLimitChange c limit active) s = .next u.settle
    rw [at_u]
    exact limitChange_passes passes
  · refine closes moved closed ?_
    unfold State.closedReached
    rw [state, held]
    dsimp only
    rw [kind, passage]
    exact makeReady_closed (kind.trans passage) (position.trans closed)
  · refine closes moved closed ?_
    unfold State.closedReached
    rw [state, held]
    dsimp only
    rw [kind, damper]
    dsimp only
    rw [demandIfRunning_some ((congrArg ClosureSettings.line (shutKept.closureCfg c)).trans line), shutKept.line n]
    exact if_pos running
  · refine closes moved closed ?_
    unfold State.closedReached
    rw [state, held]
    dsimp only
    rw [kind, damper]
    dsimp only
    cases line : cfg.line with
    | none => exact demandIfRunning_none ((congrArg ClosureSettings.line (shutKept.closureCfg c)).trans line)
    | some n =>
      rw [demandIfRunning_some ((congrArg ClosureSettings.line (shutKept.closureCfg c)).trans line), shutKept.line n]
      exact if_neg (rest n line)
  · refine closes moved closed ?_
    unfold State.closedReached
    rw [state, direction]
    obtain waits | falls | ⟨stuck, closing⟩ := moving
    · rw [waits]
      rfl
    · rw [falls]
      rfl
    · rw [stuck]
      exact if_pos closing
  · refine closes moved closed ?_
    unfold State.closedReached
    rw [state, shut]
  · refine closes moved closed ?_
    unfold State.closedReached
    rw [state, direction]
    obtain ready | ⟨stuck, other⟩ := stays
    · rw [ready]
    · rw [stuck]
      exact if_neg other
  · refine opens moved opened ?_
    unfold State.openReached
    rw [state, direction]
    obtain ready | ⟨stuck, opening⟩ := waits
    · rw [ready]
      rfl
    · rw [stuck]
      exact if_pos opening
  · refine opens moved opened ?_
    unfold State.openReached
    rw [state, shut]
  · refine opens moved opened ?_
    unfold State.openReached
    rw [state, direction]
    obtain held | waits | falls | ⟨stuck, other⟩ := stays
    · rw [held]
    · rw [waits]
    · rw [falls]
    · rw [stuck]
      exact if_neg other
  · show execTravelTimerExpired c s = _
    unfold execTravelTimerExpired
    dsimp only
    by_cases expired : s.expired x.travelTimer = true
    · rw [if_pos expired]
      cases x.state <;> simp only [expired, true_and, if_true, if_false, reduceCtorEq] <;> rfl
    · rw [if_neg expired, if_neg (fun both => expired both.1), if_neg (fun both => expired both.1)]
      rfl
  · exact if_neg fun both => none.elim (fun other => other both.1) (fun running => Bool.false_ne_true (running.symm.trans both.2))
  · have due : exec (.waitTimerExpired c) s = .next ((s.raiseFault o .damperForced).endWait c).settle := if_pos ⟨waits, expired⟩
    rw [due, endWait_waiting (by rw [State.raiseFault_closure]; exact waits), State.raiseFault_closure]
    have travels : (s.raiseFault o .damperForced).startTravel c .none = (s.raiseFault o .damperForced).moveClosure c .releasing
        .none .none (fun z => { z with
          travelTimer := some (s.uptime + BitVec.ofNat 32 (cfg.travelTime * 1000)), waitTimer := none }) := by
      unfold State.startTravel State.after
      rw [State.raiseFault_uptime, State.raiseFault_closureCfg]
    rw [travels]
    rfl

end Sys2Proof.Machine
end

