-- ==== Sys2Proof/Proofs/ClosureRequests.lean ====
section
/-! RELEASE-CLOSURE and RESET-CLOSURE (R113, R115, R116). -/

namespace Sys2Proof.Machine

set_option Elab.async false -- one declaration after another: the check bounds the threads waiting on one another

variable {s : State} {c : ClosureNo}

theorem triggers_iff {z : ZoneNo} : s.triggers c z = true ↔ zoneIn (s.closureCfg c).zones z = true ∧
    (if (s.closureCfg c).trigger = .fire then 3 else 2) ≤ (s.zone z).level.rank := by
  unfold State.triggers
  have rank : (s.closureCfg c).trigger.level.rank = if (s.closureCfg c).trigger = .fire then 3 else 2 := by
    cases (s.closureCfg c).trigger <;> rfl
  rw [Bool.and_eq_true, decide_eq_true_eq, rank]

theorem firstTrigger_eq_some_iff {z : ZoneNo} :
    s.firstTrigger c = some z ↔ s.triggers c z = true ∧ ∀ y < z, ¬s.triggers c y = true := by
  simp only [State.firstTrigger, firstOf_eq_some_iff, Bool.not_eq_true]

theorem position_opened {x : Closure} : x.position = .opened ↔ x.cshut = false ∧ x.copen = true := by
  unfold Closure.position
  cases x.cshut <;> cases x.copen <;> simp

/-- The faults of a closure cleared for its reset (R116). -/
def State.faultsCleared (c : ClosureNo) (s : State) : State :=
  ((s.clearFault (.closure c) .stuck).clearFault (.closure c) .openedWhileShut).clearFault (.closure c) .damperForced

theorem faultsCleared_frame : (s.faultsCleared c).closure = s.closure ∧ (s.faultsCleared c).closureCfg = s.closureCfg ∧
    (s.faultsCleared c).uptime = s.uptime := by
  refine ⟨funext fun x => ?_, funext fun x => ?_, ?_⟩ <;> simp [State.faultsCleared]

/-- What RESET-CLOSURE does with the closure, from the state before it (R113, R116). -/
theorem reopen_eq (opened : Prop) [Decidable opened] (at_ : (s.closure c).position = .opened ↔ opened) : s.reopen c =
    let v := s.faultsCleared c
    let r := (v.setClosure c { v.closure c with travelTimer := none }).moveClosure c .ready .none .none (fun y => { y with
      travelTimer := if (s.closureCfg c).kind = .damper ∧ ¬opened
        then some (s.uptime + BitVec.ofNat 32 ((s.closureCfg c).travelTime * 1000)) else none
      waitTimer := none })
    if opened then r.moveClosure c .held .none .none (fun y => { y with travelTimer := none, waitTimer := none }) else r := by
  obtain ⟨closure, cfg, clock⟩ := faultsCleared_frame (s := s) (c := c)
  show ((s.faultsCleared c).setClosure c { (s.faultsCleared c).closure c with travelTimer := none }).makeReady c = _
  unfold State.makeReady State.after
  dsimp only
  rw [State.setClosure_closure_self, State.setClosure_closureCfg, State.setClosure_uptime]
  rw [show Closure.position { (s.faultsCleared c).closure c with travelTimer := none } = (s.closure c).position from
    congrArg (fun f : ClosureNo → Closure => (f c).position) closure]
  rw [cfg, clock]
  simp only [at_]
  rfl

/-- Settles O42: RELEASE-CLOSURE and RESET-CLOSURE. -/
theorem closureRequestsReleaseAndReset : Obligations.ClosureRequestsReleaseAndReset := by
  intro s k c bad
  dsimp only
  refine ⟨fun outside => ⟨fun taken => ?_, fun taken => ?_⟩, fun taken => ⟨fun entry => ?_, fun free => ?_⟩,
    fun taken => ⟨fun open_ moves => ?_, fun locked => ⟨fun z at_ first => ?_, fun clear => ?_⟩⟩⟩
  · exact request_refused taken (r := .badObject) (d := 0) (by simp only [State.releaseReq, named_none [] outside])
  · exact request_refused taken (r := .badObject) (d := 0) (by simp only [State.resetClosureReq, named_none [] outside])
  · refine request_refused taken (r := .disabled) (d := 0) ?_
    simp only [State.releaseReq, named_first c]
    exact if_pos entry
  · refine request_replied taken ?_
    simp only [State.releaseReq, named_first c]
    exact if_neg (show ¬s.hasEntry (.closure c) = true by simp [free])
  · refine (request_refused taken (r := .state) (d := (s.closure c).state.code.toNat) ?_ (BitVec.isLt _)).trans ?_
    · simp only [State.resetClosureReq, named_first c]
      exact if_pos (not_or.mpr ⟨open_, moves⟩)
    · rw [BitVec.ofNat_toNat, BitVec.setWidth_eq]
      rfl
  · have found : (s.withLink k).firstTrigger c = some z :=
      firstTrigger_eq_some_iff.mpr ⟨triggers_iff.mpr at_, fun y lower on => first y lower (triggers_iff.mp on)⟩
    refine request_refused taken (r := .zoneActive) ?_ (number_small z)
    simp only [State.resetClosureReq, named_first c, found]
    exact if_neg (not_not_intro locked)
  · have none : (s.withLink k).firstTrigger c = none :=
      firstOf_eq_none_iff.mpr fun z => Bool.not_eq_true _ ▸ fun on => clear z (triggers_iff.mp on)
    have answer : (s.withLink k).resetClosureReq (byteAt [BitVec.ofNat 8 (number c)] 0) =
        ((s.withLink k).reopen c, .reply ((((s.withLink k).reopen c).closure c).state.code ::
          enc16 ((s.withLink k).heldAmong (.closure c) closureFaults).toNat)) := by
      simp only [State.resetClosureReq, named_first c, none]
      exact if_neg (not_not_intro locked)
    refine (request_replied taken answer).trans ?_
    rw [heldAmong_eq, enc16_toNat, reopen_eq _ position_opened]
    rfl

end Sys2Proof.Machine
end

