-- ==== Sys2Proof/Proofs/SectorOps.lean ====
section
/-! How a sector follows the causes and how it plays (R123 to R135). -/

namespace Sys2Proof.Machine

set_option Elab.async false -- one declaration after another: the check bounds the threads waiting on one another

variable {s : State} {n : SectorNo}

/-! ### Demand -/

theorem standsFor_iff {r : Cause} : s.standsFor n r = true ↔
    zoneIn (s.sectorCfg n).zones r.zone = true ∧ (r.level = .alert ∨ r.level = .fire) := by
  simp [State.standsFor]

theorem countsFor_iff {r : Cause} : s.countsFor n r = true ↔
    (zoneIn (s.sectorCfg n).zones r.zone = true ∧ (r.level = .alert ∨ r.level = .fire)) ∧
      r.silenced.getLsbD n.val = false := by
  rw [State.countsFor, Bool.and_eq_true, standsFor_iff, Bool.not_eq_true']
  rfl

/-- The sector's demand by what counts for it (R124). -/
theorem demandOf_eq (counts : Cause → Prop) (iff : ∀ r, s.countsFor n r = true ↔ counts r)
    [Decidable (∃ r ∈ s.causes, counts r ∧ r.level = .fire)] [Decidable (∃ r ∈ s.causes, counts r)] :
    s.demandOf n = if ∃ r ∈ s.causes, counts r ∧ r.level = .fire then .fire
      else if ∃ r ∈ s.causes, counts r then .alert else .none := by
  unfold State.demandOf
  simp only [List.any_eq_true, Bool.and_eq_true, iff, beq_iff_eq]

theorem restState_eq (stands : Cause → Prop) (iff : ∀ r, s.standsFor n r = true ↔ stands r)
    [Decidable (∃ r ∈ s.causes, stands r)] :
    s.restState n = if ∃ r ∈ s.causes, stands r then .silenced else .quiet := by
  unfold State.restState
  simp only [List.any_eq_true, iff]

/-! ### Moves -/

theorem setSector_setSector (x y : Sector) : (s.setSector n x).setSector n y = s.setSector n y := by
  simp [State.setSector]

theorem startCycle_eq : s.startCycle n = s.setSector n (s.struck n (s.sector n)) := by
  have put : s.startCycle n = s.setSector n ((s.startCycle n).sector n) := by
    unfold State.startCycle State.refreshSiren
    simp only [setSector_setSector, State.setSector_sector_self]
  rw [put, State.startCycle_sector_self]

theorem patternFor_eq (cfg : SectorSettings) {d : Demand} (level : d ≠ .none) :
    cfg.patternFor d = if d = .fire then cfg.firePattern else cfg.alertPattern := by
  cases d with
  | none => exact absurd rfl level
  | alert => rfl
  | fire => rfl

/-- A sector that stops playing falls silent (R126, R129). -/
theorem stopSector_eq (st : SectorState) : s.stopSector n st =
    (s.setSector n { (s.sector n).stopped st with siren := false }).noteSector n (s.sector n) := by
  unfold State.stopSector State.refreshSiren
  dsimp only
  rw [setSector_setSector, State.setSector_sector_self]
  have silent : (s.setSector n ((s.sector n).stopped st)).sirenDue n = false := by
    simp [State.sirenDue, Sector.stopped]
  exact congrArg (fun b => (s.setSector n { (s.sector n).stopped st with siren := b }).noteSector n (s.sector n)) silent

theorem rank_lt_iff {p d : Demand} (some : d ≠ .none) : p.rank < d.rank ↔ p = .none ∨ (p = .alert ∧ d = .fire) := by
  cases p <;> cases d <;> simp_all [Demand.rank]

/-- Settles O43: a sector's demand follows its causes, its rise is taken at once, and its fall by state and cycle. -/
theorem sectorsFollowTheCauses : Obligations.SectorsFollowTheCauses := by
  intro s n d x cfg stands counts demand rest noted pattern rise t
  have demanded : s.demandOf n = d := (demandOf_eq counts fun r => countsFor_iff).trans demand.symm
  have rested : s.restState n = rest := restState_eq stands fun r => standsFor_iff
  have rises (level : d ≠ .none) : s.riseSector n d = rise := by
    have of_pattern : (s.sectorCfg n).patternFor d = pattern :=
       patternFor_eq _ level
    unfold State.riseSector
    rw [of_pattern]
    rfl
  have derives : t = s.deriveSector n := rfl
  clear_value t
  subst derives
  unfold State.deriveSector
  simp only [demanded, rested]
  refine ⟨fun other level => ?_, fun test none => ?_, fun calm none => ?_, fun sounding => ⟨fun none => ?_,
    fun level => ⟨fun above => ?_, fun same => ?_, fun playing alert => ⟨fun runs => ?_, fun idle => ?_⟩⟩⟩⟩
  · cases state : x.state with
    | sounding => exact absurd state other
    | test | quiet | silenced =>
      simp only [if_neg level]
      exact rises level
  · rw [show (s.sector n).state = _ from test]
    exact if_pos none
  · obtain calm | calm := calm <;> rw [show (s.sector n).state = _ from calm]
    all_goals
      subst none
      exact if_pos rfl
  · rw [show (s.sector n).state = _ from sounding]
    subst none
    exact (if_pos rfl).trans (stopSector_eq _)
  · rw [show (s.sector n).state = _ from sounding]
    exact (if_neg level).trans ((if_pos ((rank_lt_iff level).mpr above)).trans (rises level))
  · rw [show (s.sector n).state = _ from sounding]
    refine (if_neg level).trans ((if_neg ?_).trans (if_pos same.symm))
    simp [show (s.sector n).playing = d from same]
  · rw [show (s.sector n).state = _ from sounding]
    have below : ¬(s.sector n).playing.rank < d.rank := by
      rw [show (s.sector n).playing = .fire from playing, alert]
      decide
    refine (if_neg level).trans ((if_neg below).trans ((if_neg ?_).trans (if_pos (Option.isSome_iff_ne_none.mpr runs))))
    rw [show (s.sector n).playing = .fire from playing, alert]
    decide
  · rw [show (s.sector n).state = _ from sounding]
    have below : ¬(s.sector n).playing.rank < d.rank := by
      rw [show (s.sector n).playing = .fire from playing, alert]
      decide
    have other : ¬d = (s.sector n).playing := by
      rw [show (s.sector n).playing = .fire from playing, alert]
      decide
    refine (if_neg level).trans ((if_neg below).trans ((if_neg other).trans ((if_neg ?_).trans ?_)))
    · simp [show (s.sector n).cycle = .none from idle]
    · subst alert
      unfold State.switchSector
      dsimp only
      rw [setSector_setSector, State.setSector_sector_self]
      rfl

/-! ### Cycles -/

/-- The phases of a pattern, step by step (R125). -/
theorem phases_eq (p : Pattern) : p.phases =
    (((List.finRange 4).take p.stepCount).flatMap fun i =>
      [(⟨i.val + 1, true, (p.onTimes[i.val]) * 10⟩ : Phase), ⟨i.val + 1, false, (p.offTimes[i.val]) * 10⟩]).filter
        fun q => decide (q.ms ≠ 0) := by
  have steps : [(1, p.onTimes[0], p.offTimes[0]), (2, p.onTimes[1], p.offTimes[1]), (3, p.onTimes[2], p.offTimes[2]),
      (4, p.onTimes[3], p.offTimes[3])] = (List.finRange 4).map fun i => (i.val + 1, p.onTimes[i.val], p.offTimes[i.val]) := rfl
  unfold Pattern.phases
  rw [steps, ← List.map_take, List.flatMap_map]
  exact List.filter_congr fun q _ => by by_cases zero : q.ms = 0 <;> simp [zero]

theorem phasesLength_eq (l : List Phase) : phasesLength l = (l.map (·.ms)).sum := by
  rw [List.sum_eq_foldl, List.foldl_map]
  rfl

/-- What a phase sounds (R126). -/
theorem sirenFor_phase {x : Sector} {c : Cycle} (cycle : x.cycle = some c) : s.sirenFor n x =
    (decide (x.state = .sounding ∨ x.state = .test) && c.phase.on && !s.disabled (.sector n)) := by
  unfold State.sirenFor
  rw [cycle]
  cases x.state <;> rfl

theorem sirenFor_none {x : Sector} (cycle : x.cycle = none) : s.sirenFor n x = false := by
  unfold State.sirenFor
  rw [cycle]
  simp

/-- A sector with a cycle of some phases started, and none from no phases (R125, R126). -/
def State.cycled (s : State) (n : SectorNo) (l : List Phase) : Sector :=
  match l with
  | [] => { s.sector n with cycle := none, siren := false }
  | p :: rest => { s.sector n with
    cycle := some ⟨p, rest, s.uptime, s.uptime + BitVec.ofNat 32 ((l.map (·.ms)).sum), s.uptime + BitVec.ofNat 32 p.ms⟩
    siren := decide ((s.sector n).state = .sounding ∨ (s.sector n).state = .test) && p.on && !s.disabled (.sector n) }

theorem startCycle_phases {l : List Phase} (phases : s.cycleFor (s.sector n).pattern = cycleOf s l) :
    s.startCycle n = s.setSector n (s.cycled n l) := by
  rw [startCycle_eq, State.struck, phases]
  unfold State.sirened
  cases l with
  | nil =>
    rw [sirenFor_none rfl]
    rfl
  | cons p rest =>
    rw [sirenFor_phase rfl, cycleOf, phasesLength_eq]
    rfl

theorem nextPhase_phase {c : Cycle} {p : Phase} {rest : List Phase} (cycle : (s.sector n).cycle = some c)
    (more : c.rest = p :: rest) : s.nextPhase n = s.setSector n { s.sector n with
      cycle := some ⟨p, rest, c.start, c.stop, s.uptime + BitVec.ofNat 32 p.ms⟩
      siren := decide ((s.sector n).state = .sounding ∨ (s.sector n).state = .test) && p.on &&
        !s.disabled (.sector n) } := by
  unfold State.nextPhase
  rw [cycle]
  dsimp only
  rw [more]
  show (s.setSector n _).setSector n ((s.setSector n _).sirened n ((s.setSector n _).sector n)) = _
  rw [setSector_setSector, State.setSector_sector_self, State.setSector_sirened]
  unfold State.sirened
  rw [sirenFor_phase rfl]
  rfl

theorem phaseDue_none (idle : (s.sector n).cycle = none) : s.phaseDue n = false := by
  unfold State.phaseDue
  rw [idle]

theorem phaseDue_some {c : Cycle} (cycle : (s.sector n).cycle = some c) : s.phaseDue n = reached s.uptime c.phaseStop := by
  unfold State.phaseDue
  rw [cycle]

theorem execPhaseEnd_idle (idle : s.phaseDue n = false) : exec (.phaseEnd n) s = .next s.settle :=
  if_neg (by simp [idle])

theorem execPhaseEnd_due (due : s.phaseDue n = true) : exec (.phaseEnd n) s = .next (s.nextPhase n).settle :=
  if_pos due

/-- The switch of the playing level is recorded where the level is another (R127, R129). -/
theorem switchSector_eq (level : Demand) : s.switchSector n level =
    let u := (s.setSector n { s.sector n with
      playing := level, pendingLevel := .none, pattern := (s.sectorCfg n).patternFor level }).startCycle n
    if (s.sector n).playing = level then u else u.objEvent .notice .sector 0x47 (.sector n)
      ⟨(s.sector n).state.code, (s.sector n).state.code, (s.sector n).demand.code, level.code,
        byteOf (numberOrZero ((s.sectorCfg n).patternFor level))⟩ := by
  unfold State.switchSector State.noteSector
  dsimp only
  rw [State.startCycle_sector_self, State.setSector_sector_self, State.setSector_struck]
  simp only [State.struck, State.sirened, true_and]

/-- Settles O44: a sector's cycle runs through its phases, and goes on with what is to be played next. -/
theorem cyclesRunThroughTheirPhases : Obligations.CyclesRunThroughTheirPhases := by
  intro s n x cfg sounds started again
  refine ⟨fun none => ?_, fun p pattern => ?_, fun none => execPhaseEnd_idle (phaseDue_none none),
    fun c cycle => ⟨fun early => ?_, fun ended => ⟨fun p rest more => ?_, fun last => ⟨fun test => ?_, fun sounding => ?_⟩⟩⟩⟩
  · exact startCycle_phases (l := []) (by rw [show (s.sector n).pattern = .none from none]; rfl)
  · refine (startCycle_phases (l := (s.patternCfg p).phases) (by rw [show (s.sector n).pattern = _ from pattern]; rfl)).trans ?_
    rw [phases_eq]
    rfl
  · exact execPhaseEnd_idle (by rw [phaseDue_some cycle, early])
  · rw [execPhaseEnd_due (by rw [phaseDue_some cycle, ended]), nextPhase_phase cycle more]
  · have next : s.nextPhase n = s.startCycle n := by
      unfold State.nextPhase
      rw [show (s.sector n).cycle = _ from cycle]
      dsimp only
      rw [last]
      exact if_neg test
    rw [execPhaseEnd_due (by rw [phaseDue_some cycle, ended]), next]
  · have next : s.nextPhase n = s.switchSector n (if x.pendingLevel = .none then x.playing else x.pendingLevel) := by
      unfold State.nextPhase
      rw [show (s.sector n).cycle = _ from cycle]
      dsimp only
      rw [last]
      refine (if_pos sounding).trans ?_
      exact (apply_ite (fun d => s.switchSector n d) _ _ _).symm
    rw [execPhaseEnd_due (by rw [phaseDue_some cycle, ended]), next]
    generalize (if x.pendingLevel = .none then x.playing else x.pendingLevel) = level
    rw [switchSector_eq]
    cases level <;> rfl

end Sys2Proof.Machine
end

