-- ==== Sys2Proof/Proofs/SectorRequests.lean ====
section
/-! SILENCE-SECTOR, TEST-SECTOR and the end of a test (R130, R132, R133). -/

namespace Sys2Proof.Machine

set_option Elab.async false -- one declaration after another: the check bounds the threads waiting on one another

variable {s : State} {n : SectorNo}

/-- A sector that stops, recorded and reported as a change of its state (R127, R129). -/
theorem stopSector_moves {st : SectorState} (moves : (s.sector n).state ≠ st) : s.stopSector n st =
    (s.setSector n { (s.sector n).stopped st with siren := false }).objEvent .notice .sector 0x47 (.sector n)
      ⟨(s.sector n).state.code, st.code, 0xFF, 0xFF, 0⟩ := by
  rw [stopSector_eq, State.noteSector]
  dsimp only
  rw [State.setSector_sector_self, if_neg (fun same => moves same.1)]
  rfl

/-- A test begun by a QUIET sector, recorded and reported (R132). -/
theorem testSector_quiet (p : PatternNo) (ms : Nat) (quiet : (s.sector n).state = .quiet) : s.testSector n p ms =
    ((s.setSector n { s.sector n with
      state := .test, testEnd := some (s.uptime + BitVec.ofNat 32 ms), pattern := some p, playing := .none }).startCycle
        n).objEvent .notice .sector 0x47 (.sector n) ⟨0, 3, (s.sector n).demand.code, 0xFF, BitVec.ofNat 8 (number p)⟩ := by
  have small := byteOf_number (by decide) p
  unfold State.testSector State.noteSector
  dsimp only
  rw [State.startCycle_sector_self, State.setSector_sector_self, State.setSector_struck]
  simp only [State.struck, State.sirened, quiet]
  rw [if_neg (by simp), ← small]
  rfl

section
variable {m : Nat} (named : numbered 6 m = some n)
include named

theorem silenceReq_still (still : (s.sector n).state ≠ .sounding) :
    s.silenceReq m = refuse s .state (s.sector n).state.code.toNat := by
  simp only [State.silenceReq, named]
  exact if_pos still

variable {since : Instant} (sounding : (s.sector n).state = .sounding) (from_ : (s.sector n).soundingSince = some since)
include sounding from_

theorem silenceReq_early (early : (s.uptime - since).toNat < (s.sectorCfg n).silenceInhibit * 1000) : s.silenceReq m =
    refuse s .tooEarly ((s.sectorCfg n).silenceInhibit * 1000 - (s.uptime - since).toNat) := by
  simp only [State.silenceReq, named, from_]
  exact (if_neg (not_not_intro sounding)).trans (if_pos early)

theorem silenceReq_due (due : (s.sectorCfg n).silenceInhibit * 1000 ≤ (s.uptime - since).toNat) : s.silenceReq m =
    (({ s with causes := s.causes.map fun r => if s.countsFor n r then { r with silenced := addSector r.silenced n } else r
      } : State).stopSector n .silenced, .reply [byteOf (s.causes.filter (s.countsFor n)).length]) := by
  simp only [State.silenceReq, named, from_]
  exact (if_neg (not_not_intro sounding)).trans (if_neg (Nat.not_lt.mpr due))

end

section
variable {m q : Nat} {p : PatternNo} (seconds : Nat) (named : numbered 6 m = some n) (pattern : numbered 8 q = some p)
include named pattern

theorem testReq_disabled (entry : s.hasEntry (.sector n) = true) : s.testReq m q seconds = refuse s .disabled 0 := by
  simp only [State.testReq, named, pattern]
  exact if_pos entry

theorem testReq_busy (free : s.hasEntry (.sector n) = false) (busy : (s.sector n).state ≠ .quiet) :
    s.testReq m q seconds = refuse s .state (s.sector n).state.code.toNat := by
  simp only [State.testReq, named, pattern]
  exact (if_neg (by simp [free])).trans (if_pos busy)

theorem testReq_quiet (free : s.hasEntry (.sector n) = false) (quiet : (s.sector n).state = .quiet) :
    s.testReq m q seconds =
      (s.testSector n p (clamp 1 60 seconds * 1000), .reply (enc32 (BitVec.ofNat 32 (clamp 1 60 seconds * 1000)))) := by
  simp only [State.testReq, named, pattern]
  exact (if_neg (by simp [free])).trans (if_neg (not_not_intro quiet))

end

theorem testReq_outside {m q : Nat} (seconds : Nat) (outside : numbered 6 m = none ∨ numbered 8 q = none) :
    s.testReq m q seconds = refuse s .badObject 0 := by
  unfold State.testReq
  obtain none | none := outside
  · rw [none]
  · rw [none]
    cases numbered 6 m <;> rfl

/-- Settles O45: SILENCE-SECTOR, TEST-SECTOR and the end of a test. -/
theorem sectorsAreSilencedAndTested : Obligations.SectorsAreSilencedAndTested := by
  intro s k n p seconds sector pattern
  dsimp only
  have named : numbered 6 (byteAt [BitVec.ofNat 8 (number n), BitVec.ofNat 8 (number p), seconds] 0) = some n :=
    named_first n _
  have chosen : numbered 8 (byteAt [BitVec.ofNat 8 (number n), BitVec.ofNat 8 (number p), seconds] 1) = some p :=
    named_first p [seconds]
  have clamped : clamp 1 60 seconds.toNat = max 1 (min seconds.toNat 60) := clamp_eq_max_min (by decide) _
  refine ⟨fun outside taken => ?_, fun outside taken => ?_, fun taken => ⟨fun still => ?_, fun sounding since from_ =>
    ⟨fun early => ?_, fun due => ?_⟩⟩, fun taken => ⟨fun entry => ?_, fun free => ⟨fun busy => ?_, fun quiet => ?_⟩⟩,
    fun none => ?_, fun test ended => ?_⟩
  · exact request_refused taken (r := .badObject) (d := 0) (by simp only [State.silenceReq, named_none [] outside])
  · refine request_refused taken (r := .badObject) (d := 0) (testReq_outside _ ?_)
    obtain outside | outside | outside | outside := outside
    · exact .inl (named_none _ (.inl outside))
    · exact .inl (named_none _ (.inr outside))
    · exact .inr (named_none [seconds] (.inl outside))
    · exact .inr (named_none [seconds] (.inr outside))
  · refine (request_refused taken (silenceReq_still (named_first n []) still) (BitVec.isLt _)).trans ?_
    rw [BitVec.ofNat_toNat, BitVec.setWidth_eq]
    rfl
  · exact request_refused_with taken (silenceReq_early (named_first n []) (by exact sounding) (by exact from_) (by exact early))
  · refine (request_replied taken (silenceReq_due (named_first n []) (by exact sounding) (by exact from_) (by exact due))).trans ?_
    have moves : (s.sector n).state ≠ .silenced := by simp [sounding]
    rw [stopSector_moves (by exact moves)]
    rfl
  · exact request_refused taken (testReq_disabled _ named chosen (by exact entry))
  · refine (request_refused taken (testReq_busy _ named chosen (by exact free) (by exact busy)) (BitVec.isLt _)).trans ?_
    rw [BitVec.ofNat_toNat, BitVec.setWidth_eq]
    rfl
  · refine (request_replied taken (testReq_quiet _ named chosen (by exact free) (by exact quiet))).trans ?_
    rw [testSector_quiet p _ (by exact quiet)]
    rw [show byteAt [BitVec.ofNat 8 (number n), BitVec.ofNat 8 (number p), seconds] 2 = seconds.toNat from rfl, clamped]
    rfl
  · exact if_neg fun both => none.elim (fun other => other both.1) (fun running => Bool.false_ne_true (running.symm.trans both.2))
  · have due : exec (.testEnd n) s = .next (s.stopSector n (s.restState n)).settle := if_pos ⟨test, ended⟩
    rw [due, restState_eq (fun r => s.standsFor n r = true) (fun _ => Iff.rfl), stopSector_moves]
    · rfl
    · rw [test]
      split <;> simp

end Sys2Proof.Machine
end

