-- ==== Sys2Proof/Proofs/DisableRequests.lean ====
section
/-! DISABLE-PREPARE and DISABLE-CONFIRM (R141 to R144). -/

namespace Sys2Proof.Machine

set_option Elab.async false -- one declaration after another: the check bounds the threads waiting on one another

variable {s : State} {t : Target} {k : Link}

/-! ### Targets and entries -/

theorem targetOf_none {kind num : Nat}
    (none : ∀ o : Target, ¬((targetObj o).kindCode.toNat = kind ∧ (targetObj o).num = num)) : targetOf kind num = Option.none := by
  cases found : targetOf kind num with
  | none => rfl
  | some o => exact absurd (targetOf_some found) (none o)

theorem target_num_le (t : Target) : (targetObj t).num ≤ 24 := (targetObj t).num_le

/-- The target a request names with its first two bytes. -/
theorem named_target (t : Target) (p : Payload) :
    targetOf (byteAt ((targetObj t).kindCode :: BitVec.ofNat 8 (targetObj t).num :: p) 0)
      (byteAt ((targetObj t).kindCode :: BitVec.ofNat 8 (targetObj t).num :: p) 1) = some t := by
  have small : (BitVec.ofNat 8 (targetObj t).num).toNat = (targetObj t).num := by
    have := target_num_le t
    rw [BitVec.toNat_ofNat]
    omega
  show targetOf (targetObj t).kindCode.toNat (BitVec.ofNat 8 (targetObj t).num).toNat = _
  rw [small, targetOf_self]

theorem not_named_target {kind num : Byte} (p : Payload)
    (none : ∀ o : Target, ¬((targetObj o).kindCode = kind ∧ (targetObj o).num = num.toNat)) :
    targetOf (byteAt (kind :: num :: p) 0) (byteAt (kind :: num :: p) 1) = .none :=
  targetOf_none fun o named => none o ⟨BitVec.eq_of_toNat_eq named.1, named.2⟩

theorem entry_code (e : Entry) : e.code = if e.activated = none then 1 else if e.limit = 0 then 2 else 3 := by
  unfold Entry.code Entry.active
  cases e.activated <;> simp

theorem hasEntry_of_some {e : Entry} (held : s.entryOf t = some e) : s.hasEntry t = true := by
  rw [State.hasEntry, held]
  rfl

theorem hasEntry_of_none (free : s.entryOf t = none) : s.hasEntry t = false := by
  rw [State.hasEntry, free]
  rfl

/-! ### DISABLE-PREPARE -/

/-- A break in the sequence: the prepare goes, the latch is set, and both are recorded (R144). -/
def State.broken (s : State) (t : Target) (detail : Nat) : State :=
  ({ s with dis := { s.dis with prepare := none, latch := true } }).disEvent .sequenceError (some t)
    (entryCode (s.entryOf t)) (entryLimit (s.entryOf t)) (byteOf (detail + if s.dis.prepare.isSome then 128 else 0))

theorem sequenceError_eq (detail : Nat) : s.sequenceError t detail = (s.broken t detail, .refuse .sequence detail) := rfl

section
variable {kind num : Nat} (named : targetOf kind num = some t)
include named

theorem prepareReq_away (limit : Nat) (away : s.service = false) : s.prepareReq kind num limit = refuse s .notService 0 := by
  simp only [State.prepareReq, named]
  exact if_pos away

variable (service : s.service = true)
include service

theorem prepareReq_latched (limit : Nat) (latch : s.dis.latch = true) :
    s.prepareReq kind num limit = refuse s .sequence 1 := by
  simp only [State.prepareReq, named]
  exact (if_neg (by simp [service])).trans (if_pos latch)

variable (clear : s.dis.latch = false)
include clear

theorem prepareReq_open (limit : Nat) : s.prepareReq kind num limit =
    if s.dis.prepare.isSome then s.sequenceError t 2
    else if s.hasEntry t then refuse s .already (entryCode (s.entryOf t)).toNat
    else if Config.tableCapacity ≤ s.dis.entries.length then refuse s .full 0
    else (({ s with dis := { s.dis with prepare := some ⟨t, min limit 1440, s.uptime, s.after 10000⟩ } }).disEvent .prepared
      (some t) 0 (min limit 1440) 0, .reply (enc16 (min limit 1440) ++ enc32 10000)) := by
  simp only [State.prepareReq, named]
  exact (if_neg (by simp [service])).trans (if_neg (by simp [clear]))

end

/-! ### DISABLE-CONFIRM -/

/-- A target's owner has work in hand: a station with windows, a closure released but not yet at rest (R143). -/
theorem inHand_iff (t : Target) : s.inHand t = true ↔ match t with
    | .station n => (s.station n).windows ≠ []
    | .closure c => (s.closure c).state = .waiting ∨ (s.closure c).state = .releasing
    | _ => False := by
  cases t <;> simp [State.inHand, ClosureState.moving]

section
variable {kind num : Nat} (named : targetOf kind num = some t)
include named

theorem confirmReq_away (away : s.service = false) : s.confirmReq kind num = refuse s .notService 0 := by
  simp only [State.confirmReq, named]
  exact if_pos away

variable (service : s.service = true)
include service

theorem confirmReq_latched (latch : s.dis.latch = true) : s.confirmReq kind num = refuse s .sequence 1 := by
  simp only [State.confirmReq, named]
  exact (if_neg (by simp [service])).trans (if_pos latch)

variable (clear : s.dis.latch = false)
include clear

theorem confirmReq_open : s.confirmReq kind num =
    match s.dis.prepare with
    | none => s.sequenceError t 3
    | some p => if p.target = t then s.createEntry p else s.sequenceError t 4 := by
  simp only [State.confirmReq, named]
  exact (if_neg (by simp [service])).trans (if_neg (by simp [clear]))

end

theorem createEntry_working {p : Prepare} (working : s.inHand p.target = true) : s.createEntry p =
    (({ s with dis := { s.dis with prepare := none, entries := s.dis.entries ++ [(⟨p.target, s.uptime, p.limit, none, none⟩ : Entry)] }
      }).disEvent .created (some p.target) 1 p.limit 0, .reply [1, 0, 0, 0, 0]) := by
  have entry : s.newEntry p = ⟨p.target, s.uptime, p.limit, none, none⟩ := if_pos working
  have zero : enc32 (BitVec.ofNat 32 0) = [0, 0, 0, 0] := by decide
  unfold State.createEntry
  rw [entry]
  simp only [Entry.code, Entry.active, Option.isSome_none, Bool.false_eq_true, false_and, if_false, zero]

/-- The state with the entry of a confirmation created ACTIVE, and recorded (R143). -/
def State.activeCreated (s : State) (p : Prepare) : State :=
  (({ s with dis := { s.dis with prepare := none, entries := s.dis.entries ++ [(⟨p.target, s.uptime, p.limit, some s.uptime,
      if p.limit = 0 then none else some (s.uptime + BitVec.ofNat 32 (p.limit * 60000))⟩ : Entry)] } }).disEvent .created
    (some p.target) (if p.limit = 0 then 2 else 3) p.limit 0).deriveFault

theorem createEntry_idle {p : Prepare} (idle : s.inHand p.target = false) : s.createEntry p =
    ((s.activeCreated p).entryActive p.target,
      .reply ((if p.limit = 0 then 2 else 3) :: enc32 (BitVec.ofNat 32 (p.limit * 60000)))) := by
  have entry : s.newEntry p = Entry.activate ⟨p.target, s.uptime, p.limit, none, none⟩ s.uptime := if_neg (by simp [idle])
  have lasts : (if p.limit ≠ 0 then p.limit * 60000 else 0) = p.limit * 60000 := by
    split
    · rfl
    · next zero => rw [not_not.mp zero]
  unfold State.createEntry
  rw [entry]
  unfold Entry.activate Entry.code Entry.active State.activeCreated
  simp only [Option.isSome_some, if_true, true_and, lasts]

theorem activeCreated_causeOf (p : Prepare) (src : Source) : (s.activeCreated p).causeOf src = s.causeOf src := by
  simp only [State.activeCreated, State.disEvent, State.deriveFault_causeOf, State.objEvent_causeOf]
  rfl

/-- The effects of an entry created ACTIVE (R146); a fire input's cause goes unless it is latched (R89). -/
theorem activeCreated_entryActive (p : Prepare) (t : Target) : (s.activeCreated p).entryActive t =
    match t with
    | .detector d => (((s.activeCreated p).dropCandidate d 3).removeCause (.detector d)).judgeBlind
    | .fireInput f =>
      (match s.causeOf (.fireInput f) with
        | none => s.activeCreated p
        | some r => if r.latched then s.activeCreated p else (s.activeCreated p).removeCause (.fireInput f))
    | .sector n => (s.activeCreated p).refreshSiren n
    | _ => s.activeCreated p := by
  cases t with
  | fireInput f =>
    unfold State.entryActive State.removeUnlatched
    dsimp only
    rw [activeCreated_causeOf] <;> rfl
  | detector d => rfl
  | station n => rfl
  | closure c => rfl
  | sector n => rfl

/-- Taken and refused by its owner, which has changed the state (R144). -/
theorem request_broken {kind : Byte} {p : Payload} {owner : State → State × Answer} {v : State} {r : Reason} {d : Nat}
    (taken : s.link.claim (.request kind p) = some k) (answer : owner (s.withLink k) = (v, .refuse r d))
    (small : d < 256 := by omega) (len : p.length = (requestLength kind).getD 0 := by rfl) :
    request kind p owner s = .next (v.answered ⟨0xFF, [kind, r.code, 0, 0, 0, BitVec.ofNat 8 d]⟩) := by
  rw [request_claimed taken len, answer, ← refusedFrame_of_lt _ _ small]
  rfl

/-- Settles O46: a disablement is prepared and confirmed, its checks in order. -/
theorem disablingTakesPrepareThenConfirm : Obligations.DisablingTakesPrepareThenConfirm := by
  intro s k t kind num hi lo u tk tn refused noted broken
  have breaks (d : Nat) (b : Byte) (same : ∀ lost : Bool, byteOf (d + if lost then 128 else 0) = b + if lost then 128 else 0) :
      u.broken t d = broken b := by
    simp only [broken, noted, u]
    unfold State.broken State.disEvent
    rw [show (s.withLink k).entryOf t = s.entryOf t from rfl]
    cases held : s.entryOf t with
    | none =>
      dsimp only
      rw [same]
      rfl
    | some e =>
      dsimp only
      rw [same, entryCode, entry_code]
      rfl
  refine ⟨fun unnamed => ⟨fun taken => ?_, fun taken => ?_⟩, fun taken => ⟨fun away => ?_, fun service latch => ?_,
    fun service clear => ⟨fun pending => ?_, fun idle => ⟨fun e held => ?_, fun free full => ?_, fun free room => ?_⟩⟩⟩,
    fun taken => ⟨fun away => ?_, fun service latch => ?_, fun service clear => ⟨fun none => ?_, fun p pending other => ?_,
      fun p pending same => ⟨fun working => ?_, fun idle => ?_⟩⟩⟩⟩
  · exact request_refused taken (r := .badObject) (d := 0) (by simp only [State.prepareReq, not_named_target [hi, lo] unnamed])
  · exact request_refused taken (r := .badObject) (d := 0) (by simp only [State.confirmReq, not_named_target [] unnamed])
  · exact request_refused taken (prepareReq_away (named_target t [hi, lo]) _ away)
  · exact request_refused taken (prepareReq_latched (named_target t [hi, lo]) (by exact service) _ latch)
  · have answer := prepareReq_open (s := u) (named_target t [hi, lo]) (by exact service) (by exact clear)
      (word16At [tk, tn, hi, lo] 2)
    rw [if_pos (by exact Option.isSome_iff_ne_none.mpr pending), sequenceError_eq, breaks 2 2 (by decide)] at answer
    exact request_broken taken answer
  · have answer := prepareReq_open (s := u) (named_target t [hi, lo]) (by exact service) (by exact clear)
      (word16At [tk, tn, hi, lo] 2)
    rw [if_neg (by simp [u, State.withLink, idle]), if_pos (hasEntry_of_some (by exact held)),
      show u.entryOf t = some e from held] at answer
    refine (request_refused taken answer (BitVec.isLt _)).trans ?_
    rw [BitVec.ofNat_toNat, BitVec.setWidth_eq, entryCode, entry_code]
    rfl
  · have answer := prepareReq_open (s := u) (named_target t [hi, lo]) (by exact service) (by exact clear)
      (word16At [tk, tn, hi, lo] 2)
    rw [if_neg (by simp [u, State.withLink, idle]), if_neg (by simp [hasEntry_of_none (s := u) free]), if_pos (by exact full)]
      at answer
    exact request_refused taken answer
  · have answer := prepareReq_open (s := u) (named_target t [hi, lo]) (by exact service) (by exact clear)
      (word16At [tk, tn, hi, lo] 2)
    rw [if_neg (by simp [u, State.withLink, idle]), if_neg (by simp [hasEntry_of_none (s := u) free]),
      if_neg (Nat.not_le.mpr (by exact room))] at answer
    refine (request_replied taken answer).trans ?_
    have limit : word16At [tk, tn, hi, lo] 2 = hi.toNat * 256 + lo.toNat := rfl
    rw [limit]
    have most : min (hi.toNat * 256 + lo.toNat) 1440 ≤ 1440 := Nat.min_le_right ..
    generalize min (hi.toNat * 256 + lo.toNat) 1440 = m at *
    have high : highByte m = BitVec.ofNat 8 (m / 256) := by rw [highByte, Nat.min_eq_left (by omega)]
    have low : lowByte m = BitVec.ofNat 8 m := by rw [lowByte, Nat.min_eq_left (by omega)]
    unfold State.disEvent
    rw [high, low]
    rfl
  · exact request_refused taken (confirmReq_away (named_target t []) away)
  · exact request_refused taken (confirmReq_latched (named_target t []) (by exact service) latch)
  · have answer := confirmReq_open (s := u) (named_target t []) (by exact service) (by exact clear)
    rw [show u.dis.prepare = .none from none] at answer
    dsimp only at answer
    rw [sequenceError_eq, breaks 3 3 (by decide)] at answer
    exact request_broken taken answer
  · have answer := confirmReq_open (s := u) (named_target t []) (by exact service) (by exact clear)
    rw [show u.dis.prepare = some p from pending] at answer
    dsimp only at answer
    rw [if_neg other, sequenceError_eq, breaks 4 4 (by decide)] at answer
    exact request_broken taken answer
  · have answer := confirmReq_open (s := u) (named_target t []) (by exact service) (by exact clear)
    rw [show u.dis.prepare = some p from pending] at answer
    dsimp only at answer
    subst same
    rw [if_pos rfl, createEntry_working (s := u) ((inHand_iff _).mpr (by exact working))] at answer
    exact request_replied taken answer
  · have answer := confirmReq_open (s := u) (named_target t []) (by exact service) (by exact clear)
    rw [show u.dis.prepare = some p from pending] at answer
    dsimp only at answer
    subst same
    rw [if_pos rfl, createEntry_idle (s := u) (Bool.not_eq_true _ ▸ fun h => idle (by exact (inHand_iff _).mp h))] at answer
    refine (request_replied taken answer).trans ?_
    rw [activeCreated_entryActive]
    rfl

end Sys2Proof.Machine
end

