-- ==== Sys2Proof/Proofs/EntryEnds.lean ====
section
/-! How entries, prepare and latch end, the zone test of a closure, and LIST-DISABLEMENTS (R140 to R150). -/

namespace Sys2Proof.Machine

set_option Elab.async false -- one declaration after another: the check bounds the threads waiting on one another

variable {s : State} {t : Target} {k : Link} {c : ClosureNo}

/-! ### Entries removed -/

theorem active_iff (e : Entry) : e.active = true ↔ e.activated ≠ none := by
  rw [Entry.active, Option.isSome_iff_ne_none]

/-- The table without a target's entry, and the removal recorded (R147, R149). -/
def State.entryGone (s : State) (t : Target) (e : Entry) (reason : Byte) : State :=
  ({ s with dis := { s.dis with entries := s.dis.entries.filter fun (x : Entry) => x.target ≠ t } }).disEvent .removed
    (some t) e.code e.limit reason

theorem removeEntry_none (free : s.entryOf t = none) (reason : Byte) : s.removeEntry t reason = s := by
  unfold State.removeEntry
  rw [free]

theorem removeEntry_some {e : Entry} (held : s.entryOf t = some e) (reason : Byte) : s.removeEntry t reason =
    if e.activated = none then s.entryGone t e reason else (s.entryGone t e reason).deriveFault.entryRemoved t := by
  unfold State.removeEntry
  rw [held]
  dsimp only
  cases active : e.activated <;> simp [Entry.active, active, State.entryGone]

/-- The effects of a removed entry at its target (R146). -/
theorem entryGone_entryRemoved (e : Entry) (reason : Byte) (t : Target) : (s.entryGone t e reason).deriveFault.entryRemoved t =
    let w := (s.entryGone t e reason).deriveFault
    match t with
    | .detector _ => w.judgeBlind
    | .fireInput f =>
      if (s.input f).raw then
        w.setInput f ⟨true, .rising, some (s.uptime + BitVec.ofNat 32 (s.inputCfg f).debounce)⟩
      else w.setInput f ⟨false, .idle, none⟩
    | .sector n => w.refreshSiren n
    | .closure c => w.testZones c
    | .station _ => w := by
  cases t with
  | fireInput f =>
    have input : ((s.entryGone (.fireInput f) e reason).deriveFault.input f).raw = (s.input f).raw := by
      simp only [State.entryGone, State.disEvent, State.deriveFault_input, State.objEvent_input]
      rfl
    have expiry : (s.entryGone (.fireInput f) e reason).deriveFault.debounceEnd f =
        s.uptime + BitVec.ofNat 32 (s.inputCfg f).debounce := by
      simp only [State.entryGone, State.disEvent, State.debounceEnd, State.after, State.deriveFault_uptime,
        State.objEvent_uptime, State.deriveFault_inputCfg, State.objEvent_inputCfg]
      rfl
    unfold State.entryRemoved FireInput.anew
    dsimp only
    rw [input, expiry]
    split <;> rfl
  | detector d => rfl
  | station n => rfl
  | closure c => rfl
  | sector n => rfl

/-! ### The list -/

theorem encEntry_eq (e : Entry) : s.encEntry e =
    [(targetObj e.target).kindCode, BitVec.ofNat 8 (targetObj e.target).num,
      if e.activated = none then 1 else if e.limit = 0 then 2 else 3] ++ enc32 (s.uptime - e.created) ++ enc16 e.limit ++
      (match e.activated with
        | none => [0xFF, 0xFF, 0xFF, 0xFF]
        | some a => enc32 (s.uptime - a)) ++ encDuration (s.remaining e.expiry) := by
  have small := target_num_le e.target
  unfold State.encEntry State.since
  rw [byteOf_of_le (by omega), entry_code, BitVec.ofNat_toNat, BitVec.setWidth_eq]
  cases e.activated with
  | none => rfl
  | some a =>
    dsimp only [Option.map, encDuration]
    rw [BitVec.ofNat_toNat, BitVec.setWidth_eq]

theorem encPrepare_eq : s.encPrepare = match s.dis.prepare with
    | none => [0, 0, 0, 0, 0xFF, 0xFF, 0xFF, 0xFF]
    | some p => [(targetObj p.target).kindCode, BitVec.ofNat 8 (targetObj p.target).num] ++ enc16 p.limit ++
        encDuration (s.remaining (some p.expiry)) := by
  unfold State.encPrepare
  cases s.dis.prepare with
  | none => rfl
  | some p =>
    have small := target_num_le p.target
    dsimp only
    rw [byteOf_of_le (by omega)]
    rfl

/-! ### A closure's zones tested -/

theorem testZones_none (away : s.firstTrigger c = none) : s.testZones c = s := by
  unfold State.testZones
  rw [away]

theorem testZones_some {z : ZoneNo} (near : s.firstTrigger c = some z) :
    s.testZones c = if s.disabled (.closure c) then s else s.releaseClosure c (.zone z) := by
  unfold State.testZones
  rw [near]

/-! ### Requests and events -/

theorem endActivity_none (free : s.entryOf t = none) : s.endActivity t = s := by
  unfold State.endActivity
  rw [free]

theorem endActivity_some {e : Entry} (held : s.entryOf t = some e) : s.endActivity t =
    if e.activated ≠ none then s else
      (({ s with dis := { s.dis with entries := s.dis.entries.map fun (x : Entry) =>
          if x.target = t then e.activate s.uptime else x } }).disEvent .activated (some t) (e.activate s.uptime).code e.limit
        0).deriveFault := by
  unfold State.endActivity
  rw [held]
  simp only [active_iff]

theorem entryOver_none (free : s.entryOf t = none) : s.entryOver t = false := by
  unfold State.entryOver
  rw [free]

theorem entryOver_some {e : Entry} (held : s.entryOf t = some e) :
    s.entryOver t = true ↔ e.activated ≠ none ∧ s.expired e.expiry = true := by
  unfold State.entryOver
  rw [held, Bool.and_eq_true, active_iff]

theorem discardPrepare_none (idle : s.dis.prepare = none) (reason : Byte) : s.discardPrepare reason = s := by
  unfold State.discardPrepare
  rw [idle]

theorem discardPrepare_some {p : Prepare} (pending : s.dis.prepare = some p) (reason : Byte) : s.discardPrepare reason =
    ({ s with dis := { s.dis with prepare := none } }).disEvent .discarded (some p.target) 0 p.limit reason := by
  unfold State.discardPrepare
  rw [pending]

theorem prepareOver_some {p : Prepare} (pending : s.dis.prepare = some p) : s.prepareOver = reached s.uptime p.expiry := by
  unfold State.prepareOver
  rw [pending]

theorem prepareOver_none (idle : s.dis.prepare = none) : s.prepareOver = false := by
  unfold State.prepareOver
  rw [idle]

theorem enableReq_eq {kind num : Nat} (named : targetOf kind num = some t) :
    s.enableReq kind num = (s.removeEntry t 3, .reply [entryCode (s.entryOf t)]) := by
  simp only [State.enableReq, named]

theorem clearLatchReq_away (away : s.service = false) : s.clearLatchReq = refuse s .notService 0 := if_pos away

theorem clearLatchReq_eq (service : s.service = true) : s.clearLatchReq = if s.dis.latch then
    (({ s with dis := { s.dis with latch := false } }).disEvent .latchCleared none 0 0 0, .reply [1])
    else (s, .reply [0]) := if_neg (by simp [service])

/-- Settles O47: the ends of entries, prepare and latch, the zone test of a closure, and the list. -/
theorem entriesEndAndTheTableIsShown : Obligations.EntriesEndAndTheTableIsShown := by
  intro s k t first count kind num u tk tn code noted removed dropped
  have code_eq : code = Entry.code := funext fun e => (entry_code e).symm
  have removes {e : Entry} (reason : Byte) (held : s.entryOf t = some e) : s.removeEntry t reason = removed s e reason := by
    rw [removeEntry_some held, entryGone_entryRemoved]
    simp only [removed, noted, code_eq] <;> rfl
  have removes' {e : Entry} (reason : Byte) (held : s.entryOf t = some e) : u.removeEntry t reason = removed u e reason := by
    rw [removeEntry_some (by exact held), entryGone_entryRemoved]
    simp only [removed, noted, code_eq] <;> rfl
  refine ⟨fun unnamed taken => ?_, fun taken => ⟨fun free => ?_, fun e held => ?_⟩,
    fun free => ⟨if_neg (by simp [entryOver_none free]), endActivity_none free⟩,
    fun c => ⟨fun away => ?_, fun z near first => ?_⟩,
    fun e held => ⟨?_, fun active => ?_, fun waits => ?_⟩, rfl, fun none => ⟨?_, if_neg (by simp [prepareOver_none none])⟩,
    fun p pending => ⟨?_, ?_⟩,
    fun taken => ⟨fun away => ?_, fun service clear => ?_, fun service latch => ?_⟩, fun taken => ?_⟩
  · exact request_refused taken (r := .badObject) (d := 0) (by simp only [State.enableReq, not_named_target [] unnamed])
  · refine (request_replied taken (enableReq_eq (named_target t []))).trans ?_
    rw [removeEntry_none (by exact free), show (s.withLink k).entryOf t = none from free]
    rfl
  · refine (request_replied taken (enableReq_eq (named_target t []))).trans ?_
    rw [show (s.withLink k).removeEntry t 3 = _ from removes' 3 held, show (s.withLink k).entryOf t = some e from held, code_eq]
    rfl
  · exact testZones_none (firstOf_eq_none_iff.mpr fun z => Bool.not_eq_true _ ▸ fun on => away z (triggers_iff.mp on))
  · exact testZones_some (firstTrigger_eq_some_iff.mpr
      ⟨triggers_iff.mpr near, fun y lower on => first y lower (triggers_iff.mp on)⟩)
  · show execEntryExpired t s = _
    unfold execEntryExpired
    rw [done_ite]
    simp only [entryOver_some held, removes 1 held]
  · rw [endActivity_some held, if_pos active]
  · rw [endActivity_some held, if_neg (not_not_intro waits)]
    simp only [code_eq]
    rfl
  · exact congrArg done (discardPrepare_none (by exact none) 2)
  · exact congrArg done (discardPrepare_some (s := { s with service := false }) (by exact pending) 2)
  · show execPrepareExpired s = _
    unfold execPrepareExpired
    rw [done_ite, prepareOver_some pending, discardPrepare_some pending]
    rfl
  · exact request_refused taken (clearLatchReq_away (by exact away))
  · refine request_replied taken ((clearLatchReq_eq (by exact service)).trans (if_neg ?_))
    simp [State.withLink, clear]
  · refine (request_replied taken ((clearLatchReq_eq (by exact service)).trans (if_pos (by exact latch)))).trans ?_
    rfl
  · intro some_ left
    have left_eq : left = fun e => encDuration (s.remaining e) := by
      funext e
      rw [encDuration_remaining] <;> rfl
    have actives : Entry.active = fun e : Entry => decide (e.activated ≠ none) :=
      funext fun e => Bool.eq_iff_iff.mpr ((active_iff e).trans decide_eq_true_iff.symm)
    have entries : (s.withLink k).encEntry = fun e => [(targetObj e.target).kindCode, BitVec.ofNat 8 (targetObj e.target).num,
        code e] ++ enc32 (s.uptime - e.created) ++ enc16 e.limit ++
        (match e.activated with
          | none => [0xFF, 0xFF, 0xFF, 0xFF]
          | some a => enc32 (s.uptime - a)) ++ left e.expiry := by
      funext e
      rw [encEntry_eq, left_eq] <;> rfl
    have prepare : (s.withLink k).encPrepare = match s.dis.prepare with
        | none => [0, 0, 0, 0, 0xFF, 0xFF, 0xFF, 0xFF]
        | some p => [(targetObj p.target).kindCode, BitVec.ofNat 8 (targetObj p.target).num] ++ enc16 p.limit ++
          left (some p.expiry) := by
      rw [encPrepare_eq, left_eq] <;> rfl
    have answer : (s.withLink k).listReq first.toNat count.toNat = (s.withLink k, .reply
        ([byteOf s.dis.entries.length, byteOf (s.dis.entries.filter Entry.active).length, flagByte s.dis.latch] ++
          (s.withLink k).encPrepare ++ [byteOf some_.length] ++ some_.flatMap (s.withLink k).encEntry)) := by
      unfold State.listReq
      dsimp only
      rw [pick_eq]
      rfl
    rw [prepare, entries, actives] at answer
    exact request_replied taken answer

end Sys2Proof.Machine
end

