-- ==== Sys2Proof/Proofs/Owners.lean ====
section
/-! Which writes an owner refuses, and what it does with a value handed to it (R18, R76, R90, R118, R171). -/

namespace Sys2Proof.Machine

set_option Elab.async false -- one declaration after another: the check bounds the threads waiting on one another

variable {s : State}

/-! ### Refusals -/

/-- The line a setting names is at rest, or there is none. -/
def State.rests (s : State) (l : Option LineNo) : Prop :=
  ∀ n, l = some n → (s.line n).state = .off ∨ (s.line n).state = .stopped

theorem lineIdle_iff (l : Option LineNo) : s.lineIdle l = true ↔ s.rests l := by
  cases l <;> simp [State.lineIdle, State.rests]

theorem hasCause_iff (src : Source) : s.hasCause src = true ↔ s.causeOf src ≠ none := Option.isSome_iff_ne_none

variable (new : Settings)

theorem refuses_detector (d : DetNo) (f : Nat) : s.refuses (.detector d f) new = true ↔
    (f = 1 ∧ ¬(s.rests (s.detCfg d).line ∧ s.rests (new.detectors[d.val]).line)) ∨
    (f = 2 ∧ s.causeOf (.detector d) ≠ none) ∨ (f = 3 ∧ ¬s.rests (s.detCfg d).line) := by
  unfold State.refuses
  dsimp only
  split
  · simp [← lineIdle_iff, imp_iff_not_or]
  · simp [hasCause_iff]
  · simp [← lineIdle_iff, imp_iff_not_or]
  · simp_all

theorem refuses_line (n : LineNo) (f : Nat) :
    s.refuses (.line n f) new = true ↔ ¬s.rests (some n) ∨ (f = 1 ∧ s.causeOf (.line n) ≠ none) := by
  simp only [State.refuses, Bool.or_eq_true, Bool.and_eq_true, beq_iff_eq, hasCause_iff, ← lineIdle_iff, Bool.not_eq_true']
  simp

theorem refuses_input (i : InputNo) (f : Nat) :
    s.refuses (.input i f) new = true ↔ f = 1 ∧ s.causeOf (.fireInput i) ≠ none := by
  simp only [State.refuses, Bool.and_eq_true, beq_iff_eq, hasCause_iff]

theorem refuses_closure (c : ClosureNo) (f : Nat) : s.refuses (.closure c f) new = true ↔
    (f = 1 ∧ ¬(((s.closure c).state = .held ∨ (s.closure c).state = .shut) ∧ s.rests (s.closureCfg c).line)) ∨
    (f = 5 ∧ ¬(s.rests (s.closureCfg c).line ∧ s.rests (new.closures[c.val]).line)) := by
  unfold State.refuses
  dsimp only
  split
  · simp [← lineIdle_iff, imp_iff_not_or]
  · simp [← lineIdle_iff, imp_iff_not_or]
  · simp_all

/-! ### A section's factory values refused (R175) -/

theorem find?_of_sorted {p : Nat → Bool} {l : List Nat} (sorted : l.Pairwise (· < ·)) {i : Nat} :
    l.find? p = some i ↔ (i ∈ l ∧ p i = true) ∧ ∀ j ∈ l, j < i → p j = false := by
  induction l with
  | nil => simp
  | cons a l ih =>
    obtain ⟨first, rest⟩ := List.pairwise_cons.mp sorted
    by_cases here : p a = true
    · rw [List.find?_cons_of_pos here]
      constructor
      · rintro ⟨⟩
        refine ⟨⟨by simp, here⟩, fun j mem below => ?_⟩
        obtain rfl | mem := List.mem_cons.mp mem
        · omega
        · have := first j mem
          omega
      · rintro ⟨⟨mem, -⟩, least⟩
        obtain rfl | mem := List.mem_cons.mp mem
        · rfl
        · simp [least a (by simp) (first i mem)] at here
    · rw [List.find?_cons_of_neg here, ih rest]
      constructor
      · rintro ⟨⟨mem, at_⟩, least⟩
        refine ⟨⟨by simp [mem], at_⟩, fun j there below => ?_⟩
        obtain rfl | there := List.mem_cons.mp there
        · simpa using here
        · exact least j there below
      · rintro ⟨⟨mem, at_⟩, least⟩
        obtain rfl | mem := List.mem_cons.mp mem
        · exact absurd at_ here
        · exact ⟨⟨mem, at_⟩, fun j there => least j (by simp [there])⟩

theorem indices_sorted (k : StoreSection) : k.indices.Pairwise (· < ·) := by
  cases k <;> decide

/-- Whether an object's owner would refuse the factory values of its settings. -/
def State.objectRefuses (s : State) (k : StoreSection) (i : Nat) : Bool :=
  (settingsOf k i).any fun name => s.refuses name factorySettings

theorem settingsOf_any {m : Nat} {k : StoreSection} {make : Fin m → Nat → SettingName} {i : Nat}
    (at_ : ∀ f, settingAt k i f = (numbered m i).map (make · f)) (p : SettingName → Bool) :
    (settingsOf k i).any p = true ↔ ∃ x : Fin m, number x = i ∧ ∃ f < k.fields, p (make x (f + 1)) = true := by
  simp only [settingsOf, at_, List.any_eq_true, List.mem_filterMap, List.mem_range]
  constructor
  · rintro ⟨name, ⟨f, inside, named⟩, holds⟩
    obtain ⟨x, found, rfl⟩ := Option.map_eq_some_iff.mp named
    exact ⟨x, numbered_some found, f, inside, holds⟩
  · rintro ⟨x, rfl, f, inside, holds⟩
    exact ⟨_, ⟨f, inside, by rw [numbered_number]; rfl⟩, holds⟩

variable {new : Settings}

/-- Factory values name no line, so the refusals of an object's settings are those of its present state. -/
theorem factory_detector_rests (d : DetNo) : s.rests (factorySettings.detectors[d.val]).line := by
  have plain : factorySettings.detectors[d.val] = factoryDetector := Vector.getElem_replicate ..
  rw [plain]
  exact fun n named => nomatch named

theorem factory_closure_rests (c : ClosureNo) : s.rests (factorySettings.closures[c.val]).line := by
  have plain : factorySettings.closures[c.val] = factoryClosure := Vector.getElem_replicate ..
  rw [plain]
  exact fun n named => nomatch named

theorem detectorRefuses_iff {i : Nat} : s.objectRefuses .detectors i = true ↔
    ∃ d : DetNo, number d = i ∧ (¬s.rests (s.detCfg d).line ∨ s.causeOf (.detector d) ≠ none) := by
  refine (settingsOf_any (make := .detector) (fun _ => rfl) _).trans
    (exists_congr fun d => and_congr_right fun _ => ?_)
  simp only [refuses_detector, factory_detector_rests, and_true]
  constructor
  · rintro ⟨f, -, ⟨-, busy⟩ | ⟨-, cause⟩ | ⟨-, busy⟩⟩
    · exact .inl busy
    · exact .inr cause
    · exact .inl busy
  · rintro (busy | cause)
    · exact ⟨0, by decide, .inl ⟨rfl, busy⟩⟩
    · exact ⟨1, by decide, .inr (.inl ⟨rfl, cause⟩)⟩

theorem lineRefuses_iff {i : Nat} : s.objectRefuses .lines i = true ↔
    ∃ n : LineNo, number n = i ∧ (¬s.rests (some n) ∨ s.causeOf (.line n) ≠ none) := by
  refine (settingsOf_any (make := .line) (fun _ => rfl) _).trans
    (exists_congr fun n => and_congr_right fun _ => ?_)
  simp only [refuses_line]
  constructor
  · rintro ⟨f, -, busy | ⟨-, cause⟩⟩
    · exact .inl busy
    · exact .inr cause
  · rintro (busy | cause)
    · exact ⟨0, by decide, .inl busy⟩
    · exact ⟨0, by decide, .inr ⟨rfl, cause⟩⟩

theorem inputRefuses_iff {i : Nat} : s.objectRefuses .inputs i = true ↔
    ∃ f : InputNo, number f = i ∧ s.causeOf (.fireInput f) ≠ none := by
  refine (settingsOf_any (make := .input) (fun _ => rfl) _).trans
    (exists_congr fun x => and_congr_right fun _ => ?_)
  simp only [refuses_input]
  exact ⟨fun ⟨f, _, _, cause⟩ => cause, fun cause => ⟨0, by decide, rfl, cause⟩⟩

theorem closureRefuses_iff {i : Nat} : s.objectRefuses .closures i = true ↔
    ∃ c : ClosureNo, number c = i ∧ (¬((s.closure c).state = .held ∨ (s.closure c).state = .shut) ∨
      ¬s.rests (s.closureCfg c).line) := by
  refine (settingsOf_any (make := .closure) (fun _ => rfl) _).trans
    (exists_congr fun c => and_congr_right fun _ => ?_)
  simp only [refuses_closure, factory_closure_rests, and_true, not_and_or]
  constructor
  · rintro ⟨f, -, ⟨-, open_ | busy⟩ | ⟨-, busy⟩⟩
    · exact .inl open_
    · exact .inr busy
    · exact .inr busy
  · rintro (open_ | busy)
    · exact ⟨0, by decide, .inl ⟨rfl, .inl open_⟩⟩
    · exact ⟨4, by decide, .inr ⟨rfl, busy⟩⟩

theorem sectorRefuses (i : Nat) : s.objectRefuses .sectors i = false :=
  Bool.eq_false_iff.mpr fun on =>
    have ⟨_, _, _, _, no⟩ := (settingsOf_any (make := .sector) (fun _ => rfl) _).mp on
    Bool.false_ne_true no

theorem patternRefuses (i : Nat) : s.objectRefuses .patterns i = false :=
  Bool.eq_false_iff.mpr fun on =>
    have ⟨_, _, _, _, no⟩ := (settingsOf_any (make := .pattern) (fun _ => rfl) _).mp on
    Bool.false_ne_true no

theorem generalRefuses (i : Nat) : s.objectRefuses .general i = false := by
  refine Bool.eq_false_iff.mpr fun on => ?_
  obtain ⟨name, mem, no⟩ := List.any_eq_true.mp on
  obtain ⟨f, -, named⟩ := List.mem_filterMap.mp mem
  unfold settingAt at named
  dsimp only at named
  split at named
  · cases named
    exact Bool.false_ne_true no
  · cases named

theorem number_mem_indices {m : Nat} (x : Fin m) : number x ∈ (List.range m).map (· + 1) :=
  List.mem_map.mpr ⟨x.val, List.mem_range.mpr x.isLt, rfl⟩

/-- Only an object of the section refuses. -/
theorem objectRefuses_mem {k : StoreSection} {i : Nat} (on : s.objectRefuses k i = true) : i ∈ k.indices := by
  cases k with
  | detectors =>
    obtain ⟨d, rfl, -⟩ := detectorRefuses_iff.mp on
    exact number_mem_indices d
  | lines =>
    obtain ⟨n, rfl, -⟩ := lineRefuses_iff.mp on
    exact number_mem_indices n
  | inputs =>
    obtain ⟨f, rfl, -⟩ := inputRefuses_iff.mp on
    exact number_mem_indices f
  | closures =>
    obtain ⟨c, rfl, -⟩ := closureRefuses_iff.mp on
    exact number_mem_indices c
  | sectors => simp [sectorRefuses] at on
  | patterns => simp [patternRefuses] at on
  | general => simp [generalRefuses] at on

theorem defaultsRefused_eq_some_iff {k : StoreSection} {i : Nat} :
    s.defaultsRefused k = some i ↔ s.objectRefuses k i = true ∧ ∀ j < i, ¬s.objectRefuses k j = true := by
  refine (find?_of_sorted (p := s.objectRefuses k) (indices_sorted k)).trans ⟨?_, ?_⟩
  · rintro ⟨⟨-, on⟩, least⟩
    exact ⟨on, fun j below at_ => by simp [least j (objectRefuses_mem at_) below] at at_⟩
  · rintro ⟨on, least⟩
    exact ⟨⟨objectRefuses_mem on, on⟩, fun j _ below => by simpa using least j below⟩

theorem defaultsRefused_eq_none_iff {k : StoreSection} : s.defaultsRefused k = none ↔ ∀ i, ¬s.objectRefuses k i = true := by
  refine (List.find?_eq_none (p := s.objectRefuses k)).trans ⟨fun none i on => none i (objectRefuses_mem on) on,
    fun none i _ => none i⟩

end Sys2Proof.Machine
end

