-- ==== Sys2Proof/Proofs/StoreOps.lean ====
section
/-! SAVE-SETTINGS, LOCK-SECTION, LOAD-DEFAULTS and the end of a section's write (R173 to R175). -/

namespace Sys2Proof.Machine

set_option Elab.async false -- one declaration after another: the check bounds the threads waiting on one another

variable {s : State}

theorem sectionOf_num (k : StoreSection) : sectionOf k.num = some k := by
  cases k <;> rfl

theorem sectionOf_none {n : Nat} (none : ∀ k : StoreSection, k.num ≠ n) : sectionOf n = Option.none := by
  unfold sectionOf
  split
  · exact absurd rfl (none .detectors)
  · exact absurd rfl (none .lines)
  · exact absurd rfl (none .inputs)
  · exact absurd rfl (none .closures)
  · exact absurd rfl (none .sectors)
  · exact absurd rfl (none .patterns)
  · exact absurd rfl (none .general)
  · rfl

theorem flagsAny_eq (p : SectionFlags → Bool) : s.store.flags.toList.any p = allSections.any fun k => p (s.flagsOf k) := by
  rw [Bool.eq_iff_iff, State.any_flags, List.any_eq_true]
  exact ⟨fun ⟨k, on⟩ => ⟨k, by cases k <;> decide, on⟩, fun ⟨k, _, on⟩ => ⟨k, on⟩⟩

theorem deriveStoreFaults_eq : s.deriveStoreFaults =
    let v := if allSections.any fun k => (s.flagsOf k).writeFailed then s.raiseFault .store .saveFailed
      else s.clearFault .store .saveFailed
    if allSections.any fun k => (s.flagsOf k).defaulted then v.raiseFault .store .defaulted
    else v.clearFault .store .defaulted := by
  unfold State.deriveStoreFaults
  simp only [← flagsAny_eq (s := s)]
  have same : State.store (if s.store.flags.toList.any (·.writeFailed) = true then s.raiseFault .store .saveFailed
      else s.clearFault .store .saveFailed) = s.store := by
    split <;> simp
  rw [same]

section
variable {n : Nat} {k : StoreSection} (named : sectionOf n = some k)
include named

theorem lockReq_named : s.lockReq n =
    if s.store.write.isSome then refuse s .busy 0
    else if (s.flagsOf k).lock then (s, .reply [1])
    else (((s.setFlags k { s.flagsOf k with lock := true }).opStart .lock).beginSection .lock k [] [] [], .reply [0]) := by
  simp only [State.lockReq, named]

theorem defaultsReq_named_busy (service : s.service = true) (busy : s.store.write.isSome = true) :
    s.defaultsReq n = refuse s .busy s.remainingSections := by
  simp [State.defaultsReq, named, service, busy]

variable (service : s.service = true) (idle : s.store.write = none)
include service idle

theorem defaultsReq_named_refused {i : Nat} (refused : s.defaultsRefused k = some i) :
    s.defaultsReq n = refuse s .state i := by
  simp [State.defaultsReq, named, service, idle, refused]

theorem defaultsReq_named_accepted (accepted : s.defaultsRefused k = none) :
    s.defaultsReq n =
      (((s.restoreSection k).opStart .defaults).beginSection .defaults k [] [] [], .reply []) := by
  simp [State.defaultsReq, named, service, idle, accepted]

end

theorem remainingSections_of {w : StoreWrite} (writing : s.store.write = some w) :
    s.remainingSections = w.rest.length + 1 := by
  unfold State.remainingSections
  rw [writing]

theorem writeDue_none (idle : s.store.write = none) : s.writeDue = false := by
  unfold State.writeDue
  rw [idle]

theorem writeDue_some {w : StoreWrite} (writing : s.store.write = some w) : s.writeDue = reached s.uptime w.ends := by
  unfold State.writeDue
  rw [writing]

/-- LOAD-DEFAULTS marks the section modified where the factory values change the contents, and takes no time. -/
theorem restoreSection_eq_of_ne (k : StoreSection) : s.restoreSection k =
    let live := s.store.live.copySection k factorySettings
    forEach k.indices (fun i t => forEach (settingsOf k i) State.handSetting t)
      (({ s with store := { s.store with live := live } }).setFlags k { s.flagsOf k with
        lock := false, modified := (s.flagsOf k).modified || decide (live ≠ s.store.live) }) := by
  have changed (a b : Settings) : (a != b) = decide (a ≠ b) := by
    rw [Bool.eq_iff_iff, bne_iff_ne, decide_eq_true_iff]
  simp only [State.restoreSection, changed]
  rfl

theorem restoreSection_uptime {k : StoreSection} (accepted : s.defaultsRefused k = none) :
    (s.restoreSection k).uptime = s.uptime :=
  ((s.restoreSection_path k accepted).kept .clock (by decide)).1

theorem takeResult_uptime (k : StoreSection) (good : Bool) : (s.takeResult k good).uptime = s.uptime :=
  (State.takeResult_kept s k good).uptime

/-- A section's write that begins in a state of the same instant. -/
theorem beginSection_eq {v : State} (now : v.uptime = s.uptime) (op : StoreOp) (k : StoreSection)
    (rest written failed : List StoreSection) : v.beginSection op k rest written failed =
      let w := v.setMark k ⟨(v.flagsOf k).lock, false⟩
      { w with store := { w.store with
        stored := v.store.stored.copySection k v.store.live
        write := some ⟨op, k, rest, s.uptime + 200, written, failed⟩ } } := by
  rw [← now]
  rfl

section
variable {w : StoreWrite} (writing : s.store.write = some w) (good : Bool)
include writing

theorem endSection_more {next : StoreSection} {rest : List StoreSection} (more : w.rest = next :: rest) :
    s.endSection good = (s.takeResult w.current good).beginSection w.op next rest (w.written ++ [w.current])
      (if good then w.failed else w.failed ++ [w.current]) := by
  simp [State.endSection, writing, more]

theorem endSection_last (last : w.rest = []) :
    s.endSection good = (s.takeResult w.current good).opEnd w.op (w.written ++ [w.current])
      (if good then w.failed else w.failed ++ [w.current]) := by
  simp [State.endSection, writing, last]

end

/-- Whether an object's owner would refuse its factory values, by the object's kind (R175). -/
theorem objectRefuses_iff (k : StoreSection) (i : Nat) : s.objectRefuses k i = true ↔ match k with
    | .detectors => ∃ d : DetNo, number d = i ∧ (¬s.rests (s.detCfg d).line ∨ s.causeOf (.detector d) ≠ none)
    | .lines => ∃ n : LineNo, number n = i ∧ (¬s.rests (some n) ∨ s.causeOf (.line n) ≠ none)
    | .inputs => ∃ f : InputNo, number f = i ∧ s.causeOf (.fireInput f) ≠ none
    | .closures => ∃ c : ClosureNo, number c = i ∧ (¬((s.closure c).state = .held ∨ (s.closure c).state = .shut) ∨
        ¬s.rests (s.closureCfg c).line)
    | .sectors | .patterns | .general => False := by
  cases k with
  | detectors => exact detectorRefuses_iff
  | lines => exact lineRefuses_iff
  | inputs => exact inputRefuses_iff
  | closures => exact closureRefuses_iff
  | sectors => exact iff_of_false (by simp [sectorRefuses]) id
  | patterns => exact iff_of_false (by simp [patternRefuses]) id
  | general => exact iff_of_false (by simp [generalRefuses]) id

/-- Settles O49: an accepted operation is its record and the write of its first section, and a write's end takes the
result and goes on with the next section or ends the operation. -/
theorem storeOperationsWriteSectionsInTurn : Obligations.StoreOperationsWriteSectionsInTurn := by
  intro s k sec good u begun noted
  have busy {w} (writing : s.store.write = some w) : u.store.write.isSome = true := Option.isSome_of_eq_some writing
  have writes (busy : s.store.write ≠ none) : u.store.write.isSome = true := Option.isSome_iff_ne_none.mpr busy
  have idles (idle : s.store.write = none) : ¬u.store.write.isSome = true := by simp [u, State.withLink, idle]
  have found {kk : StoreSection} (numbered : kk.num = sec.toNat) : sectionOf (byteAt [sec] 0) = some kk := by
    rw [← sectionOf_num kk, numbered]
    rfl
  refine ⟨fun taken => ⟨fun writing => ?_, fun idle => ?_⟩, fun kk numbered => ⟨fun taken => ⟨fun writing => ?_, fun idle =>
    ⟨fun locked => ?_, fun open_ => ?_⟩⟩, fun taken => ⟨fun away => ?_, fun service w writing => ?_, fun service idle =>
    ⟨fun i refused => ?_, fun accepted => ?_⟩⟩⟩, fun unnamed => ⟨fun taken => ?_, fun taken => ?_⟩, fun kk => ⟨?_, fun i => ?_⟩,
    fun idle => ?_, fun w writing => ⟨fun early => ?_, fun ended => ?_⟩⟩
  · exact request_refused taken (r := .busy) (d := 0) (if_pos (writes writing))
  · exact request_replied taken ((if_neg (idles idle)).trans
      (congrArg (·, _) (beginSection_eq (by exact (State.record_uptime ..)) ..)))
  · exact request_refused taken (r := .busy) (d := 0) ((lockReq_named (found numbered)).trans (if_pos (writes writing)))
  · exact request_replied taken
      ((lockReq_named (found numbered)).trans ((if_neg (idles idle)).trans (if_pos (by exact locked))))
  · exact request_replied taken
      ((lockReq_named (found numbered)).trans ((if_neg (idles idle)).trans
        ((if_neg (by exact Bool.not_eq_true _ ▸ open_)).trans
          (congrArg (·, _) (beginSection_eq (by exact (State.record_uptime ..)) ..)))))
  · exact request_refused taken (r := .notService) (d := 0)
      (by simp only [State.defaultsReq, found numbered]; exact if_pos (by exact away))
  · exact (request_refused_with taken (defaultsReq_named_busy (s := u) (found numbered) service (busy writing))).trans
      (by rw [remainingSections_of (by exact writing)]; rfl)
  · exact request_refused_with taken (defaultsReq_named_refused (s := u) (found numbered) service idle refused)
  · refine request_replied taken ((defaultsReq_named_accepted (s := u) (found numbered) service idle accepted).trans
      (congrArg (·, _) ?_))
    have now : ((u.restoreSection kk).opStart .defaults).uptime = s.uptime :=
      (State.record_uptime ..).trans (restoreSection_uptime (s := u) accepted)
    exact (beginSection_eq now ..).trans (congrArg (fun v => begun (noted v .defaults) .defaults kk [] [] [])
      (restoreSection_eq_of_ne kk))
  · have none : sectionOf (byteAt [sec] 0) = none := sectionOf_none unnamed
    exact request_refused taken (r := .badObject) (d := 0) (by simp only [State.lockReq, none])
  · have none : sectionOf (byteAt [sec] 0) = none := sectionOf_none unnamed
    exact request_refused taken (r := .badObject) (d := 0) (by simp only [State.defaultsReq, none])
  · exact defaultsRefused_eq_none_iff.trans (forall_congr' fun i => not_congr (objectRefuses_iff kk i))
  · exact defaultsRefused_eq_some_iff.trans (and_congr (objectRefuses_iff kk i)
      (forall_congr' fun j => imp_congr_right fun _ => not_congr (objectRefuses_iff kk j)))
  · exact if_neg (by simp [writeDue_none idle])
  · exact if_neg (by simp [writeDue_some writing, early])
  · intro x marked saveFailed defaulted v t written failed
    have judged : s.takeResult w.current good = t := deriveStoreFaults_eq (s := marked)
    have due : s.writeDue = true := (writeDue_some writing).trans ended
    have ends : exec (.sectionWriteEnd good) s = .next (s.endSection good).settle := if_pos due
    refine ⟨fun next rest more => ?_, fun last => ?_⟩
    · rw [ends, endSection_more writing good more, beginSection_eq (takeResult_uptime w.current good), judged]
    · rw [ends, endSection_last writing good last, judged]
      rfl

end Sys2Proof.Machine
end

