-- ==== Sys2Proof/Proofs/SettingNames.lean ====
section
/-! The settings as three numbers name them (R171), and the four bytes of a value. -/

namespace Sys2Proof.Machine

set_option Elab.async false -- one declaration after another: the check bounds the threads waiting on one another

/-- A section's objects, as its number gives their count (section 10.2). -/
theorem settingAt_isSome_iff (k : StoreSection) (index field : Nat) : (settingAt k index field).isSome = true ↔
    if k.num = 7 then index = 0 else 1 ≤ index ∧ index ≤ [24, 8, 16, 16, 6, 8].getD (k.num - 1) 0 := by
  have counted {m : Nat} {make : Fin m → SettingName} :
      ((numbered m index).map make).isSome = true ↔ 1 ≤ index ∧ index ≤ m := by
    rw [Option.isSome_map, numbered]
    split <;> simp_all
  cases k with
  | general => unfold settingAt; dsimp only; split <;> simp_all [StoreSection.num]
  | _ => exact counted

theorem fields_eq (k : StoreSection) : k.fields = [9, 16, 4, 6, 4, 9, 2].getD (k.num - 1) 0 := by
  cases k <;> rfl

theorem num_bounds (k : StoreSection) : 1 ≤ k.num ∧ k.num ≤ 7 := by
  cases k <;> decide

theorem exists_num {sec : Nat} (low : 1 ≤ sec) (high : sec ≤ 7) : ∃ k : StoreSection, k.num = sec := by
  interval_cases sec
  · exact ⟨.detectors, rfl⟩
  · exact ⟨.lines, rfl⟩
  · exact ⟨.inputs, rfl⟩
  · exact ⟨.closures, rfl⟩
  · exact ⟨.sectors, rfl⟩
  · exact ⟨.patterns, rfl⟩
  · exact ⟨.general, rfl⟩

/-- The checks of a number triple: the section, then the index, then the field (R171). -/
theorem settingOf_section {sec : Nat} (outside : sec = 0 ∨ 7 < sec) (index field : Nat) :
    settingOf sec index field = .error 1 := by
  have none : sectionOf sec = none := sectionOf_none fun k same => by
    have := num_bounds k
    omega
  simp only [settingOf, none]

theorem settingOf_index {k : StoreSection} {index field : Nat} (none : settingAt k index field = none) :
    settingOf k.num index field = .error 2 := by
  simp only [settingOf, sectionOf_num, none]

theorem settingOf_field {k : StoreSection} {index field : Nat} {name : SettingName}
    (at_ : settingAt k index field = some name) :
    settingOf k.num index field = if 1 ≤ field ∧ field ≤ k.fields then .ok (k, name) else .error 3 := by
  simp only [settingOf, sectionOf_num, at_]

theorem sectionOf_some {n : Nat} {k : StoreSection} (found : sectionOf n = some k) : k.num = n := by
  by_contra other
  by_cases named : ∃ j : StoreSection, j.num = n
  · obtain ⟨j, rfl⟩ := named
    rw [sectionOf_num] at found
    cases found
    exact other rfl
  · rw [sectionOf_none fun j same => named ⟨j, same⟩] at found
    cases found

theorem settingOf_ok {sec index field : Nat} {k : StoreSection} {name : SettingName}
    (named : settingOf sec index field = .ok (k, name)) : k.num = sec := by
  unfold settingOf at named
  split at named
  · cases named
  · next found =>
    split at named
    · cases named
    · split at named
      · cases named
        exact sectionOf_some found
      · cases named

theorem settingOf_error_small {sec index field e : Nat} (refused : settingOf sec index field = .error e) : e < 256 := by
  unfold settingOf at refused
  split at refused
  · cases refused; decide
  · split at refused
    · cases refused; decide
    · split at refused
      · cases refused
      · cases refused; decide

theorem settingOf_checks (sec index field : Nat) :
    let counts := [24, 8, 16, 16, 6, 8]
    let fields := [9, 16, 4, 6, 4, 9, 2]
    let indexed := if sec = 7 then index = 0 else 1 ≤ index ∧ index ≤ counts.getD (sec - 1) 0
    (sec = 0 ∨ 7 < sec → settingOf sec index field = .error 1) ∧
    (1 ≤ sec → sec ≤ 7 →
      (¬indexed → settingOf sec index field = .error 2) ∧
      (indexed → (field = 0 ∨ fields.getD (sec - 1) 0 < field → settingOf sec index field = .error 3) ∧
        (1 ≤ field → field ≤ fields.getD (sec - 1) 0 →
          ∃ kk name, settingOf sec index field = .ok (kk, name) ∧ kk.num = sec ∧
            settingAt kk index field = some name))) := by
  intro counts fields indexed
  refine ⟨fun outside => settingOf_section outside index field, fun low high => ?_⟩
  obtain ⟨k, rfl⟩ := exists_num low high
  have isSome : (settingAt k index field).isSome = true ↔ indexed := settingAt_isSome_iff k index field
  have width : fields.getD (k.num - 1) 0 = k.fields := (fields_eq k).symm
  refine ⟨fun unnamed => settingOf_index ?_, fun named => ?_⟩
  · rwa [← isSome, Bool.not_eq_true, Option.isSome_eq_false_iff, Option.isNone_iff_eq_none] at unnamed
  · obtain ⟨name, at_⟩ := Option.isSome_iff_exists.mp (isSome.mpr named)
    rw [width, settingOf_field at_]
    refine ⟨fun outside => if_neg (by omega), fun least most => ⟨k, name, if_pos ⟨least, most⟩, rfl, at_⟩⟩

/-- The four bytes of a value, read back. -/
theorem word32At_enc32 (a b c : Byte) (v : BitVec 32) : word32At ([a, b, c] ++ enc32 v) 3 = v.toNat := by
  have lt := v.isLt
  simp only [word32At, word16At, byteAt, enc32, List.cons_append, List.nil_append, List.getD_cons_succ,
    List.getD_cons_zero, BitVec.extractLsb'_toNat, Nat.shiftRight_eq_div_pow]
  omega

end Sys2Proof.Machine
end

