-- ==== Sys2Proof/Proofs/SettingWrites.lean ====
section
/-! WRITE-SETTING and READ-SETTING, and what an owner does with a value handed to it (R171, R172). -/

namespace Sys2Proof.Machine

set_option Elab.async false -- one declaration after another: the check bounds the threads waiting on one another

variable {s : State}

section
variable {sec index field : Nat}

theorem writeReq_error {e : Nat} (refused : settingOf sec index field = .error e) (v : Nat) :
    s.writeReq sec index field v = refuse s .badObject e := by
  simp only [State.writeReq, refused]

theorem readReq_error {e : Nat} (refused : settingOf sec index field = .error e) :
    s.readReq sec index field = refuse s .badObject e := by
  simp only [State.readReq, refused]

variable {k : StoreSection} {name : SettingName} (named : settingOf sec index field = .ok (k, name))
include named

theorem writeReq_ok (v : Nat) : s.writeReq sec index field v =
    if s.store.write.isSome then refuse s .busy s.remainingSections
    else if (s.flagsOf k).lock && !s.service then refuse s .locked 0
    else if s.refuses name (s.store.live.write name v) then refuse s .state 0
    else s.acceptWrite k name index field v := by
  simp only [State.writeReq, named]

theorem readReq_ok : s.readReq sec index field = (s, .reply (enc32 (BitVec.ofNat 32 (s.store.live.value name)) ++
    [flagByte (s.flagsOf k).lock, flagByte (s.flagsOf k).modified])) := by
  simp only [State.readReq, named]

end

theorem byteOf_toNat (b : Byte) : byteOf b.toNat = b := by
  rw [byteOf_of_le (by have := b.isLt; omega), BitVec.ofNat_toNat, BitVec.setWidth_eq]

/-! ### The value stored -/

theorem Settings.value_write_min (t : Settings) (d : DetNo) (v : Nat) (positive : 1 ≤ (t.detectors[d.val]).wMax) :
    (t.write (.detector d 4) v).value (.detector d 4) = max 1 (min v (min 50 (t.detectors[d.val]).wMax)) :=
  (t.write_width d v).1.1.trans (clamp_eq (by omega) v)

theorem Settings.value_write_max (t : Settings) (d : DetNo) (v : Nat) (small : (t.detectors[d.val]).wMin ≤ 2000) :
    (t.write (.detector d 5) v).value (.detector d 5) = max (t.detectors[d.val]).wMin (min v 2000) :=
  (t.write_width d v).2.1.trans (clamp_eq small v)

theorem flagByte_clamped (zones : Bool) (stored asked : Nat) :
    flagByte (!zones && stored != asked) = if zones = false ∧ stored ≠ asked then 1 else 0 := by
  simp [flagByte]

/-- An accepted write, and its answer. -/
theorem acceptWrite_eq (k : StoreSection) (name : SettingName) (v : Nat) (sec index field : Byte) (num : k.num = sec.toNat) :
    s.acceptWrite k name index.toNat field.toNat v =
      let old := s.store.live
      let new := old.write name v
      let stored := new.value name
      ((((({ s with store := { s.store with live := new } }).setFlags k { s.flagsOf k with modified := true }).record
          .setting sec index ⟨field, highByte (old.value name), lowByte (old.value name), highByte stored, lowByte stored⟩
          ).handSetting name),
        .reply (enc32 (BitVec.ofNat 32 stored) ++ [if name.isZoneSet = false ∧ stored ≠ v then 1 else 0])) := by
  simp only [State.acceptWrite, State.settingRecord, num, byteOf_toNat, flagByte_clamped]
  rfl

/-! ### What an owner does with a value -/

theorem handSetting_glareLimit (d : DetNo) : s.handSetting (.detector d 6) =
    if (s.det d).lit = true ∧ s.holds (.detector d) .glare = false ∧ (s.detCfg d).glareLimit * 10 ≤ (s.det d).width
    then (((s.setDet d { s.det d with glare := .glaring }).raiseFault (.detector d) .glare).dropCandidate d 2).judgeBlind
    else s := by
  show (if s.glareDue d = true then (s.beginGlare d).judgeBlind else s) = _
  simp only [State.glareDue_iff]
  refine ite_congr rfl (fun ⟨_, free, _⟩ => ?_) fun _ => rfl
  rw [State.beginGlare, State.raiseDet_of_free (by simpa using free)]

theorem handSetting_glareClear_idle (d : DetNo)
    (idle : s.holds (.detector d) .glare = false ∨ ∀ since, (s.det d).glare ≠ .clearing since) :
    s.handSetting (.detector d 7) = s := by
  refine if_neg fun due => ?_
  unfold State.glareOver at due
  obtain free | dark := idle
  · simp [free] at due
  · split at due
    · next since clearing => exact dark since clearing
    · simp at due

theorem handSetting_glareClear {d : DetNo} {since : Instant} (held : s.holds (.detector d) .glare = true)
    (clearing : (s.det d).glare = .clearing since) (recent : (s.uptime - since).toNat < 2 ^ 31)
    (short : (s.detCfg d).glareClear < 2 ^ 31) :
    s.handSetting (.detector d 7) = if (s.detCfg d).glareClear ≤ (s.uptime - since).toNat
      then ((s.setDet d { s.det d with glare := .none }).clearFault (.detector d) .glare).judgeBlind else s := by
  show (if s.glareOver d = true then (s.endGlare d).judgeBlind else s) = _
  simp only [State.glareOver_clearing held clearing recent short, decide_eq_true_eq]
  rfl

theorem handSetting_detector_other (d : DetNo) {f : Nat} (other : f ≠ 1 ∧ f ≠ 6 ∧ f ≠ 7 ∧ f ≠ 8) :
    s.handSetting (.detector d f) = s := by
  unfold State.handSetting
  dsimp only
  split <;> simp_all

theorem sectorPatternWritten_eq (n : SectorNo) (level : Demand) : s.sectorPatternWritten n level =
    if (s.sector n).state = .sounding ∧ (s.sector n).playing = level ∧ (s.sector n).cycle = none
    then (s.setSector n { s.sector n with
      pendingLevel := .none, pattern := (s.sectorCfg n).patternFor level }).startCycle n
    else s := by
  simp only [State.sectorPatternWritten, Option.isNone_iff_eq_none]
  refine ite_congr rfl (fun ⟨_, playing, _⟩ => ?_) fun _ => rfl
  rw [switchSector_eq]
  dsimp only
  rw [if_pos playing]
  subst playing
  rfl

theorem handSetting_sector_other (n : SectorNo) {f : Nat} (other : f ≠ 1 ∧ f ≠ 2 ∧ f ≠ 3) :
    s.handSetting (.sector n f) = s := by
  unfold State.handSetting
  dsimp only
  split <;> simp_all

theorem patternWritten_eq (p : PatternNo) : s.patternWritten p = forAll (fun n u =>
    if (u.sector n).pattern = some p ∧ (u.sector n).cycle = none then u.startCycle n else u) s := by
  simp only [State.patternWritten, Option.isNone_iff_eq_none]

/-- Settles O48: the checks of a setting's numbers, the value a write stores, and each owner's part by the setting's
kind. -/
theorem settingsAreWrittenAndRead : Obligations.SettingsAreWrittenAndRead := by
  refine ⟨settingOf_checks, fun s k sec index field v => ?_⟩
  intro u at_ asked
  have owner : u.writeReq sec.toNat index.toNat field.toNat (word32At ([sec, index, field] ++ enc32 v) 3) =
      u.writeReq sec.toNat index.toNat field.toNat v.toNat := congrArg (u.writeReq _ _ _) (word32At_enc32 ..)
  refine ⟨fun e refused => ⟨fun taken => ?_, fun taken => ?_⟩, fun kk name named => ?_, ?_, ?_, fun n f => rfl,
    fun c f => rfl, ?_, fun p f => patternWritten_eq p, fun i f => rfl, fun f => rfl⟩
  · exact request_refused taken (r := .badObject) (d := e) (writeReq_error (by exact refused) _)
      (settingOf_error_small refused)
  · exact request_refused taken (r := .badObject) (d := e) (readReq_error (by exact refused))
      (settingOf_error_small refused)
  · intro flags old
    have idles (idle : s.store.write = none) : ¬u.store.write.isSome = true := by simp [u, State.withLink, idle]
    have checked : u.writeReq sec.toNat index.toNat field.toNat v.toNat = _ := writeReq_ok (by exact named) v.toNat
    have unlocked (open_ : flags.lock = false ∨ s.service = true) : ¬((u.flagsOf kk).lock && !u.service) = true := by
      rintro held
      obtain ⟨locked, away⟩ := Bool.and_eq_true_iff.mp held
      obtain free | here := open_
      · exact Bool.false_ne_true (free.symm.trans locked)
      · simp [show u.service = true from here] at away
    refine ⟨fun taken => request_replied taken (readReq_ok (by exact named)), fun taken => ⟨fun w writing => ?_, fun idle =>
      ⟨fun locked away => ?_, fun open_ => ⟨old.write name v.toNat, rfl, fun other ne => Settings.value_write_of_ne old _ ne,
        fun zones => (Settings.value_write_zoneSet old _ zones).1, fun plain ne => Settings.value_write_self old _ plain ne,
        fun d same positive => ?_, fun d same small => ?_, fun refused => ?_, fun accepted => ?_⟩⟩⟩⟩
    · refine (request_refused_with taken (owner.trans (checked.trans
        (if_pos (Option.isSome_of_eq_some (by exact writing)))))).trans ?_
      rw [remainingSections_of (by exact writing)]
      rfl
    · refine request_refused taken (r := .locked) (d := 0) (owner.trans (checked.trans
        ((if_neg (idles idle)).trans (if_pos ?_))))
      exact Bool.and_eq_true_iff.mpr ⟨locked, by exact (congrArg Bool.not away)⟩
    · subst same
      exact Settings.value_write_min old d _ positive
    · subst same
      exact Settings.value_write_max old d _ small
    · exact request_refused taken (r := .state) (d := 0) (owner.trans (checked.trans
        ((if_neg (idles idle)).trans ((if_neg (unlocked open_)).trans (if_pos (by exact refused))))))
    · exact request_replied taken (owner.trans (checked.trans ((if_neg (idles idle)).trans
        ((if_neg (unlocked open_)).trans ((if_neg (by exact Bool.not_eq_true _ ▸ accepted)).trans
          (acceptWrite_eq kk name v.toNat sec index field (settingOf_ok named)))))))
  · exact fun new => ⟨refuses_detector new, refuses_line new, refuses_input new, refuses_closure new, fun _ _ => rfl,
      fun _ _ => rfl, fun _ => rfl⟩
  · intro d f x cfg o handed
    refine ⟨fun f1 => ?_, fun f6 => ?_, fun f7 => ⟨fun idle => ?_, fun since held clearing recent short => ?_⟩, fun f8 => ?_,
      fun ne1 ne6 ne7 ne8 => handSetting_detector_other d ⟨ne1, ne6, ne7, ne8⟩⟩
    · subst f1; rfl
    · subst f6; exact handSetting_glareLimit d
    · subst f7; exact handSetting_glareClear_idle d idle
    · subst f7; exact handSetting_glareClear held clearing recent short
    · subst f8; rfl
  · intro n f x cfg handed taken
    refine ⟨fun f1 => ?_, fun f2 => ?_, fun f3 => ?_, fun ne1 ne2 ne3 => handSetting_sector_other n ⟨ne1, ne2, ne3⟩⟩
    · subst f1; rfl
    · subst f2; exact sectorPatternWritten_eq n .alert
    · subst f3; exact sectorPatternWritten_eq n .fire

end Sys2Proof.Machine
end

