-- ==== Sys2Proof/Proofs/LevelChanges.lean ====
section
/-! The level of a zone, and the handing of its change to closures, lines and sectors (R92). -/

namespace Sys2Proof.Machine

set_option Elab.async false -- one declaration after another: the check bounds the threads waiting on one another

variable {s : State}

/-! ### Choices that a running state makes, fixed beforehand -/

theorem forEach_congr {α : Type} {f g : α → State → State} {l : List α} (eq : ∀ a ∈ l, f a = g a) (s : State) :
    forEach l f s = forEach l g s := by
  induction l generalizing s with
  | nil => rfl
  | cons a l ih =>
    show forEach l f (f a s) = forEach l g (g a s)
    rw [eq a (by simp)]
    exact ih (fun b mem => eq b (by simp [mem])) _

/-- A choice that each object's operation takes from the state it finds is one made for every object beforehand. -/
theorem forAll_choice {k : Nat} (f : Bool → Fin k → State → State) (pick : State → Bool) (s : State) :
    ∃ first : Fin k → Bool, forAll (fun n u => f (pick u) n u) s = forAll (fun n u => f (first n) n u) s := by
  have each (l : List (Fin k)) (once : l.Nodup) : ∀ u, ∃ first : Fin k → Bool,
      forEach l (fun n v => f (pick v) n v) u = forEach l (fun n v => f (first n) n v) u := by
    induction l with
    | nil => exact fun _ => ⟨fun _ => false, rfl⟩
    | cons a l ih =>
      intro u
      obtain ⟨fresh, rest⟩ := List.nodup_cons.mp once
      obtain ⟨first, eq⟩ := ih rest (f (pick u) a u)
      refine ⟨Function.update first a (pick u), eq.trans ?_⟩
      show _ = forEach l _ (f (Function.update first a (pick u) a) a u)
      rw [Function.update_self]
      refine forEach_congr (fun n mem => ?_) _
      rw [Function.update_of_ne (ne_of_mem_of_not_mem mem fresh)]
  exact each _ (List.nodup_finRange k) s

/-- An operation for one object alone among all. -/
theorem forAll_single {k : Nat} (i : Fin k) (g : State → State) :
    forAll (fun n (u : State) => if n = i then g u else u) s = g s :=
  forAll_once (i := i) (Before := (· = s)) (After := (· = g s)) (fun _ same => by rw [if_pos rfl, same])
    (fun _ _ other same => by rwa [if_neg other]) (fun _ _ other same => by rwa [if_neg other]) rfl

theorem forAll_idle {k : Nat} : forAll (fun (_ : Fin k) (u : State) => u) s = s :=
  forAll_keeps (P := (· = s)) (fun _ _ same => same) rfl

/-! ### A line reached both ways -/

theorem stoppable_iff (x : Line) : x.stoppable = true ↔ x.state = .starting ∨ x.state = .run ∨ x.state = .abort ∨
    (x.state = .stopping ∧ x.stopCause = .orderly ∧ x.fstop = false) := by
  simp [Line.stoppable, or_assoc, and_assoc]

theorem raced_iff {z : ZoneNo} {n : LineNo} : s.raced z n = true ↔
    (zoneIn (s.lineCfg n).tripZones z = true ∧ (s.zone z).level = .fire) ∧
    ((s.line n).state = .starting ∨ (s.line n).state = .run ∨ (s.line n).state = .abort ∨
      ((s.line n).state = .stopping ∧ (s.line n).stopCause = .orderly ∧ (s.line n).fstop = false)) ∧
    ∃ c, (s.triggers c z = true ∧ s.disabled (.closure c) = false) ∧ (s.closureCfg c).kind = .damper ∧
      (s.closureCfg c).line = some n ∧ ((s.closure c).state = .held ∨ (s.closure c).state = .ready ∨
        ((s.closure c).state = .stuck ∧ (s.closure c).direction = .opening)) := by
  simp only [State.raced, Bool.and_eq_true, beq_iff_eq, stoppable_iff, List.any_eq_true, List.mem_finRange, true_and,
    releasable_iff, State.damperOf, Bool.not_eq_true']
  constructor
  · rintro ⟨⟨⟨fire, trip⟩, moves⟩, c, ⟨released, free⟩, damper⟩
    exact ⟨⟨trip, fire⟩, moves, c, released, damper.1, damper.2, free⟩
  · rintro ⟨⟨trip, fire⟩, moves, c, released, kind, line, free⟩
    exact ⟨⟨⟨fire, trip⟩, moves⟩, c, ⟨released, free⟩, kind, line⟩

/-- At a line reached both ways, the trip taken first or left. -/
def State.tripChosen (z : ZoneNo) (early : Bool) (n : LineNo) (s : State) : State :=
  if s.raced z n then
    let v := { s with freeCount := s.freeCount + 1 }
    if early then v.protectLine n .fire else v
  else s

theorem tripEarly_eq (z : ZoneNo) (n : LineNo) : s.tripEarly z n = s.tripChosen z (Config.freeTripFirst s.freeCount) n := rfl

/-! ### Zones whose records give another level -/

theorem levelOfZone_eq {z : ZoneNo} {l : Level} (each : ∀ r ∈ s.causes, r.zone = z → r.level.rank ≤ l.rank)
    (found : l = .quiet ∨ ∃ r ∈ s.causes, r.zone = z ∧ r.level = l) : levelOfZone s.causes z = l := by
  have sound : (s.setZone z ⟨l, none⟩).zoneSound z := by
    unfold State.zoneSound
    rw [State.setZone_zone_self]
    exact ⟨each, found⟩
  have eq := zoneSound_iff.mp sound
  rw [State.setZone_zone_self] at eq
  exact eq.symm

theorem deriveChanged_eq (before : List Cause) : s.deriveChanged before = forAll (fun y (u : State) =>
    if levelOfZone before y = levelOfZone s.causes y then u else u.deriveZone y) s :=
  forAll_congr (P := fun u => u.causes = s.causes)
    (fun y u same => by split <;> simp only [State.deriveZone_causes, same])
    (fun y u same => by rw [same]) rfl

/-- Settles O35: the level is the records', and its change goes by the lines reached both ways, the closures, the lines and
the sectors. -/
theorem zoneLevelFollowsItsCauses : Obligations.ZoneLevelFollowsItsCauses := by
  intro s z l each found old noted trips released bothWays early closures lines sectors
  have level : levelOfZone s.causes z = l := levelOfZone_eq each found
  refine ⟨fun same => ?_, fun other => ?_, fun before same => ?_, fun before other same => ?_, deriveChanged_eq, level⟩
  · exact if_pos (level ▸ same)
  · obtain ⟨first, chosen⟩ := forAll_choice (State.tripChosen z) (fun u => Config.freeTripFirst u.freeCount) noted
    have taken : early first noted = forAll (State.tripEarly z) noted := by
      refine Eq.trans ?_ chosen.symm
      exact congrArg (forAll · noted) (funext₂ fun n u => if_congr raced_iff.symm rfl rfl)
    have let_go (u : State) : u.handClosures z = closures u := by
      refine congrArg (forAll · u) (funext₂ fun c v => if_congr ?_ rfl rfl)
      simp [released]
    have tripped (u : State) : u.handLines z = lines u := by
      refine congrArg (forAll · u) (funext₂ fun n v => if_congr ?_ rfl rfl)
      simp [trips]
    refine ⟨first, ?_⟩
    rw [taken, ← let_go, ← tripped]
    unfold State.deriveZone
    dsimp only
    rw [level, if_neg other]
    rfl
  · rw [deriveChanged_eq]
    simp only [same, if_true]
    exact forAll_idle
  · rw [deriveChanged_eq]
    refine Eq.trans (congrArg (forAll · s) (funext₂ fun y u => ?_)) (forAll_single z fun u => u.deriveZone z)
    by_cases here : y = z
    · subst here
      rw [if_neg (level ▸ other), if_pos rfl]
    · rw [if_pos (same y here), if_neg here]

end Sys2Proof.Machine
end

