-- ==== Sys2Proof/Proofs/WindowMerges.lean ====
section
/-! The merging of windows (R35 to R39): a window inserted is joined to those near it, and the list stays apart, in
order, and covers every instant called for. -/

namespace Sys2Proof.Machine

set_option Elab.async false -- one declaration after another: the check bounds the threads waiting on one another

variable {now : Instant} {v w u : Window} {l : List Window} {k : Nat}

/-- A window that starts before it ends, by the signed differences from the present instant (R35). -/
def Window.proper (now : Instant) (v : Window) : Prop := rel now v.start < rel now v.stop

/-- A window that ends more than 50 ms before another starts. -/
def Window.apart (now : Instant) (a b : Window) : Prop := rel now a.stop + 50 < rel now b.start

/-- An instant within a window. -/
def Window.covers (now : Instant) (v : Window) (t : Instant) : Prop := rel now v.start ≤ rel now t ∧ rel now t < rel now v.stop

/-- A window that comes before another in the list where the gap to a third decides (R37, R38). -/
def Window.nearer (now : Instant) (w v u : Window) : Prop :=
  gap now w v < gap now w u ∨ (gap now w v = gap now w u ∧ rel now v.start ≤ rel now u.start)

/-- A list of proper windows in order, apart from each other. -/
structure Spaced (now : Instant) (l : List Window) : Prop where
  proper : ∀ v ∈ l, v.proper now
  apart : l.Pairwise (Window.apart now)

/-! ### Gaps and hulls -/

theorem lt_gap_iff (first : v.proper now) (second : w.proper now) : 50 < gap now w v ↔ v.apart now w ∨ w.apart now v := by
  unfold Window.proper at first second
  unfold gap Window.apart
  split <;> omega

theorem hull_start (v w : Window) : rel now (hull now v w).start = min (rel now v.start) (rel now w.start) := by
  unfold hull
  dsimp only
  split <;> omega

theorem hull_stop (v w : Window) : rel now (hull now v w).stop = max (rel now v.stop) (rel now w.stop) := by
  unfold hull
  dsimp only
  split <;> omega

theorem hull_proper (second : w.proper now) : (hull now v w).proper now := by
  unfold Window.proper at second ⊢
  rw [hull_start, hull_stop]
  omega

theorem hull_covers {t : Instant} (covered : v.covers now t ∨ w.covers now t) : (hull now v w).covers now t := by
  unfold Window.covers at covered ⊢
  rw [hull_start, hull_stop]
  omega

theorem hull_origin (v w : Window) :
    (hull now v w).origin = if rel now w.start < rel now v.start then w.origin else v.origin := by
  unfold hull
  dsimp only
  split <;> rfl

/-! ### The nearest window -/

theorem Spaced.tail (spaced : Spaced now (v :: l)) : Spaced now l :=
  ⟨fun u mem => spaced.proper u (by simp [mem]), spaced.apart.of_cons⟩

/-- In a spaced list every window starts after those before it. -/
theorem Spaced.before (spaced : Spaced now (v :: l)) (mem : u ∈ l) : rel now v.start < rel now u.start := by
  have first : v.proper now := spaced.proper v (by simp)
  have far : v.apart now u := List.rel_of_pairwise_cons spaced.apart mem
  unfold Window.proper at first
  unfold Window.apart at far
  omega

theorem nearest_spec (spaced : Spaced now l) (found : nearest now w l = some v) : v ∈ l ∧ ∀ u ∈ l, Window.nearer now w v u := by
  induction l generalizing v with
  | nil => cases found
  | cons a l ih =>
    unfold nearest at found
    split at found
    · next none =>
      cases found
      obtain rfl := nearest_eq_none now none
      simp [Window.nearer]
    · next b least =>
      obtain ⟨mem, near⟩ := ih spaced.tail least
      have later := spaced.before mem
      split at found
      · next closer =>
        cases found
        refine ⟨by simp [mem], fun u there => ?_⟩
        obtain rfl | there := List.mem_cons.mp there
        · exact .inl closer
        · exact near u there
      · next farther =>
        cases found
        refine ⟨by simp, fun u there => ?_⟩
        obtain rfl | there := List.mem_cons.mp there
        · exact .inr ⟨rfl, le_rfl⟩
        · have := near u there
          have := spaced.before there
          unfold Window.nearer at *
          omega

/-- Of a spaced list two windows with one start are one. -/
theorem Spaced.eq_of_start (spaced : Spaced now l) (hv : v ∈ l) (hu : u ∈ l) (same : rel now v.start = rel now u.start) : v = u := by
  induction l with
  | nil => cases hv
  | cons a l ih =>
    obtain hv | hv := List.mem_cons.mp hv <;> obtain hu | hu := List.mem_cons.mp hu
    · rw [hv, hu]
    · have := spaced.before hu
      rw [hv] at same
      omega
    · have := spaced.before hv
      rw [hu] at same
      omega
    · exact ih spaced.tail hv hu

theorem nearest_eq_of_nearer (spaced : Spaced now l) (mem : v ∈ l) (near : ∀ u ∈ l, Window.nearer now w v u) :
    nearest now w l = some v := by
  cases found : nearest now w l with
  | none => simp [nearest_eq_none now found] at mem
  | some u =>
    obtain ⟨there, least⟩ := nearest_spec spaced found
    have forth := near u there
    have back := least v mem
    unfold Window.nearer at forth back
    exact congrArg some (spaced.eq_of_start there mem (by omega))

theorem Spaced.erase (spaced : Spaced now l) (v : Window) : Spaced now (l.erase v) :=
  ⟨fun u mem => spaced.proper u (List.mem_of_mem_erase mem), spaced.apart.sublist List.erase_sublist⟩

/-- Where the nearest is more than 50 ms away, every window is. -/
theorem apart_of_nearest (spaced : Spaced now l) (new : w.proper now) (found : nearest now w l = some v)
    (far : 50 < gap now w v) : ∀ u ∈ l, u.apart now w ∨ w.apart now u := by
  intro u mem
  have := (nearest_spec spaced found).2 u mem
  refine (lt_gap_iff (spaced.proper u mem) new).mp ?_
  unfold Window.nearer at this
  omega

/-! ### Placing a window -/

theorem place_perm (w : Window) (l : List Window) : (place now w l).Perm (w :: l) := by
  induction l with
  | nil => exact .refl _
  | cons v l ih =>
    unfold place
    split
    · exact .refl _
    · exact (ih.cons v).trans (.swap w v l)

theorem Spaced.place (spaced : Spaced now l) (new : w.proper now) (free : ∀ v ∈ l, v.apart now w ∨ w.apart now v) :
    Spaced now (place now w l) := by
  refine ⟨fun v mem => ?_, ?_⟩
  · obtain rfl | mem := List.mem_cons.mp ((place_perm w l).mem_iff.mp mem)
    · exact new
    · exact spaced.proper v mem
  · induction l with
    | nil => exact List.pairwise_singleton ..
    | cons v l ih =>
      have own : v.proper now := spaced.proper v (by simp)
      have beside := free v (by simp)
      unfold Window.proper at own new
      unfold Machine.place
      split
      · next first =>
        refine List.pairwise_cons.mpr ⟨fun u mem => ?_, spaced.apart⟩
        have ahead : w.apart now v := beside.resolve_left fun back => by
          unfold Window.apart at back
          omega
        obtain rfl | mem := List.mem_cons.mp mem
        · exact ahead
        · have := spaced.before mem
          unfold Window.apart at ahead ⊢
          omega
      · next later =>
        refine List.pairwise_cons.mpr ⟨fun u mem => ?_, ih spaced.tail fun u mem => free u (by simp [mem])⟩
        obtain rfl | mem := List.mem_cons.mp ((place_perm w l).mem_iff.mp mem)
        · exact beside.resolve_right fun ahead => by
            unfold Window.apart at ahead
            omega
        · exact List.rel_of_pairwise_cons spaced.apart mem

/-! ### Absorbing the windows near -/

/-- What a list of windows covers. -/
def Covered (now : Instant) (l : List Window) (t : Instant) : Prop := ∃ v ∈ l, v.covers now t

theorem covered_erase {t : Instant} (covered : Covered now (w :: l) t) :
    Covered now (hull now v w :: l.erase v) t := by
  obtain ⟨u, mem, inside⟩ := covered
  obtain rfl | mem := List.mem_cons.mp mem
  · exact ⟨_, List.mem_cons_self, hull_covers (.inr inside)⟩
  · by_cases same : u = v
    · subst same
      exact ⟨_, List.mem_cons_self, hull_covers (.inl inside)⟩
    · exact ⟨u, by simp [List.mem_erase_of_ne same, mem], inside⟩

theorem absorb_near (found : nearest now w l = some v) (near : gap now w v ≤ 50) :
    absorb now (k + 1) w l = absorb now k (hull now v w) (l.erase v) := by
  simp only [absorb, found, if_pos near]

theorem absorb_far (free : ∀ v, nearest now w l = some v → 50 < gap now w v) : absorb now k w l = place now w l := by
  cases k with
  | zero => rfl
  | succ k =>
    unfold absorb
    split
    · rfl
    · next v found => exact if_neg (by have := free v found; omega)

/-- Where a window of the list is near, one is nearest. -/
theorem near_or_far (now : Instant) (w : Window) (l : List Window) :
    (∃ v, nearest now w l = some v ∧ gap now w v ≤ 50) ∨ ∀ v, nearest now w l = some v → 50 < gap now w v := by
  by_cases near : ∃ v, nearest now w l = some v ∧ gap now w v ≤ 50
  · exact .inl near
  · exact .inr fun v found => by
      by_contra close
      exact near ⟨v, found, by omega⟩

/-- What an insertion makes of a spaced list. -/
structure Inserted (now : Instant) (w : Window) (l r : List Window) : Prop where
  spaced : Spaced now r
  covered : ∀ t, Covered now (w :: l) t → Covered now r t

theorem place_inserted (spaced : Spaced now l) (new : w.proper now)
    (free : ∀ v, nearest now w l = some v → 50 < gap now w v) : Inserted now w l (place now w l) := by
  refine ⟨spaced.place new ?_, fun t ⟨u, mem, inside⟩ => ⟨u, (place_perm w l).mem_iff.mpr mem, inside⟩⟩
  cases found : nearest now w l with
  | none => simp [nearest_eq_none now found]
  | some v => exact apart_of_nearest spaced new found (free v found)

theorem Inserted.of_erase {r : List Window} (rest : Inserted now (hull now v w) (l.erase v) r) : Inserted now w l r :=
  ⟨rest.spaced, fun t covered => rest.covered t (covered_erase covered)⟩

theorem absorb_inserted (spaced : Spaced now l) (new : w.proper now) (fuel : l.length ≤ k) :
    Inserted now w l (absorb now k w l) := by
  induction k generalizing w l with
  | zero =>
    obtain rfl := List.length_eq_zero_iff.mp (Nat.le_zero.mp fuel)
    exact place_inserted spaced new (by simp [nearest])
  | succ k ih =>
    obtain ⟨v, found, near⟩ | free := near_or_far now w l
    · have shorter := List.length_erase_of_mem (nearest_mem now found)
      rw [absorb_near found near]
      exact (ih (spaced.erase v) (hull_proper new) (by omega)).of_erase
    · rw [absorb_far free]
      exact place_inserted spaced new free

/-- More steps than listed windows change nothing. -/
theorem absorb_fuel (spaced : Spaced now l) (fuel : l.length ≤ k) : absorb now k w l = absorb now l.length w l := by
  induction k generalizing w l with
  | zero => rw [Nat.le_zero.mp fuel]
  | succ k ih =>
    obtain ⟨v, found, near⟩ | free := near_or_far now w l
    · have mem := (nearest_spec spaced found).1
      have positive := List.length_pos_of_mem mem
      have shorter := List.length_erase_of_mem mem
      obtain ⟨m, size⟩ : ∃ m, l.length = m + 1 := ⟨l.length - 1, by omega⟩
      rw [size, absorb_near found near, absorb_near found near, ih (spaced.erase v) (by omega)]
      congr 1
      omega
    · rw [absorb_far free, absorb_far free]

/-! ### Inserting a window -/

theorem insertWindow_room (room : l.length < 4) : insertWindow now w l = (absorb now l.length w l, false) := by
  unfold insertWindow
  split
  · next none => rw [nearest_eq_none now none]; rfl
  · exact if_neg fun ⟨_, full⟩ => by
      have : Config.windowCapacity = 4 := rfl
      omega

theorem insertWindow_near (found : nearest now w l = some v) (near : gap now w v ≤ 50) :
    insertWindow now w l = (absorb now l.length w l, false) := by
  simp only [insertWindow, found]
  exact if_neg fun ⟨far, _⟩ => by omega

theorem insertWindow_forced (found : nearest now w l = some v) (far : 50 < gap now w v) (full : l.length = 4) :
    insertWindow now w l = (absorb now l.length (hull now v w) (l.erase v), true) := by
  simp only [insertWindow, found]
  exact if_pos ⟨far, full.ge⟩

/-- The join of the nearest window and the insertion of the hull among the others. -/
theorem insertWindow_joined (spaced : Spaced now l) (few : l.length ≤ 4) (mem : v ∈ l) (fuel : (l.erase v).length ≤ k) :
    absorb now k (hull now v w) (l.erase v) = (insertWindow now (hull now v w) (l.erase v)).1 := by
  have shorter := List.length_erase_of_mem mem
  have positive := List.length_pos_of_mem mem
  rw [insertWindow_room (by omega), absorb_fuel (spaced.erase v) fuel]

theorem insertWindow_inserted (spaced : Spaced now l) (new : w.proper now) : Inserted now w l (insertWindow now w l).1 := by
  unfold insertWindow
  split
  · next none => exact place_inserted spaced new (by simp [none])
  · next v found =>
    have shorter := List.length_erase_of_mem (nearest_mem now found)
    split
    · exact (absorb_inserted (spaced.erase v) (hull_proper new) (by omega)).of_erase
    · exact absorb_inserted spaced new le_rfl

theorem full_of_forced (few : l.length ≤ 4) (forced : (insertWindow now w l).2 = true) : l.length = 4 := by
  by_contra less
  rw [insertWindow_room (by omega)] at forced
  cases forced

/-- Settles O25: the hull covers both, and an insertion joins the nearest while one is near, then places what it has. -/
theorem insertedWindowsCoverEverySpray : Obligations.InsertedWindowsCoverEverySpray := by
  intro now w l at_ covers apart proper
  refine ⟨fun v => ⟨hull_start v w, hull_stop v w, rfl, rfl, hull_origin v w⟩, fun new own apart_ few => ?_⟩
  intro r
  have spaced : Spaced now l := ⟨own, apart_⟩
  have inserted : Inserted now w l r.1 := insertWindow_inserted spaced new
  have lt_gap {v : Window} (mem : v ∈ l) : 50 < gap now w v ↔ apart v w ∨ apart w v := lt_gap_iff (own v mem) new
  refine ⟨inserted.spaced.proper, inserted.spaced.apart, insertWindow_ne_nil now w l, length_insertWindow_le now few,
    fun t covered => inserted.covered t ((List.exists_mem_cons_iff _ w l).mpr covered), fun room free => ?_, fun full free => ?_,
    full_of_forced few, fun v mem near => ?_⟩
  · have far (v : Window) (found : nearest now w l = some v) : 50 < gap now w v :=
      have mem := nearest_mem now found
      (lt_gap mem).mpr (free v mem)
    have plain : r = (place now w l, false) := (insertWindow_room room).trans (by rw [absorb_far far])
    exact ⟨plain ▸ place_perm w l, congrArg Prod.snd plain⟩
  · cases found : nearest now w l with
    | none => simp [nearest_eq_none now found] at full
    | some v =>
      have mem := nearest_mem now found
      exact congrArg Prod.snd (insertWindow_forced found ((lt_gap mem).mpr (free v mem)) full)
  · have found : nearest now w l = some v := nearest_eq_of_nearer spaced mem near
    have shorter := List.length_erase_of_mem mem
    have positive := List.length_pos_of_mem mem
    refine ⟨fun close => ?_, fun far full => ?_⟩
    · obtain ⟨m, size⟩ : ∃ m, l.length = m + 1 := ⟨l.length - 1, by omega⟩
      rw [← insertWindow_joined (k := m) spaced few mem (by omega), ← absorb_near found close, ← size]
      exact insertWindow_near found close
    · rw [← insertWindow_joined (k := l.length) spaced few mem (by omega)]
      exact insertWindow_forced found far full

end Sys2Proof.Machine
end

