-- ==== Sys2Proof/Proofs/StatusBytes.lean ====
section
/-! The STATUS payload byte by byte (R163, R184). -/

namespace Sys2Proof.Machine

set_option Elab.async false -- one declaration after another: the check bounds the threads waiting on one another

variable {s : State}

/-! ### Numbers and sets of bits as bytes -/

theorem testBit_bitsOf (l : List Bool) (i : Nat) : (bitsOf l).testBit i = l.getD i false := by
  induction l generalizing i with
  | nil => simp [bitsOf]
  | cons b l ih =>
    cases i with
    | zero => cases b <;> simp [bitsOf, Nat.testBit_zero]
    | succ i =>
      have half : ((if b then 1 else 0) + 2 * bitsOf l) / 2 = bitsOf l := by split <;> omega
      rw [bitsOf, Nat.testBit_succ, half, ih]
      rfl

theorem testBit_setOf {k : Nat} (p : Fin k → Bool) (i : Fin k) : (setOf k p).testBit i.val = p i := by
  rw [setOf, testBit_bitsOf]
  simp [List.getD_eq_getElem?_getD]

/-- A byte of a number shows eight of its bits. -/
theorem getLsbD_byte (x j : Nat) {i : Nat} (small : i < 8) : (BitVec.ofNat 8 (x / 2 ^ j)).getLsbD i = x.testBit (j + i) := by
  rw [BitVec.getLsbD_ofNat, Nat.testBit_div_two_pow, Nat.add_comm i j]
  simp [small]

/-- A list of bytes within a payload, element by element. -/
theorem getD_map_finRange {k : Nat} (before after : Payload) (f : Fin k → Byte) (i : Fin k) :
    (before ++ ((List.finRange k).map f ++ after)).getD (before.length + i.val) 0 = f i := by
  rw [List.getD_eq_getElem?_getD, List.getElem?_append_right (by omega), Nat.add_sub_cancel_left,
    List.getElem?_append_left (by simp)]
  simp

theorem enc32_append (t : BitVec 32) :
    (t.extractLsb' 24 8 ++ t.extractLsb' 16 8 ++ t.extractLsb' 8 8 ++ t.extractLsb' 0 8 : BitVec 32) = t := by
  ext i inside
  simp only [BitVec.getElem_append, BitVec.getElem_extractLsb']
  split_ifs <;> simp [← BitVec.getLsbD_eq_getElem] <;> congr 1 <;> omega

/-! ### Zone levels, lines, and faults -/

theorem Level.rank_lt (l : Level) : l.rank < 4 := by
  cases l <;> decide

theorem levelByte_extract (a b c d : ZoneNo) (r : Fin 4) : (s.levelByte a b c d).extractLsb' (r.val * 2) 2 =
    BitVec.ofNat 2 (s.zone ([a, b, c, d].getD r.val a)).level.rank := by
  have la := (s.zone a).level.rank_lt
  have lb := (s.zone b).level.rank_lt
  have lc := (s.zone c).level.rank_lt
  have ld := (s.zone d).level.rank_lt
  apply BitVec.eq_of_toNat_eq
  fin_cases r <;>
    simp [State.levelByte, BitVec.extractLsb'_toNat, Nat.shiftRight_eq_div_pow] <;> omega

theorem nibbles (a b : Byte) (high : a.toNat < 16) (low : b.toNat < 16) :
    BitVec.ofNat 8 (a.toNat * 16 + b.toNat) = a <<< 4 ||| b := by
  apply BitVec.eq_of_toNat_eq
  have sum := Nat.shiftLeft_add_eq_or_of_lt (i := 4) low a.toNat
  rw [Nat.shiftLeft_eq] at sum
  rw [BitVec.toNat_or, BitVec.toNat_shiftLeft, Nat.shiftLeft_eq, Nat.mod_eq_of_lt (a := a.toNat * 2 ^ 4) (by omega),
    ← Nat.shiftLeft_eq, ← Nat.shiftLeft_add_eq_or_of_lt (i := 4) low, Nat.shiftLeft_eq, BitVec.toNat_ofNat]
  omega

theorem lineByte_eq (n : LineNo) : s.lineByte n = (s.line n).state.code <<< 4 ||| (s.line n).stopCause.code :=
  nibbles _ _ (by cases (s.line n).state <;> decide) (by cases (s.line n).stopCause <;> decide)

/-! ### The payload -/

/-- The four bytes of the zone levels, of a detector set's bits, each by its place. -/
def State.levelBytes (s : State) (q : Fin 4) : Byte :=
  s.levelByte ⟨4 * q.val, by omega⟩ ⟨4 * q.val + 1, by omega⟩ ⟨4 * q.val + 2, by omega⟩ ⟨4 * q.val + 3, by omega⟩

theorem levelBytes_extract (z : ZoneNo) : (s.levelBytes ⟨z.val / 4, by omega⟩).extractLsb' (z.val % 4 * 2) 2 =
    BitVec.ofNat 2 (s.zone z).level.rank := by
  refine (levelByte_extract _ _ _ _ ⟨z.val % 4, by omega⟩).trans (congrArg (fun y => BitVec.ofNat 2 (s.zone y).level.rank) ?_)
  fin_cases z <;> rfl

/-- The faulty detectors' bits, each byte by its place. -/
theorem getLsbD_setOf {k : Nat} (p : Fin k → Bool) (i : Fin k) {j : Nat} (place : i.val / 8 = j) :
    (BitVec.ofNat 8 (setOf k p / 2 ^ (8 * j))).getLsbD (i.val % 8) = p i := by
  rw [getLsbD_byte _ _ (by omega), show 8 * j + i.val % 8 = i.val by omega, testBit_setOf]

/-- The parts of the payload before the zone levels, and after the bytes of each kind of object (R184). -/
def State.statusHead (s : State) : Payload := enc32 s.uptime ++ [s.shift.code, flagByte s.faultOutput, flagByte s.link.dropped]

theorem statusPayload_levels : ∃ rest, s.statusPayload = s.statusHead ++ ((List.finRange 4).map s.levelBytes ++ rest) :=
  ⟨_, rfl⟩

theorem statusPayload_lines : ∃ before rest, before.length = 11 ∧
    s.statusPayload = before ++ ((List.finRange 8).map s.lineByte ++ rest) :=
  ⟨s.statusHead ++ (List.finRange 4).map s.levelBytes, _, rfl, rfl⟩

theorem statusPayload_sectors : ∃ before rest, before.length = 19 ∧
    s.statusPayload = before ++ ((List.finRange 6).map (fun n => (s.sector n).state.code) ++ rest) :=
  ⟨s.statusHead ++ (List.finRange 4).map s.levelBytes ++ (List.finRange 8).map s.lineByte, _, rfl, rfl⟩

end Sys2Proof.Machine
end

