-- ==== Sys2Proof/Proofs/StatusReply.lean ====
section
/-! The STATUS payload field by field (R184). -/

namespace Sys2Proof.Machine

set_option Elab.async false -- one declaration after another: the check bounds the threads waiting on one another

variable {s : State}

theorem status_zone (z : ZoneNo) : (s.statusPayload.getD (7 + z.val / 4) 0).extractLsb' (z.val % 4 * 2) 2 =
    BitVec.ofNat 2 (s.zone z).level.rank := by
  obtain ⟨rest, parts⟩ := statusPayload_levels (s := s)
  rw [parts, ← levelBytes_extract]
  exact congrArg (·.extractLsb' (z.val % 4 * 2) 2) (getD_map_finRange s.statusHead rest s.levelBytes ⟨z.val / 4, by omega⟩)

theorem status_line (n : LineNo) :
    s.statusPayload.getD (11 + n.val) 0 = (s.line n).state.code <<< 4 ||| (s.line n).stopCause.code := by
  obtain ⟨before, rest, place, parts⟩ := statusPayload_lines (s := s)
  rw [parts, ← place, getD_map_finRange, lineByte_eq]

theorem status_sector (n : SectorNo) : s.statusPayload.getD (19 + n.val) 0 = (s.sector n).state.code := by
  obtain ⟨before, rest, place, parts⟩ := statusPayload_sectors (s := s)
  rw [parts, ← place, getD_map_finRange]

theorem status_detector (d : DetNo) :
    (s.statusPayload.getD (25 + d.val / 8) 0).getLsbD (d.val % 8) = (s.faults.get (.detector d) != 0) := by
  let faulty (e : DetNo) : Bool := s.faults.get (.detector e) != 0
  have byte : s.statusPayload.getD (25 + d.val / 8) 0 = BitVec.ofNat 8 (setOf 24 faulty / 2 ^ (8 * (d.val / 8))) := by
    have third : d.val / 8 = 0 ∨ d.val / 8 = 1 ∨ d.val / 8 = 2 := by omega
    obtain eq | eq | eq := third
    · rw [eq, Nat.mul_zero, Nat.pow_zero, Nat.div_one]
      rfl
    · rw [eq]
      rfl
    · rw [eq]
      rfl
  rw [byte]
  exact getLsbD_setOf faulty d rfl

theorem status_lineFaults (n : LineNo) : (s.statusPayload.getD 28 0).getLsbD n.val = (s.faults.get (.line n) != 0) := by
  have bits := getLsbD_setOf (fun m : LineNo => s.faults.get (.line m) != 0) n (j := 0) (by omega)
  rw [Nat.mul_zero, Nat.pow_zero, Nat.div_one, Nat.mod_eq_of_lt (by omega)] at bits
  exact bits

theorem status_station (n : LineNo) : (s.statusPayload.getD 29 0).getLsbD n.val = s.holds (.station n) .noWater := by
  have bits := getLsbD_setOf (fun m : LineNo => s.holds (.station m) .noWater) n (j := 0) (by omega)
  rw [Nat.mul_zero, Nat.pow_zero, Nat.div_one, Nat.mod_eq_of_lt (by omega)] at bits
  exact bits

/-- The payload before the closures' bits. -/
def State.statusBefore (s : State) : Payload :=
  let dets := setOf 24 fun d => s.faults.get (.detector d) != 0
  s.statusHead ++ (List.finRange 4).map s.levelBytes ++ (List.finRange 8).map s.lineByte ++
    (List.finRange 6).map (fun n => (s.sector n).state.code) ++
    [BitVec.ofNat 8 dets, BitVec.ofNat 8 (dets / 256), BitVec.ofNat 8 (dets / 65536)] ++
    enc8 (setOf 8 fun n => s.faults.get (.line n) != 0) ++ enc8 (setOf 8 fun n => s.holds (.station n) .noWater)

theorem statusPayload_closures : ∃ rest : Payload,
    s.statusPayload = s.statusBefore ++ (enc16 (setOf 16 fun c => s.faults.get (.closure c) != 0) ++ rest) := by
  have levels : (List.finRange 4).map s.levelBytes =
    [s.levelByte 0 1 2 3, s.levelByte 4 5 6 7, s.levelByte 8 9 10 11, s.levelByte 12 13 14 15] := rfl
  simp only [State.statusPayload, State.statusBefore, State.statusHead, levels, List.append_assoc]
  exact ⟨_, rfl⟩

theorem getD_enc16 (before rest : Payload) (n : Nat) :
    (before ++ (enc16 n ++ rest)).getD before.length 0 = BitVec.ofNat 8 (n / 256) ∧
    (before ++ (enc16 n ++ rest)).getD (before.length + 1) 0 = BitVec.ofNat 8 n := by
  constructor <;> simp [List.getD_eq_getElem?_getD, enc16]

theorem status_closure (c : ClosureNo) :
    (s.statusPayload.getD 30 0 ++ s.statusPayload.getD 31 0).getLsbD c.val = (s.faults.get (.closure c) != 0) := by
  let faulty (e : ClosureNo) : Bool := s.faults.get (.closure e) != 0
  obtain ⟨rest, parts⟩ : ∃ rest : Payload, s.statusPayload = s.statusBefore ++ (enc16 (setOf 16 faulty) ++ rest) :=
    statusPayload_closures
  have place : s.statusBefore.length = 30 := rfl
  obtain ⟨high, low⟩ := getD_enc16 s.statusBefore rest (setOf 16 faulty)
  rw [place] at high low
  rw [parts, high, low, BitVec.getLsbD_append]
  split
  · next below =>
    have bits := getLsbD_setOf faulty c (j := 0) (by omega)
    rwa [Nat.mul_zero, Nat.pow_zero, Nat.div_one, Nat.mod_eq_of_lt below] at bits
  · next above =>
    have bits := getLsbD_setOf faulty c (j := 1) (by omega)
    rwa [show c.val % 8 = c.val - 8 by omega] at bits

theorem status_store : (s.statusPayload.getD 32 0).getLsbD 0 = s.holds .store .saveFailed ∧
    (s.statusPayload.getD 32 0).getLsbD 1 = s.holds .store .defaulted := by
  have bits {i : Nat} (small : i < 8) := getLsbD_byte (bitsOf [s.holds .store .saveFailed, s.holds .store .defaulted]) 0 small
  have byte : s.statusPayload.getD 32 0 = BitVec.ofNat 8 (bitsOf [s.holds .store .saveFailed, s.holds .store .defaulted]) := rfl
  rw [byte]
  simp only [Nat.pow_zero, Nat.div_one, Nat.zero_add, testBit_bitsOf] at bits
  exact ⟨bits (by decide), bits (by decide)⟩

/-- The first seven bytes: the instant, the shift mode and the two flags. -/
theorem status_head :
    (s.statusPayload.getD 0 0 ++ s.statusPayload.getD 1 0 ++ s.statusPayload.getD 2 0 ++ s.statusPayload.getD 3 0 : BitVec 32) =
      s.uptime ∧ s.statusPayload.getD 4 0 = s.shift.code ∧
    (s.statusPayload.getD 5 0 = if s.faultOutput then 1 else 0) ∧ s.statusPayload.getD 6 0 = if s.link.dropped then 1 else 0 := by
  obtain ⟨rest, parts⟩ := statusPayload_levels (s := s)
  have at_ {i : Nat} (inside : i < 7) : s.statusPayload.getD i 0 = s.statusHead.getD i 0 := by
    rw [parts, List.getD_append _ _ _ _ (by exact inside)]
  rw [at_ (i := 0) (by decide), at_ (i := 1) (by decide), at_ (i := 2) (by decide), at_ (i := 3) (by decide),
    at_ (i := 4) (by decide), at_ (i := 5) (by decide), at_ (i := 6) (by decide)]
  exact ⟨enc32_append s.uptime, rfl, rfl, rfl⟩

theorem status_length : s.statusPayload.length = 37 := by
  simp [State.statusPayload, enc32, enc16, enc8]

/-- The last four bytes: the entries and the reports waiting. -/
theorem statusPayload_counts : ∃ before : Payload, before.length = 33 ∧ s.statusPayload = before ++
    (enc8 s.dis.entries.length ++ (enc8 (s.dis.entries.filter Entry.active).length ++
      (enc8 s.link.alarm.length ++ enc8 s.link.notice.length))) := by
  refine ⟨s.statusBefore ++ enc16 (setOf 16 fun c => s.faults.get (.closure c) != 0) ++
    enc8 (bitsOf [s.holds .store .saveFailed, s.holds .store .defaulted]), by
      simp [State.statusBefore, State.statusHead, enc32, enc16, enc8], ?_⟩
  have levels : (List.finRange 4).map s.levelBytes =
    [s.levelByte 0 1 2 3, s.levelByte 4 5 6 7, s.levelByte 8 9 10 11, s.levelByte 12 13 14 15] := rfl
  simp only [State.statusPayload, State.statusBefore, State.statusHead, levels, List.append_assoc]

theorem status_counts : s.statusPayload.getD 33 0 = BitVec.ofNat 8 s.dis.entries.length ∧
    s.statusPayload.getD 34 0 = BitVec.ofNat 8 (s.dis.entries.filter fun e => e.activated ≠ none).length ∧
    s.statusPayload.getD 35 0 = BitVec.ofNat 8 s.link.alarm.length ∧
    s.statusPayload.getD 36 0 = BitVec.ofNat 8 s.link.notice.length := by
  obtain ⟨before, place, parts⟩ := statusPayload_counts (s := s)
  have actives : Entry.active = fun e : Entry => decide (e.activated ≠ none) :=
    funext fun e => Bool.eq_iff_iff.mpr ((active_iff e).trans decide_eq_true_iff.symm)
  have at_ (i : Nat) : s.statusPayload.getD (33 + i) 0 = (enc8 s.dis.entries.length ++
      (enc8 (s.dis.entries.filter Entry.active).length ++ (enc8 s.link.alarm.length ++ enc8 s.link.notice.length))).getD i 0 := by
    rw [parts, ← place, List.getD_append_right _ _ _ _ (by omega), Nat.add_sub_cancel_left]
  rw [← actives]
  exact ⟨at_ 0, at_ 1, at_ 2, at_ 3⟩

end Sys2Proof.Machine
end

