-- ==== Sys2Proof/Proofs/Records.lean ====
section
/-! The fields of an object's record (R181, R186) and the object READ-OBJECT names (R164). -/

namespace Sys2Proof.Machine

set_option Elab.async false -- one declaration after another: the check bounds the threads waiting on one another

variable {s : State}

/-! ### The object named -/

theorem objectOf_self (o : Obj) : objectOf o.kindCode.toNat o.num = .ok o := by
  cases o with
  | store => rfl
  | _ => simp only [objectOf, Obj.kindCode, Obj.num, numbered_number]; rfl

theorem named_of_objectOf {m n : Nat} {make : Fin m → Obj} {o : Obj} {e : Nat}
    (found : ((numbered m n).map make).elim (.error e) .ok = (.ok o : Except Nat Obj)) : ∃ i : Fin m, number i = n ∧ o = make i := by
  cases named : numbered m n with
  | none => rw [named] at found; cases found
  | some i =>
    rw [named] at found
    cases found
    exact ⟨i, numbered_some named, rfl⟩

/-- The refusal's detail is the range's upper bound. -/
theorem detail_of_objectOf {m n : Nat} {make : Fin m → Obj} {e d : Nat}
    (refused : ((numbered m n).map make).elim (.error e) .ok = (.error d : Except Nat Obj)) : d = e := by
  cases named : numbered m n with
  | none => rw [named] at refused; cases refused; rfl
  | some i => rw [named] at refused; cases refused

theorem eq_of_objectOf {kind num : Nat} {o : Obj} (found : objectOf kind num = .ok o) :
    o.kindCode.toNat = kind ∧ o.num = num := by
  unfold objectOf at found
  split at found
  any_goals
    obtain ⟨i, rfl, rfl⟩ := named_of_objectOf found
    exact ⟨rfl, rfl⟩
  · split at found
    · next zero =>
      cases found
      exact ⟨rfl, zero.symm⟩
    · cases found
  · cases found

theorem objectOf_error {kind num e : Nat} (refused : objectOf kind num = .error e) :
    e = if kind = 1 then 24 else if kind = 2 ∨ kind = 5 ∨ kind = 6 then 16 else if kind = 3 ∨ kind = 4 then 8
      else if kind = 7 then 6 else 0 := by
  unfold objectOf at refused
  split at refused
  any_goals exact detail_of_objectOf refused
  · split at refused <;> cases refused
    rfl
  · cases refused
    simp_all

/-- The upper bound by the kind's byte. -/
theorem objectBound_byte (kind : Byte) :
    BitVec.ofNat 8 (if kind.toNat = 1 then 24 else if kind.toNat = 2 ∨ kind.toNat = 5 ∨ kind.toNat = 6 then 16
      else if kind.toNat = 3 ∨ kind.toNat = 4 then 8 else if kind.toNat = 7 then 6 else 0) =
    (if kind = 1 then 24 else if kind = 2 ∨ kind = 5 ∨ kind = 6 then 16 else if kind = 3 ∨ kind = 4 then 8
      else if kind = 7 then 6 else 0) := by
  have coded {n : Nat} (small : n < 256) : kind.toNat = n ↔ kind = BitVec.ofNat 8 n := by
    rw [← BitVec.toNat_inj, BitVec.toNat_ofNat, Nat.mod_eq_of_lt small]
  simp only [coded (show 1 < 256 by decide), coded (show 2 < 256 by decide), coded (show 3 < 256 by decide),
    coded (show 4 < 256 by decide), coded (show 5 < 256 by decide), coded (show 6 < 256 by decide),
    coded (show 7 < 256 by decide), apply_ite (BitVec.ofNat 8)]
  rfl

/-! ### Fields -/

theorem enc32_ago (t : Instant) : encDuration (some (s.since t)) = enc32 (s.uptime - t) := by
  rw [encDuration, State.since, BitVec.ofNat_toNat, BitVec.setWidth_eq]

theorem encFlag_hasCause (src : Source) : encFlag (s.hasCause src) = [if decide (s.causeOf src ≠ none) = true then 1 else 0] := by
  have same : s.hasCause src = decide (s.causeOf src ≠ none) :=
    Bool.eq_iff_iff.mpr ((hasCause_iff src).trans decide_eq_true_iff.symm)
  rw [same]
  rfl

theorem encDisablement_eq (e : Option Entry) : encDisablement e = match e with
    | none => [0, 0, 0, 0, 0]
    | some e => (if e.activated = none then 1 else if e.limit = 0 then 2 else 3) :: enc32 (e.expiry.getD 0) := by
  cases e with
  | none => rfl
  | some e => exact congrArg (· :: _) (entry_code e)

theorem count8_eq {α : Type} {l : List α} {p : α → Bool} {q : α → Prop} [DecidablePred q] (same : ∀ a, p a = true ↔ q a) :
    count8 l p = [byteOf (l.filter fun a => decide (q a)).length] := by
  have eq : p = fun a => decide (q a) := funext fun a => Bool.eq_iff_iff.mpr ((same a).trans decide_eq_true_iff.symm)
  rw [count8, eq]

theorem encGlare_eq (g : GlarePhase) : s.encGlare g = match g with
    | .none => [0, 0xFF, 0xFF, 0xFF, 0xFF]
    | .glaring => [1, 0xFF, 0xFF, 0xFF, 0xFF]
    | .clearing t => 2 :: enc32 (s.uptime - t) := by
  cases g with
  | clearing t => exact congrArg (2 :: ·) (enc32_ago t)
  | _ => rfl

theorem encDuration_zero : encDuration (some 0) = [0, 0, 0, 0] := by decide

theorem encCycle_eq (c : Option Cycle) : s.encCycle c = match c with
    | none => [0xFF, 0xFF, 0, 0, 0, 0, 0, 0, 0, 0]
    | some c => [byteOf c.phase.step, flagByte c.phase.on] ++ encDuration (s.remaining (some c.phaseStop)) ++
        encDuration (s.remaining (some c.stop)) := by
  cases c with
  | none =>
    unfold State.encCycle
    rw [encDuration_zero]
    rfl
  | some c => rfl

theorem levelCode_causeLevel (src : Source) : levelCode (s.causeLevel src) = match s.causeOf src with
    | none => 0xFF
    | some r => r.level.code := by
  unfold State.causeLevel
  cases s.causeOf src <;> rfl

theorem trigger_code (l : AlarmLevel) : l.level.code = if l = .fire then 3 else 2 := by
  cases l <;> rfl

theorem position_code (x : Closure) : x.position.code = if x.cshut = true then 1 else if x.copen = true then 0 else 2 := by
  unfold Closure.position
  split_ifs <;> rfl

/-! ### The zones at a closure's trigger level -/

theorem bitsOf_lt (l : List Bool) : bitsOf l < 2 ^ l.length := by
  induction l with
  | nil => simp [bitsOf]
  | cons b l ih =>
    rw [bitsOf, List.length_cons, Nat.pow_succ]
    split <;> omega

/-- The set of the zones that trigger a closure. -/
def State.near (s : State) (c : ClosureNo) : ZoneSet := BitVec.ofNat 16 (bitsOf ((List.finRange 16).map (s.triggers c)))

theorem near_toNat (c : ClosureNo) : (s.near c).toNat = bitsOf ((List.finRange 16).map (s.triggers c)) := by
  have lt := bitsOf_lt ((List.finRange 16).map (s.triggers c))
  rw [List.length_map, List.length_finRange] at lt
  rw [State.near, BitVec.toNat_ofNat, Nat.mod_eq_of_lt lt]

theorem near_iff (c : ClosureNo) (z : ZoneNo) : (s.near c).getLsbD z.val = true ↔
    zoneIn (s.closureCfg c).zones z = true ∧
      (if (s.closureCfg c).trigger = .fire then 3 else 2) ≤ (s.zone z).level.rank := by
  rw [← triggers_iff, State.near, BitVec.getLsbD_ofNat, ← testBit_setOf (s.triggers c) z]
  simp [setOf]

/-! ### The store -/

theorem flags_flatMap : s.store.flags.toList.flatMap SectionFlags.enc =
    allSections.flatMap fun k => (s.flagsOf k).enc := by
  have each : s.store.flags.toList = allSections.map s.flagsOf := by
    refine List.ext_getElem (by simp [allSections]) fun i inside _ => ?_
    rw [Vector.length_toList] at inside
    interval_cases i <;> rfl
  rw [each, List.flatMap_map]

theorem encOldest (l : List Record) : encInstant (l.head?.map (·.seq)) = match l with
    | [] => [0xFF, 0xFF, 0xFF, 0xFF]
    | r :: _ => enc32 r.seq := by
  cases l <;> rfl

end Sys2Proof.Machine
end

