-- ==== Sys2Proof/Proofs/GeneralRequests.lean ====
section
/-! IDENT, STATUS, RESTART and READ-OBJECT (R162 to R165). -/

namespace Sys2Proof.Machine

set_option Elab.async false -- one declaration after another: the check bounds the threads waiting on one another

variable {s : State}

theorem readObjectReq_named {kind num : Byte} {o : Obj} (code : o.kindCode = kind) (numbered : o.num = num.toNat) :
    s.readObjectReq kind.toNat num.toNat = (s, .reply (kind :: num :: s.objectRecord o)) := by
  have found : objectOf kind.toNat num.toNat = .ok o := by rw [← code, ← numbered, objectOf_self]
  simp only [State.readObjectReq, found, code, numbered, byteOf_toNat]
  rfl

theorem readObjectReq_unnamed {kind num : Byte} (unnamed : ∀ o : Obj, ¬(o.kindCode = kind ∧ o.num = num.toNat)) :
    ∃ e, e < 256 ∧ s.readObjectReq kind.toNat num.toNat = refuse s .badObject e ∧
      BitVec.ofNat 8 e = if kind = 1 then 24 else if kind = 2 ∨ kind = 5 ∨ kind = 6 then 16
        else if kind = 3 ∨ kind = 4 then 8 else if kind = 7 then 6 else 0 := by
  cases found : objectOf kind.toNat num.toNat with
  | ok o =>
    obtain ⟨code, numbered⟩ := eq_of_objectOf found
    exact absurd ⟨BitVec.eq_of_toNat_eq code, numbered⟩ (unnamed o)
  | error e =>
    have bound := objectOf_error found
    refine ⟨e, ?_, by simp only [State.readObjectReq, found], by rw [bound, objectBound_byte]⟩
    rw [bound]
    split_ifs <;> decide

theorem assigned_iff {n : LineNo} (d : DetNo) : s.assigned n d = true ↔ (s.detCfg d).line = some n := by
  rw [State.assigned, beq_iff_eq]

theorem usable_iff {n : LineNo} (d : DetNo) : (s.assigned n d && s.usable d) = true ↔
    (s.detCfg d).line = some n ∧ s.faults.get (.detector d) = 0 ∧ s.disabled (.detector d) = false := by
  simp [State.assigned, State.usable]

theorem damperAway_iff {n : LineNo} (c : ClosureNo) : (s.damperOf n c && (s.closure c).state != .held) = true ↔
    (s.closureCfg c).kind = .damper ∧ (s.closureCfg c).line = some n ∧ (s.closure c).state ≠ .held := by
  simp [State.damperOf, and_assoc]

theorem silencedIn_iff {n : SectorNo} {r : Cause} : (s.standsFor n r && sectorIn r.silenced n) = true ↔
    (zoneIn (s.sectorCfg n).zones r.zone = true ∧ (r.level = .alert ∨ r.level = .fire)) ∧ r.silenced.getLsbD n.val = true := by
  rw [Bool.and_eq_true, standsFor_iff]
  rfl

/-- Settles O12: the replies of the general requests, the STATUS payload and every object's record, field by field. -/
theorem generalRequestsAreAnswered : Obligations.GeneralRequestsAreAnswered := by
  intro s k kind num at_
  obtain ⟨uptime, shift, fault, dropped⟩ := status_head (s := s)
  obtain ⟨entries, active, alarms, notices⟩ := status_counts (s := s)
  refine ⟨fun taken => request_replied taken rfl, fun taken => request_replied taken rfl,
    fun taken => request_replied taken rfl, fun taken => ⟨fun o code numbered =>
      request_replied taken (readObjectReq_named code numbered), fun unnamed => ?_⟩, status_length, uptime, shift, fault, dropped,
    status_zone, status_line, status_sector, status_detector, status_lineFaults, status_station, status_closure, status_store,
    entries, active, alarms, notices, ?_⟩
  · obtain ⟨e, small, answer, detail⟩ := readObjectReq_unnamed (s := s.withLink k) unnamed
    rw [← detail]
    exact request_refused taken answer small
  intro flag none4 left ms ago faults entry causes
  have left_eq (t : Option Instant) : encDuration (s.remaining t) = left t := encDuration_remaining t
  have ago_eq (t : Instant) : encDuration (some (s.since t)) = ago t := enc32_ago t
  have faults_eq (o : Obj) : enc16 (s.faults.get o).toNat = faults o := enc16_toNat _
  have entry_eq (t : Target) : encDisablement (s.entryOf t) = entry t := encDisablement_eq _
  have cause_eq (src : Source) : encFlag (s.hasCause src) = [flag (decide (s.causeOf src ≠ none))] := encFlag_hasCause src
  have flat {α : Type} (a b c : List α) : a ++ b ++ c = a ++ (b ++ c) := List.append_assoc a b c
  refine ⟨fun d => ?detector, fun f => ?input, fun n => ?station, fun n => ?line, fun z => ?zone, fun c => ?closure,
    fun n => ?sector, ?store⟩
  case detector =>
    simp only [State.objectRecord, State.detRecord, faults_eq, encGlare_eq, entry_eq, cause_eq, flat, List.cons_append,
      List.nil_append]
    cases (s.det d).lastLevel with
    | none => rfl
    | some l =>
      have code : byteOf l.val = BitVec.ofNat 8 l.val := byteOf_of_le (by omega)
      simp only [code]
      rfl
  case input =>
    simp only [State.objectRecord, State.inputObject, trigger_code, left_eq, entry_eq, flat, List.cons_append, List.nil_append]
    rfl
  case station =>
    simp only [State.objectRecord, State.stationRecord, left_eq, faults_eq, cause_eq, entry_eq, flat, List.cons_append,
      List.nil_append]
    rcases (s.station n).valveOn, (s.station n).outputOn with ⟨_ | _, _ | t⟩
    all_goals simp only [encDuration_zero, ago_eq]
    all_goals rfl
  case line =>
    have assigned : count8 (List.finRange 24) (s.assigned n) = _ := count8_eq fun d => assigned_iff d
    have usable : count8 (List.finRange 24) (fun d => s.assigned n d && s.usable d) = _ := count8_eq fun d => usable_iff d
    have away : count8 (List.finRange 16) (fun c => s.damperOf n c && (s.closure c).state != .held) = _ :=
      count8_eq fun c => damperAway_iff c
    simp only [State.objectRecord, State.lineRecord, State.meterRecord, left_eq, ago_eq, faults_eq, assigned, usable, away,
      levelCode_causeLevel, flat, List.cons_append, List.nil_append]
    cases (s.meter n).gateStart with
    | none =>
      simp only [encDuration_zero]
      rfl
    | some t => rfl
  case zone =>
    have level (l : Level) : count8 s.causes (fun r => r.zone == z && r.level == l) =
        [causes fun r => decide (r.zone = z ∧ r.level = l)] := count8_eq fun r => by simp
    have latched : count8 s.causes (fun r => r.zone == z && r.latched) =
        [causes fun r => decide (r.zone = z ∧ r.latched = true)] := count8_eq fun r => by simp
    have resettable : count8 s.causes (s.resettable z) = _ := count8_eq fun r => resettable_iff
    simp only [State.objectRecord, State.zoneRecord, level, latched, resettable, flat, List.cons_append, List.nil_append]
    rfl
  case closure =>
    refine ⟨s.near c, near_iff c, ?_⟩
    simp only [State.objectRecord, State.closureRecord, ← near_toNat, trigger_code, position_code, ago_eq, left_eq, faults_eq,
      entry_eq, flat, List.cons_append, List.nil_append]
    rfl
  case sector =>
    have counts : count8 s.causes (s.countsFor n) = _ := count8_eq fun r => countsFor_iff
    have silenced : count8 s.causes (fun r => s.standsFor n r && sectorIn r.silenced n) = _ :=
      count8_eq fun r => silencedIn_iff
    have until_eq (t : Instant) : encDuration (some (s.until_ t)) = left (some t) := left_eq (some t)
    simp only [State.objectRecord, State.sectorRecord, State.silenceWait, encCycle_eq, left_eq, counts, silenced, entry_eq,
      flat, List.cons_append, List.nil_append]
    cases (s.sector n).state with
    | sounding =>
      cases (s.sector n).soundingSince with
      | none => simp only [encDuration_zero]; rfl
      | some t => simp only [encDuration_zero, ago_eq]; rfl
    | test =>
      cases (s.sector n).testEnd with
      | none => simp only [encDuration_zero]; rfl
      | some t => simp only [encDuration_zero, until_eq]; rfl
    | _ => simp only [encDuration_zero]; rfl
  case store =>
    simp only [State.objectRecord, State.storeRecord, flags_flatMap, faults_eq, encOldest, flat, List.cons_append,
      List.nil_append]
    cases writing : s.store.write with
    | none =>
      have remaining : s.remainingSections = 0 := by rw [State.remainingSections, writing]
      rw [remaining]
      rfl
    | some w =>
      rw [remainingSections_of writing]
      rfl

end Sys2Proof.Machine
end
